-- ==== Sys2Proof/Word.lean ====
section
/-! DEFINITION. The words of the part and the fixed-size tables its blocks keep: bytes, ticks and 32-bit counts
(spec 0.10), the three ports, the two trip groups, and a table of `n` like cells. -/

namespace Sys2Proof

/-- A byte of the link (R170, R184). -/
abbrev Byte := BitVec 8

/-- An absolute time: a 40-bit tick value (R2). -/
abbrev Tick := BitVec 40

/-- A 32-bit tick count: an offset, a period, a pulse width, a lapse interval or a release window (R7). -/
abbrev Count32 := BitVec 32

/-- The three host ports (spec 0.10). -/
inductive Port
  | A | B | C
deriving DecidableEq, Repr

/-- The two trip groups (spec 0.10). -/
inductive Group
  | G0 | G1
deriving DecidableEq, Repr

/-- The ports in index order. -/
def Port.all : List Port := [.A, .B, .C]

/-- The groups in index order. -/
def Group.all : List Group := [.G0, .G1]

/-- One thing for each port. -/
structure PerPort (α : Type) where
  a : α
  b : α
  c : α
deriving DecidableEq, Repr

/-- The thing of port `p`. -/
def PerPort.get {α : Type} (t : PerPort α) : Port → α
  | .A => t.a
  | .B => t.b
  | .C => t.c

/-- `t` with port `p`'s thing replaced. -/
def PerPort.set {α : Type} (t : PerPort α) (p : Port) (x : α) : PerPort α :=
  match p with
  | .A => { t with a := x }
  | .B => { t with b := x }
  | .C => { t with c := x }

/-- The same thing for every port. -/
def PerPort.fill {α : Type} (x : α) : PerPort α := ⟨x, x, x⟩

/-- The table whose cell of port `p` is `f p`. -/
def PerPort.ofFn {α : Type} (f : Port → α) : PerPort α := ⟨f .A, f .B, f .C⟩

/-- One thing for each group. -/
structure PerGroup (α : Type) where
  g0 : α
  g1 : α
deriving DecidableEq, Repr

/-- The thing of group `g`. -/
def PerGroup.get {α : Type} (t : PerGroup α) : Group → α
  | .G0 => t.g0
  | .G1 => t.g1

/-- `t` with group `g`'s thing replaced. -/
def PerGroup.set {α : Type} (t : PerGroup α) (g : Group) (x : α) : PerGroup α :=
  match g with
  | .G0 => { t with g0 := x }
  | .G1 => { t with g1 := x }

/-- The same thing for both groups. -/
def PerGroup.fill {α : Type} (x : α) : PerGroup α := ⟨x, x⟩

/-- The table whose cell of group `g` is `f g`. -/
def PerGroup.ofFn {α : Type} (f : Group → α) : PerGroup α := ⟨f .G0, f .G1⟩

/-- A table of exactly `n` cells: the lines, the outputs, the slots, the source places, a subscription row. -/
structure Table (n : Nat) (α : Type) where
  cells : List α
  size : cells.length = n
deriving DecidableEq, Repr

/-- The cell `i` of a table. -/
def Table.get {n : Nat} {α : Type} (t : Table n α) (i : Fin n) : α :=
  t.cells[i.val]'(by rw [t.size]; exact i.isLt)

/-- `t` with cell `i` replaced. -/
def Table.set {n : Nat} {α : Type} (t : Table n α) (i : Fin n) (x : α) : Table n α :=
  ⟨t.cells.set i.val x, by rw [List.length_set, t.size]⟩

/-- The table whose cell `i` is `f i`. -/
def Table.ofFn {n : Nat} {α : Type} (f : Fin n → α) : Table n α :=
  ⟨List.ofFn f, List.length_ofFn⟩

/-- A table of equal cells. -/
def Table.fill {n : Nat} {α : Type} (x : α) : Table n α :=
  ⟨List.replicate n x, List.length_replicate⟩

end Sys2Proof
end

