-- ==== Sys2Proof/Syntax.lean ====
section
/-! DEFINITION. The commands of the part: one constructor of `Instr` for each row of spec/opcode_table.json, and the
operands they carry. The 29 requests of the link also stand by themselves as `Request`, since a controller holds one while it
is in flight (R154). -/

namespace Sys2Proof

/-- IN0 to IN15. -/
abbrev Line := Fin 16

/-- OUT0 to OUT11. -/
abbrev Output := Fin 12

/-- A source place of a trip group (R108). -/
abbrev Place := Fin 4

/-- A slot of the agenda (R56). -/
abbrev SlotNo := Fin 96

/-- The direction of an edge (R22). -/
inductive Dir
  | rise | fall
deriving DecidableEq, Repr

/-- An edge as the input qualifier publishes it (R22). -/
structure Edge where
  line : Line
  dir : Dir
  stamp : Tick
deriving DecidableEq, Repr

/-- Which directions a subscription cell or an INPUT anchor accepts (R62, R142); an INPUT anchor is never `none`. -/
inductive EdgeSetting
  | none | rise | fall | both
deriving DecidableEq, Repr

/-- The name of an entry: its slot and that slot's generation (R57). -/
structure Handle where
  slot : SlotNo
  gen : Byte
deriving DecidableEq, Repr

/-- The action of each run; a PULSE carries its width, which no other action keeps (R60, R61). -/
inductive Action
  | set | clear | toggle
  | pulse (width : Count32)
deriving DecidableEq, Repr

/-- What the first run is measured from (R62). -/
inductive Anchor
  | absolute (due : Tick)
  | input (line : Line) (edge : EdgeSetting) (offset : Count32)
  | entry (anchor : Handle) (offset : Count32)
deriving DecidableEq, Repr

/-- Runs still to end: a number 1 to 255, or FREE (R60). -/
inductive Runs
  | free
  | left (n : Byte)
deriving DecidableEq, Repr

/-- What SUBMIT does with an ABSOLUTE due that is already reached (R74). -/
inductive LatePolicy
  | run | drop
deriving DecidableEq, Repr

/-- Which firing records the owner asks for: NONE, FINAL or EACH (R60). -/
inductive Notify
  | never | final | each
deriving DecidableEq, Repr

/-- The fields of an entry that SUBMIT gives it and that it keeps (R60, R61, R62); `runs` is the number it starts with. -/
structure Plan where
  output : Output
  action : Action
  anchor : Anchor
  runs : Runs
  period : Option Count32
  late : LatePolicy
  notify : Notify
  tag : BitVec 16
deriving DecidableEq, Repr

/-- The condition of a trip source (R110). -/
inductive Condition
  | high | low | rise | fall
deriving DecidableEq, Repr

/-- A trip source: a line and a condition on it (R110). -/
structure Source where
  line : Line
  cond : Condition
deriving DecidableEq, Repr

/-- The overflow mode of a queue (R132). -/
inductive QueueMode
  | stop | ring
deriving DecidableEq, Repr

/-- The 29 requests of the link with their operands (R185). `openSession` is OPEN and `closeSession` is CLOSE. -/
inductive Request
  | openSession
  | closeSession
  | ping
  | status
  | setLapse (interval : Count32)
  | readTime
  | setDivide (value : Byte)
  | readInputs
  | setFilter (lines : BitVec 16) (length : Byte)
  | claim (output : Output) (wait : Bool)
  | withdraw (output : Output)
  | release (output : Output)
  | writeOutput (output : Output) (level : Bool)
  | reclaim (output : Output)
  | setSafe (output : Output) (safe : Bool) (group : Option Group)
  | readOutputs
  | submit (plan : Plan)
  | query (handle : Handle)
  | list (position : Byte)
  | setQuota (port : Port) (quota : Byte)
  | cancel (handle : Handle)
  | trip (group : Group)
  | ackTrip (group : Group)
  | clearTrip (group : Group) (force : Bool)
  | setTripSource (group : Group) (place : Place) (source : Option Source)
  | setReleaseWindow (group : Group) (window : Count32)
  | subscribe (line : Line) (edge : EdgeSetting) (oneShot : Bool)
  | fetch (count : Byte)
  | setQueue (mode : QueueMode) (threshold : Byte)
deriving DecidableEq, Repr

/-- The commands of the part, one for each row of spec/opcode_table.json. A request command stands for the request of port
`p` reaching the block that owns what it names (R154). -/
inductive Instr
  /-- RESET_N goes low, or power-up (R16). -/
  | deviceReset
  /-- RESET_N goes high, with the levels of SUPSEL1 and SUPSEL0 (R16, R167). -/
  | deviceResetRelease (sup1 sup0 : Bool)
  /-- A rollover; bit `n` of `samples` is the level IN`n` presents at it (R1, R18). -/
  | tick (samples : BitVec 16)
  /-- A published edge reaches a port's queue (R143). -/
  | edgeAtQueue (p : Port) (e : Edge)
  /-- A published edge reaches the agenda (R93). -/
  | edgeAtAgenda (e : Edge)
  /-- A published edge reaches a trip group (R111). -/
  | edgeAtTripGroup (g : Group) (e : Edge)
  /-- A line's settling change to 1 reaches a trip group (R23, R111). -/
  | settlingChange (g : Group) (line : Line)
  /-- The firing pass of a tick (R82). -/
  | dueReached
  /-- A group's release deadline becomes reached (R122). -/
  | releaseDeadlineReached (g : Group)
  /-- A port's lapse deadline becomes reached (R162). -/
  | lapseExpiry (p : Port)
  /-- PRST_N of a port goes low (R164). -/
  | portReset (p : Port)
  /-- PRST_N of a port goes high (R164, R183). -/
  | portResetRelease (p : Port)
  /-- CS_N of a port goes low (R170). -/
  | transactionBegin (p : Port)
  /-- CS_N of a port goes high after the complete bytes `mosi` were clocked in (R170, R175). -/
  | transactionEnd (p : Port) (mosi : List Byte)
  /-- The request in flight at a port completes (R176). -/
  | requestCompletion (p : Port)
  /-- A session end reaches one output record (R43). -/
  | sessionEndAtOutput (p : Port) (o : Output)
  /-- A session end reaches the agenda (R157, step 3). -/
  | sessionEndAtAgenda (p : Port)
  /-- A session end reaches a trip group (R126). -/
  | sessionEndAtTripGroup (p : Port) (g : Group)
  /-- A session end reaches the port's queue (R150). -/
  | sessionEndAtQueue (p : Port)
  /-- The last step of a session end (R157, step 6). -/
  | sessionEndFinish (p : Port)
  /-- The head of the `batch`th batch of records on their way to a port's queue arrives there (R136, R137). -/
  | recordArrival (p : Port) (batch : Nat)
  /-- A period of REFCLK that is not a rollover (R1). -/
  | prescalerAdvance
  | openSession (p : Port)
  | closeSession (p : Port)
  | ping (p : Port)
  | status (p : Port)
  | setLapse (p : Port) (interval : Count32)
  | readTime (p : Port)
  | setDivide (p : Port) (value : Byte)
  | readInputs (p : Port)
  | setFilter (p : Port) (lines : BitVec 16) (length : Byte)
  | claim (p : Port) (output : Output) (wait : Bool)
  | withdraw (p : Port) (output : Output)
  | release (p : Port) (output : Output)
  | writeOutput (p : Port) (output : Output) (level : Bool)
  | reclaim (p : Port) (output : Output)
  | setSafe (p : Port) (output : Output) (safe : Bool) (group : Option Group)
  | readOutputs (p : Port)
  | submit (p : Port) (plan : Plan)
  | query (p : Port) (handle : Handle)
  | list (p : Port) (position : Byte)
  | setQuota (p : Port) (port : Port) (quota : Byte)
  | cancel (p : Port) (handle : Handle)
  | trip (p : Port) (group : Group)
  | ackTrip (p : Port) (group : Group)
  | clearTrip (p : Port) (group : Group) (force : Bool)
  | setTripSource (p : Port) (group : Group) (place : Place) (source : Option Source)
  | setReleaseWindow (p : Port) (group : Group) (window : Count32)
  | subscribe (p : Port) (line : Line) (edge : EdgeSetting) (oneShot : Bool)
  | fetch (p : Port) (count : Byte)
  | setQueue (p : Port) (mode : QueueMode) (threshold : Byte)
deriving DecidableEq, Repr

/-- The command by which port `p`'s request `r` reaches its owning block. -/
def Request.command (p : Port) : Request → Instr
  | .openSession => .openSession p
  | .closeSession => .closeSession p
  | .ping => .ping p
  | .status => .status p
  | .setLapse i => .setLapse p i
  | .readTime => .readTime p
  | .setDivide v => .setDivide p v
  | .readInputs => .readInputs p
  | .setFilter ls n => .setFilter p ls n
  | .claim o w => .claim p o w
  | .withdraw o => .withdraw p o
  | .release o => .release p o
  | .writeOutput o l => .writeOutput p o l
  | .reclaim o => .reclaim p o
  | .setSafe o l g => .setSafe p o l g
  | .readOutputs => .readOutputs p
  | .submit d => .submit p d
  | .query h => .query p h
  | .list k => .list p k
  | .setQuota q n => .setQuota p q n
  | .cancel h => .cancel p h
  | .trip g => .trip p g
  | .ackTrip g => .ackTrip p g
  | .clearTrip g f => .clearTrip p g f
  | .setTripSource g i c => .setTripSource p g i c
  | .setReleaseWindow g w => .setReleaseWindow p g w
  | .subscribe l e f => .subscribe p l e f
  | .fetch n => .fetch p n
  | .setQueue m t => .setQueue p m t

end Sys2Proof
end

