-- ==== Sys2Proof/WellFormed.lean ====
section
/-! DEFINITION. The operand ranges that the types of Sys2Proof/Syntax.lean do not already hold (R72, R186). A request whose
operands fail here is refused with BAD_ARGUMENT at check 5 of the acceptance order (R181). -/

namespace Sys2Proof

/-- More than one run is asked for, so a period is needed (R61). -/
def Runs.repeats : Runs → Bool
  | .free => true
  | .left n => n != 1

/-- The operand checks of SUBMIT (R72): a PULSE has a width, a repeating entry has a period, a repeating PULSE has a width
less than its period, an INPUT anchor names an edge. -/
def Plan.wellFormed (d : Plan) : Bool :=
  (match d.runs with
    | .left n => n != 0
    | .free => true) &&
  (d.period.isSome == d.runs.repeats) &&
  (match d.action with
    | .pulse w => w != 0
    | _ => true) &&
  (match d.period with
    | some q => q != 0
    | none => true) &&
  (match d.action, d.period with
    | .pulse w, some q => decide (w < q)
    | _, _ => true) &&
  (match d.anchor with
    | .input _ edge _ => edge != .none
    | _ => true)

/-- The operands of a request are in range (R72, R186). -/
def Request.wellFormed : Request → Bool
  | .setFilter lines _ => lines != 0
  | .submit d => d.wellFormed
  | .list position => decide (position ≤ 95)
  | .setQuota _ quota => decide (quota ≤ 96)
  | .fetch count => decide (1 ≤ count) && decide (count ≤ 4)
  | .setQueue _ threshold => decide (1 ≤ threshold) && decide (threshold ≤ 64)
  | _ => true

/-- A command is well formed when the request it stands for is; every other command is. -/
def Instr.wellFormed : Instr → Bool
  | .setFilter _ lines n => (Request.setFilter lines n).wellFormed
  | .submit _ d => (Request.submit d).wellFormed
  | .list _ k => (Request.list k).wellFormed
  | .setQuota _ q n => (Request.setQuota q n).wellFormed
  | .fetch _ n => (Request.fetch n).wellFormed
  | .setQueue _ m t => (Request.setQueue m t).wellFormed
  | _ => true

end Sys2Proof
end

