-- ==== Sys2Proof/Decode.lean ====
section
/-! DEFINITION. The request frame of the link and its operands (R173, R174, R175, R184, R185, R186): the check byte, the small
codes, the 29 request codes, a decoder that is total on any bytes, and the encoder written from the same tables. The rows of
spec/opcode_table.json have no bits, so `decodeTableWord` reads no word. -/

namespace Sys2Proof

/-! ### Bytes -/

/-- Byte `i` of a list of bytes, 0 beyond its end. -/
def byteAt (bs : List Byte) (i : Nat) : Byte := bs.getD i 0

/-- The number that bytes spell, most significant byte first (R184). -/
def beNat (bs : List Byte) : Nat := bs.foldl (fun n b => n * 256 + b.toNat) 0

/-- The low `n` bytes of a number, most significant byte first (R184). -/
def beBytes : Nat → Nat → List Byte
  | 0, _ => []
  | n + 1, x => beBytes n (x / 256) ++ [BitVec.ofNat 8 x]

/-- The 32-bit count in bytes `i` to `i + 3` (R184). -/
def count32At (bs : List Byte) (i : Nat) : Count32 := BitVec.ofNat 32 (beNat ((bs.drop i).take 4))

/-- The tick in bytes `i` to `i + 4` (R184). -/
def tickAt (bs : List Byte) (i : Nat) : Tick := BitVec.ofNat 40 (beNat ((bs.drop i).take 5))

/-- The 16-bit field in bytes `i` and `i + 1` (R184). -/
def word16At (bs : List Byte) (i : Nat) : BitVec 16 := BitVec.ofNat 16 (beNat ((bs.drop i).take 2))

/-- A 32-bit count as four bytes (R184). -/
def count32Bytes (x : Count32) : List Byte := beBytes 4 x.toNat

/-- A tick as five bytes (R184). -/
def tickBytes (t : Tick) : List Byte := beBytes 5 t.toNat

/-- A 16-bit field as two bytes (R184). -/
def word16Bytes (x : BitVec 16) : List Byte := beBytes 2 x.toNat

/-! ### The check byte -/

/-- One bit of the CRC: shift left, and subtract the generator 07h when a one falls out (R174). -/
def crcBit (c : Byte) : Byte := if c.msb then (c <<< 1) ^^^ 0x07 else c <<< 1

/-- One byte of the CRC (R174). -/
def crcByte (c b : Byte) : Byte :=
  crcBit (crcBit (crcBit (crcBit (crcBit (crcBit (crcBit (crcBit (c ^^^ b))))))))

/-- The CRC-8 of bytes: x^8 + x^2 + x + 1, initial value 0, no reflection, no final inversion (R174). -/
def crc8 (bs : List Byte) : Byte := bs.foldl crcByte 0

/-! ### Small codes (R184) -/

/-- A flag byte (R184) or a level (R186): 00h or 01h. -/
def flagOfByte (b : Byte) : Option Bool :=
  if b = 0 then some false else if b = 1 then some true else none

/-- A flag byte. -/
def flagByte (f : Bool) : Byte := if f then 1 else 0

/-- An output, 0 to 11 (R186). -/
def outputOfByte (b : Byte) : Option Output := if h : b.toNat < 12 then some ⟨b.toNat, h⟩ else none

/-- A line, 0 to 15 (R186). -/
def lineOfByte (b : Byte) : Option Line := if h : b.toNat < 16 then some ⟨b.toNat, h⟩ else none

/-- A slot, 0 to 95 (R59, R186). -/
def slotOfByte (b : Byte) : Option SlotNo := if h : b.toNat < 96 then some ⟨b.toNat, h⟩ else none

/-- A source place, 0 to 3 (R128). -/
def placeOfByte (b : Byte) : Option Place := if h : b.toNat < 4 then some ⟨b.toNat, h⟩ else none

/-- An index as a byte. -/
def finByte {n : Nat} (i : Fin n) : Byte := BitVec.ofNat 8 i.val

/-- Port codes (R184). -/
def Port.byte : Port → Byte
  | .A => 0
  | .B => 1
  | .C => 2

/-- A port, where it may not be none (R186). -/
def portOfByte (b : Byte) : Option Port :=
  if b = 0 then some .A else if b = 1 then some .B else if b = 2 then some .C else none

/-- A port code where an owner may be none (R184). -/
def ownerByte : Option Port → Byte
  | some p => p.byte
  | none => 3

/-- Group codes (R184). -/
def Group.byte : Group → Byte
  | .G0 => 1
  | .G1 => 2

/-- A group, where it may not be none (R186). -/
def groupOfByte (b : Byte) : Option Group := if b = 1 then some .G0 else if b = 2 then some .G1 else none

/-- A group code where the group may be none (R184). -/
def membershipByte : Option Group → Byte
  | some g => g.byte
  | none => 0

/-- A group or none (R184, R186). -/
def membershipOfByte (b : Byte) : Option (Option Group) :=
  if b = 0 then some none else (groupOfByte b).map some

/-- Action codes (R184). -/
def Action.byte : Action → Byte
  | .set => 0
  | .clear => 1
  | .toggle => 2
  | .pulse _ => 3

/-- The width an action keeps; the bytes are 0 for an action that keeps none. -/
def Action.width : Action → Count32
  | .pulse w => w
  | _ => 0

/-- An action; the width is read for PULSE alone (R61, R186). -/
def actionOfByte (b : Byte) (width : Count32) : Option Action :=
  if b = 0 then some .set else if b = 1 then some .clear else if b = 2 then some .toggle
  else if b = 3 then some (.pulse width) else none

/-- Edge setting codes (R184). -/
def EdgeSetting.byte : EdgeSetting → Byte
  | .none => 0
  | .rise => 1
  | .fall => 2
  | .both => 3

/-- An edge setting (R184). -/
def edgeSettingOfByte (b : Byte) : Option EdgeSetting :=
  if b = 0 then some .none else if b = 1 then some .rise else if b = 2 then some .fall
  else if b = 3 then some .both else none

/-- The direction codes of an INPUT_EDGE record (R188). -/
def Dir.byte : Dir → Byte
  | .rise => 1
  | .fall => 2

/-- Source condition codes (R184); NONE, code 0, stands for an unused place. -/
def Condition.byte : Condition → Byte
  | .high => 1
  | .low => 2
  | .rise => 3
  | .fall => 4

/-- The place that a line byte and a condition byte give; the line byte is not read when the condition is NONE (R128, R186). -/
def sourceOfBytes (line cond : Byte) : Option (Option Source) :=
  if cond = 0 then some none
  else (lineOfByte line).bind fun l =>
    if cond = 1 then some (some ⟨l, .high⟩)
    else if cond = 2 then some (some ⟨l, .low⟩)
    else if cond = 3 then some (some ⟨l, .rise⟩)
    else if cond = 4 then some (some ⟨l, .fall⟩)
    else none

/-- The two bytes of a place operand. -/
def sourceBytes : Option Source → List Byte
  | none => [0, 0]
  | some s => [finByte s.line, s.cond.byte]

/-- Late policy codes (R184). -/
def LatePolicy.byte : LatePolicy → Byte
  | .run => 0
  | .drop => 1

/-- A late policy (R184). -/
def latePolicyOfByte (b : Byte) : Option LatePolicy :=
  if b = 0 then some .run else if b = 1 then some .drop else none

/-- Notify codes (R184). -/
def Notify.byte : Notify → Byte
  | .never => 0
  | .final => 1
  | .each => 2

/-- A notify value (R184). -/
def notifyOfByte (b : Byte) : Option Notify :=
  if b = 0 then some .never else if b = 1 then some .final else if b = 2 then some .each else none

/-- Queue mode codes (R184). -/
def QueueMode.byte : QueueMode → Byte
  | .stop => 0
  | .ring => 1

/-- A queue mode (R184). -/
def queueModeOfByte (b : Byte) : Option QueueMode :=
  if b = 0 then some .stop else if b = 1 then some .ring else none

/-! ### The SUBMIT operands (R185) -/

/-- The anchor kind code and the six bytes of the anchor area (R184, R185); bytes a kind does not use are 0. -/
def Anchor.bytes : Anchor → Byte × List Byte
  | .absolute due => (0, tickBytes due ++ [0])
  | .input line edge offset => (1, [finByte line, edge.byte] ++ count32Bytes offset)
  | .entry h offset => (2, [finByte h.slot, h.gen] ++ count32Bytes offset)

/-- The anchor that a kind code and an anchor area give (R185, R186). -/
def anchorOfBytes (kind : Byte) (area : List Byte) : Option Anchor :=
  if kind = 0 then some (.absolute (tickAt area 0))
  else if kind = 1 then
    (lineOfByte (byteAt area 0)).bind fun l =>
      (edgeSettingOfByte (byteAt area 1)).map fun e => .input l e (count32At area 2)
  else if kind = 2 then
    (slotOfByte (byteAt area 0)).map fun i => .entry ⟨i, byteAt area 1⟩ (count32At area 2)
  else none

/-- The repeat operand: 0 to 254 for 1 to 255 runs, 255 for FREE (R185). -/
def Runs.repeatByte : Runs → Byte
  | .free => 255
  | .left n => n - 1

/-- The runs that a repeat operand gives (R75, R185). -/
def runsOfRepeat (b : Byte) : Runs := if b = 255 then .free else .left (b + 1)

/-- The 22 operand bytes of SUBMIT (R185); bytes a plan leaves unread are 0. -/
def Plan.bytes (d : Plan) : List Byte :=
  [finByte d.output, d.action.byte, d.notify.byte, d.late.byte, d.anchor.bytes.1, d.runs.repeatByte] ++
    word16Bytes d.tag ++ count32Bytes d.action.width ++ count32Bytes (d.period.getD 0) ++ d.anchor.bytes.2

/-- The plan that the operand bytes of SUBMIT give (R185, R186); a width without PULSE and a period without repetition are
not kept (R61). -/
def planOfBytes (bs : List Byte) : Option Plan :=
  (outputOfByte (byteAt bs 0)).bind fun output =>
  (actionOfByte (byteAt bs 1) (count32At bs 8)).bind fun action =>
  (notifyOfByte (byteAt bs 2)).bind fun notify =>
  (latePolicyOfByte (byteAt bs 3)).bind fun late =>
  (anchorOfBytes (byteAt bs 4) (bs.drop 16)).map fun anchor =>
    { output, action, anchor, late, notify
      runs := runsOfRepeat (byteAt bs 5)
      period := if byteAt bs 5 = 0 then none else some (count32At bs 12)
      tag := word16At bs 6 }

/-! ### The request codes (R185) -/

/-- The 29 request codes. -/
inductive Code
  | openSession | closeSession | ping | status | setLapse
  | readTime | setDivide | readInputs | setFilter
  | claim | withdraw | release | writeOutput | reclaim | setSafe | readOutputs
  | submit | query | list | setQuota | cancel
  | trip | ackTrip | clearTrip | setTripSource | setReleaseWindow
  | subscribe | fetch | setQueue
deriving DecidableEq, Repr

/-- The CODE byte of a request (R185). -/
def Code.byte : Code → Byte
  | .openSession => 0x01
  | .closeSession => 0x02
  | .ping => 0x03
  | .status => 0x04
  | .setLapse => 0x05
  | .readTime => 0x08
  | .setDivide => 0x09
  | .readInputs => 0x0C
  | .setFilter => 0x0D
  | .claim => 0x10
  | .withdraw => 0x11
  | .release => 0x12
  | .writeOutput => 0x13
  | .reclaim => 0x14
  | .setSafe => 0x15
  | .readOutputs => 0x16
  | .submit => 0x20
  | .query => 0x21
  | .list => 0x22
  | .setQuota => 0x23
  | .cancel => 0x24
  | .trip => 0x30
  | .ackTrip => 0x31
  | .clearTrip => 0x32
  | .setTripSource => 0x33
  | .setReleaseWindow => 0x34
  | .subscribe => 0x38
  | .fetch => 0x39
  | .setQueue => 0x3A

/-- Every request code, in the order of R185. -/
def Code.all : List Code :=
  [.openSession, .closeSession, .ping, .status, .setLapse, .readTime, .setDivide, .readInputs, .setFilter,
    .claim, .withdraw, .release, .writeOutput, .reclaim, .setSafe, .readOutputs,
    .submit, .query, .list, .setQuota, .cancel,
    .trip, .ackTrip, .clearTrip, .setTripSource, .setReleaseWindow, .subscribe, .fetch, .setQueue]

/-- The request a CODE byte names, if it names one (check 1 of R181). -/
def codeOfByte (b : Byte) : Option Code := Code.all.find? (fun c => c.byte == b)

/-- The operand bytes of a request; its frame length is this plus four (R185). -/
def Code.operandBytes : Code → Nat
  | .openSession | .closeSession | .ping | .status | .readTime | .readInputs | .readOutputs => 0
  | .setDivide | .withdraw | .release | .reclaim | .list | .trip | .ackTrip | .fetch => 1
  | .claim | .writeOutput | .query | .setQuota | .cancel | .clearTrip | .setQueue => 2
  | .setFilter | .setSafe | .subscribe => 3
  | .setLapse | .setTripSource => 4
  | .setReleaseWindow => 5
  | .submit => 22

/-- The code of a request. -/
def Request.code : Request → Code
  | .openSession => .openSession
  | .closeSession => .closeSession
  | .ping => .ping
  | .status => .status
  | .setLapse _ => .setLapse
  | .readTime => .readTime
  | .setDivide _ => .setDivide
  | .readInputs => .readInputs
  | .setFilter _ _ => .setFilter
  | .claim _ _ => .claim
  | .withdraw _ => .withdraw
  | .release _ => .release
  | .writeOutput _ _ => .writeOutput
  | .reclaim _ => .reclaim
  | .setSafe _ _ _ => .setSafe
  | .readOutputs => .readOutputs
  | .submit _ => .submit
  | .query _ => .query
  | .list _ => .list
  | .setQuota _ _ => .setQuota
  | .cancel _ => .cancel
  | .trip _ => .trip
  | .ackTrip _ => .ackTrip
  | .clearTrip _ _ => .clearTrip
  | .setTripSource _ _ _ => .setTripSource
  | .setReleaseWindow _ _ => .setReleaseWindow
  | .subscribe _ _ _ => .subscribe
  | .fetch _ => .fetch
  | .setQueue _ _ => .setQueue

/-- The operand bytes of a request, in the order of R185. -/
def Request.operands : Request → List Byte
  | .openSession | .closeSession | .ping | .status | .readTime | .readInputs | .readOutputs => []
  | .setLapse i => count32Bytes i
  | .setDivide v => [v]
  | .setFilter ls n => word16Bytes ls ++ [n]
  | .claim o w => [finByte o, flagByte w]
  | .withdraw o | .release o | .reclaim o => [finByte o]
  | .writeOutput o l => [finByte o, flagByte l]
  | .setSafe o l g => [finByte o, flagByte l, membershipByte g]
  | .submit d => d.bytes
  | .query h | .cancel h => [finByte h.slot, h.gen]
  | .list k => [k]
  | .setQuota q n => [q.byte, n]
  | .trip g | .ackTrip g => [g.byte]
  | .clearTrip g f => [g.byte, flagByte f]
  | .setTripSource g i c => [g.byte, finByte i] ++ sourceBytes c
  | .setReleaseWindow g w => g.byte :: count32Bytes w
  | .subscribe l e f => [finByte l, e.byte, flagByte f]
  | .fetch n => [n]
  | .setQueue m t => [m.byte, t]

/-- The handle in the first two operand bytes (R185). -/
def handleOfBytes (bs : List Byte) : Option Handle :=
  (slotOfByte (byteAt bs 0)).map fun i => ⟨i, byteAt bs 1⟩

/-- The request that a code's operand bytes give; none where a byte has no meaning in the tables of R184 (R186). -/
def requestOfBytes (c : Code) (bs : List Byte) : Option Request :=
  match c with
  | .openSession => some .openSession
  | .closeSession => some .closeSession
  | .ping => some .ping
  | .status => some .status
  | .setLapse => some (.setLapse (count32At bs 0))
  | .readTime => some .readTime
  | .setDivide => some (.setDivide (byteAt bs 0))
  | .readInputs => some .readInputs
  | .setFilter => some (.setFilter (word16At bs 0) (byteAt bs 2))
  | .claim => (outputOfByte (byteAt bs 0)).bind fun o => (flagOfByte (byteAt bs 1)).map (.claim o)
  | .withdraw => (outputOfByte (byteAt bs 0)).map .withdraw
  | .release => (outputOfByte (byteAt bs 0)).map .release
  | .writeOutput => (outputOfByte (byteAt bs 0)).bind fun o => (flagOfByte (byteAt bs 1)).map (.writeOutput o)
  | .reclaim => (outputOfByte (byteAt bs 0)).map .reclaim
  | .setSafe => (outputOfByte (byteAt bs 0)).bind fun o => (flagOfByte (byteAt bs 1)).bind fun l =>
      (membershipOfByte (byteAt bs 2)).map (.setSafe o l)
  | .readOutputs => some .readOutputs
  | .submit => (planOfBytes bs).map .submit
  | .query => (handleOfBytes bs).map .query
  | .list => some (.list (byteAt bs 0))
  | .setQuota => (portOfByte (byteAt bs 0)).map fun q => .setQuota q (byteAt bs 1)
  | .cancel => (handleOfBytes bs).map .cancel
  | .trip => (groupOfByte (byteAt bs 0)).map .trip
  | .ackTrip => (groupOfByte (byteAt bs 0)).map .ackTrip
  | .clearTrip => (groupOfByte (byteAt bs 0)).bind fun g => (flagOfByte (byteAt bs 1)).map (.clearTrip g)
  | .setTripSource => (groupOfByte (byteAt bs 0)).bind fun g => (placeOfByte (byteAt bs 1)).bind fun i =>
      (sourceOfBytes (byteAt bs 2) (byteAt bs 3)).map (.setTripSource g i)
  | .setReleaseWindow => (groupOfByte (byteAt bs 0)).map fun g => .setReleaseWindow g (count32At bs 1)
  | .subscribe => (lineOfByte (byteAt bs 0)).bind fun l => (edgeSettingOfByte (byteAt bs 1)).bind fun e =>
      (flagOfByte (byteAt bs 2)).map (.subscribe l e)
  | .fetch => some (.fetch (byteAt bs 0))
  | .setQueue => (queueModeOfByte (byteAt bs 0)).map fun m => .setQueue m (byteAt bs 1)

/-- The request that a code's operand bytes give, where every operand is in range (check 5 of R181; R72, R186). -/
def requestInRange (c : Code) (bs : List Byte) : Option Request :=
  (requestOfBytes c bs).filter Request.wellFormed

/-! ### The request frame (R173, R175) -/

/-- What the bytes of a transaction carry (R170, R173, R175): nothing, a frame with a link error, or a frame with its SEQ, its
check byte, its CODE if it has one, and its operands. -/
inductive Judged
  | poll
  | linkError
  | frame (seq check : Byte) (code : Option Byte) (operands : List Byte)
deriving DecidableEq, Repr

/-- The judgement of R175 on the complete bytes that MOSI delivered; bytes beyond LEN are not judged (R173). -/
def judge (mosi : List Byte) : Judged :=
  match mosi with
  | [] => .poll
  | len :: _ =>
    if len = 0 then .poll
    else if len.toNat < 3 ∨ 32 < len.toNat ∨ mosi.length < len.toNat then .linkError
    else
      let body := mosi.take (len.toNat - 1)
      let check := byteAt mosi (len.toNat - 1)
      if crc8 body = check then .frame (byteAt body 1) check body[2]? (body.drop 3) else .linkError

/-- The frame of a request: LEN, SEQ, CODE, operands and check byte (R173, R185). -/
def Request.frame (r : Request) (seq : Byte) : List Byte :=
  let body := BitVec.ofNat 8 (r.operands.length + 4) :: seq :: r.code.byte :: r.operands
  body ++ [crc8 body]

/-- The rows of spec/opcode_table.json give no bits, so no word spells a command. -/
def decodeTableWord (_nbits _w : Nat) : Option Instr := none

end Sys2Proof
end

