-- ==== Sys2Proof/Config.lean ====
section
/-! DEFINITION. The sizes the T316 fixes (spec 0.1, 0.3). The spec leaves no value after an event undefined, so there is no
free value here. -/

namespace Sys2Proof.Config

/-- The slots of the agenda (R56). -/
def slots : Nat := 96

/-- The records a queue holds at most (R137). -/
def queueRecords : Nat := 64

/-- A general record is admitted while the list is shorter than this (R137). -/
def generalRecords : Nat := 56

/-- The quota of each port after device reset (R69). -/
def resetQuota : Nat := 32

/-- The bytes a LIST reply has for summaries (R189). -/
def listRoom : Nat := 50

/-- More firings than one pass can make: each firing of an entry raises the position of its due by one or more, a fired due
has a position of -(2^39 - 1) to 0, and at most 96 entries live (R4, R65, R91). Log entry 14. -/
def passFirings : Nat := 96 * 2 ^ 39

end Sys2Proof.Config
end

