-- ==== Sys2Proof/Machine/State.lean ====
section
/-! DEFINITION. The state of the part as plain data: the timebase, the lines, the outputs, the agenda, the trip groups, the
event queues, the port controllers, what travels between the blocks, and the command queue. -/

namespace Sys2Proof.Machine

/-! ### Timebase (R1, R2, R9) -/

/-- The timebase. -/
structure Timebase where
  /-- The prescaler count, 0 up to the divide value (R1). -/
  count : Byte
  /-- The tick counter (R2). -/
  tick : Tick
  /-- The divide value (R9). -/
  divide : Byte
  /-- The pending divide value (R9). -/
  pendingValue : Byte
  /-- The pending mark (R9). -/
  pendingMark : Bool
deriving DecidableEq, Repr

/-! ### Input lines (R17) -/

/-- A line record. A level is `true` for 1. -/
structure LineRec where
  raw : Bool
  qualified : Bool
  stability : Byte
  filter : Byte
  settled : Bool
deriving DecidableEq, Repr

/-- The settling change of a line to level 1 (R19, R23). -/
structure Settling where
  line : Line
  stamp : Tick
deriving DecidableEq, Repr

/-- Published changes that a consumer has still to take (R22, R23, R24). The model's own field. -/
structure Published where
  queues : PerPort (List Edge)
  agenda : List Edge
  groups : PerGroup (List Edge)
  settling : PerGroup (List Settling)
deriving DecidableEq, Repr

/-! ### Outputs (R32) -/

/-- An output record. -/
structure OutputRec where
  owner : Option Port
  waiting : List Port
  level : Bool
  safe : Bool
  group : Option Group
deriving DecidableEq, Repr

/-! ### Agenda (R56, R60, R63, R69) -/

/-- The phase of the current run (R63). -/
inductive Phase
  | first | second
deriving DecidableEq, Repr

/-- An entry waits for its anchor, or is armed with a phase, a due and a run start (R60, R63). -/
inductive EntryState
  | waiting
  | armed (phase : Phase) (due runStart : Tick)
deriving DecidableEq, Repr

/-- An entry record; its handle is its slot and that slot's generation (R57, R60). -/
structure Entry where
  owner : Port
  plan : Plan
  /-- Remaining runs. -/
  runs : Runs
  /-- Runs ended, saturating. -/
  fired : BitVec 16
  state : EntryState
deriving DecidableEq, Repr

/-- A slot: its generation, and its entry unless it is FREE (R56). -/
structure Slot where
  gen : Byte
  entry : Option Entry
deriving DecidableEq, Repr

/-- The agenda. -/
structure Agenda where
  slots : Table 96 Slot
  /-- The armed list, head first (R64). -/
  armed : List SlotNo
  /-- The waiting list, head first (R66). -/
  waiting : List SlotNo
  quota : PerPort Nat
  live : PerPort Nat
deriving DecidableEq, Repr

/-! ### Trip groups (R108) -/

/-- What made a cause: a source place, or a port's TRIP (R108). -/
inductive CauseBy
  | place (i : Place)
  | manual (p : Port)
deriving DecidableEq, Repr

/-- A cause with its tick (R108). -/
structure Cause where
  by' : CauseBy
  tick : Tick
deriving DecidableEq, Repr

/-- The state of a group (R108). -/
inductive GroupState
  | normal | tripped | releasing
deriving DecidableEq, Repr

/-- A set of ports. -/
abbrev PortSet := PerPort Bool

/-- A group record. -/
structure GroupRec where
  state : GroupState
  sources : Table 4 (Option Source)
  count : Byte
  first : Option Cause
  latest : Option Cause
  owed : PortSet
  acked : PortSet
  window : Count32
  deadline : Option Tick
deriving DecidableEq, Repr

/-! ### Event queues (R132, R134, R142) -/

/-- Why an entry was cancelled, where its owner is told (R99). -/
inductive Reason
  | released | reclaimed | tripped | anchorLost
deriving DecidableEq, Repr

/-- The kinds of record with their payloads (R134). -/
inductive Kind
  | inputEdge (line : Line) (dir : Dir)
  | entryFired (handle : Handle) (tag : BitVec 16) (fired : BitVec 16) (late : Bool)
  | entryDone (handle : Handle) (tag : BitVec 16) (late : Bool)
  | entryCancelled (handle : Handle) (tag : BitVec 16) (reason : Reason)
  | claimGranted (output : Output)
  | ownershipRevoked (output : Output)
  | trip (group : Group) (cause : CauseBy) (count : Byte)
  | tripCleared (group : Group)
  | releaseExpired (group : Group)
  | lapsed
deriving DecidableEq, Repr

/-- A record on its way to a queue: it has no sequence number yet (R135). The TRIP record of a trip event on an edge carries that
edge, until it arrives: two such events on one edge keep the order of their records (R131; log entry 6). -/
structure Msg where
  kind : Kind
  time : Tick
  edge : Option Edge := none
deriving DecidableEq, Repr

/-- A record in a queue (R134). -/
structure Record where
  kind : Kind
  seq : BitVec 16
  time : Tick
deriving DecidableEq, Repr

/-- Whether records reach the list (R133). -/
inductive Intake
  | shut | accepting
deriving DecidableEq, Repr

/-- A subscription cell (R142). -/
structure Cell where
  edge : EdgeSetting
  oneShot : Bool
deriving DecidableEq, Repr

/-- An event queue. -/
structure Queue where
  /-- Oldest first. -/
  records : List Record
  intake : Intake
  mode : QueueMode
  threshold : Nat
  nextSeq : BitVec 16
  /-- Lost since fetch. -/
  lost : BitVec 16
  lostTotal : Count32
  row : Table 16 Cell
deriving DecidableEq, Repr

/-! ### Replies (section 9.7, R187) -/

/-- The nineteen statuses of a stored reply; `noRequest` is NONE. -/
inductive Status
  | ok | queued | noRequest | unknownRequest | badLength | notOpen | lapsed | notSupervisor | badArgument
  | notOwner | heldByOther | tripped | noSpace | overQuota | badHandle | badAnchor | late | conditionActive | wrongState
deriving DecidableEq, Repr

/-- The session of a port (R152). -/
inductive Session
  | closed | isOpen | lapsed
deriving DecidableEq, Repr

/-- A line as READ_INPUTS shows it (R25). -/
structure LineView where
  qualified : Bool
  raw : Bool
  counting : Bool
  filter : Byte
deriving DecidableEq, Repr

/-- An output as READ_OUTPUTS shows it (R49). -/
structure OutputView where
  owner : Option Port
  level : Bool
  forced : Bool
  waiting : Nat
deriving DecidableEq, Repr

/-- An entry summary: the handle and every field of the record (R78). -/
structure Summary where
  handle : Handle
  entry : Entry
deriving DecidableEq, Repr

/-- A group summary (R130). -/
structure GroupView where
  tick : Tick
  group : Group
  record : GroupRec
  active : Table 4 Bool
deriving DecidableEq, Repr

/-- What STATUS shows of one group (R166). -/
structure Obligation where
  state : GroupState
  owed : Bool
  acked : Bool
deriving DecidableEq, Repr

/-- The body of STATUS (R166). -/
structure StatusView where
  tick : Tick
  session : Session
  supervisor : Bool
  interval : Count32
  deadline : Option Tick
  queued : Nat
  lostTotal : Count32
  linkErrors : Byte
  live : Nat
  quota : Nat
  owned : Table 12 Bool
  groups : PerGroup Obligation
deriving DecidableEq, Repr

/-- The body of SET_QUEUE (R147). -/
structure QueueView where
  mode : QueueMode
  threshold : Nat
  length : Nat
  general : Nat
  system : Nat
  lost : BitVec 16
  lostTotal : Count32
deriving DecidableEq, Repr

/-- The state of an entry just submitted (R75). -/
inductive SubmitState
  | waiting
  | armed (due : Tick)
  | completed
deriving DecidableEq, Repr

/-- The bodies of replies (R187), by their fields; Sys2Proof/Machine/Formats.lean lays them out. -/
inductive Body
  | empty
  | opened (tick : Tick) (session : Session) (wasLapsed supervisor : Bool) (deadline : Option Tick)
  | closed (tick : Tick) (released cancelled flushed : Nat)
  | pinged (tick : Tick) (deadline : Option Tick)
  | status (view : StatusView)
  | lapseSet (tick : Tick) (interval : Count32) (deadline : Option Tick)
  | time (tick : Tick) (divide pendingValue : Byte) (pendingMark : Bool)
  | inputs (tick : Tick) (lines : Table 16 LineView)
  | claim (owner : Option Port) (place : Nat)
  | withdraw (owner : Option Port) (waiting : Nat)
  | release (owner : Option Port) (cancelled : Nat)
  | level (level : Bool)
  | reclaim (before after : Option Port)
  | safe (safe : Bool) (group : Option Group)
  | outputs (tick : Tick) (outputs : Table 12 OutputView)
  | counts (live quota free : Nat)
  | submitted (live quota free : Nat) (handle : Handle) (tick : Tick) (state : SubmitState)
  | entry (tick : Tick) (summary : Summary)
  | entries (tick : Tick) (live : Nat) (position : Byte) (summaries : List Summary)
  | quotas (quota live : PerPort Nat)
  | cancelled (tick : Tick) (state : EntryState) (fired : BitVec 16) (cascade : Nat)
  | group (view : GroupView)
  | acked (notRequired : Bool) (view : GroupView)
  | row (cells : Table 16 Cell)
  | fetched (lost : BitVec 16) (records : List Record)
  | queue (view : QueueView)
deriving DecidableEq, Repr

/-- The result a request has at the block or the check that decides it: a status and a body. -/
structure Answer where
  status : Status
  body : Body
deriving DecidableEq, Repr

/-- A stored reply (R178). Its FLAGS and check byte are composed when it is offered. -/
structure Reply where
  seq : Byte
  status : Status
  body : Body
  queued : Nat
deriving DecidableEq, Repr

/-! ### Port controllers (R152, R157, R170) -/

/-- The kinds of session end that run through the steps of R157. -/
inductive EndKind
  | close | lapse | portReset
deriving DecidableEq, Repr

/-- The step of R157 that a session end takes next. -/
inductive EndStep
  | output (o : Output)
  | agenda
  | group (g : Group)
  | queue
  | finish
deriving DecidableEq, Repr

/-- A session end in progress, with the counts that CLOSE reports (R157, R160). -/
structure EndRun where
  kind : EndKind
  step : EndStep
  released : Nat
  cancelled : Nat
  flushed : Nat
deriving DecidableEq, Repr

/-- Where a request in flight stands (R154, R176): on its way to its block, a CLOSE in its steps, or decided. -/
inductive Stage
  | awaiting (r : Request)
  | closing (run : EndRun)
  | answered (a : Answer)
deriving DecidableEq, Repr

/-- A request in flight: the SEQ and check byte of its frame, and where it stands (R176). -/
structure Flight where
  seq : Byte
  check : Byte
  stage : Stage
deriving DecidableEq, Repr

/-- The activity of a controller (R152). -/
inductive Activity
  | idle
  | executing (f : Flight)
  | ending (run : EndRun)
deriving DecidableEq, Repr

/-- How the end of a transaction will be treated: its request is judged, is discarded as NOT_READY (R177), or the transaction
is ignored (R183). -/
inductive TxnMode
  | judged | notReady | ignored
deriving DecidableEq, Repr

/-- A transaction in progress: what MISO carries and whether that header carried the link-error mark (R170, R172). -/
structure Txn where
  mode : TxnMode
  offered : List Byte
  marked : Bool
deriving DecidableEq, Repr

/-- A port controller, with the pins and the transaction of its link. -/
structure Controller where
  session : Session
  activity : Activity
  interval : Count32
  deadline : Option Tick
  stored : Reply
  /-- The last SEQ and the last check byte, or none. -/
  last : Option (Byte × Byte)
  linkErrors : Byte
  /-- The link-error mark. -/
  mark : Bool
  /-- The transaction in progress. -/
  txn : Option Txn
  /-- A port reset is held to a completion or to the end of a session end (R164). -/
  resetHeld : Bool
  /-- A lapse expiry is held to the completion of the request in flight (R162; log entry 20). -/
  lapseHeld : Bool
  /-- PRST_N is held low. -/
  prstLow : Bool
deriving DecidableEq, Repr

/-! ### The part -/

/-- The state of the part. -/
structure State where
  /-- The commands that wait, first in, first out. -/
  pending : List Instr
  /-- RESET_N is held low. -/
  resetLow : Bool
  /-- The supervisor port (R167). -/
  supervisor : Port
  timebase : Timebase
  lines : Table 16 LineRec
  published : Published
  outputs : Table 12 OutputRec
  agenda : Agenda
  groups : PerGroup GroupRec
  queues : PerPort Queue
  /-- Records sent and not yet arrived: for each port one list for each event that sent some, in the order that event made them
  (R136). The model's own field. -/
  transit : PerPort (List (List Msg))
  ports : PerPort Controller
deriving DecidableEq, Repr

/-- The part has no fault that stops it: the spec answers every event with a next state. -/
inductive Fault
deriving DecidableEq, Repr

/-- Why a command has no meaning. -/
inductive Refusal
  /-- Raised by an arm of `exec` for a row that has no meaning yet; no arm raises it. Safe: the model stops. -/
  | notModelled (mnemonic : String)
deriving DecidableEq, Repr

/-- The outcome of a command. -/
abbrev Result := Host.Outcome State Fault Refusal

/-! ### Values after device reset -/

/-- R16. -/
def Timebase.reset : Timebase :=
  { count := 0, tick := 0, divide := 0, pendingValue := 0, pendingMark := false }

/-- R17. -/
def LineRec.reset : LineRec :=
  { raw := false, qualified := false, stability := 0, filter := 0, settled := false }

/-- Nothing published (log entry 15). -/
def Published.reset : Published :=
  { queues := .fill [], agenda := [], groups := .fill [], settling := .fill [] }

/-- R32. -/
def OutputRec.reset : OutputRec :=
  { owner := none, waiting := [], level := false, safe := false, group := none }

/-- R56, R69. -/
def Agenda.reset : Agenda :=
  { slots := .fill { gen := 0, entry := none }, armed := [], waiting := []
    quota := .fill Config.resetQuota, live := .fill 0 }

/-- R108. -/
def GroupRec.reset : GroupRec :=
  { state := .normal, sources := .fill none, count := 0, first := none, latest := none
    owed := .fill false, acked := .fill false, window := 0, deadline := none }

/-- The empty subscription cell (R142). -/
def Cell.off : Cell := { edge := .none, oneShot := false }

/-- R132. -/
def Queue.reset : Queue :=
  { records := [], intake := .shut, mode := .stop, threshold := 1, nextSeq := 0, lost := 0, lostTotal := 0
    row := .fill Cell.off }

/-- The cleared reply (R152, R178). -/
def Reply.cleared : Reply := { seq := 0, status := .noRequest, body := .empty, queued := 0 }

/-- R152; the pins of the port are high and no transaction is in progress (log entries 1 and 15). -/
def Controller.reset : Controller :=
  { session := .closed, activity := .idle, interval := 0, deadline := none, stored := Reply.cleared, last := none
    linkErrors := 0, mark := false, txn := none, resetHeld := false, lapseHeld := false, prstLow := false }

/-- The part right after device reset is released with both straps at 0 (log entry 1). -/
def State.reset : State :=
  { pending := [], resetLow := false, supervisor := .A
    timebase := Timebase.reset, lines := .fill LineRec.reset, published := Published.reset
    outputs := .fill OutputRec.reset, agenda := Agenda.reset, groups := .fill GroupRec.reset
    queues := .fill Queue.reset, transit := .fill [], ports := .fill Controller.reset }

/-! ### Reading and replacing one part of the state -/

/-- The tick counter: the *now* of an event (R3). -/
def State.now (s : State) : Tick := s.timebase.tick

/-- The controller of port `p`. -/
def State.port (s : State) (p : Port) : Controller := s.ports.get p

/-- The queue of port `p`. -/
def State.queue (s : State) (p : Port) : Queue := s.queues.get p

/-- The record of group `g`. -/
def State.group (s : State) (g : Group) : GroupRec := s.groups.get g

/-- The record of output `o`. -/
def State.output (s : State) (o : Output) : OutputRec := s.outputs.get o

/-- The record of a line. -/
def State.line (s : State) (l : Line) : LineRec := s.lines.get l

/-- Slot `i` of the agenda. -/
def State.slot (s : State) (i : SlotNo) : Slot := s.agenda.slots.get i

/-- The entry in slot `i`. -/
def State.entry (s : State) (i : SlotNo) : Option Entry := (s.slot i).entry

def State.setPending (s : State) (q : List Instr) : State := { s with pending := q }
def State.setTimebase (s : State) (t : Timebase) : State := { s with timebase := t }
def State.setLines (s : State) (t : Table 16 LineRec) : State := { s with lines := t }
def State.setPublished (s : State) (e : Published) : State := { s with published := e }
def State.setOutputs (s : State) (t : Table 12 OutputRec) : State := { s with outputs := t }
def State.setOutput (s : State) (o : Output) (r : OutputRec) : State := { s with outputs := s.outputs.set o r }
def State.setAgenda (s : State) (a : Agenda) : State := { s with agenda := a }
def State.setGroup (s : State) (g : Group) (r : GroupRec) : State := { s with groups := s.groups.set g r }
def State.setQueue (s : State) (p : Port) (q : Queue) : State := { s with queues := s.queues.set p q }
def State.setTransit (s : State) (t : PerPort (List (List Msg))) : State := { s with transit := t }
def State.setPort (s : State) (p : Port) (c : Controller) : State := { s with ports := s.ports.set p c }

end Sys2Proof.Machine
end

