-- ==== Sys2Proof/Machine/Operands.lean ====
section
/-! DEFINITION. The operand forms: times by their position (R4 to R8), edges and the settings that accept them (R62, R142), handles
and the entries they name (R59), sets of ports, and the two orders of the agenda (R64, R66, R101). -/

namespace Sys2Proof.Machine

/-! ### Times -/

/-- The position of `t` at `now`: the distance from `now`, from -(2^39 - 1) to 2^39 (R4). -/
def position (now t : Tick) : Int :=
  let d := (t - now).toNat
  if d ≤ 2 ^ 39 then (d : Int) else (d : Int) - 2 ^ 40

/-- `t` is reached at `now`: its position is 0 or less (R4). -/
def reached (now t : Tick) : Bool := decide (position now t ≤ 0)

/-- A base time plus a 32-bit count, modulo 2^40 (R7). -/
def after (base : Tick) (n : Count32) : Tick := base + n.setWidth 40

/-- A deadline that is present and reached (R5). -/
def deadlineReached (now : Tick) (deadline : Option Tick) : Bool :=
  match deadline with
  | some t => reached now t
  | none => false

/-! ### Counts that saturate -/

/-- One more, unless the count stands at its greatest value (R60, R108, R132, R152). -/
def satInc {w : Nat} (x : BitVec w) : BitVec w := if x = BitVec.allOnes w then x else x + 1

/-! ### Edges -/

/-- A setting accepts a direction when it is that direction or BOTH (R62, R142). -/
def accepts (e : EdgeSetting) (d : Dir) : Bool :=
  match e, d with
  | .both, _ => true
  | .rise, .rise => true
  | .fall, .fall => true
  | _, _ => false

/-- The level an edge leads to (R23). -/
def dirLevel (d : Dir) : Bool :=
  match d with
  | .rise => true
  | .fall => false

/-! ### Sets of ports -/

/-- A set with a port added. -/
def portSetAdd (t : PortSet) (p : Port) : PortSet := t.set p true

/-- A set with a port removed. -/
def portSetRemove (t : PortSet) (p : Port) : PortSet := t.set p false

/-- The empty set of ports. -/
def portSetEmpty : PortSet := .fill false

/-! ### Handles and entries -/

/-- The handle of the entry in a slot (R57). -/
def handleOf (a : Agenda) (i : SlotNo) : Handle := { slot := i, gen := (a.slots.get i).gen }

/-- The entry that a handle names, if it is live (R59). -/
def liveEntry (a : Agenda) (h : Handle) : Option Entry :=
  let sl := a.slots.get h.slot
  if sl.gen = h.gen then sl.entry else none

/-- The lowest-numbered FREE slot (R57). -/
def lowestFree (a : Agenda) : Option SlotNo :=
  (List.finRange 96).find? fun i => (a.slots.get i).entry.isNone

/-- The number of FREE slots (R73). -/
def freeSlots (a : Agenda) : Nat :=
  ((List.finRange 96).filter fun i => (a.slots.get i).entry.isNone).length

/-- The entry in slot `i` has property `f`. -/
def entryIs (a : Agenda) (f : Entry → Bool) (i : SlotNo) : Bool :=
  match (a.slots.get i).entry with
  | some e => f e
  | none => false

/-- The due of the entry in slot `i`, if it is ARMED (R63). -/
def dueOf (a : Agenda) (i : SlotNo) : Option Tick :=
  match (a.slots.get i).entry with
  | some e =>
    match e.state with
    | .armed _ due _ => some due
    | .waiting => none
  | none => none

/-- The entries with property `f` in agenda order: the ARMED ones in armed-list order, then the WAITING ones in waiting-list
order (R80, R101). -/
def agendaOrder (a : Agenda) (f : Entry → Bool) : List SlotNo := (a.armed ++ a.waiting).filter (entryIs a f)

/-- An entry waits on handle `h` (R67). -/
def waitsOn (h : Handle) (e : Entry) : Bool :=
  match e.plan.anchor with
  | .entry h' _ => h' == h
  | _ => false

/-- The WAITING entries anchored to the entry in slot `i`, in waiting-list order (R94, R100). -/
def dependents (a : Agenda) (i : SlotNo) : List SlotNo := a.waiting.filter (entryIs a (waitsOn (handleOf a i)))

/-- An entry is anchored to a line with a setting that accepts the edge's direction (R93). -/
def armedBy (e : Edge) (x : Entry) : Bool :=
  match x.plan.anchor with
  | .input line edge _ => line == e.line && accepts edge e.dir
  | _ => false

/-- The offset of an anchored entry (R62). -/
def offsetOf (d : Plan) : Count32 :=
  match d.anchor with
  | .absolute _ => 0
  | .input _ _ n => n
  | .entry _ n => n

/-- A slot placed in an armed list after every slot whose due stands no later and ahead of every slot whose due is later (R64).
`pos` gives the position of a slot's due. -/
def placeByDue (pos : SlotNo → Int) (i : SlotNo) : List SlotNo → List SlotNo
  | [] => [i]
  | j :: js => if pos i < pos j then i :: j :: js else j :: placeByDue pos i js

/-- The position of a slot's due at `now`; 0 for a slot with none. -/
def slotPosition (a : Agenda) (now : Tick) (i : SlotNo) : Int :=
  match dueOf a i with
  | some due => position now due
  | none => 0

/-! ### Members of a group -/

/-- Output `o` is a member of group `g` (R109). -/
def isMember (t : Table 12 OutputRec) (g : Group) (o : Output) : Bool := (t.get o).group == some g

/-- Port `p` owns at least one member of group `g` (R114). -/
def ownsMember (t : Table 12 OutputRec) (g : Group) (p : Port) : Bool :=
  (List.finRange 12).any fun o => isMember t g o && ((t.get o).owner == some p)

/-- The owed set formed from the output table (R114). -/
def owedSet (t : Table 12 OutputRec) (g : Group) : PortSet := .ofFn (ownsMember t g)

end Sys2Proof.Machine
end

