-- ==== Sys2Proof/Machine/Flags.lean ====
section
/-! DEFINITION. The conditions the part reads from its state and keeps nowhere: a late firing (R6), a forced output (R34), an
active source (R110), the attention line (R148), the classes of records (R134), and the flags that replies show. -/

namespace Sys2Proof.Machine

/-- A firing of `due` taken at `now` is late (R6). -/
def isLate (now due : Tick) : Bool := decide (position now due < 0)

/-- A group is not NORMAL. -/
def GroupState.forces (g : GroupState) : Bool :=
  match g with
  | .normal => false
  | .tripped => true
  | .releasing => true

/-- A record's group is TRIPPED or RELEASING (R34). -/
def recordForced (groups : PerGroup GroupRec) (r : OutputRec) : Bool :=
  match r.group with
  | some g => (groups.get g).state.forces
  | none => false

/-- Output `o` is forced (R34). -/
def forced (s : State) (o : Output) : Bool := recordForced s.groups (s.output o)

/-- A level source is active while its line's qualified level equals its condition; an edge source never is (R110). -/
def sourceActive (lines : Table 16 LineRec) (src : Source) : Bool :=
  match src.cond with
  | .high => (lines.get src.line).qualified
  | .low => !(lines.get src.line).qualified
  | .rise => false
  | .fall => false

/-- A place holds an active level source (R110, R130). -/
def placeActive (lines : Table 16 LineRec) (place : Option Source) : Bool :=
  match place with
  | some src => sourceActive lines src
  | none => false

/-- The active set of a group (R130). -/
def activeSet (lines : Table 16 LineRec) (g : GroupRec) : Table 4 Bool :=
  .ofFn fun i => placeActive lines (g.sources.get i)

/-- A level source of the group is active (R120). -/
def anyActive (lines : Table 16 LineRec) (g : GroupRec) : Bool :=
  (List.finRange 4).any fun i => placeActive lines (g.sources.get i)

/-- A source matches an edge: an edge source by line and direction, a level source by line and the level the edge leads to
(R111). -/
def matchesEdge (e : Edge) (src : Source) : Bool :=
  src.line == e.line &&
    (match src.cond, e.dir with
      | .rise, .rise => true
      | .fall, .fall => true
      | .high, .rise => true
      | .low, .fall => true
      | _, _ => false)

/-- A source matches a settling change to level 1: a HIGH source on the line, nothing else (R111). -/
def matchesSettling (line : Line) (src : Source) : Bool := src.line == line && src.cond == .high

/-- The lowest-numbered place of a group whose source has property `f` (R111). -/
def lowestMatch (g : GroupRec) (f : Source → Bool) : Option Place :=
  (List.finRange 4).find? fun i =>
    match g.sources.get i with
    | some src => f src
    | none => false

/-- The general kinds are about edges and entries; the system kinds about ownership, trips and sessions (R134). -/
def Kind.isSystem (k : Kind) : Bool :=
  match k with
  | .inputEdge _ _ => false
  | .entryFired _ _ _ _ => false
  | .entryDone _ _ _ => false
  | .entryCancelled _ _ _ => false
  | .claimGranted _ => true
  | .ownershipRevoked _ => true
  | .trip _ _ _ => true
  | .tripCleared _ => true
  | .releaseExpired _ => true
  | .lapsed => true

/-- A record is a system record (R134). -/
def Record.isSystem (r : Record) : Bool := r.kind.isSystem

/-- A record is a general record (R134). -/
def Record.isGeneral (r : Record) : Bool := !r.kind.isSystem

/-- A port's attention line is asserted: the list has reached the threshold or holds a system record (R148). -/
def Queue.attention (q : Queue) : Bool :=
  decide (q.threshold ≤ q.records.length) || q.records.any Record.isSystem

/-- A session is OPEN or LAPSED. -/
def Session.hears (x : Session) : Bool :=
  match x with
  | .closed => false
  | .isOpen => true
  | .lapsed => true

/-- FLAGS: the link-error mark in bit 7, the attention mark in bit 6 (R172, R187). -/
def flagsByte (mark attention : Bool) : Byte := (if mark then 0x80 else 0) ||| (if attention then 0x40 else 0)

/-- The group summary at `now` (R130). -/
def groupView (s : State) (g : Group) : GroupView :=
  { tick := s.now, group := g, record := s.group g, active := activeSet s.lines (s.group g) }

/-- The line records as READ_INPUTS and SET_FILTER show them (R25). -/
def lineViews (lines : Table 16 LineRec) : Table 16 LineView :=
  .ofFn fun l =>
    let r := lines.get l
    { qualified := r.qualified, raw := r.raw, counting := r.stability != 0, filter := r.filter }

/-- The outputs as READ_OUTPUTS shows them (R49). -/
def outputViews (s : State) : Table 12 OutputView :=
  .ofFn fun o =>
    let r := s.output o
    { owner := r.owner, level := r.level, forced := forced s o, waiting := r.waiting.length }

/-- What STATUS shows port `p` of group `g` (R166). -/
def obligation (s : State) (p : Port) (g : Group) : Obligation :=
  { state := (s.group g).state, owed := (s.group g).owed.get p, acked := (s.group g).acked.get p }

/-- The body of STATUS (R166). -/
def statusView (s : State) (p : Port) : StatusView :=
  { tick := s.now
    session := (s.port p).session
    supervisor := s.supervisor == p
    interval := (s.port p).interval
    deadline := (s.port p).deadline
    queued := (s.queue p).records.length
    lostTotal := (s.queue p).lostTotal
    linkErrors := (s.port p).linkErrors
    live := s.agenda.live.get p
    quota := s.agenda.quota.get p
    owned := .ofFn fun o => (s.output o).owner == some p
    groups := .ofFn (obligation s p) }

/-- The body of SET_QUEUE (R147). -/
def queueView (q : Queue) : QueueView :=
  { mode := q.mode, threshold := q.threshold, length := q.records.length
    general := q.records.countP Record.isGeneral, system := q.records.countP Record.isSystem
    lost := q.lost, lostTotal := q.lostTotal }

/-- The place of a port in a waiting list: 0 when it is not in the list, 1 at the head (R37). -/
def placeIn (waiting : List Port) (p : Port) : Nat := if p ∈ waiting then waiting.idxOf p + 1 else 0

end Sys2Proof.Machine
end

