-- ==== Sys2Proof/Machine/Formats.lean ====
section
/-! DEFINITION. The byte layouts of section 10: reply headers and bodies (R187), event records (R188), entry summaries (R189). -/

namespace Sys2Proof.Machine

/-- A count that fits one byte. -/
def natByte (n : Nat) : Byte := BitVec.ofNat 8 n

/-- An optional tick: a presence byte and five tick bytes, all 0 when absent (R184). -/
def optTickBytes (t : Option Tick) : List Byte :=
  match t with
  | some t => 1 :: tickBytes t
  | none => [0, 0, 0, 0, 0, 0]

/-- Bits as a two-byte mask, bit `n` for index `n` (R184). -/
def maskBytes (f : Nat → Bool) : List Byte :=
  let bits (from' : Nat) : Byte :=
    natByte (((List.range 8).map fun i => if f (from' + i) then 2 ^ i else 0).sum)
  [bits 8, bits 0]

/-- The mask of a sixteen-line table (R184). -/
def lineMask (t : Table 16 LineView) (f : LineView → Bool) : List Byte :=
  maskBytes fun n => if h : n < 16 then f (t.get ⟨n, h⟩) else false

/-- The mask of a set of outputs, bits 15 to 12 always 0 (R184). -/
def outputMask (t : Table 12 Bool) : List Byte :=
  maskBytes fun n => if h : n < 12 then t.get ⟨n, h⟩ else false

/-! ### Codes of section 10 -/

/-- Status codes (R187). -/
def Status.byte (x : Status) : Byte :=
  match x with
  | .ok => 0x00
  | .queued => 0x01
  | .noRequest => 0x02
  | .unknownRequest => 0x10
  | .badLength => 0x11
  | .notOpen => 0x12
  | .lapsed => 0x13
  | .notSupervisor => 0x14
  | .badArgument => 0x15
  | .notOwner => 0x20
  | .heldByOther => 0x21
  | .tripped => 0x22
  | .noSpace => 0x23
  | .overQuota => 0x24
  | .badHandle => 0x25
  | .badAnchor => 0x26
  | .late => 0x27
  | .conditionActive => 0x28
  | .wrongState => 0x29

/-- The status code of the NOT_READY header (R187). -/
def notReadyByte : Byte := 0xFE

/-- Group state codes (R184). -/
def GroupState.byte (x : GroupState) : Byte :=
  match x with
  | .normal => 0
  | .tripped => 1
  | .releasing => 2

/-- Session state codes (R184). -/
def Session.byte (x : Session) : Byte :=
  match x with
  | .closed => 0
  | .isOpen => 1
  | .lapsed => 2

/-- Cancellation reason codes (R184). -/
def Reason.byte (x : Reason) : Byte :=
  match x with
  | .released => 1
  | .reclaimed => 2
  | .tripped => 3
  | .anchorLost => 4

/-- A cause byte (R184). -/
def CauseBy.byte (x : CauseBy) : Byte :=
  match x with
  | .place i => 0x10 + finByte i
  | .manual p => 0x20 + p.byte

/-! ### Event records (R188) -/

/-- The kind code of a record (R188). -/
def Kind.byte (k : Kind) : Byte :=
  match k with
  | .inputEdge _ _ => 0x01
  | .entryFired _ _ _ _ => 0x02
  | .entryDone _ _ _ => 0x03
  | .entryCancelled _ _ _ => 0x04
  | .claimGranted _ => 0x11
  | .ownershipRevoked _ => 0x12
  | .trip _ _ _ => 0x13
  | .tripCleared _ => 0x14
  | .releaseExpired _ => 0x15
  | .lapsed => 0x16

/-- The slot byte of a firing record: the slot in bits 6 to 0, the LATE flag in bit 7 (R188). -/
def slotLateByte (h : Handle) (late : Bool) : Byte := finByte h.slot ||| (if late then 0x80 else 0)

/-- The six payload bytes of a record, unused bytes 0 (R188). -/
def Kind.payload (k : Kind) : List Byte :=
  match k with
  | .inputEdge line dir => [finByte line, dir.byte, 0, 0, 0, 0]
  | .entryFired h tag fired late => [slotLateByte h late, h.gen] ++ word16Bytes tag ++ word16Bytes fired
  | .entryDone h tag late => [slotLateByte h late, h.gen] ++ word16Bytes tag ++ [0, 0]
  | .entryCancelled h tag reason => [finByte h.slot, h.gen] ++ word16Bytes tag ++ [reason.byte, 0]
  | .claimGranted o => [finByte o, 0, 0, 0, 0, 0]
  | .ownershipRevoked o => [finByte o, 0, 0, 0, 0, 0]
  | .trip g cause count => [g.byte, cause.byte, count, 0, 0, 0]
  | .tripCleared g => [g.byte, 0, 0, 0, 0, 0]
  | .releaseExpired g => [g.byte, 0, 0, 0, 0, 0]
  | .lapsed => [0, 0, 0, 0, 0, 0]

/-- The fourteen bytes of a record (R188). -/
def Record.bytes (r : Record) : List Byte := r.kind.byte :: word16Bytes r.seq ++ tickBytes r.time ++ r.kind.payload

/-! ### Entry summaries (R189) -/

/-- Remaining runs, 0 for FREE (R189). -/
def Runs.byte (r : Runs) : Byte :=
  match r with
  | .free => 0
  | .left n => n

/-- Bits of byte 2 for the state and the phase (R189). -/
def EntryState.bits (x : EntryState) : Byte :=
  match x with
  | .waiting => 0
  | .armed .first _ _ => 0x20
  | .armed .second _ _ => 0x30

/-- The anchor kind code (R184). -/
def anchorKindByte (a : Anchor) : Byte :=
  match a with
  | .absolute _ => 0
  | .input _ _ _ => 1
  | .entry _ _ => 2

/-- The anchor part of a summary (R189). -/
def anchorPart (a : Anchor) : List Byte :=
  match a with
  | .absolute due => tickBytes due
  | .input line edge offset => ((finByte line <<< 4) ||| edge.byte) :: count32Bytes offset
  | .entry h offset => [finByte h.slot, h.gen] ++ count32Bytes offset

/-- The fixed part of a summary, nine bytes (R189). -/
def summaryFixed (v : Summary) : List Byte :=
  let e := v.entry
  let d := e.plan
  [finByte v.handle.slot, v.handle.gen,
    (e.owner.byte <<< 6) ||| e.state.bits ||| (d.notify.byte <<< 2) ||| (d.late.byte <<< 1) |||
      flagByte d.period.isSome,
    (finByte d.output <<< 4) ||| (d.action.byte <<< 2) ||| anchorKindByte d.anchor] ++
    word16Bytes d.tag ++ [Runs.byte e.runs] ++ word16Bytes e.fired

/-- The optional parts of a summary, in their order (R189). -/
def summaryOptional (v : Summary) : List Byte :=
  let d := v.entry.plan
  (match d.action with
    | .pulse w => count32Bytes w
    | _ => []) ++
  (match d.period with
    | some q => count32Bytes q
    | none => []) ++
  anchorPart d.anchor ++
  (match v.entry.state with
    | .armed _ due runStart => tickBytes due ++ tickBytes runStart
    | .waiting => [])

/-- An entry summary (R189). -/
def Summary.bytes (v : Summary) : List Byte := summaryFixed v ++ summaryOptional v

/-- The summaries that a LIST reply takes: at most `n`, as long as the next one fits in the room left (R189). -/
def summariesThatFit : Nat → Nat → List Summary → List Summary
  | 0, _, _ => []
  | _, _, [] => []
  | n + 1, room, v :: vs =>
    if v.bytes.length ≤ room then v :: summariesThatFit n (room - v.bytes.length) vs else []

/-! ### Reply bodies (R187) -/

/-- The session byte (R187). -/
def sessionByte (x : Session) (wasLapsed supervisor : Bool) : Byte :=
  x.byte ||| (if wasLapsed then 0x40 else 0) ||| (if supervisor then 0x80 else 0)

/-- Four bits of the groups byte: the state in two, owed, acknowledged (R187). -/
def obligationBits (v : Obligation) : Byte :=
  (v.state.byte <<< 2) ||| (if v.owed then 2 else 0) ||| (if v.acked then 1 else 0)

/-- The groups byte (R187). -/
def groupsByte (v : PerGroup Obligation) : Byte := (obligationBits v.g0 <<< 4) ||| obligationBits v.g1

/-- The output byte (R187). -/
def OutputView.byte (v : OutputView) : Byte :=
  ownerByte v.owner ||| (if v.level then 0x04 else 0) ||| (if v.forced then 0x08 else 0) ||| (natByte v.waiting <<< 4)

/-- A set of ports in three bits, A lowest (R187). -/
def portSetBits (t : PortSet) : Byte := (if t.a then 1 else 0) ||| (if t.b then 2 else 0) ||| (if t.c then 4 else 0)

/-- The cell byte (R187). -/
def Cell.byte (c : Cell) : Byte := c.edge.byte ||| (if c.oneShot then 0x80 else 0)

/-- A cause byte and its tick, 00h and 0 when absent (R187). -/
def causeBytes (c : Option Cause) : List Byte :=
  match c with
  | some c => c.by'.byte :: tickBytes c.tick
  | none => [0, 0, 0, 0, 0, 0]

/-- A source place: the line in bits 7 to 4, the condition in bits 2 to 0, 00h when unused (R187). -/
def placeByte (c : Option Source) : Byte :=
  match c with
  | some s => (finByte s.line <<< 4) ||| s.cond.byte
  | none => 0

/-- The active set, place `n` in bit `n` (R187). -/
def activeByte (t : Table 4 Bool) : Byte :=
  natByte (((List.finRange 4).map fun i => if t.get i then 2 ^ i.val else 0).sum)

/-- The 36 bytes of a group summary (R187). -/
def GroupView.bytes (v : GroupView) : List Byte :=
  let r := v.record
  tickBytes v.tick ++ [v.group.byte, r.state.byte, r.count] ++ causeBytes r.first ++ causeBytes r.latest ++
    [portSetBits r.owed ||| (portSetBits r.acked <<< 4)] ++ count32Bytes r.window ++ optTickBytes r.deadline ++
    (List.finRange 4).map (fun i => placeByte (r.sources.get i)) ++ [activeByte v.active]

/-- The body of STATUS, 27 bytes (R187). -/
def StatusView.bytes (v : StatusView) : List Byte :=
  tickBytes v.tick ++ [sessionByte v.session false v.supervisor] ++ count32Bytes v.interval ++ optTickBytes v.deadline ++
    [natByte v.queued] ++ count32Bytes v.lostTotal ++ [v.linkErrors, natByte v.live, natByte v.quota] ++
    outputMask v.owned ++ [groupsByte v.groups]

/-- The body of SET_QUEUE, 11 bytes (R187). -/
def QueueView.bytes (v : QueueView) : List Byte :=
  [v.mode.byte, natByte v.threshold, natByte v.length, natByte v.general, natByte v.system] ++ word16Bytes v.lost ++
    count32Bytes v.lostTotal

/-- The state byte of a CANCEL reply: the state in bit 0, the phase in bit 1; then the due, 0 for a WAITING entry (R187). -/
def cancelStateBytes (x : EntryState) : List Byte :=
  match x with
  | .waiting => [0, 0, 0, 0, 0, 0]
  | .armed .first due _ => 1 :: tickBytes due
  | .armed .second due _ => 3 :: tickBytes due

/-- The entry state and the due of a SUBMIT reply; the due bytes are 0 unless the state is ARMED (R187). -/
def submitStateBytes (x : SubmitState) : List Byte :=
  match x with
  | .waiting => [0, 0, 0, 0, 0, 0]
  | .armed due => 1 :: tickBytes due
  | .completed => [2, 0, 0, 0, 0, 0]

/-- The bytes of a reply body (R187). -/
def Body.bytes (x : Body) : List Byte :=
  match x with
  | .empty => []
  | .opened t session wasLapsed supervisor deadline =>
    tickBytes t ++ [sessionByte session wasLapsed supervisor] ++ optTickBytes deadline
  | .closed t n m k => tickBytes t ++ [natByte n, natByte m, natByte k]
  | .pinged t deadline => tickBytes t ++ optTickBytes deadline
  | .status v => v.bytes
  | .lapseSet t interval deadline => tickBytes t ++ count32Bytes interval ++ optTickBytes deadline
  | .time t divide pendingValue pendingMark => tickBytes t ++ [divide, pendingValue, flagByte pendingMark]
  | .inputs t lines =>
    tickBytes t ++ lineMask lines LineView.qualified ++ lineMask lines LineView.raw ++ lineMask lines LineView.counting ++
      (List.finRange 16).map fun l => (lines.get l).filter
  | .claim owner place => [ownerByte owner, natByte place]
  | .withdraw owner waiting => [ownerByte owner, natByte waiting]
  | .release owner n => [ownerByte owner, natByte n]
  | .level l => [flagByte l]
  | .reclaim before after => [ownerByte before, ownerByte after]
  | .safe l g => [flagByte l, membershipByte g]
  | .outputs t v => tickBytes t ++ (List.finRange 12).map fun o => (v.get o).byte
  | .counts live quota free => [natByte live, natByte quota, natByte free]
  | .submitted live quota free h t state =>
    [natByte live, natByte quota, natByte free, finByte h.slot, h.gen] ++ tickBytes t ++ submitStateBytes state
  | .entry t v => tickBytes t ++ v.bytes
  | .entries t live position vs =>
    tickBytes t ++ [natByte live, position, natByte vs.length] ++ (vs.map Summary.bytes).flatten
  | .quotas q l => [natByte q.a, natByte q.b, natByte q.c, natByte l.a, natByte l.b, natByte l.c]
  | .cancelled t state fired cascade =>
    tickBytes t ++ cancelStateBytes state ++ word16Bytes fired ++ [natByte cascade]
  | .group v => v.bytes
  | .acked notRequired v => flagByte notRequired :: v.bytes
  | .row cells => (List.finRange 16).map fun l => (cells.get l).byte
  | .fetched lost records => word16Bytes lost ++ (records.map Record.bytes).flatten
  | .queue v => v.bytes

/-! ### Headers and replies as offered (R172, R177, R178, R183) -/

/-- A header or a reply as MISO carries it: LEN, SEQ, STATUS, FLAGS, QCOUNT, the body and the check byte (R187). -/
def offeredBytes (seq status flags : Byte) (queued : Nat) (body : List Byte) : List Byte :=
  let bs := natByte (body.length + 6) :: seq :: status :: flags :: natByte queued :: body
  bs ++ [crc8 bs]

/-- The stored reply as offered with the marks of that moment (R172, R178). -/
def Reply.bytes (r : Reply) (flags : Byte) : List Byte := offeredBytes r.seq r.status.byte flags r.queued r.body.bytes

/-- The NOT_READY header (R177). -/
def notReadyHeader (seq flags : Byte) (queued : Nat) : List Byte := offeredBytes seq notReadyByte flags queued []

/-- The idle header, which MISO carries while PRST_N is low (R183). -/
def idleHeader : List Byte := offeredBytes 0 Status.noRequest.byte 0 0 []

end Sys2Proof.Machine
end

