-- ==== Sys2Proof/Machine/Ops.lean ====
section
/-! DEFINITION. The named operations over the state that the meanings share: an event and the records it sends (R136), a record's
arrival at a queue (R137 to R140), freeing, arming, firing and cancelling entries (R58, R82 to R100), the end of an
ownership (R40), causes and the entry into NORMAL (R113 to R124), and a controller's own work (R154 to R164, R176). -/

namespace Sys2Proof.Machine

/-! ### An event in progress -/

/-- An event in progress: the state it has reached, and the records it has sent, in order. -/
structure Work where
  st : State
  sent : List (Port × Msg)
deriving DecidableEq, Repr

/-- An event that has sent nothing yet. -/
def startWork (s : State) : Work := { st := s, sent := [] }

/-- The state of an event changed. -/
def onState (f : State → State) (w : Work) : Work := { w with st := f w.st }

/-- The agenda of an event changed. -/
def onAgenda (f : Agenda → Agenda) (w : Work) : Work := onState (fun s => s.setAgenda (f s.agenda)) w

/-- The record of output `o` changed. -/
def onOutput (o : Output) (f : OutputRec → OutputRec) (s : State) : State := s.setOutput o (f (s.output o))

/-- The record of group `g` changed. -/
def onGroup (g : Group) (f : GroupRec → GroupRec) (s : State) : State := s.setGroup g (f (s.group g))

/-- The controller of port `p` changed. -/
def onPort (p : Port) (f : Controller → Controller) (s : State) : State := s.setPort p (f (s.port p))

/-- The queue of port `p` changed. -/
def onQueue (p : Port) (f : Queue → Queue) (s : State) : State := s.setQueue p (f (s.queue p))

/-- The event sends a record to the queue of port `p`. -/
def sendMsg (p : Port) (m : Msg) (w : Work) : Work := { w with sent := w.sent ++ [(p, m)] }

/-- The event sends a record of this kind and time to the queue of port `p`. -/
def send (p : Port) (kind : Kind) (time : Tick) (w : Work) : Work := sendMsg p { kind, time } w

/-- The records an event sent to port `p`, in the order it sent them. -/
def batchFor (p : Port) (sent : List (Port × Msg)) : List Msg := (sent.filter fun x => x.1 == p).map Prod.snd

/-- The batches on their way to a port with one more batch, if it is not empty (R136). -/
def addBatch (batches : List (List Msg)) (batch : List Msg) : List (List Msg) :=
  if batch = [] then batches else batches ++ [batch]

/-- The state after an event: what it sent to each port goes on its way as one batch (R136; log entry 6). -/
def finishWork (w : Work) : State :=
  w.st.setTransit (.ofFn fun p => addBatch (w.st.transit.get p) (batchFor p w.sent))

/-- Runs an event that answers nothing. -/
def runEvent (f : Work → Work) (s : State) : State := finishWork (f (startWork s))

/-! ### A record at a queue (R137 to R140) -/

/-- One more record lost (R140). -/
def countLoss (q : Queue) : Queue := { q with lost := satInc q.lost, lostTotal := satInc q.lostTotal }

/-- A record accepted at the tail with the next sequence number (R135). -/
def acceptRecord (q : Queue) (m : Msg) : Queue :=
  { q with
    records := q.records ++ [{ kind := m.kind, seq := q.nextSeq, time := m.time }]
    nextSeq := q.nextSeq + 1 }

/-- The class of a record has room in the list (R137). -/
def hasRoom (q : Queue) (m : Msg) : Bool :=
  decide (q.records.length < if m.kind.isSystem then Config.queueRecords else Config.generalRecords)

/-- The list without its oldest general record (R139). -/
def dropOldestGeneral (rs : List Record) : List Record := rs.eraseP Record.isGeneral

/-- The list without its newest general record (R138). -/
def dropNewestGeneral (rs : List Record) : List Record := (rs.reverse.eraseP Record.isGeneral).reverse

/-- A record that mode STOP cannot admit (R138). -/
def stopOverflow (q : Queue) (m : Msg) : Queue :=
  if m.kind.isSystem && q.records.any Record.isGeneral then
    acceptRecord (countLoss { q with records := dropNewestGeneral q.records }) m
  else countLoss q

/-- A record that mode RING cannot admit (R139). -/
def ringOverflow (q : Queue) (m : Msg) : Queue :=
  if q.records.any Record.isGeneral then
    acceptRecord (countLoss { q with records := dropOldestGeneral q.records }) m
  else if m.kind.isSystem then
    acceptRecord (countLoss { q with records := q.records.tail }) m
  else countLoss q

/-- A record arrives at a queue (R133, R137, R141). -/
def arrive (q : Queue) (m : Msg) : Queue :=
  match q.intake with
  | .shut => q
  | .accepting =>
    if hasRoom q m then acceptRecord q m
    else
      match q.mode with
      | .stop => stopOverflow q m
      | .ring => ringOverflow q m

/-! ### Slots and lists (R57, R58, R63 to R66) -/

/-- A slot's entry replaced; its generation stays (R57). -/
def putEntry (a : Agenda) (i : SlotNo) (e : Entry) : Agenda :=
  { a with slots := a.slots.set i { a.slots.get i with entry := some e } }

/-- A slot is freed: its entry leaves its list and is discarded, the owner's live count falls, the generation advances (R58). -/
def freeSlot (a : Agenda) (i : SlotNo) : Agenda :=
  match (a.slots.get i).entry with
  | none => a
  | some e =>
    { a with
      slots := a.slots.set i { gen := (a.slots.get i).gen + 1, entry := none }
      armed := a.armed.filter (· ≠ i)
      waiting := a.waiting.filter (· ≠ i)
      live := a.live.set e.owner (a.live.get e.owner - 1) }

/-- The entry in slot `i` becomes `e` and is placed in the armed list by its due, leaving whichever list held it (R64, R65,
R66). -/
def placeArmed (a : Agenda) (now : Tick) (i : SlotNo) (e : Entry) : Agenda :=
  let b := putEntry a i e
  { b with
    armed := placeByDue (slotPosition b now) i (b.armed.filter (· ≠ i))
    waiting := b.waiting.filter (· ≠ i) }

/-- The entry in slot `i` is armed from an anchor tick, which is the now of the event (R93, R94). -/
def armFromAnchor (now : Tick) (a : Agenda) (i : SlotNo) : Agenda :=
  match (a.slots.get i).entry with
  | none => a
  | some e =>
    let due := after now (offsetOf e.plan)
    placeArmed a now i { e with state := .armed .first due due }

/-! ### Firing (R82 to R91) -/

/-- The level that a level action leaves (R35). -/
def levelAfter (action : Action) (phase : Phase) (level : Bool) : Bool :=
  match action with
  | .set => true
  | .clear => false
  | .toggle => !level
  | .pulse _ =>
    match phase with
    | .first => true
    | .second => false

/-- The runs that remain are the last (R86, R88). -/
def Runs.isLast (r : Runs) : Bool :=
  match r with
  | .free => false
  | .left n => decide (n ≤ 1)

/-- One run fewer, unless FREE (R86). -/
def Runs.lower (r : Runs) : Runs :=
  match r with
  | .free => .free
  | .left n => .left (n - 1)

/-- A level action on an output record (R35). -/
def applyLevel (o : Output) (action : Action) (phase : Phase) (w : Work) : Work :=
  onState (onOutput o fun r => { r with level := levelAfter action phase r.level }) w

/-- The end of a run that is not the last (R86). -/
def endRun (now : Tick) (i : SlotNo) (e : Entry) (late : Bool) (runStart : Tick) (w : Work) : Work :=
  let start := after runStart (e.plan.period.getD 0)
  let e' := { e with fired := satInc e.fired, runs := Runs.lower e.runs, state := .armed .first start start }
  let w' := onAgenda (fun a => placeArmed a now i e') w
  match e.plan.notify with
  | .each => send e.owner (.entryFired (handleOf w.st.agenda i) e.plan.tag e'.fired late) now w'
  | .final => w'
  | .never => w'

/-- A completion: the record, the arming of the dependents, the freeing of the slot, in this order (R88, R94). -/
def completeEntry (now : Tick) (i : SlotNo) (e : Entry) (late : Bool) (w : Work) : Work :=
  let w' :=
    match e.plan.notify with
    | .never => w
    | .final => send e.owner (.entryDone (handleOf w.st.agenda i) e.plan.tag late) now w
    | .each => send e.owner (.entryDone (handleOf w.st.agenda i) e.plan.tag late) now w
  onAgenda (fun a => freeSlot ((dependents a i).foldl (armFromAnchor now) a) i) w'

/-- The FIRST phase of a PULSE moves the entry to its SECOND phase (R84). -/
def pulseToSecond (now : Tick) (i : SlotNo) (e : Entry) (width : Count32) (runStart : Tick) (w : Work) : Work :=
  onAgenda (fun a => placeArmed a now i { e with state := .armed .second (after runStart width) runStart }) w

/-- What a firing does with its entry after the level action (R83 to R88). -/
def advanceEntry (now : Tick) (i : SlotNo) (e : Entry) (phase : Phase) (due runStart : Tick) (w : Work) : Work :=
  match e.plan.action, phase with
  | .pulse width, .first => pulseToSecond now i e width runStart w
  | _, _ =>
    if Runs.isLast e.runs then completeEntry now i e (isLate now due) w
    else endRun now i e (isLate now due) runStart w

/-- One firing of the entry in slot `i` (R83). -/
def fire (now : Tick) (i : SlotNo) (w : Work) : Work :=
  match w.st.entry i with
  | none => w
  | some e =>
    match e.state with
    | .waiting => w
    | .armed phase due runStart =>
      advanceEntry now i e phase due runStart (applyLevel e.plan.output e.plan.action phase w)

/-- The head of the armed list, if its due is reached (R82). -/
def reachedHead (now : Tick) (a : Agenda) : Option SlotNo :=
  match a.armed with
  | [] => none
  | i :: _ =>
    match dueOf a i with
    | some due => if reached now due then some i else none
    | none => none

/-- A firing pass: fire the head while its due is reached (R82). The number bounds the firings; see `Config.passFirings`. -/
def passLoop : Nat → Tick → Work → Work
  | 0, _, w => w
  | n + 1, now, w =>
    match reachedHead now w.st.agenda with
    | some i => passLoop n now (fire now i w)
    | none => w

/-- A firing pass at `now` (R82; log entry 14). -/
def pass (now : Tick) (w : Work) : Work := passLoop Config.passFirings now w

/-! ### Cancellation (R98 to R102) -/

/-- The entries that a cancellation of the entry in slot `i` takes, depth first, the entry itself at the head (R100). The number
bounds the depth of the chains, which have no cycle (R67). -/
def cascade : Nat → Agenda → SlotNo → List SlotNo
  | 0, _, i => [i]
  | n + 1, a, i => i :: ((dependents a i).map (cascade n a)).flatten

/-- One entry is cancelled (R98); its owner is told if there is a reason and the owner is not the port whose session ends (R99,
R102). -/
def cancelOne (reason : Option Reason) (muted : Option Port) (now : Tick) (w : Work) (i : SlotNo) : Work :=
  match w.st.entry i with
  | none => w
  | some e =>
    let w' := onAgenda (fun a => freeSlot a i) w
    match reason with
    | some r =>
      if muted = some e.owner then w'
      else send e.owner (.entryCancelled (handleOf w.st.agenda i) e.plan.tag r) now w'
    | none => w'

/-- An entry is cancelled with its cascade (R98, R100). -/
def cancelTree (reason : Option Reason) (muted : Option Port) (now : Tick) (i : SlotNo) (w : Work) : Work :=
  (cascade Config.slots w.st.agenda i).tail.foldl (cancelOne (some .anchorLost) muted now)
    (cancelOne reason muted now w i)

/-- The targets of an event are cancelled in the order given; one already cancelled in an earlier cascade is passed over (R101).
The number counts the targets cancelled as targets. -/
def cancelTargets (reason : Option Reason) (muted : Option Port) (now : Tick) (targets : List SlotNo) (w : Work) :
    Work × Nat :=
  targets.foldl
    (fun x i => if (x.1.st.entry i).isSome then (cancelTree reason muted now i x.1, x.2 + 1) else x) (w, 0)

/-! ### Ownership (R40, R43) -/

/-- Step 1 of an ownership end: the leaving port's entries on the output are cancelled (R40). -/
def cancelOwned (reason : Option Reason) (muted : Option Port) (now : Tick) (o : Output) (p : Port) (w : Work) : Work × Nat :=
  cancelTargets reason muted now (agendaOrder w.st.agenda fun e => e.owner == p && e.plan.output == o) w

/-- Steps 2 and 3 of an ownership end by RELEASE or a session end: the head waiter is granted the output, or it is left with no
owner (R40). -/
def handOn (now : Tick) (o : Output) (w : Work) : Work :=
  match (w.st.output o).waiting with
  | [] => onState (onOutput o fun r => { r with owner := none }) w
  | p :: ps =>
    send p (.claimGranted o) now (onState (onOutput o fun r => { r with owner := some p, waiting := ps }) w)

/-! ### Trip groups (R113, R116, R117, R124) -/

/-- A record goes to every port whose session is OPEN or LAPSED (R113, R124). -/
def sendToHearing (m : Msg) (w : Work) : Work :=
  Port.all.foldl (fun x p => if (x.st.port p).session.hears then sendMsg p m x else x) w

/-- Every member output is set to its safe level (R36). -/
def forceMembers (g : Group) (t : Table 12 OutputRec) : Table 12 OutputRec :=
  .ofFn fun o =>
    let r := t.get o
    if isMember t g o then { r with level := r.safe } else r

/-- Step 1 of a trip event at the group record (R113). -/
def tripRecord (cause : Cause) (r : GroupRec) : GroupRec :=
  { r with state := .tripped, count := 1, first := some cause, latest := some cause, deadline := none }

/-- The owed set formed from the output table, and the acknowledged set cleared (R113, R114). -/
def formOwed (g : Group) (s : State) : State :=
  onGroup g (fun r => { r with owed := owedSet s.outputs g, acked := portSetEmpty }) s

/-- The trip event: a cause in NORMAL. The group is tripped, its members forced, their entries cancelled, the owed set formed,
and the TRIP records sent, in this order (R113). They carry the edge of the cause, where it is an edge (R131). -/
def tripEvent (g : Group) (cause : Cause) (edge : Option Edge) (w : Work) : Work :=
  let w1 := onState (onGroup g (tripRecord cause)) w
  let w2 := onState (fun s => s.setOutputs (forceMembers g s.outputs)) w1
  let targets := agendaOrder w2.st.agenda fun e => isMember w2.st.outputs g e.plan.output
  let w3 := (cancelTargets (some .tripped) none cause.tick targets w2).1
  sendToHearing { kind := .trip g cause.by' 1, time := cause.tick, edge } (onState (formOwed g) w3)

/-- A further cause at the group record: the count rises, the latest cause is kept, RELEASING returns to TRIPPED (R116, R117). -/
def furtherRecord (cause : Cause) (r : GroupRec) : GroupRec :=
  { r with state := .tripped, count := satInc r.count, latest := some cause, deadline := none }

/-- A further cause in TRIPPED or RELEASING (R116, R117). -/
def furtherCause (g : Group) (cause : Cause) (w : Work) : Work :=
  sendToHearing { kind := .trip g cause.by' (satInc (w.st.group g).count), time := cause.tick }
    (onState (fun s => formOwed g (onGroup g (furtherRecord cause) s)) w)

/-- A cause reaches a group, with the edge that it is, if it is one (R111, R112, R113, R116, R117). -/
def takeCause (g : Group) (cause : Cause) (edge : Option Edge) (w : Work) : Work :=
  match (w.st.group g).state with
  | .normal => tripEvent g cause edge w
  | .tripped => furtherCause g cause w
  | .releasing => furtherCause g cause w

/-- The group record at the entry into NORMAL; both causes and the window are kept (R124). -/
def normalRecord (r : GroupRec) : GroupRec :=
  { r with state := .normal, count := 0, owed := portSetEmpty, acked := portSetEmpty, deadline := none }

/-- A group enters NORMAL (R124). -/
def enterNormal (now : Tick) (g : Group) (w : Work) : Work :=
  sendToHearing { kind := .tripCleared g, time := now } (onState (onGroup g normalRecord) w)

/-! ### A controller's own work -/

/-- The deadline restarted, where the session is OPEN and the lapse interval is not 0 (R155). -/
def restartDeadline (now : Tick) (c : Controller) : Controller :=
  if c.session = .isOpen ∧ c.interval ≠ 0 then { c with deadline := some (after now c.interval) } else c

/-- The first step of a session end of this kind (R157). -/
def firstStep (kind : EndKind) : EndRun :=
  { kind := kind, step := .output 0, released := 0, cancelled := 0, flushed := 0 }

/-- A transaction whose request will be discarded because a lapse began in it (R177). -/
def doomTxn (t : Txn) : Txn :=
  match t.mode with
  | .judged => { t with mode := .notReady }
  | .notReady => t
  | .ignored => t

/-- A lapse begins (R157 step 1, R162). -/
def beginLapse (c : Controller) : Controller :=
  { c with deadline := none, activity := .ending (firstStep .lapse), txn := c.txn.map doomTxn }

/-- A port reset is taken: the session end begins if the session is OPEN or LAPSED, the stored reply becomes the cleared reply,
and the last SEQ, the last check byte, the link error count and the link-error mark are cleared (R152, R164). -/
def takePortReset (c : Controller) : Controller :=
  let c' := { c with
    stored := Reply.cleared, last := none, linkErrors := 0, mark := false, resetHeld := false }
  match c.session with
  | .closed => { c' with activity := .idle }
  | .isOpen => { c' with deadline := none, activity := .ending (firstStep .portReset) }
  | .lapsed => { c' with deadline := none, activity := .ending (firstStep .portReset) }

/-- What is held at a controller that has just become IDLE is taken: a port reset before a lapse, and a lapse only if its expiry
was held and its deadline is still reached (R162, R164; log entry 20). -/
def takeHeld (now : Tick) (lapse : Bool) (c : Controller) : Controller :=
  if c.resetHeld then takePortReset c
  else if lapse ∧ c.session = .isOpen ∧ deadlineReached now c.deadline then beginLapse c
  else c

/-- Request completion: the reply is stored with the queue count, SEQ and check byte become the last ones, the activity becomes
IDLE, and what is held begins (R176, R162, R164). -/
def completeRequest (now : Tick) (queued : Nat) (f : Flight) (a : Answer) (c : Controller) : Controller :=
  takeHeld now c.lapseHeld
    { c with
      stored := { seq := f.seq, status := a.status, body := a.body, queued := queued }
      last := some (f.seq, f.check)
      activity := .idle
      lapseHeld := false }

/-- The session end that a port is in, if it is in one (R157). -/
def endRunOf (c : Controller) : Option EndRun :=
  match c.activity with
  | .idle => none
  | .ending run => some run
  | .executing f =>
    match f.stage with
    | .awaiting _ => none
    | .closing run => some run
    | .answered _ => none

/-- The session end of a port replaced. -/
def setEndRun (run : EndRun) (c : Controller) : Controller :=
  match c.activity with
  | .idle => c
  | .ending _ => { c with activity := .ending run }
  | .executing f => { c with activity := .executing { f with stage := .closing run } }

/-! ### A request at its block (R154) -/

/-- Port `p`'s request in flight awaits its block and is `r`. -/
def awaits (s : State) (p : Port) (r : Request) : Bool :=
  match (s.port p).activity with
  | .executing f => f.stage == .awaiting r
  | .idle => false
  | .ending _ => false

/-- The result of the request in flight. -/
def putAnswer (a : Answer) (c : Controller) : Controller :=
  match c.activity with
  | .executing f => { c with activity := .executing { f with stage := .answered a } }
  | .idle => c
  | .ending _ => c

/-- Request `r` of port `p` reaches its block, which is the event `f`; the controller keeps the result until completion. A command
whose request is not in flight changes nothing (R154, R176; log entry 3). -/
def takeRequest (p : Port) (r : Request) (f : Work → Work × Answer) (s : State) : State :=
  if awaits s p r then
    let x := f (startWork s)
    onPort p (putAnswer x.2) (finishWork x.1)
  else s

/-- An answer without a body. -/
def bare (x : Status) : Answer := { status := x, body := .empty }

/-- An answer with a body. -/
def answer (x : Status) (b : Body) : Answer := { status := x, body := b }

end Sys2Proof.Machine
end

