-- ==== Sys2Proof/Machine/Agenda.lean ====
section
/-! DEFINITION. The agenda: SUBMIT, QUERY, LIST, SET_QUOTA, CANCEL, the firing pass of a tick (DUE_REACHED), an edge at the agenda
(EDGE_AT_AGENDA), and a session end at the agenda. -/

namespace Sys2Proof.Machine

/-! ### SUBMIT -/

/-- An ENTRY anchor names no live entry (R59, R73). -/
def anchorStale (a : Agenda) (x : Anchor) : Bool :=
  match x with
  | .absolute _ => false
  | .input _ _ _ => false
  | .entry h _ => (liveEntry a h).isNone

/-- The due of an ABSOLUTE anchor is reached (R74). -/
def dueAtOnce (now : Tick) (x : Anchor) : Bool :=
  match x with
  | .absolute due => reached now due
  | .input _ _ _ => false
  | .entry _ _ => false

/-- The first of the checks of R73 that fails. -/
def submitRefusal (s : State) (p : Port) (d : Plan) : Option Status :=
  if (s.output d.output).owner ≠ some p then some .notOwner
  else if forced s d.output then some .tripped
  else if anchorStale s.agenda d.anchor then some .badAnchor
  else if s.agenda.quota.get p ≤ s.agenda.live.get p then some .overQuota
  else if (lowestFree s.agenda).isNone then some .noSpace
  else if d.late = .drop ∧ dueAtOnce s.now d.anchor then some .late
  else none

/-- A new entry (R60, R75). -/
def newEntry (p : Port) (d : Plan) : Entry :=
  { owner := p, plan := d, runs := d.runs, fired := 0, state := .waiting }

/-- An accepted entry in its slot and its list, with the owner's live count raised (R75 steps 1 to 4). -/
def acceptEntry (now : Tick) (p : Port) (d : Plan) (i : SlotNo) (a : Agenda) : Agenda :=
  let b := { putEntry a i (newEntry p d) with live := a.live.set p (a.live.get p + 1) }
  match d.anchor with
  | .absolute due => placeArmed b now i { newEntry p d with state := .armed .first due due }
  | .input _ _ _ => { b with waiting := b.waiting ++ [i] }
  | .entry _ _ => { b with waiting := b.waiting ++ [i] }

/-- What a SUBMIT reply says of the entry after the event (R75). -/
def submitState (a : Agenda) (i : SlotNo) : SubmitState :=
  match (a.slots.get i).entry with
  | none => .completed
  | some e =>
    match e.state with
    | .waiting => .waiting
    | .armed _ due _ => .armed due

/-- The three counts of a SUBMIT refused by the checks of R73. -/
def submitCounts (a : Agenda) (p : Port) : Body := .counts (a.live.get p) (a.quota.get p) (freeSlots a)

/-- SUBMIT at the agenda (R73, R75). -/
def submitAt (p : Port) (d : Plan) (w : Work) : Work × Answer :=
  let s := w.st
  match submitRefusal s p d, lowestFree s.agenda with
  | some x, _ => (w, answer x (submitCounts s.agenda p))
  | none, none => (w, answer .noSpace (submitCounts s.agenda p))
  | none, some i =>
    let w1 := onAgenda (acceptEntry s.now p d i) w
    let w2 := if dueAtOnce s.now d.anchor then pass s.now w1 else w1
    let a := w2.st.agenda
    (w2, answer .ok (.submitted (a.live.get p) (a.quota.get p) (freeSlots a) (handleOf s.agenda i) s.now (submitState a i)))

/-- SUBMIT (R75). -/
def execSubmit (p : Port) (d : Plan) (s : State) : Result := .next (takeRequest p (.submit d) (submitAt p d) s)

/-! ### Reading entries -/

/-- The summary of the entry in a slot (R78). -/
def summaryAt (a : Agenda) (i : SlotNo) : Option Summary :=
  (a.slots.get i).entry.map fun e => { handle := handleOf a i, entry := e }

/-- QUERY at the agenda (R79). -/
def queryAt (h : Handle) (w : Work) : Work × Answer :=
  match liveEntry w.st.agenda h with
  | some e => (w, answer .ok (.entry w.st.now { handle := h, entry := e }))
  | none => (w, bare .badHandle)

/-- QUERY (R79). -/
def execQuery (p : Port) (h : Handle) (s : State) : Result := .next (takeRequest p (.query h) (queryAt h) s)

/-- LIST at the agenda (R80, R189). -/
def listAt (p : Port) (position : Byte) (w : Work) : Work × Answer :=
  let a := w.st.agenda
  let mine := (agendaOrder a fun e => e.owner == p).drop position.toNat
  (w, answer .ok (.entries w.st.now (a.live.get p) position
    (summariesThatFit 3 Config.listRoom (mine.filterMap (summaryAt a)))))

/-- LIST (R80). -/
def execList (p : Port) (position : Byte) (s : State) : Result :=
  .next (takeRequest p (.list position) (listAt p position) s)

/-! ### SET_QUOTA -/

/-- The sum of the three quotas (R69). -/
def quotaSum (q : PerPort Nat) : Nat := q.a + q.b + q.c

/-- The body of SET_QUOTA (R70). -/
def quotaBody (a : Agenda) : Body := .quotas a.quota a.live

/-- SET_QUOTA at the agenda (R70). -/
def setQuotaAt (port : Port) (quota : Byte) (w : Work) : Work × Answer :=
  let a := w.st.agenda
  let q := a.quota.set port quota.toNat
  if Config.slots < quotaSum q then (w, answer .badArgument (quotaBody a))
  else
    let b := { a with quota := q }
    (onAgenda (fun _ => b) w, answer .ok (quotaBody b))

/-- SET_QUOTA (R70). -/
def execSetQuota (p : Port) (port : Port) (quota : Byte) (s : State) : Result :=
  .next (takeRequest p (.setQuota port quota) (setQuotaAt port quota) s)

/-! ### CANCEL -/

/-- CANCEL at the agenda (R103). -/
def cancelAt (p : Port) (h : Handle) (w : Work) : Work × Answer :=
  match liveEntry w.st.agenda h with
  | none => (w, bare .badHandle)
  | some e =>
    if e.owner = p then
      (cancelTree none none w.st.now h.slot w,
        answer .ok (.cancelled w.st.now e.state e.fired ((cascade Config.slots w.st.agenda h.slot).length - 1)))
    else (w, bare .notOwner)

/-- CANCEL (R103). -/
def execCancel (p : Port) (h : Handle) (s : State) : Result := .next (takeRequest p (.cancel h) (cancelAt p h) s)

/-! ### The agenda's own events -/

/-- The pass that a tick event begins (R82). With no reached due at the head it makes no firing. -/
def duePass (s : State) : State := runEvent (pass s.now) s

/-- DUE_REACHED (R82). -/
def execDueReached (s : State) : Result := .next (duePass s)

/-- The WAITING INPUT entries that an edge arms, in waiting-list order (R93). -/
def armedByEdge (e : Edge) (a : Agenda) : List SlotNo := a.waiting.filter (entryIs a (armedBy e))

/-- An edge at the agenda: the entries it arms, then a pass if it armed any (R93). -/
def edgeAtAgendaEvent (e : Edge) (w : Work) : Work :=
  let js := armedByEdge e w.st.agenda
  let w' := onAgenda (fun a => js.foldl (armFromAnchor e.stamp) a) w
  if js = [] then w' else pass e.stamp w'

/-- An edge that the agenda has still to take is taken (R22, R93). -/
def agendaEdge (e : Edge) (s : State) : State :=
  if e ∈ s.published.agenda then
    runEvent (edgeAtAgendaEvent e)
      (s.setPublished { s.published with agenda := s.published.agenda.erase e })
  else s

/-- EDGE_AT_AGENDA (R93). -/
def execEdgeAtAgenda (e : Edge) (s : State) : Result := .next (agendaEdge e s)

/-! ### A session end at the agenda -/

/-- Every live entry still owned by the port is cancelled in agenda order, without records to it (R101, R102, R157 step 3). -/
def endAtAgenda (p : Port) (w : Work) : Work :=
  (cancelTargets none (some p) w.st.now (agendaOrder w.st.agenda fun e => e.owner == p) w).1

/-- The session end of port `p` reaches the agenda, where that is its next step (R157 step 3). -/
def sessionEndAgenda (p : Port) (s : State) : State :=
  match endRunOf (s.port p) with
  | none => s
  | some run =>
    if run.step = .agenda then
      let s' := runEvent (endAtAgenda p) s
      onPort p (setEndRun { run with
        step := .group .G0
        cancelled := run.cancelled + (s.agenda.live.get p - s'.agenda.live.get p) }) s'
    else s

/-- SESSION_END_AT_AGENDA (R157). -/
def execSessionEndAtAgenda (p : Port) (s : State) : Result := .next (sessionEndAgenda p s)

end Sys2Proof.Machine
end

