-- ==== Sys2Proof/Machine/Inputs.lean ====
section
/-! DEFINITION. The input qualifier: one line's step at a tick (R18 to R20), READ_INPUTS, SET_FILTER. -/

namespace Sys2Proof.Machine

/-- The first sample of a line is its starting level (R19). -/
def settleLine (sample : Bool) (r : LineRec) : LineRec :=
  { r with raw := sample, qualified := sample, settled := true }

/-- The sample differs from the qualified level, and has now done so for F + 1 ticks in a row (R20). -/
def qualifies (sample : Bool) (r : LineRec) : Bool :=
  sample != r.qualified && decide (r.filter.toNat + 1 ≤ r.stability.toNat + 1)

/-- The filter step of a settled line (R20). -/
def filterStep (sample : Bool) (r : LineRec) : LineRec :=
  if sample = r.qualified then { r with raw := sample, stability := 0 }
  else if qualifies sample r then { r with raw := sample, qualified := sample, stability := 0 }
  else { r with raw := sample, stability := r.stability + 1 }

/-- What a tick event does to a line (R18, R19, R20). -/
def stepLine (sample : Bool) (r : LineRec) : LineRec :=
  if r.settled then filterStep sample r else settleLine sample r

/-- The direction of the edge that a tick event publishes for a line, if it publishes one (R19, R22). -/
def lineEdge (sample : Bool) (r : LineRec) : Option Dir :=
  if r.settled && qualifies sample r then some (if sample then .rise else .fall) else none

/-- The tick event publishes a settling change for the line (R19). -/
def settlesHigh (sample : Bool) (r : LineRec) : Bool := !r.settled && sample

/-- READ_INPUTS at the qualifier (R25, R26). -/
def readInputsAt (w : Work) : Work × Answer := (w, answer .ok (.inputs w.st.now (lineViews w.st.lines)))

/-- READ_INPUTS (R25). -/
def execReadInputs (p : Port) (s : State) : Result := .next (takeRequest p .readInputs readInputsAt s)

/-- The lengths of the lines in a set written (R27). -/
def writeFilters (lines : BitVec 16) (length : Byte) (t : Table 16 LineRec) : Table 16 LineRec :=
  .ofFn fun l =>
    let r := t.get l
    if lines.getLsbD l.val then { r with filter := length } else r

/-- SET_FILTER at the qualifier (R27, R28). -/
def setFilterAt (lines : BitVec 16) (length : Byte) (w : Work) : Work × Answer :=
  let t := writeFilters lines length w.st.lines
  (onState (fun s => s.setLines t) w, answer .ok (.inputs w.st.now (lineViews t)))

/-- SET_FILTER (R27). -/
def execSetFilter (p : Port) (lines : BitVec 16) (length : Byte) (s : State) : Result :=
  .next (takeRequest p (.setFilter lines length) (setFilterAt lines length) s)

end Sys2Proof.Machine
end

