-- ==== Sys2Proof/Machine/Link.lean ====
section
/-! DEFINITION. The host link: TRANSACTION_BEGIN, TRANSACTION_END, REQUEST_COMPLETION, and what MISO carries. -/

namespace Sys2Proof.Machine

/-! ### The beginning of a transaction -/

/-- The SEQ of a NOT_READY header: that of the request in flight, or 0 while a session end is ENDING (R177). -/
def notReadySeq (x : Activity) : Byte :=
  match x with
  | .executing f => f.seq
  | .idle => 0
  | .ending _ => 0

/-- What a transaction that begins now carries on MISO and how its end will be treated (R170, R172, R177, R183). -/
def offer (c : Controller) (q : Queue) : Txn :=
  if c.prstLow then { mode := .ignored, offered := idleHeader, marked := false }
  else
    let flags := flagsByte c.mark q.attention
    match c.activity with
    | .idle => { mode := .judged, offered := c.stored.bytes flags, marked := c.mark }
    | x => { mode := .notReady, offered := notReadyHeader (notReadySeq x) flags q.records.length, marked := c.mark }

/-- CS_N of a port goes low (R170). While RESET_N is low no transaction is taken; with one in progress CS_N is low already. -/
def beginTransaction (p : Port) (s : State) : State :=
  if s.resetLow ∨ (s.port p).txn.isSome then s
  else onPort p (fun c => { c with txn := some (offer c (s.queue p)) }) s

/-- TRANSACTION_BEGIN (R170). -/
def execTransactionBegin (p : Port) (s : State) : Result := .next (beginTransaction p s)

/-- Byte `k` that MISO carries in the transaction in progress; FFh after the header or reply, and while RESET_N is low (R171,
R183). DESIGN CHOICE (log entry 23): with no transaction in progress MISO carries FFh, so in a chip-select period that began, or whose
transaction was abandoned, under RESET_N low it goes on with FFh after RESET_N is high again, until the next falling CS_N. -/
def misoByte (s : State) (p : Port) (k : Nat) : Byte :=
  if s.resetLow then 0xFF
  else
    match (s.port p).txn with
    | some t => t.offered.getD k 0xFF
    | none => 0xFF

/-! ### The acceptance checks (R181) -/

/-- The session states that admit a request (R153). -/
def admitted (x : Session) (c : Code) : Bool :=
  match x with
  | .isOpen => true
  | .closed => c == .openSession || c == .status || c == .readTime
  | .lapsed => c == .openSession || c == .closeSession || c == .status || c == .readTime || c == .fetch

/-- The status of a request that the session state does not admit (R153, R181). -/
def sessionRefusal (x : Session) : Status :=
  match x with
  | .lapsed => .lapsed
  | .closed => .notOpen
  | .isOpen => .ok

/-- The eight requests reserved to the supervisor (R168). -/
def reserved (c : Code) : Bool :=
  match c with
  | .setDivide | .setFilter | .reclaim | .setSafe | .setQuota | .setTripSource | .setReleaseWindow | .clearTrip => true
  | _ => false

/-- Checks 2 to 5 on a request whose CODE is known (R181). -/
def checkRequest (session : Session) (isSupervisor : Bool) (c : Code) (operands : List Byte) : Stage :=
  if operands.length ≠ c.operandBytes then .answered (bare .badLength)
  else if !admitted session c then .answered (bare (sessionRefusal session))
  else if reserved c && !isSupervisor then .answered (bare .notSupervisor)
  else
    match requestInRange c operands with
    | some r => .awaiting r
    | none => .answered (bare .badArgument)

/-- Checks 1 to 5 in their order: the first that fails gives the status, and a request that passes goes to its block (R181). -/
def acceptance (session : Session) (isSupervisor : Bool) (code : Option Byte) (operands : List Byte) : Stage :=
  match code.bind codeOfByte with
  | none => .answered (bare .unknownRequest)
  | some c => checkRequest session isSupervisor c operands

/-! ### The end of a transaction -/

/-- A new request is admitted: the checks are made, and the deadline of an OPEN port is restarted (R154, R155). -/
def admitRequest (now : Tick) (isSupervisor : Bool) (seq check : Byte) (code : Option Byte) (operands : List Byte)
    (c : Controller) : Controller :=
  { restartDeadline now c with
    activity := .executing { seq := seq, check := check, stage := acceptance c.session isSupervisor code operands } }

/-- A frame is a replay: its SEQ is not 0, and SEQ and check byte equal the last ones (R179). -/
def isReplay (seq check : Byte) (last : Option (Byte × Byte)) : Bool := seq != 0 && last == some (seq, check)

/-- A frame with a link error is counted and marked (R175). -/
def linkError (c : Controller) : Controller := { c with linkErrors := satInc c.linkErrors, mark := true }

/-- What the controller does with the bytes of a transaction that it judges (R170, R175, R176, R179). -/
def takeFrame (now : Tick) (isSupervisor : Bool) (mosi : List Byte) (c : Controller) : Controller :=
  match judge mosi with
  | .poll => c
  | .linkError => linkError c
  | .frame seq check code operands =>
    if isReplay seq check c.last then restartDeadline now c
    else admitRequest now isSupervisor seq check code operands c

/-- The link-error mark is cleared by a transaction that clocked out the FLAGS byte of a header that carried it (R172). -/
def clearMark (t : Txn) (clocked : Nat) (c : Controller) : Controller :=
  if t.marked ∧ 4 ≤ clocked then { c with mark := false } else c

/-- The end of a transaction at a controller: the request is judged if the transaction began while IDLE and the activity is IDLE
still; otherwise it is discarded (R175, R177, R183). -/
def endTransaction (now : Tick) (isSupervisor : Bool) (mosi : List Byte) (c : Controller) : Controller :=
  match c.txn with
  | none => c
  | some t =>
    let c' := { c with txn := none }
    match t.mode with
    | .ignored => c'
    | .notReady => clearMark t mosi.length c'
    | .judged =>
      if c.activity = .idle then takeFrame now isSupervisor mosi (clearMark t mosi.length c')
      else clearMark t mosi.length c'

/-- TRANSACTION_END (R175). -/
def execTransactionEnd (p : Port) (mosi : List Byte) (s : State) : Result :=
  .next (onPort p (endTransaction s.now (s.supervisor == p) mosi) s)

/-! ### Request completion -/

/-- The request in flight of a controller completes, if its result is known (R176). -/
def completeAt (now : Tick) (queued : Nat) (c : Controller) : Controller :=
  match c.activity with
  | .idle => c
  | .ending _ => c
  | .executing f =>
    match f.stage with
    | .answered a => completeRequest now queued f a c
    | .awaiting _ => c
    | .closing _ => c

/-- REQUEST_COMPLETION (R176). -/
def execRequestCompletion (p : Port) (s : State) : Result :=
  .next (onPort p (completeAt s.now (s.queue p).records.length) s)

end Sys2Proof.Machine
end

