-- ==== Sys2Proof/Machine/Outputs.lean ====
section
/-! DEFINITION. The output table: CLAIM, WITHDRAW, RELEASE, WRITE_OUTPUT, RECLAIM, SET_SAFE, READ_OUTPUTS, and a session end at
one output record. -/

namespace Sys2Proof.Machine

/-- The reply of CLAIM: the owner after the request and the caller's place (R37). -/
def claimAnswer (x : Status) (p : Port) (r : OutputRec) : Answer := answer x (.claim r.owner (placeIn r.waiting p))

/-- CLAIM at an output record (R37). -/
def claimRecord (p : Port) (wait : Bool) (r : OutputRec) : OutputRec × Answer :=
  match r.owner with
  | none =>
    let r' := { r with owner := some p }
    (r', claimAnswer .ok p r')
  | some q =>
    if q = p then (r, claimAnswer .ok p r)
    else if wait then
      let r' := if p ∈ r.waiting then r else { r with waiting := r.waiting ++ [p] }
      (r', claimAnswer .queued p r')
    else (r, claimAnswer .heldByOther p r)

/-- CLAIM at the output table (R37). -/
def claimAt (p : Port) (o : Output) (wait : Bool) (w : Work) : Work × Answer :=
  let x := claimRecord p wait (w.st.output o)
  (onState (onOutput o fun _ => x.1) w, x.2)

/-- CLAIM (R37). -/
def execClaim (p : Port) (o : Output) (wait : Bool) (s : State) : Result :=
  .next (takeRequest p (.claim o wait) (claimAt p o wait) s)

/-- A port removed from a waiting list; the order of the rest is kept (R33). -/
def leaveList (p : Port) (r : OutputRec) : OutputRec := { r with waiting := r.waiting.filter (· ≠ p) }

/-- WITHDRAW at the output table (R38). -/
def withdrawAt (p : Port) (o : Output) (w : Work) : Work × Answer :=
  let r := w.st.output o
  if p ∈ r.waiting then
    let r' := leaveList p r
    (onState (onOutput o fun _ => r') w, answer .ok (.withdraw r'.owner r'.waiting.length))
  else (w, answer .wrongState (.withdraw r.owner r.waiting.length))

/-- WITHDRAW (R38). -/
def execWithdraw (p : Port) (o : Output) (s : State) : Result :=
  .next (takeRequest p (.withdraw o) (withdrawAt p o) s)

/-- RELEASE at the output table (R40, R41; log entry 9). -/
def releaseAt (p : Port) (o : Output) (w : Work) : Work × Answer :=
  let r := w.st.output o
  if r.owner = some p then
    let x := cancelOwned (some .released) none w.st.now o p w
    let w' := handOn w.st.now o x.1
    (w', answer .ok (.release (w'.st.output o).owner x.2))
  else (w, answer .notOwner (.release r.owner 0))

/-- RELEASE (R41). -/
def execRelease (p : Port) (o : Output) (s : State) : Result := .next (takeRequest p (.release o) (releaseAt p o) s)

/-- WRITE_OUTPUT at the output table (R46). -/
def writeOutputAt (p : Port) (o : Output) (level : Bool) (w : Work) : Work × Answer :=
  let r := w.st.output o
  if r.owner ≠ some p then (w, answer .notOwner (.level r.level))
  else if forced w.st o then (w, answer .tripped (.level r.level))
  else (onState (onOutput o fun r => { r with level := level }) w, answer .ok (.level level))

/-- WRITE_OUTPUT (R46). -/
def execWriteOutput (p : Port) (o : Output) (level : Bool) (s : State) : Result :=
  .next (takeRequest p (.writeOutput o level) (writeOutputAt p o level) s)

/-- The supervisor takes an output ahead of any waiters; it leaves the list if it was there (R42). -/
def reclaimRecord (p : Port) (r : OutputRec) : OutputRec := { leaveList p r with owner := some p }

/-- RECLAIM at the output table, of the supervisor port `p` (R42). DESIGN CHOICE (log entry 21): R44 counts RECLAIM among the ends
that grant the head waiter the output with CLAIM_GRANTED, while R40 step 2 and R42 give it to the supervisor ahead of every
waiter with no CLAIM_GRANTED; the latter is done. -/
def reclaimAt (p : Port) (o : Output) (w : Work) : Work × Answer :=
  let before := (w.st.output o).owner
  match before with
  | none => (onState (onOutput o fun r => { r with owner := some p }) w, answer .ok (.reclaim before (some p)))
  | some q =>
    if q = p then (w, answer .ok (.reclaim before (some p)))
    else
      let w1 := (cancelOwned (some .reclaimed) none w.st.now o q w).1
      let w2 := send q (.ownershipRevoked o) w.st.now w1
      (onState (onOutput o (reclaimRecord p)) w2, answer .ok (.reclaim before (some p)))

/-- RECLAIM (R42). -/
def execReclaim (p : Port) (o : Output) (s : State) : Result := .next (takeRequest p (.reclaim o) (reclaimAt p o) s)

/-- A membership is none, or of a group that is NORMAL (R47). -/
def membershipFree (s : State) (g : Option Group) : Bool :=
  match g with
  | some g => !(s.group g).state.forces
  | none => true

/-- SET_SAFE at the output table (R47). -/
def setSafeAt (o : Output) (safe : Bool) (group : Option Group) (w : Work) : Work × Answer :=
  let r := w.st.output o
  if membershipFree w.st r.group && membershipFree w.st group then
    (onState (onOutput o fun r => { r with safe := safe, group := group }) w, answer .ok (.safe safe group))
  else (w, answer .wrongState (.safe r.safe r.group))

/-- SET_SAFE (R47). -/
def execSetSafe (p : Port) (o : Output) (safe : Bool) (group : Option Group) (s : State) : Result :=
  .next (takeRequest p (.setSafe o safe group) (setSafeAt o safe group) s)

/-- READ_OUTPUTS at the output table (R49). -/
def readOutputsAt (w : Work) : Work × Answer := (w, answer .ok (.outputs w.st.now (outputViews w.st)))

/-- READ_OUTPUTS (R49). -/
def execReadOutputs (p : Port) (s : State) : Result := .next (takeRequest p .readOutputs readOutputsAt s)

/-- A session end at one output record: the port's ownership ends without a record to it, or the port leaves the waiting list
(R43). -/
def endAtOutput (p : Port) (o : Output) (w : Work) : Work :=
  if (w.st.output o).owner = some p then
    handOn w.st.now o (cancelOwned none (some p) w.st.now o p w).1
  else onState (onOutput o (leaveList p)) w

/-- The step after an output's (R157). -/
def stepAfterOutput (o : Output) : EndStep :=
  if h : o.val + 1 < 12 then .output ⟨o.val + 1, h⟩ else .agenda

/-- A session end past an output: the counts of CLOSE (R160). -/
def runPastOutput (p : Port) (o : Output) (before after : State) (run : EndRun) : EndRun :=
  { run with
    step := stepAfterOutput o
    released := run.released + (if (before.output o).owner = some p then 1 else 0)
    cancelled := run.cancelled + (before.agenda.live.get p - after.agenda.live.get p) }

/-- The session end of port `p` reaches output `o`, where that is its next step (R157 step 2). -/
def sessionEndOutput (p : Port) (o : Output) (s : State) : State :=
  match endRunOf (s.port p) with
  | none => s
  | some run =>
    if run.step = .output o then
      let s' := runEvent (endAtOutput p o) s
      onPort p (setEndRun (runPastOutput p o s s' run)) s'
    else s

/-- SESSION_END_AT_OUTPUT (R43, R157). -/
def execSessionEndAtOutput (p : Port) (o : Output) (s : State) : Result := .next (sessionEndOutput p o s)

end Sys2Proof.Machine
end

