-- ==== Sys2Proof/Machine/Queues.lean ====
section
/-! DEFINITION. The event queues: RECORD_ARRIVAL, an edge at a queue (EDGE_AT_QUEUE), SUBSCRIBE, FETCH, SET_QUEUE, and a session
end at a queue. -/

namespace Sys2Proof.Machine

/-- The head of the batch at place `k` leaves; an emptied batch is gone (R136). -/
def takeFromBatch : List (List Msg) → Nat → Option (Msg × List (List Msg))
  | [], _ => none
  | [] :: _, 0 => none
  | (m :: ms) :: bs, 0 => some (m, if ms = [] then bs else ms :: bs)
  | b :: bs, k + 1 => (takeFromBatch bs k).map fun x => (x.1, b :: x.2)

/-- The group and the edge of the TRIP record that a trip event on an edge sent (R113, R131). -/
def edgeTrip (m : Msg) : Option (Group × Edge) :=
  match m.kind, m.edge with
  | .trip g _ _, some e => some (g, e)
  | _, _ => none

/-- The two records are the TRIP records of both groups' trip events on one edge (R131). -/
def tripsAlike (x y : Msg) : Bool :=
  match edgeTrip x, edgeTrip y with
  | some (g, e), some (h, f) => g != h && e == f
  | _, _ => false

/-- The batch at place `k` waits: a batch ahead of it still holds the TRIP record of the other group's trip event on the same edge,
and the records of the two events stand in a queue in the order the events were taken (R131). The records of every other two events
arrive in either order (R136; log entry 6). -/
def batchWaits (bs : List (List Msg)) (k : Nat) : Bool :=
  (bs.take k).any fun b => b.any fun x => (bs.getD k []).any fun y => tripsAlike x y

/-- A record on its way to a port arrives at its queue (R131, R136, R137). -/
def recordArrives (p : Port) (k : Nat) (s : State) : State :=
  if batchWaits (s.transit.get p) k then s
  else
    match takeFromBatch (s.transit.get p) k with
    | some (m, bs) => onQueue p (fun q => arrive q m) (s.setTransit (s.transit.set p bs))
    | none => s

/-- RECORD_ARRIVAL (R137). -/
def execRecordArrival (p : Port) (k : Nat) (s : State) : Result := .next (recordArrives p k s)

/-- An edge at a queue: a cell that accepts it takes an INPUT_EDGE record, and a one-shot cell then becomes none (R143; log
entry 7). -/
def edgeAtQueueEvent (e : Edge) (q : Queue) : Queue :=
  let cell := q.row.get e.line
  if accepts cell.edge e.dir then
    let q' := arrive q { kind := .inputEdge e.line e.dir, time := e.stamp }
    if cell.oneShot then { q' with row := q'.row.set e.line Cell.off } else q'
  else q

/-- An edge that a queue has still to take is taken (R22, R143). -/
def queueEdge (p : Port) (e : Edge) (s : State) : State :=
  if e ∈ s.published.queues.get p then
    onQueue p (edgeAtQueueEvent e)
      (s.setPublished
        { s.published with queues := s.published.queues.set p ((s.published.queues.get p).erase e) })
  else s

/-- EDGE_AT_QUEUE (R143). -/
def execEdgeAtQueue (p : Port) (e : Edge) (s : State) : Result := .next (queueEdge p e s)

/-- The cell that SUBSCRIBE writes: setting none clears the one-shot flag (R142). -/
def cellOf (edge : EdgeSetting) (oneShot : Bool) : Cell :=
  { edge := edge, oneShot := oneShot && edge != .none }

/-- SUBSCRIBE at the caller's queue (R142). -/
def subscribeAt (p : Port) (line : Line) (edge : EdgeSetting) (oneShot : Bool) (w : Work) : Work × Answer :=
  let row := (w.st.queue p).row.set line (cellOf edge oneShot)
  (onState (onQueue p fun q => { q with row := row }) w, answer .ok (.row row))

/-- SUBSCRIBE (R142). -/
def execSubscribe (p : Port) (line : Line) (edge : EdgeSetting) (oneShot : Bool) (s : State) : Result :=
  .next (takeRequest p (.subscribe line edge oneShot) (subscribeAt p line edge oneShot) s)

/-- FETCH at the caller's queue (R145). -/
def fetchAt (p : Port) (count : Byte) (w : Work) : Work × Answer :=
  let q := w.st.queue p
  (onState (onQueue p fun q => { q with records := q.records.drop count.toNat, lost := 0 }) w,
    answer .ok (.fetched q.lost (q.records.take count.toNat)))

/-- FETCH (R145). -/
def execFetch (p : Port) (count : Byte) (s : State) : Result :=
  .next (takeRequest p (.fetch count) (fetchAt p count) s)

/-- SET_QUEUE at the caller's queue (R147). -/
def setQueueAt (p : Port) (mode : QueueMode) (threshold : Byte) (w : Work) : Work × Answer :=
  let q := { w.st.queue p with mode := mode, threshold := threshold.toNat }
  (onState (onQueue p fun _ => q) w, answer .ok (.queue (queueView q)))

/-- SET_QUEUE (R147). -/
def execSetQueue (p : Port) (mode : QueueMode) (threshold : Byte) (s : State) : Result :=
  .next (takeRequest p (.setQueue mode threshold) (setQueueAt p mode threshold) s)

/-- The queue flushed and shut by CLOSE or port reset; the next sequence number is kept (R150). -/
def flushQueue (q : Queue) : Queue := { Queue.reset with nextSeq := q.nextSeq }

/-- A session end at the port's queue: a lapse places a LAPSED record, the others flush (R150, R157 step 5). -/
def endAtQueue (kind : EndKind) (now : Tick) (q : Queue) : Queue :=
  match kind with
  | .lapse => arrive q { kind := .lapsed, time := now }
  | .close => flushQueue q
  | .portReset => flushQueue q

/-- The session end of port `p` reaches its queue, where that is its next step (R157 step 5). -/
def sessionEndQueue (p : Port) (s : State) : State :=
  match endRunOf (s.port p) with
  | none => s
  | some run =>
    if run.step = .queue then
      onPort p (setEndRun { run with step := .finish, flushed := run.flushed + (s.queue p).records.length })
        (onQueue p (endAtQueue run.kind s.now) s)
    else s

/-- SESSION_END_AT_QUEUE (R150, R157). -/
def execSessionEndAtQueue (p : Port) (s : State) : Result := .next (sessionEndQueue p s)

end Sys2Proof.Machine
end

