-- ==== Sys2Proof/Machine/Resets.lean ====
section
/-! DEFINITION. The reset pins: DEVICE_RESET, DEVICE_RESET_RELEASE, PORT_RESET, PORT_RESET_RELEASE. -/

namespace Sys2Proof.Machine

/-- The supervisor that the straps choose (R167). -/
def strapsSupervisor (sup1 sup0 : Bool) : Port :=
  match sup1, sup0 with
  | false, false => .A
  | false, true => .B
  | true, false => .C
  | true, true => .A

/-- A controller at its device-reset values; its pin keeps its level (R152; log entry 13). -/
def resetController (c : Controller) : Controller := { Controller.reset with prstLow := c.prstLow }

/-- The part held in device reset: every block at its reset values (R2, R9, R16, R17, R32, R45, R56, R69, R108, R132, R152,
R178). The command queue is the model's own, the pins keep their levels, and the role is chosen anew at the release. -/
def heldInReset (s : State) : State :=
  { State.reset with
    pending := s.pending
    resetLow := true
    supervisor := s.supervisor
    ports := .ofFn fun p => resetController (s.port p) }

/-- DEVICE_RESET: RESET_N goes low, or power-up (R16). -/
def execDeviceReset (s : State) : Result := .next (heldInReset s)

/-- RESET_N goes high: the straps are sampled (R16, R167). With RESET_N high already there is no release, and the role holds. -/
def releaseReset (sup1 sup0 : Bool) (s : State) : State :=
  if s.resetLow then { s with resetLow := false, supervisor := strapsSupervisor sup1 sup0 } else s

/-- DEVICE_RESET_RELEASE (R16, R167). -/
def execDeviceResetRelease (sup1 sup0 : Bool) (s : State) : Result := .next (releaseReset sup1 sup0 s)

/-- A transaction abandoned at the assertion of PRST_N; MISO carries the idle header from then on (R164, R183; log entry
12). DESIGN CHOICE (log entry 22): its end clears no mark (R172), even where it had clocked out a marked FLAGS byte and the port reset
is held; the mark then stands until the port reset is taken. -/
def abandonTxn (_t : Txn) : Txn := { mode := .ignored, offered := idleHeader, marked := false }

/-- The assertion of PRST_N at a controller: a transaction in progress is abandoned, and the port reset is taken, or held while
the activity is EXECUTING or ENDING (R164, R183). -/
def assertPortReset (c : Controller) : Controller :=
  let c' := { c with prstLow := true, txn := c.txn.map abandonTxn }
  match c.activity with
  | .idle => takePortReset c'
  | .executing _ => { c' with resetHeld := true }
  | .ending _ => { c' with resetHeld := true }

/-- PRST_N of a port goes low. A pin already low has no assertion; in device reset the level alone is seen (R152, R164). -/
def portResetAt (p : Port) (s : State) : State :=
  if (s.port p).prstLow then s
  else if s.resetLow then onPort p (fun c => { c with prstLow := true }) s
  else onPort p assertPortReset s

/-- PORT_RESET (R164). -/
def execPortReset (p : Port) (s : State) : Result := .next (portResetAt p s)

/-- PORT_RESET_RELEASE: the port takes transactions again (R164, R183). -/
def execPortResetRelease (p : Port) (s : State) : Result :=
  .next (onPort p (fun c => { c with prstLow := false }) s)

end Sys2Proof.Machine
end

