-- ==== Sys2Proof/Machine/Sessions.lean ====
section
/-! DEFINITION. Sessions: OPEN, CLOSE, PING, STATUS, SET_LAPSE, LAPSE_EXPIRY and the last step of a session end
(SESSION_END_FINISH). -/

namespace Sys2Proof.Machine

/-! ### Requests -/

/-- The controller after OPEN: from LAPSED the deadline is set from the kept interval (R155, R156). -/
def openController (now : Tick) (c : Controller) : Controller :=
  match c.session with
  | .closed => { c with session := .isOpen }
  | .lapsed => restartDeadline now { c with session := .isOpen }
  | .isOpen => c

/-- The edges qualified while port `p` was CLOSED reach no record in its queue: at its OPEN the queue has none of them left to take
(R22, R143, R156). A record on its way stays on its way (R151; log entry 8). -/
def dropStaleEdges (p : Port) (s : State) : State :=
  if (s.port p).session = .closed then
    s.setPublished { s.published with queues := s.published.queues.set p [] }
  else s

/-- OPEN at the controller and the queue (R133, R151, R156). -/
def openAt (p : Port) (w : Work) : Work × Answer :=
  let s := w.st
  let s' := onPort p (openController s.now) (onQueue p (fun q => { q with intake := .accepting }) (dropStaleEdges p s))
  ({ w with st := s' },
    answer .ok (.opened s.now .isOpen ((s.port p).session == .lapsed) (s.supervisor == p) (s'.port p).deadline))

/-- OPEN (R156). -/
def execOpenSession (p : Port) (s : State) : Result := .next (takeRequest p .openSession (openAt p) s)

/-- The first step of a CLOSE: the deadline becomes absent, and the request stays in flight through the steps (R157, R160). -/
def startClose (c : Controller) : Controller := setEndRun (firstStep .close) { c with deadline := none }

/-- CLOSE begins its session end; SESSION_END_FINISH completes it (R157, R160). -/
def execCloseSession (p : Port) (s : State) : Result :=
  .next (if awaits s p .closeSession then onPort p startClose s else s)

/-- PING at the controller (R165). -/
def pingAt (p : Port) (w : Work) : Work × Answer := (w, answer .ok (.pinged w.st.now (w.st.port p).deadline))

/-- PING (R165). -/
def execPing (p : Port) (s : State) : Result := .next (takeRequest p .ping (pingAt p) s)

/-- STATUS at the controller (R166). -/
def statusAt (p : Port) (w : Work) : Work × Answer := (w, answer .ok (.status (statusView w.st p)))

/-- STATUS (R166). -/
def execStatus (p : Port) (s : State) : Result := .next (takeRequest p .status (statusAt p) s)

/-- The controller after SET_LAPSE (R161). -/
def lapseController (now : Tick) (interval : Count32) (c : Controller) : Controller :=
  { c with interval := interval, deadline := if interval = 0 then none else some (after now interval) }

/-- SET_LAPSE at the controller (R161). -/
def setLapseAt (p : Port) (interval : Count32) (w : Work) : Work × Answer :=
  let c := lapseController w.st.now interval (w.st.port p)
  (onState (onPort p fun _ => c) w, answer .ok (.lapseSet w.st.now interval c.deadline))

/-- SET_LAPSE (R161). -/
def execSetLapse (p : Port) (interval : Count32) (s : State) : Result :=
  .next (takeRequest p (.setLapse interval) (setLapseAt p interval) s)

/-! ### Lapse -/

/-- The lapse expiry at a controller: an OPEN port whose deadline is reached begins its lapse if it is IDLE; while EXECUTING the
expiry is held, and `takeHeld` looks again at the completion (R162). A session end has no deadline (R157 step 1). -/
def expireLapse (now : Tick) (c : Controller) : Controller :=
  if c.session = .isOpen ∧ deadlineReached now c.deadline then
    match c.activity with
    | .idle => beginLapse c
    | .executing _ => { c with lapseHeld := true }
    | .ending _ => c
  else c

/-- The lapse expiry of a port (R162). -/
def lapseAt (p : Port) (s : State) : State := onPort p (expireLapse s.now) s

/-- LAPSE_EXPIRY (R162). -/
def execLapseExpiry (p : Port) (s : State) : Result := .next (lapseAt p s)

/-! ### The last step of a session end -/

/-- The session state and the lapse interval that a session end leaves (R152, R157 step 6). -/
def endSession (kind : EndKind) (c : Controller) : Controller :=
  match kind with
  | .lapse => { c with session := .lapsed }
  | .close => { c with session := .closed, interval := 0 }
  | .portReset => { c with session := .closed, interval := 0 }

/-- The reply of CLOSE (R160). -/
def closeAnswer (now : Tick) (run : EndRun) : Answer :=
  answer .ok (.closed now run.released run.cancelled run.flushed)

/-- The controller at the last step of a session end: a CLOSE completes, a lapse or a port reset becomes IDLE, and what is held
begins (R157 step 6, R160, R164). -/
def finishController (now : Tick) (queued : Nat) (run : EndRun) (c : Controller) : Controller :=
  match c.activity with
  | .idle => c
  | .ending _ => takeHeld now false { endSession run.kind c with activity := .idle }
  | .executing f => completeRequest now queued f (closeAnswer now run) (endSession run.kind c)

/-- The last step of port `p`'s session end, where that is its next step (R157 step 6). -/
def sessionEndFinish (p : Port) (s : State) : State :=
  match endRunOf (s.port p) with
  | none => s
  | some run =>
    if run.step = .finish then onPort p (finishController s.now (s.queue p).records.length run) s else s

/-- SESSION_END_FINISH (R157). -/
def execSessionEndFinish (p : Port) (s : State) : Result := .next (sessionEndFinish p s)

end Sys2Proof.Machine
end

