-- ==== Sys2Proof/Machine/Timebase.lean ====
section
/-! DEFINITION. The timebase: PRESCALER_ADVANCE, READ_TIME, SET_DIVIDE. The rollover is in Sys2Proof/Machine/Ticks.lean. -/

namespace Sys2Proof.Machine

/-- A period of REFCLK that is not a rollover raises the prescaler count; once the count has reached the divide value the next
period is a rollover, which is TICK and not this command (R1; log entries 3, 5). -/
def advancePrescaler (t : Timebase) : Timebase :=
  if t.count < t.divide then { t with count := t.count + 1 } else t

/-- PRESCALER_ADVANCE (R1, R16). -/
def execPrescalerAdvance (s : State) : Result :=
  .next (if s.resetLow then s else s.setTimebase (advancePrescaler s.timebase))

/-- The body of READ_TIME and SET_DIVIDE (R10, R13). -/
def timeBody (t : Timebase) : Body := .time t.tick t.divide t.pendingValue t.pendingMark

/-- READ_TIME at the timebase (R13). -/
def readTimeAt (w : Work) : Work × Answer := (w, answer .ok (timeBody w.st.timebase))

/-- READ_TIME (R13). -/
def execReadTime (p : Port) (s : State) : Result := .next (takeRequest p .readTime readTimeAt s)

/-- SET_DIVIDE at the timebase: the pending value is written and the pending mark set (R10). -/
def setDivideAt (value : Byte) (w : Work) : Work × Answer :=
  let t := { w.st.timebase with pendingValue := value, pendingMark := true }
  (onState (fun s => s.setTimebase t) w, answer .ok (timeBody t))

/-- SET_DIVIDE (R10). -/
def execSetDivide (p : Port) (value : Byte) (s : State) : Result :=
  .next (takeRequest p (.setDivide value) (setDivideAt value) s)

end Sys2Proof.Machine
end

