-- ==== Sys2Proof/Machine/Trips.lean ====
section
/-! DEFINITION. The trip unit: an edge and a settling change at a group, the release deadline, TRIP, ACK_TRIP, CLEAR_TRIP,
SET_TRIP_SOURCE, SET_RELEASE_WINDOW, and a session end at a group. -/

namespace Sys2Proof.Machine

/-! ### Edges and settling changes -/

/-- A group takes one cause from the lowest-numbered matching place, if a place matches (R111). -/
def causeFrom (g : Group) (tick : Tick) (edge : Option Edge) (f : Source → Bool) (w : Work) : Work :=
  match lowestMatch (w.st.group g) f with
  | some i => takeCause g { by' := .place i, tick := tick } edge w
  | none => w

/-- An edge that a group has still to take is taken (R22, R111). -/
def groupEdge (g : Group) (e : Edge) (s : State) : State :=
  if e ∈ s.published.groups.get g then
    runEvent (causeFrom g e.stamp (some e) (matchesEdge e))
      (s.setPublished
        { s.published with groups := s.published.groups.set g ((s.published.groups.get g).erase e) })
  else s

/-- EDGE_AT_TRIP_GROUP (R111). -/
def execEdgeAtTripGroup (g : Group) (e : Edge) (s : State) : Result := .next (groupEdge g e s)

/-- A settling change of a line that a group has still to take is taken (R23, R111). -/
def groupSettling (g : Group) (line : Line) (s : State) : State :=
  match (s.published.settling.get g).find? fun x => x.line == line with
  | some x =>
    runEvent (causeFrom g x.stamp none (matchesSettling line))
      (s.setPublished
        { s.published with settling := s.published.settling.set g ((s.published.settling.get g).erase x) })
  | none => s

/-- SETTLING_CHANGE (R23, R111). -/
def execSettlingChange (g : Group) (line : Line) (s : State) : Result := .next (groupSettling g line s)

/-! ### The release deadline -/

/-- The group record when its release window has expired: TRIPPED, the sets, the count and the causes kept (R122). -/
def expiredRecord (r : GroupRec) : GroupRec := { r with state := .tripped, deadline := none }

/-- A reached release deadline returns a RELEASING group to TRIPPED; the supervisor is told if its session is OPEN or LAPSED
(R122). -/
def releaseExpiryEvent (g : Group) (w : Work) : Work :=
  let r := w.st.group g
  match r.state, r.deadline with
  | .releasing, some t =>
    if reached w.st.now t then
      let w' := onState (onGroup g expiredRecord) w
      if (w.st.port w.st.supervisor).session.hears then send w.st.supervisor (.releaseExpired g) t w' else w'
    else w
  | _, _ => w

/-- The release deadline of a group (R122). -/
def releaseExpiry (g : Group) (s : State) : State := runEvent (releaseExpiryEvent g) s

/-- RELEASE_DEADLINE_REACHED (R122). -/
def execReleaseDeadlineReached (g : Group) (s : State) : Result := .next (releaseExpiry g s)

/-! ### Requests -/

/-- An answer with the group summary as it stands after the event (R130). -/
def groupAnswer (x : Status) (g : Group) (w : Work) : Work × Answer := (w, answer x (.group (groupView w.st g)))

/-- TRIP at a group: a manual cause in every state (R112). -/
def tripAt (p : Port) (g : Group) (w : Work) : Work × Answer :=
  groupAnswer .ok g (takeCause g { by' := .manual p, tick := w.st.now } none w)

/-- TRIP (R112). -/
def execTrip (p : Port) (g : Group) (s : State) : Result := .next (takeRequest p (.trip g) (tripAt p g) s)

/-- A port added to the acknowledged set; a RELEASING group whose acknowledged set then equals its owed set enters NORMAL
(R118). -/
def acknowledge (p : Port) (g : Group) (w : Work) : Work :=
  let w' := onState (onGroup g fun r => { r with acked := portSetAdd r.acked p }) w
  let r := w'.st.group g
  if r.state = .releasing ∧ r.acked = r.owed then enterNormal w.st.now g w' else w'

/-- The reply of ACK_TRIP: the not-required flag and the group summary (R118, R130). -/
def ackAnswer (x : Status) (notRequired : Bool) (g : Group) (w : Work) : Work × Answer :=
  (w, answer x (.acked notRequired (groupView w.st g)))

/-- ACK_TRIP at a group (R118). -/
def ackTripAt (p : Port) (g : Group) (w : Work) : Work × Answer :=
  let r := w.st.group g
  if r.state = .normal then ackAnswer .wrongState false g w
  else if r.owed.get p then ackAnswer .ok false g (acknowledge p g w)
  else ackAnswer .ok true g w

/-- ACK_TRIP (R118). -/
def execAckTrip (p : Port) (g : Group) (s : State) : Result := .next (takeRequest p (.ackTrip g) (ackTripAt p g) s)

/-- The group record at the entry into RELEASING (R121). -/
def releasingRecord (now : Tick) (r : GroupRec) : GroupRec :=
  { r with state := .releasing, deadline := if r.window = 0 then none else some (after now r.window) }

/-- CLEAR_TRIP at a group (R120). -/
def clearTripAt (g : Group) (force : Bool) (w : Work) : Work × Answer :=
  let r := w.st.group g
  match r.state with
  | .normal => groupAnswer .wrongState g w
  | .tripped =>
    if anyActive w.st.lines r then groupAnswer .conditionActive g w
    else if force = true ∨ r.acked = r.owed then groupAnswer .ok g (enterNormal w.st.now g w)
    else groupAnswer .ok g (onState (onGroup g (releasingRecord w.st.now)) w)
  | .releasing =>
    if force then groupAnswer .ok g (enterNormal w.st.now g w) else groupAnswer .wrongState g w

/-- CLEAR_TRIP (R120). -/
def execClearTrip (p : Port) (g : Group) (force : Bool) (s : State) : Result :=
  .next (takeRequest p (.clearTrip g force) (clearTripAt g force) s)

/-- SET_TRIP_SOURCE at a group: the place is written, and a level source that is then active is a cause (R128). -/
def setTripSourceAt (g : Group) (i : Place) (src : Option Source) (w : Work) : Work × Answer :=
  let w' := onState (onGroup g fun r => { r with sources := r.sources.set i src }) w
  if placeActive w'.st.lines src then
    groupAnswer .ok g (takeCause g { by' := .place i, tick := w.st.now } none w')
  else groupAnswer .ok g w'

/-- SET_TRIP_SOURCE (R128). -/
def execSetTripSource (p : Port) (g : Group) (i : Place) (src : Option Source) (s : State) : Result :=
  .next (takeRequest p (.setTripSource g i src) (setTripSourceAt g i src) s)

/-- SET_RELEASE_WINDOW at a group; a deadline already set keeps its tick (R129). -/
def setReleaseWindowAt (g : Group) (window : Count32) (w : Work) : Work × Answer :=
  groupAnswer .ok g (onState (onGroup g fun r => { r with window := window }) w)

/-- SET_RELEASE_WINDOW (R129). -/
def execSetReleaseWindow (p : Port) (g : Group) (window : Count32) (s : State) : Result :=
  .next (takeRequest p (.setReleaseWindow g window) (setReleaseWindowAt g window) s)

/-! ### A session end at a group -/

/-- A session end at one group: the port leaves both sets, and a RELEASING group left fully acknowledged enters NORMAL (R126). -/
def endAtGroup (p : Port) (g : Group) (w : Work) : Work :=
  let w' := onState (onGroup g fun r =>
    { r with owed := portSetRemove r.owed p, acked := portSetRemove r.acked p }) w
  let r := w'.st.group g
  if r.state = .releasing ∧ r.acked = r.owed then enterNormal w.st.now g w' else w'

/-- The step after a group's (R157). -/
def stepAfterGroup (g : Group) : EndStep :=
  match g with
  | .G0 => .group .G1
  | .G1 => .queue

/-- The session end of port `p` reaches group `g`, where that is its next step (R157 step 4). -/
def sessionEndGroup (p : Port) (g : Group) (s : State) : State :=
  match endRunOf (s.port p) with
  | none => s
  | some run =>
    if run.step = .group g then
      onPort p (setEndRun { run with step := stepAfterGroup g }) (runEvent (endAtGroup p g) s)
    else s

/-- SESSION_END_AT_TRIP_GROUP (R126, R157). -/
def execSessionEndAtTripGroup (p : Port) (g : Group) (s : State) : Result := .next (sessionEndGroup p g s)

end Sys2Proof.Machine
end

