-- ==== Sys2Proof/Machine/Ticks.lean ====
section
/-! DEFINITION. TICK: the rollover (R1, R2, R9, R14, R18 to R24), after the events of the tick before it that the sender has not put
ahead of it (log entry 4). -/

namespace Sys2Proof.Machine

/-! ### What is to be taken before the next rollover (R5, R14, R22) -/

/-- Every queue takes the edges it has still to take. -/
def takeQueueEdges (s : State) : State :=
  Port.all.foldl (fun x p => (x.published.queues.get p).foldl (fun y e => queueEdge p e y) x) s

/-- The agenda takes the edges it has still to take. -/
def takeAgendaEdges (s : State) : State := s.published.agenda.foldl (fun x e => agendaEdge e x) s

/-- Both groups take the edges they have still to take. -/
def takeGroupEdges (s : State) : State :=
  Group.all.foldl (fun x g => (x.published.groups.get g).foldl (fun y e => groupEdge g e y) x) s

/-- Both groups take the settling changes they have still to take. -/
def takeSettling (s : State) : State :=
  Group.all.foldl (fun x g => (x.published.settling.get g).foldl (fun y c => groupSettling g c.line y) x) s

/-- Both groups take a release deadline that is reached. -/
def takeExpiries (s : State) : State := Group.all.foldl (fun x g => releaseExpiry g x) s

/-- Every port takes a lapse deadline that is reached. -/
def takeLapses (s : State) : State := Port.all.foldl (fun x p => lapseAt p x) s

/-- Every event of the present tick that has not been taken is taken, in the order of the rows of the table (R5, R14, R22; log
entry 4). -/
def takeOutstanding (s : State) : State :=
  takeLapses (takeExpiries (duePass (takeSettling (takeGroupEdges (takeAgendaEdges (takeQueueEdges s))))))

/-! ### The rollover -/

/-- The timebase at a rollover (R1, R2, R9). -/
def rollTimebase (t : Timebase) : Timebase :=
  { t with
    count := 0
    tick := t.tick + 1
    divide := if t.pendingMark then t.pendingValue else t.divide
    pendingMark := false }

/-- The level that line `l` presents (R18). -/
def sampleOf (samples : BitVec 16) (l : Line) : Bool := samples.getLsbD l.val

/-- The edges that a tick event publishes, stamped with the new tick (R22, R24). -/
def newEdges (samples : BitVec 16) (now : Tick) (lines : Table 16 LineRec) : List Edge :=
  (List.finRange 16).filterMap fun l =>
    (lineEdge (sampleOf samples l) (lines.get l)).map fun d => { line := l, dir := d, stamp := now }

/-- The settling changes that a tick event publishes (R19). -/
def newSettling (samples : BitVec 16) (now : Tick) (lines : Table 16 LineRec) : List Settling :=
  ((List.finRange 16).filter fun l => settlesHigh (sampleOf samples l) (lines.get l)).map fun l =>
    { line := l, stamp := now }

/-- The lines after the samples of a tick (R18 to R20). -/
def stepLines (samples : BitVec 16) (lines : Table 16 LineRec) : Table 16 LineRec :=
  .ofFn fun l => stepLine (sampleOf samples l) (lines.get l)

/-- New changes handed to every consumer (R22, R23). -/
def publish (edges : List Edge) (settling : List Settling) (x : Published) : Published :=
  { queues := .ofFn fun p => x.queues.get p ++ edges
    agenda := x.agenda ++ edges
    groups := .ofFn fun g => x.groups.get g ++ edges
    settling := .ofFn fun g => x.settling.get g ++ settling }

/-- The rollover: the timebase, the lines, and what they publish (R1, R2, R9, R18 to R24). -/
def rollover (samples : BitVec 16) (s : State) : State :=
  let t := rollTimebase s.timebase
  { s with
    timebase := t
    lines := stepLines samples s.lines
    published := publish (newEdges samples t.tick s.lines) (newSettling samples t.tick s.lines) s.published }

/-- The period of REFCLK that is a rollover: the one after the count has reached the divide value (R1). There is none below it, and
none while RESET_N is low (R16; log entries 3, 5). -/
def tickAll (samples : BitVec 16) (s : State) : State :=
  if s.resetLow ∨ s.timebase.count < s.timebase.divide then s else rollover samples (takeOutstanding s)

/-- TICK (R1). -/
def execTick (samples : BitVec 16) (s : State) : Result := .next (tickAll samples s)

end Sys2Proof.Machine
end

