-- ==== Sys2Proof/Machine/Dispatch.lean ====
section
/-! DEFINITION. One arm for each command: the meaning of the row. -/

namespace Sys2Proof.Machine

def exec (i : Instr) (s : State) : Host.Outcome State Fault Refusal :=
  match i with
  | .deviceReset => Sys2Proof.Machine.execDeviceReset s
  | .deviceResetRelease sup1 sup0 => Sys2Proof.Machine.execDeviceResetRelease sup1 sup0 s
  | .tick samples => Sys2Proof.Machine.execTick samples s
  | .edgeAtQueue p e => Sys2Proof.Machine.execEdgeAtQueue p e s
  | .edgeAtAgenda e => Sys2Proof.Machine.execEdgeAtAgenda e s
  | .edgeAtTripGroup g e => Sys2Proof.Machine.execEdgeAtTripGroup g e s
  | .settlingChange g line => Sys2Proof.Machine.execSettlingChange g line s
  | .dueReached => Sys2Proof.Machine.execDueReached s
  | .releaseDeadlineReached g => Sys2Proof.Machine.execReleaseDeadlineReached g s
  | .lapseExpiry p => Sys2Proof.Machine.execLapseExpiry p s
  | .portReset p => Sys2Proof.Machine.execPortReset p s
  | .portResetRelease p => Sys2Proof.Machine.execPortResetRelease p s
  | .transactionBegin p => Sys2Proof.Machine.execTransactionBegin p s
  | .transactionEnd p mosi => Sys2Proof.Machine.execTransactionEnd p mosi s
  | .requestCompletion p => Sys2Proof.Machine.execRequestCompletion p s
  | .sessionEndAtOutput p o => Sys2Proof.Machine.execSessionEndAtOutput p o s
  | .sessionEndAtAgenda p => Sys2Proof.Machine.execSessionEndAtAgenda p s
  | .sessionEndAtTripGroup p g => Sys2Proof.Machine.execSessionEndAtTripGroup p g s
  | .sessionEndAtQueue p => Sys2Proof.Machine.execSessionEndAtQueue p s
  | .sessionEndFinish p => Sys2Proof.Machine.execSessionEndFinish p s
  | .recordArrival p batch => Sys2Proof.Machine.execRecordArrival p batch s
  | .prescalerAdvance => Sys2Proof.Machine.execPrescalerAdvance s
  | .openSession p => Sys2Proof.Machine.execOpenSession p s
  | .closeSession p => Sys2Proof.Machine.execCloseSession p s
  | .ping p => Sys2Proof.Machine.execPing p s
  | .status p => Sys2Proof.Machine.execStatus p s
  | .setLapse p interval => Sys2Proof.Machine.execSetLapse p interval s
  | .readTime p => Sys2Proof.Machine.execReadTime p s
  | .setDivide p value => Sys2Proof.Machine.execSetDivide p value s
  | .readInputs p => Sys2Proof.Machine.execReadInputs p s
  | .setFilter p lines length => Sys2Proof.Machine.execSetFilter p lines length s
  | .claim p output wait => Sys2Proof.Machine.execClaim p output wait s
  | .withdraw p output => Sys2Proof.Machine.execWithdraw p output s
  | .release p output => Sys2Proof.Machine.execRelease p output s
  | .writeOutput p output level => Sys2Proof.Machine.execWriteOutput p output level s
  | .reclaim p output => Sys2Proof.Machine.execReclaim p output s
  | .setSafe p output safe group => Sys2Proof.Machine.execSetSafe p output safe group s
  | .readOutputs p => Sys2Proof.Machine.execReadOutputs p s
  | .submit p plan => Sys2Proof.Machine.execSubmit p plan s
  | .query p handle => Sys2Proof.Machine.execQuery p handle s
  | .list p position => Sys2Proof.Machine.execList p position s
  | .setQuota p port quota => Sys2Proof.Machine.execSetQuota p port quota s
  | .cancel p handle => Sys2Proof.Machine.execCancel p handle s
  | .trip p group => Sys2Proof.Machine.execTrip p group s
  | .ackTrip p group => Sys2Proof.Machine.execAckTrip p group s
  | .clearTrip p group force => Sys2Proof.Machine.execClearTrip p group force s
  | .setTripSource p group place source => Sys2Proof.Machine.execSetTripSource p group place source s
  | .setReleaseWindow p group window => Sys2Proof.Machine.execSetReleaseWindow p group window s
  | .subscribe p line edge oneShot => Sys2Proof.Machine.execSubscribe p line edge oneShot s
  | .fetch p count => Sys2Proof.Machine.execFetch p count s
  | .setQueue p mode threshold => Sys2Proof.Machine.execSetQueue p mode threshold s

end Sys2Proof.Machine
end

