-- ==== Sys2Proof/Safety.lean ====
section
/-! DEFINITION. What counts as a sound state of the part, and the terms the claims use: a request in flight and its result, the
entries that a cancellation takes and the records it sends, and the invariants that the rules of spec/ state of each block. -/

namespace Sys2Proof.Machine

/-! ### A request in flight (R154, R176) -/

/-- Port `p` has the request in flight `f`, which awaits its block as request `r`. -/
def InFlight (s : State) (p : Port) (f : Flight) (r : Request) : Prop :=
  (s.port p).activity = .executing f ∧ f.stage = .awaiting r

/-- The state with port `p`'s request in flight `f` answered, and nothing else changed. -/
def State.answered (s : State) (p : Port) (f : Flight) (a : Answer) : State :=
  s.setPort p { s.port p with activity := .executing { f with stage := .answered a } }

/-- Port `p` is in a session end whose progress is `run` (R157). -/
def Ending (s : State) (p : Port) (run : EndRun) : Prop := endRunOf (s.port p) = some run

/-- The state with the progress of port `p`'s session end replaced, and nothing else changed. -/
def State.withRun (s : State) (p : Port) (run : EndRun) : State := s.setPort p (setEndRun run (s.port p))

/-! ### Cancellation (R98 to R102) -/

/-- Every live entry stands in one of the two lists (R66). -/
def Listed (a : Agenda) : Prop := ∀ i, (a.slots.get i).entry.isSome → i ∈ a.armed ∨ i ∈ a.waiting

/-- The slots whose live entry has property `f`. -/
def Holds (a : Agenda) (f : Entry → Prop) (i : SlotNo) : Prop := ∃ e, (a.slots.get i).entry = some e ∧ f e

/-- The slots that a cancellation of the targets takes: each target, and whatever waits on a slot taken (R98, R100). -/
def Falls (a : Agenda) (target : SlotNo → Prop) (j : SlotNo) : Prop :=
  ∃ i, target i ∧ Relation.ReflTransGen (fun x y => y ∈ dependents a x) i j

/-- `b` is `a` with exactly the slots of `C` freed: their generations advance by one, their entries leave both lists, the live
counts of their owners fall by one each, and nothing else changes (R58, R98). -/
structure Freed (a b : Agenda) (C : SlotNo → Prop) : Prop where
  gone : ∀ i, C i → b.slots.get i = { gen := (a.slots.get i).gen + 1, entry := none }
  kept : ∀ i, ¬C i → b.slots.get i = a.slots.get i
  armedOrder : b.armed.Sublist a.armed
  armed : ∀ i, i ∈ b.armed ↔ i ∈ a.armed ∧ ¬C i
  waitingOrder : b.waiting.Sublist a.waiting
  waiting : ∀ i, i ∈ b.waiting ↔ i ∈ a.waiting ∧ ¬C i
  quota : b.quota = a.quota
  live : ∀ p, b.live.get p = a.live.get p - {i | C i ∧ Holds a (fun e => e.owner = p) i}.ncard

/-! ### Arming and the armed list (R64, R93, R94) -/

/-- The armed list stands in due order as seen from `now` (R64). -/
def ArmedSorted (now : Tick) (a : Agenda) : Prop :=
  a.armed.Pairwise fun x y => slotPosition a now x ≤ slotPosition a now y

/-- `b` is `a` with the waiting entries of `js` armed from the anchor tick `now`, and nothing else changed (R93, R94). In a list in due
order, the entries of one due stand with those that were there ahead of those of `js`, and these in the order of `js` (R64). -/
structure Arms (a b : Agenda) (now : Tick) (js : List SlotNo) : Prop where
  moved : ∀ j ∈ js, ∀ x, (a.slots.get j).entry = some x → b.slots.get j =
    { gen := (a.slots.get j).gen
      entry := some { x with state := .armed .first (now + (offsetOf x.plan).setWidth 40)
                                (now + (offsetOf x.plan).setWidth 40) } }
  kept : ∀ j, j ∉ js → b.slots.get j = a.slots.get j
  waiting : b.waiting = a.waiting.filter (· ∉ js)
  armed : b.armed.Perm (js ++ a.armed)
  sorted : ArmedSorted now a → ArmedSorted now b
  order : ArmedSorted now a → ∀ due, b.armed.filter (fun i => dueOf b i = some due) =
    (a.armed ++ js).filter fun i => dueOf b i = some due
  quota : b.quota = a.quota
  live : b.live = a.live

/-- The widths and periods of an entry that can go on firing: a PULSE has a width; an entry with another run to come has a
period, greater than the width of a PULSE (R61, R72). -/
structure Entry.measured (e : Entry) : Prop where
  width : ∀ w, e.plan.action = .pulse w → w ≠ 0
  period : Runs.isLast e.runs = false → ∃ q, e.plan.period = some q ∧ q ≠ 0 ∧ ∀ w, e.plan.action = .pulse w → w < q

/-- Where an ARMED entry's due stands: in phase FIRST at the run start, in phase SECOND, which a PULSE alone has, one width after
it (R63, R84, R86). -/
def Entry.placed (e : Entry) : Prop :=
  match e.state with
  | .waiting => True
  | .armed .first due start => due = start
  | .armed .second due start => ∃ w, e.plan.action = .pulse w ∧ due = start + w.setWidth 40

/-- Each firing moves the entry's due forward by one tick or more, or frees it (R91). -/
def Entry.moves (e : Entry) : Prop := e.measured ∧ e.placed

/-- The agenda as time passes over it: every entry moves forward when it fires, the armed list stands in due order as seen from the
present, and an edge still to be taken is of the present tick (R22, R64, R91). -/
structure Timely (s : State) : Prop where
  moves : ∀ i e, s.entry i = some e → e.moves
  sorted : ArmedSorted s.now s.agenda
  edges : ∀ e ∈ s.published.agenda, e.stamp = s.now

/-! ### The blocks in good order -/

/-- The prescaler count stands at 0 up to the divide value (R1). -/
def Timebase.ok (t : Timebase) : Prop := t.count ≤ t.divide

/-- A settled line counts exactly while its sample differs from its qualified level; an unsettled one reads 0 (R19, R20,
R25). -/
def LineRec.ok (r : LineRec) : Prop :=
  if r.settled then (r.raw ≠ r.qualified ↔ r.stability ≠ 0)
  else r.raw = false ∧ r.qualified = false ∧ r.stability = 0

/-- No port waits twice, the owner does not wait, and nobody waits on an output that has no owner (R33). -/
def OutputRec.ok (r : OutputRec) : Prop :=
  r.waiting.Nodup ∧ (∀ p, r.owner = some p → p ∉ r.waiting) ∧ (r.owner = none → r.waiting = [])

/-- The agenda in good order: the armed list holds the ARMED entries and the waiting list the WAITING ones, each once (R64, R65,
R66); the live counts count, and the quotas sum to 96 at most (R69); a WAITING entry has an INPUT or ENTRY anchor (R66), an
ENTRY anchor of a WAITING entry names a live entry, and in the waiting list an anchor stands ahead of its dependents
(R67). -/
structure Agenda.ok (a : Agenda) : Prop where
  armed : ∀ i, i ∈ a.armed ↔ Holds a (fun e => e.state ≠ .waiting) i
  waiting : ∀ i, i ∈ a.waiting ↔ Holds a (fun e => e.state = .waiting) i
  armedOnce : a.armed.Nodup
  waitingOnce : a.waiting.Nodup
  live : ∀ p, a.live.get p = {i | Holds a (fun e => e.owner = p) i}.ncard
  quotas : a.quota.a + a.quota.b + a.quota.c ≤ 96
  anchored : ∀ i e due, (a.slots.get i).entry = some e → e.state = .waiting → e.plan.anchor ≠ .absolute due
  anchorLive : ∀ i e h n, (a.slots.get i).entry = some e → e.state = .waiting → e.plan.anchor = .entry h n →
    (liveEntry a h).isSome
  anchorFirst : a.waiting.Pairwise fun x y => x ∉ dependents a y
  noSelf : ∀ i, i ∉ dependents a i

/-! ### What a cancellation sends (R99 to R106) -/

/-- The handle that a cancellation record names. -/
def cancelledHandle (m : Msg) : Option Handle :=
  match m.kind with
  | .entryCancelled h _ _ => some h
  | _ => none

/-- `m` is the ENTRY_CANCELLED record, with reason `r` and time `now`, of the entry `e` in slot `i` (R99). -/
def CancelRecord (a : Agenda) (i : SlotNo) (e : Entry) (r : Reason) (now : Tick) (m : Msg) : Prop :=
  m = { kind := .entryCancelled (handleOf a i) e.plan.tag r, time := now }

/-- The slots in the order in which a cancellation of the targets first meets them: each target with its cascade, depth first (R100,
R101). -/
def walk (a : Agenda) (targets : List SlotNo) : List SlotNo := (targets.map (cascade Config.slots a)).flatten

/-- The cancellation records that port `q` gets when the targets are cancelled for `reason`, where the port `muted`, if there is
one, is the port whose session ends: one for each entry of `q` taken, but for a target without a reason; a target's carries
the reason, a dependent's carries ANCHOR_LOST; none to the muted port (R99, R100, R101, R102). In good order an entry whose anchor falls
too gets ANCHOR_LOST, target or not (R101), and the records stand in the order of the walk over the targets in agenda order (R100, R101,
R106). -/
structure CancelRecords (a : Agenda) (target : SlotNo → Prop) (reason : Option Reason) (muted : Option Port) (now : Tick)
    (q : Port) (ms : List Msg) : Prop where
  once : ms.Pairwise fun x y => cancelledHandle x ≠ cancelledHandle y
  each : ∀ m ∈ ms, ∃ i e r, Falls a target i ∧ (a.slots.get i).entry = some e ∧ e.owner = q ∧ CancelRecord a i e r now m ∧
    ((target i ∧ reason = some r) ∨ (r = .anchorLost ∧ ∃ x, Falls a target x ∧ i ∈ dependents a x))
  all : ∀ i e, Falls a target i → (a.slots.get i).entry = some e → e.owner = q → muted ≠ some q →
    (reason.isSome ∨ ¬target i) → ∃ r, ∃ m ∈ ms, CancelRecord a i e r now m
  none : muted = some q → ms = []
  lost : a.ok → ∀ m ∈ ms, ∀ h tag r, m.kind = .entryCancelled h tag r →
    (∃ x, Falls a target x ∧ h.slot ∈ dependents a x) → r = .anchorLost
  order : a.ok → ∃ targets : List SlotNo, targets.Sublist (a.armed ++ a.waiting) ∧ (∀ i, i ∈ targets ↔ target i) ∧
    ms.Pairwise fun x y => ∀ h k, cancelledHandle x = some h → cancelledHandle y = some k →
      (walk a targets).idxOf h.slot < (walk a targets).idxOf k.slot

/-! ### The other blocks in good order -/

/-- A set of ports within another. -/
def PortSet.within (t u : PortSet) : Prop := ∀ p, t.get p = true → u.get p = true

/-- A group in good order: in NORMAL nothing is counted, owed or acknowledged; a trip has its causes; only RELEASING has a
deadline; and in RELEASING an acknowledgment is missing (R108, R121, R124). -/
def GroupRec.ok (r : GroupRec) : Prop :=
  match r.state with
  | .normal => r.count = 0 ∧ r.owed = portSetEmpty ∧ r.acked = portSetEmpty ∧ r.deadline = none
  | .tripped => r.count ≠ 0 ∧ r.first.isSome ∧ r.latest.isSome ∧ r.deadline = none ∧ PortSet.within r.acked r.owed
  | .releasing =>
    r.count ≠ 0 ∧ r.first.isSome ∧ r.latest.isSome ∧ PortSet.within r.acked r.owed ∧ r.acked ≠ r.owed

/-- A queue within its bounds: 64 records, 56 of them general, none at a SHUT intake (R133, R137); an empty cell is not one-shot
(R142). -/
def Queue.ok (q : Queue) : Prop :=
  q.records.length ≤ 64 ∧ q.records.countP Record.isGeneral ≤ 56 ∧ (q.intake = .shut → q.records = []) ∧
    ∀ l, (q.row.get l).edge = .none → (q.row.get l).oneShot = false

/-! ### Forcing and ownership (R34, R40) -/

/-- The protective state: every live entry is listed, stands on an output that its owner owns and that is not forced; and a
forced output stands at its safe level (R34, R40). -/
structure Protected (s : State) : Prop where
  listed : Listed s.agenda
  owned : ∀ i e, s.entry i = some e → (s.output e.plan.output).owner = some e.owner
  unforced : ∀ i e, s.entry i = some e → forced s e.plan.output = false
  safe : ∀ o, forced s o = true → (s.output o).level = (s.output o).safe

/-! ### Controllers and sessions (R152, R153, R157) -/

/-- Where port `p`'s request in flight may stand: a request that awaits its block is in range, is admitted in the session state,
and is the supervisor's if it is reserved (R154, R181); a CLOSE in its steps has a session to end. -/
def Stage.ok (supervisor p : Port) (session : Session) (x : Stage) : Prop :=
  match x with
  | .awaiting r => r.wellFormed = true ∧ admitted session r.code = true ∧ (reserved r.code = true → supervisor = p)
  | .closing run => run.kind = .close ∧ session ≠ .closed
  | .answered _ => True

/-- What a controller may be doing (R152, R157). -/
def Activity.ok (supervisor p : Port) (session : Session) (x : Activity) : Prop :=
  match x with
  | .idle => True
  | .executing f => f.stage.ok supervisor p session
  | .ending run => (run.kind = .lapse ∧ session = .isOpen) ∨ (run.kind = .portReset ∧ session ≠ .closed)

/-- A controller in good order: a deadline stands only in OPEN with an interval and outside a session end, a CLOSED port has no
lapse interval, a port reset is held only while the controller is busy, and a lapse expiry only while a request is in flight (R152,
R155, R157, R162, R164). -/
structure Controller.ok (supervisor p : Port) (c : Controller) : Prop where
  activity : c.activity.ok supervisor p c.session
  deadline : c.deadline.isSome → c.session = .isOpen ∧ c.interval ≠ 0 ∧ endRunOf c = none
  interval : c.session = .closed → c.interval = 0
  held : c.resetHeld = true → c.activity ≠ .idle
  lapse : c.lapseHeld = true → ∃ f, c.activity = .executing f

/-- Port `p` neither owns output `o` nor waits for it. -/
def OffOutput (s : State) (p : Port) (o : Output) : Prop := (s.output o).owner ≠ some p ∧ p ∉ (s.output o).waiting

/-- Port `p` has no live entry. -/
def NoEntry (s : State) (p : Port) : Prop := ∀ i e, s.entry i = some e → e.owner ≠ p

/-- Port `p` is neither owed nor acknowledged in group `g`. -/
def OffGroup (s : State) (p : Port) (g : Group) : Prop :=
  (s.group g).owed.get p = false ∧ (s.group g).acked.get p = false

/-- Port `p`'s queue is empty, shut and unsubscribed. -/
def Flushed (s : State) (p : Port) : Prop :=
  (s.queue p).records = [] ∧ (s.queue p).intake = .shut ∧ ∀ l, (s.queue p).row.get l = Cell.off

/-- What a session end has taken back from port `p` when its next step is the given one (R157). -/
def TakenBack (s : State) (p : Port) (kind : EndKind) (x : EndStep) : Prop :=
  match x with
  | .output k => ∀ o, o < k → OffOutput s p o
  | .agenda => ∀ o, OffOutput s p o
  | .group .G0 => (∀ o, OffOutput s p o) ∧ NoEntry s p
  | .group .G1 => (∀ o, OffOutput s p o) ∧ NoEntry s p ∧ OffGroup s p .G0
  | .queue => (∀ o, OffOutput s p o) ∧ NoEntry s p ∧ OffGroup s p .G0 ∧ OffGroup s p .G1
  | .finish => (∀ o, OffOutput s p o) ∧ NoEntry s p ∧ OffGroup s p .G0 ∧ OffGroup s p .G1 ∧
      (kind ≠ .lapse → Flushed s p)

/-- Port `p` holds no more than its session allows: out of OPEN it holds nothing of the shared state, in CLOSED its queue is
flushed, and a session end has taken back what its steps so far take (R153, R157). -/
structure SessionHolds (s : State) (p : Port) : Prop where
  closed : (s.port p).session = .closed → Flushed s p
  notOpen : (s.port p).session ≠ .isOpen →
    (∀ o, OffOutput s p o) ∧ NoEntry s p ∧ OffGroup s p .G0 ∧ OffGroup s p .G1
  ending : ∀ run, Ending s p run → TakenBack s p run.kind run.step

/-- While RESET_N is low every block holds its reset values (R16, R17, R32, R56, R108, R132, R152). -/
def HeldInReset (s : State) : Prop :=
  s.resetLow = true →
    s.timebase = Timebase.reset ∧ s.lines = .fill LineRec.reset ∧ s.published = Published.reset ∧
    s.outputs = .fill OutputRec.reset ∧ s.agenda = Agenda.reset ∧ s.groups = .fill GroupRec.reset ∧
    s.queues = .fill Queue.reset ∧ s.transit = .fill [] ∧
    ∀ p, s.port p = { Controller.reset with prstLow := (s.port p).prstLow }

/-! ### Nothing to be taken (R5, R14, R22) -/

/-- No event of the present tick is still to be taken: no published change, no reached due at the head of the armed list, no
reached deadline. -/
structure Settled (s : State) : Prop where
  published : s.published = Published.reset
  due : reachedHead s.now s.agenda = none
  release : ∀ g t, (s.group g).state = .releasing → (s.group g).deadline = some t → reached s.now t = false
  lapse : ∀ p, deadlineReached s.now (s.port p).deadline = false

end Sys2Proof.Machine
end

