-- ==== Sys2Proof/Certificates/Slice0/Obligations.lean ====
section
/-! DEFINITION. The statements for the provers. Most have the form: from hypotheses on the state and the operands alone, the
command answers a next state, given as an equation or as what holds of every part of it. Each docstring names the rule or the
section of spec/ that the statement follows. -/

open Sys2Proof Sys2Proof.Machine

/-! ### The block and its queue of commands -/

/-- One step takes the command at the front of the queue and runs it on the state with the rest of the queue; with no command the
block idles. The form of a block's step, and the model's choice for the empty queue (log entry 2). -/
def Obligations.StepTakesTheFrontCommand : Prop :=
  (∀ (s : State) c cs, s.pending = c :: cs → step s = exec c (s.setPending cs)) ∧ (∀ s : State, s.pending = [] → step s = .next s)

/-- Every command answers a next state from every state, and leaves the queue of commands as it is. That a command whose occasion the
state does not hold changes nothing is the model's choice (log entry 3), and that no command ends in a fault or a refusal is its
reading of the spec (log entry 18). -/
def Obligations.EveryCommandCompletes : Prop :=
  ∀ c (s : State), ∃ t, exec c s = .next t ∧ t.pending = s.pending

/-- A request command whose request is not in flight with these operands changes nothing. The model's choice (log entry 3). -/
def Obligations.StaleRequestChangesNothing : Prop :=
  ∀ (s : State) p (r : Request), awaits s p r = false → exec (r.command p) s = .next s

/-! ### Reset -/

/-- DEVICE_RESET puts every block at its reset values at once, drives every output pin to 0, sends no record, and cancels no entry
with a reason (sections 1.7, 2.1, 3.1, 3.4, 4.1, 4.4, 6.1, 7.1, 8.1). That the pins keep their levels and the queue of commands stays
is the model's choice (log entries 1, 13). -/
def Obligations.DeviceResetSetsEveryBlock : Prop :=
  ∀ s : State, ∃ t, exec .deviceReset s = .next t ∧ t.pending = s.pending ∧ t.resetLow = true ∧ t.supervisor = s.supervisor ∧
    t.timebase = { count := 0, tick := 0, divide := 0, pendingValue := 0, pendingMark := false } ∧
    (∀ l, t.line l = { raw := false, qualified := false, stability := 0, filter := 0, settled := false }) ∧
    t.published = { queues := .fill [], agenda := [], groups := .fill [], settling := .fill [] } ∧
    (∀ o, t.output o = { owner := none, waiting := [], level := false, safe := false, group := none }) ∧
    (∀ i, t.slot i = { gen := 0, entry := none }) ∧ t.agenda.armed = [] ∧ t.agenda.waiting = [] ∧
    (∀ p, t.agenda.quota.get p = 32 ∧ t.agenda.live.get p = 0) ∧
    (∀ g, t.group g =
      { state := .normal, sources := .fill none, count := 0, first := none, latest := none, owed := .fill false,
        acked := .fill false, window := 0, deadline := none }) ∧
    (∀ p, t.queue p =
      { records := [], intake := .shut, mode := .stop, threshold := 1, nextSeq := 0, lost := 0, lostTotal := 0,
        row := .fill { edge := .none, oneShot := false } }) ∧
    (∀ p, t.transit.get p = []) ∧
    ∀ p, t.port p =
      { session := .closed, activity := .idle, interval := 0, deadline := none,
        stored := { seq := 0, status := .noRequest, body := .empty, queued := 0 }, last := none, linkErrors := 0,
        mark := false, txn := none, resetHeld := false, lapseHeld := false, prstLow := (s.port p).prstLow }

/-- The straps choose the supervisor at the release of device reset and at no other event; the release changes nothing else; the role
is reported by OPEN and STATUS (section 8.10). That the command, while RESET_N is high, leaves the whole state as it is, is the
model's choice (log entry 3). -/
def Obligations.SupervisorIsChosenAtTheRelease : Prop :=
  (∀ s : State, s.resetLow = true →
    exec (.deviceResetRelease false false) s = .next { s with resetLow := false, supervisor := .A } ∧
    exec (.deviceResetRelease false true) s = .next { s with resetLow := false, supervisor := .B } ∧
    exec (.deviceResetRelease true false) s = .next { s with resetLow := false, supervisor := .C } ∧
    exec (.deviceResetRelease true true) s = .next { s with resetLow := false, supervisor := .A }) ∧
  (∀ (s : State) sup1 sup0, s.resetLow = false → exec (.deviceResetRelease sup1 sup0) s = .next s) ∧
  (∀ c (s t : State), exec c s = .next t → t.supervisor ≠ s.supervisor →
    s.resetLow = true ∧ ∃ sup1 sup0, c = .deviceResetRelease sup1 sup0) ∧
  (∀ (s : State) p f, InFlight s p f .status → ∃ t view, exec (.status p) s = .next t ∧ t = s.answered p f ⟨.ok, .status view⟩ ∧
    view.supervisor = (s.supervisor == p)) ∧
  (∀ (s : State) p f, InFlight s p f .openSession → ∃ t now x was deadline, exec (.openSession p) s = .next t ∧
    (t.port p).activity = .executing { f with stage := .answered ⟨.ok, .opened now x was (s.supervisor == p) deadline⟩ })

/-! ### Time -/

/-- The position of a time is the integer from -(2^39 - 1) to 2^39 congruent to its distance from now; a time is reached when
that is 0 or less, which is the test on the distance modulo 2^40; equal positions are the same time; each rollover lowers every
position by one, but for the lowest, which moves to the highest; so the order of two times holds from tick to tick while
neither stands at the lowest (R4). -/
def Obligations.PositionIsTheDistanceFromNow : Prop :=
  (∀ now t : Tick, -(2 ^ 39 - 1) ≤ position now t ∧ position now t ≤ 2 ^ 39 ∧
    (∃ k : Int, (t.toNat : Int) - now.toNat = position now t + k * 2 ^ 40) ∧
    (∀ d : Int, -(2 ^ 39 - 1) ≤ d → d ≤ 2 ^ 39 → (∃ k : Int, (t.toNat : Int) - now.toNat = d + k * 2 ^ 40) →
      d = position now t) ∧
    (reached now t = true ↔ position now t ≤ 0) ∧
    (reached now t = true ↔ (now - t).toNat < 2 ^ 39) ∧
    position (now + 1) t = (if position now t = -(2 ^ 39 - 1) then 2 ^ 39 else position now t - 1)) ∧
  (∀ now t u : Tick, position now t = position now u → t = u) ∧
  (∀ now t u : Tick, position now t ≠ -(2 ^ 39 - 1) → position now u ≠ -(2 ^ 39 - 1) →
    (position (now + 1) t < position (now + 1) u ↔ position now t < position now u))

/-- A period of REFCLK that is not a rollover raises the prescaler count by one while it is below the divide value and changes
nothing else; none is counted while RESET_N is low. With the count at the divide value the next period is a rollover: it returns the
count to 0, advances the tick counter by one modulo 2^40, and makes a pending divide value the divide value, clearing the mark; one at
which nothing of the present tick is still to be taken changes the timebase, the lines and what is published, and nothing else
(sections 1.1, 1.2, 1.4, 1.6, 1.7). That the first kind of period is the command PRESCALER_ADVANCE and the second TICK, and that each
changes nothing where the period is of the other kind, is the model's choice (log entries 3, 5). -/
def Obligations.PrescalerAndRolloverCountTime : Prop :=
  (∀ s : State, s.resetLow = true → exec .prescalerAdvance s = .next s) ∧
  (∀ s : State, s.resetLow = false → s.timebase.count < s.timebase.divide →
    exec .prescalerAdvance s = .next (s.setTimebase { s.timebase with count := s.timebase.count + 1 })) ∧
  (∀ s : State, s.resetLow = false → s.timebase.divide ≤ s.timebase.count → exec .prescalerAdvance s = .next s) ∧
  (∀ (s : State) samples, s.resetLow = true → exec (.tick samples) s = .next s) ∧
  (∀ (s : State) samples, s.timebase.count < s.timebase.divide → exec (.tick samples) s = .next s) ∧
  (∀ (s : State) samples, s.resetLow = false → s.timebase.divide ≤ s.timebase.count →
    ∃ t, exec (.tick samples) s = .next t ∧ t.timebase =
      { count := 0
        tick := s.timebase.tick + 1
        divide := if s.timebase.pendingMark then s.timebase.pendingValue else s.timebase.divide
        pendingValue := s.timebase.pendingValue
        pendingMark := false }) ∧
  ∀ (s : State) samples, s.resetLow = false → s.timebase.divide ≤ s.timebase.count → Settled s → ∃ time lines published,
    exec (.tick samples) s = .next { s with timebase := time, lines := lines, published := published }

/-- A tick event, which is a rollover and so comes with the prescaler count at the divide value, samples all sixteen lines: an
unsettled line takes the sample as its level and is settled; a settled line whose sample agrees clears its count; one whose sample
differs counts, or qualifies the change when the count would reach F + 1; the filter lengths stay (sections 2.2, 2.3, 2.4). -/
def Obligations.TickStepsEveryLine : Prop :=
  ∀ (s : State) samples, s.resetLow = false → s.timebase.divide ≤ s.timebase.count →
    ∃ t, exec (.tick samples) s = .next t ∧ ∀ l,
    (t.line l).raw = samples.getLsbD l.val ∧ (t.line l).settled = true ∧ (t.line l).filter = (s.line l).filter ∧
    ((s.line l).settled = false →
      (t.line l).qualified = samples.getLsbD l.val ∧ (t.line l).stability = (s.line l).stability) ∧
    ((s.line l).settled = true → samples.getLsbD l.val = (s.line l).qualified →
      (t.line l).qualified = (s.line l).qualified ∧ (t.line l).stability = 0) ∧
    ((s.line l).settled = true → samples.getLsbD l.val ≠ (s.line l).qualified →
      ((s.line l).stability < (s.line l).filter →
        (t.line l).qualified = (s.line l).qualified ∧ (t.line l).stability = (s.line l).stability + 1) ∧
      ((s.line l).filter ≤ (s.line l).stability →
        (t.line l).qualified = samples.getLsbD l.val ∧ (t.line l).stability = 0))

/-- A tick event, with the prescaler count at the divide value, leaves each consumer exactly the changes that qualified at it, stamped
with the new tick: an edge for a settled line whose qualified level changed, RISE from 0 to 1 and FALL from 1 to 0, for the three
queues, the agenda and both groups; a settling change for an unsettled line sampled at 1, for the two groups alone; each line at most
once (sections 2.3, 2.5). What was published before has been taken (log entry 4). -/
def Obligations.TickPublishesWhatQualified : Prop :=
  ∀ (s : State) samples, s.resetLow = false → s.timebase.divide ≤ s.timebase.count →
    ∃ t edges settling, exec (.tick samples) s = .next t ∧
    t.published = { queues := .fill edges, agenda := edges, groups := .fill edges, settling := .fill settling } ∧
    (edges.map Edge.line).Nodup ∧ (settling.map Settling.line).Nodup ∧
    (∀ e, e ∈ edges ↔ e.stamp = s.now + 1 ∧ (s.line e.line).settled = true ∧
      (t.line e.line).qualified ≠ (s.line e.line).qualified ∧ dirLevel e.dir = (t.line e.line).qualified) ∧
    (∀ x, x ∈ settling ↔ x.stamp = s.now + 1 ∧ (s.line x.line).settled = false ∧ (t.line x.line).qualified = true)

/-- From a settled line with its count at 0, F samples or fewer publish no edge and keep the qualified level and the filter
length, whatever they are; so two changes of a line are at least F + 1 ticks apart and a raw pulse of F samples or fewer yields no
edge (section 2.4). -/
def Obligations.FewSamplesPublishNoEdge : Prop :=
  ∀ (r : LineRec) (xs : List Bool) (x : Bool), r.settled = true → r.stability = 0 → xs.length < r.filter.toNat →
    lineEdge x (xs.foldl (fun q y => stepLine y q) r) = none ∧
    (stepLine x (xs.foldl (fun q y => stepLine y q) r)).qualified = r.qualified ∧
    (stepLine x (xs.foldl (fun q y => stepLine y q) r)).filter = r.filter

/-- SET_DIVIDE and the rollover in either order, with the prescaler count at the divide value: taken first, the request's value becomes
the divide value at that rollover; taken second, the earlier pending value takes effect if the mark was set, and the request's value
waits with the mark set for the following rollover, at which the count has reached the divide value then in force; in both orders the
reply shows what the request saw (R11). -/
def Obligations.SetDivideMeetsTheRollover : Prop :=
  ∀ (s : State) p f v samples, s.resetLow = false → s.timebase.divide ≤ s.timebase.count → InFlight s p f (.setDivide v) →
    (∃ t u, exec (.setDivide p v) s = .next t ∧ exec (.tick samples) t = .next u ∧
      (t.port p).activity =
        .executing { f with stage := .answered ⟨.ok, .time s.timebase.tick s.timebase.divide v true⟩ } ∧
      u.timebase = { count := 0, tick := s.timebase.tick + 1, divide := v, pendingValue := v, pendingMark := false }) ∧
    (∃ t u, exec (.tick samples) s = .next t ∧ exec (.setDivide p v) t = .next u ∧
      t.timebase.divide = (if s.timebase.pendingMark then s.timebase.pendingValue else s.timebase.divide) ∧
      (u.port p).activity =
        .executing { f with stage := .answered ⟨.ok, .time (s.timebase.tick + 1) t.timebase.divide v true⟩ } ∧
      u.timebase.divide = t.timebase.divide ∧ u.timebase.pendingMark = true ∧
      ∀ x : State, x.resetLow = false → x.timebase = { u.timebase with count := u.timebase.divide } →
        ∃ w, exec (.tick samples) x = .next w ∧ w.timebase.divide = v ∧ w.timebase.pendingMark = false)

/-! ### Requests that read, and requests that write one setting -/

/-- PING, STATUS, READ_TIME, READ_INPUTS, READ_OUTPUTS and QUERY change nothing but their own result: each answers OK with what it
reads at its now; QUERY of a stale handle answers BAD_HANDLE with no body (sections 1.5, 2.6, 3.7, 4.6, 8.9). -/
def Obligations.ReadingRequestsChangeNothing : Prop :=
  ∀ (s : State) p f,
    (InFlight s p f .ping → exec (.ping p) s = .next (s.answered p f ⟨.ok, .pinged s.now (s.port p).deadline⟩)) ∧
    (InFlight s p f .readTime → exec (.readTime p) s = .next (s.answered p f
      ⟨.ok, .time s.timebase.tick s.timebase.divide s.timebase.pendingValue s.timebase.pendingMark⟩)) ∧
    (InFlight s p f .status → ∃ view, exec (.status p) s = .next (s.answered p f ⟨.ok, .status view⟩) ∧
      view.tick = s.now ∧ view.session = (s.port p).session ∧ view.supervisor = (s.supervisor == p) ∧
      view.interval = (s.port p).interval ∧ view.deadline = (s.port p).deadline ∧
      view.queued = (s.queue p).records.length ∧ view.lostTotal = (s.queue p).lostTotal ∧
      view.linkErrors = (s.port p).linkErrors ∧ view.live = s.agenda.live.get p ∧ view.quota = s.agenda.quota.get p ∧
      (∀ o, view.owned.get o = true ↔ (s.output o).owner = some p) ∧
      (∀ g, (view.groups.get g).state = (s.group g).state ∧ (view.groups.get g).owed = (s.group g).owed.get p ∧
        (view.groups.get g).acked = (s.group g).acked.get p)) ∧
    (InFlight s p f .readInputs → ∃ view, exec (.readInputs p) s = .next (s.answered p f ⟨.ok, .inputs s.now view⟩) ∧
      ∀ l, (view.get l).qualified = (s.line l).qualified ∧ (view.get l).raw = (s.line l).raw ∧
        ((view.get l).counting = true ↔ (s.line l).stability ≠ 0) ∧ (view.get l).filter = (s.line l).filter) ∧
    (InFlight s p f .readOutputs → ∃ view, exec (.readOutputs p) s = .next (s.answered p f ⟨.ok, .outputs s.now view⟩) ∧
      ∀ o, (view.get o).owner = (s.output o).owner ∧ (view.get o).level = (s.output o).level ∧
        ((view.get o).forced = true ↔ ∃ g, (s.output o).group = some g ∧ (s.group g).state ≠ .normal) ∧
        (view.get o).waiting = (s.output o).waiting.length) ∧
    (∀ h, InFlight s p f (.query h) →
      (∀ e, s.entry h.slot = some e → (s.slot h.slot).gen = h.gen →
        exec (.query p h) s = .next (s.answered p f ⟨.ok, .entry s.now ⟨h, e⟩⟩)) ∧
      (s.entry h.slot = none ∨ (s.slot h.slot).gen ≠ h.gen →
        exec (.query p h) s = .next (s.answered p f ⟨.badHandle, .empty⟩)))

/-- LIST changes nothing but its own result. In good order it shows the caller's live count, which is the length of the caller's
combined order; from the position given it shows entries of that order with none skipped, at most three and at most 50 bytes of
summaries; it shows at least one where the order goes on, and stops before three only at the end of the order or at a summary that does
not fit (sections 4.6, 10.4). -/
def Obligations.ListWalksTheCallersOrder : Prop :=
  ∀ (s : State) p f k, InFlight s p f (.list k) → s.agenda.ok → ∃ shown : List Summary, ∃ rest : List SlotNo,
    exec (.list p k) s = .next (s.answered p f ⟨.ok, .entries s.now (s.agenda.live.get p) k shown⟩) ∧
    s.agenda.live.get p = (agendaOrder s.agenda fun e => e.owner == p).length ∧
    (agendaOrder s.agenda fun e => e.owner == p).drop k.toNat = shown.map (fun v => v.handle.slot) ++ rest ∧
    (∀ v ∈ shown, s.entry v.handle.slot = some v.entry ∧ v.entry.owner = p ∧ v.handle.gen = (s.slot v.handle.slot).gen) ∧
    shown.length ≤ 3 ∧ ((shown.map Summary.bytes).flatten).length ≤ 50 ∧
    (k.toNat < s.agenda.live.get p → shown ≠ []) ∧
    (shown.length < 3 → rest = [] ∨ ∃ i e more, rest = i :: more ∧ s.entry i = some e ∧
      50 < ((shown.map Summary.bytes).flatten).length + (Summary.bytes ⟨handleOf s.agenda i, e⟩).length)

/-- SET_DIVIDE, SET_FILTER, SET_QUOTA, SET_RELEASE_WINDOW, SUBSCRIBE and SET_QUEUE each write one setting and change nothing else but
their own result: the pending divide value with its mark; the filter length of each line in the set; the named port's quota, unless
the three would sum to more than 96; the release window of the group, whose deadline stays; the caller's cell of one line, its one-shot
flag clear where the setting is none; the caller's queue mode and threshold (sections 1.4, 2.7, 4.4, 6.8, 7.4, 7.6). -/
def Obligations.SettingRequestsWriteOneThing : Prop :=
  ∀ (s : State) p f,
    (∀ v, InFlight s p f (.setDivide v) → exec (.setDivide p v) s = .next
      ((s.setTimebase { s.timebase with pendingValue := v, pendingMark := true }).answered p f
        ⟨.ok, .time s.timebase.tick s.timebase.divide v true⟩)) ∧
    (∀ lines n, InFlight s p f (.setFilter lines n) → ∃ table view, exec (.setFilter p lines n) s = .next
      ((s.setLines table).answered p f ⟨.ok, .inputs s.now view⟩) ∧ ∀ l,
        table.get l = (if lines.getLsbD l.val then { s.line l with filter := n } else s.line l) ∧
        view.get l = { qualified := (s.line l).qualified, raw := (s.line l).raw,
                       counting := (s.line l).stability != 0, filter := (table.get l).filter }) ∧
    (∀ q n, InFlight s p f (.setQuota q n) →
      let quota := s.agenda.quota.set q n.toNat
      (96 < quota.a + quota.b + quota.c → exec (.setQuota p q n) s = .next
        (s.answered p f ⟨.badArgument, .quotas s.agenda.quota s.agenda.live⟩)) ∧
      (quota.a + quota.b + quota.c ≤ 96 → exec (.setQuota p q n) s = .next
        ((s.setAgenda { s.agenda with quota := quota }).answered p f ⟨.ok, .quotas quota s.agenda.live⟩))) ∧
    (∀ g n, InFlight s p f (.setReleaseWindow g n) → exec (.setReleaseWindow p g n) s = .next
      ((s.setGroup g { s.group g with window := n }).answered p f
        ⟨.ok, .group (groupView (s.setGroup g { s.group g with window := n }) g)⟩)) ∧
    (∀ l e one, InFlight s p f (.subscribe l e one) →
      let row := (s.queue p).row.set l { edge := e, oneShot := if e = .none then false else one }
      exec (.subscribe p l e one) s = .next
        ((s.setQueue p { s.queue p with row := row }).answered p f ⟨.ok, .row row⟩)) ∧
    (∀ m n, InFlight s p f (.setQueue m n) → exec (.setQueue p m n) s = .next
      ((s.setQueue p { s.queue p with mode := m, threshold := n.toNat }).answered p f
        ⟨.ok, .queue { mode := m, threshold := n.toNat, length := (s.queue p).records.length,
                       general := (s.queue p).records.countP (fun r => !r.kind.isSystem),
                       system := (s.queue p).records.countP (fun r => r.kind.isSystem),
                       lost := (s.queue p).lost, lostTotal := (s.queue p).lostTotal }⟩))

/-! ### Sessions -/

/-- OPEN makes the session OPEN and the intake ACCEPTING, and changes nothing else of the part but its own result: from CLOSED;
from LAPSED, where the deadline is set to now plus the kept interval if that is 1 or more; in OPEN, where it changes nothing (sections
7.8, 8.4). From CLOSED the edges qualified before it are no longer to be taken by the port's queue (sections 2.5, 7.4), and a record on
its way stays on its way (section 7.8); that it is admitted if it arrives after the OPEN is the model's reading (log entry 8). -/
def Obligations.OpenBeginsTheSession : Prop :=
  ∀ (s : State) p f, InFlight s p f .openSession →
    let c := s.port p
    let q := { s.queue p with intake := .accepting }
    (c.session = .closed → exec (.openSession p) s = .next
      ((((s.setPublished { s.published with queues := s.published.queues.set p [] }).setQueue p q).setPort p
          { c with session := .isOpen }).answered p f
        ⟨.ok, .opened s.now .isOpen false (s.supervisor == p) c.deadline⟩)) ∧
    (c.session = .lapsed → c.interval ≠ 0 → exec (.openSession p) s = .next
      (((s.setQueue p q).setPort p
          { c with session := .isOpen, deadline := some (s.now + c.interval.setWidth 40) }).answered p f
        ⟨.ok, .opened s.now .isOpen true (s.supervisor == p) (some (s.now + c.interval.setWidth 40))⟩)) ∧
    (c.session = .lapsed → c.interval = 0 → exec (.openSession p) s = .next
      (((s.setQueue p q).setPort p { c with session := .isOpen }).answered p f
        ⟨.ok, .opened s.now .isOpen true (s.supervisor == p) c.deadline⟩)) ∧
    (c.session = .isOpen → exec (.openSession p) s = .next
      ((s.setQueue p q).answered p f ⟨.ok, .opened s.now .isOpen false (s.supervisor == p) c.deadline⟩))

/-- The first and the last step of a session end. CLOSE makes the deadline absent and stays in flight through the steps; a lapse
expiry of a port whose session is OPEN and whose deadline is reached begins the steps at an IDLE controller and is held at an EXECUTING
one; that it changes nothing otherwise is the model's choice (log entry 3). The last step makes the session CLOSED with interval 0, or
LAPSED with its interval kept; CLOSE completes there with the counts of its steps and a stored reply; the activity becomes IDLE. A
port reset held to that step is taken there instead, in the session state that it leaves: the stored reply, the last bytes, the link
errors and the mark are cleared, and after a lapse the port reset's own session end begins (sections 8.5, 8.6, 8.7, 8.8; the clearing at
that moment is log entry 16). -/
def Obligations.SessionEndsBeginAndFinish : Prop :=
  (∀ (s : State) p f, InFlight s p f .closeSession → exec (.closeSession p) s = .next (s.setPort p
    { s.port p with deadline := none, activity := .executing { f with stage := .closing ⟨.close, .output 0, 0, 0, 0⟩ } })) ∧
  (∀ (s : State) p d, (s.port p).session = .isOpen → (s.port p).activity = .idle → (s.port p).deadline = some d →
    reached s.now d = true → ∃ txn, exec (.lapseExpiry p) s = .next (s.setPort p
      { s.port p with deadline := none, activity := .ending ⟨.lapse, .output 0, 0, 0, 0⟩, txn := txn }) ∧
      (∀ x, txn = some x ↔ ∃ y, (s.port p).txn = some y ∧
        x = { y with mode := if y.mode = .judged then .notReady else y.mode })) ∧
  (∀ (s : State) p d f, (s.port p).session = .isOpen → (s.port p).activity = .executing f → (s.port p).deadline = some d →
    reached s.now d = true → exec (.lapseExpiry p) s = .next (s.setPort p { s.port p with lapseHeld := true })) ∧
  (∀ (s : State) p, ((s.port p).session ≠ .isOpen ∨ (∃ run, (s.port p).activity = .ending run) ∨
    deadlineReached s.now (s.port p).deadline = false) → exec (.lapseExpiry p) s = .next s) ∧
  (∀ (s : State) p run, (s.port p).activity = .ending run → run.step = .finish →
    let c := s.port p
    let cleared := { c with
      stored := { seq := 0, status := .noRequest, body := .empty, queued := 0 }, last := none, linkErrors := 0,
      mark := false, resetHeld := false }
    let becomes := fun c2 => exec (.sessionEndFinish p) s = .next (s.setPort p c2)
    (run.kind = .lapse → c.resetHeld = false → becomes { c with session := .lapsed, activity := .idle }) ∧
    (run.kind = .lapse → c.resetHeld = true → becomes { cleared with
      session := .lapsed, deadline := none, activity := .ending ⟨.portReset, .output 0, 0, 0, 0⟩ }) ∧
    (run.kind = .portReset → c.resetHeld = false → becomes { c with session := .closed, interval := 0, activity := .idle }) ∧
    (run.kind = .portReset → c.resetHeld = true → becomes
      { cleared with session := .closed, interval := 0, activity := .idle })) ∧
  (∀ (s : State) p f run, (s.port p).activity = .executing f → f.stage = .closing run → run.kind = .close →
    run.step = .finish →
    let c := s.port p
    let closed := { c with session := .closed, interval := 0, activity := .idle, lapseHeld := false }
    let becomes := fun c2 => exec (.sessionEndFinish p) s = .next (s.setPort p c2)
    (c.resetHeld = false → becomes { closed with
      last := some (f.seq, f.check)
      stored := { seq := f.seq, status := .ok, queued := (s.queue p).records.length
                  body := .closed s.now run.released run.cancelled run.flushed } }) ∧
    (c.resetHeld = true → becomes { closed with
      stored := { seq := 0, status := .noRequest, body := .empty, queued := 0 }, last := none, linkErrors := 0,
      mark := false, resetHeld := false }))

/-- A session end at the port's queue: CLOSE and port reset flush the records uncounted, shut the intake, return mode, threshold
and row to their defaults, clear both lost counts, keep the next sequence number, and so release the attention line; a lapse keeps
all of it and places a LAPSED record under the ordinary admission and overflow rules, counted as lost if overflow discards it. The
event reaches the queue once, and no other port's queue (R150). -/
def Obligations.SessionEndReachesTheQueueOnce : Prop :=
  ∀ (s : State) p run, Ending s p run → run.step = .queue →
    let run' := { run with step := .finish, flushed := run.flushed + (s.queue p).records.length }
    (run.kind ≠ .lapse → exec (.sessionEndAtQueue p) s = .next ((s.setQueue p
        { records := [], intake := .shut, mode := .stop, threshold := 1, nextSeq := (s.queue p).nextSeq, lost := 0,
          lostTotal := 0, row := .fill { edge := .none, oneShot := false } }).withRun p run') ∧
      ∀ t, exec (.sessionEndAtQueue p) s = .next t → (t.queue p).attention = false) ∧
    (run.kind = .lapse → exec (.sessionEndAtQueue p) s = .next
        ((s.setQueue p (arrive (s.queue p) { kind := .lapsed, time := s.now })).withRun p run') ∧
      (∀ t, exec (.sessionEndAtQueue p) s = .next t → (t.queue p).intake = (s.queue p).intake ∧
        (t.queue p).mode = (s.queue p).mode ∧ (t.queue p).threshold = (s.queue p).threshold ∧
        (t.queue p).row = (s.queue p).row) ∧
      ((s.queue p).intake = .accepting → (s.queue p).records.length = 64 → (s.queue p).records.all Record.isSystem = true →
        (s.queue p).mode = .stop → ∀ t, exec (.sessionEndAtQueue p) s = .next t →
          (t.queue p).records = (s.queue p).records ∧ (t.queue p).lost = satInc (s.queue p).lost ∧
          (t.queue p).lostTotal = satInc (s.queue p).lostTotal)) ∧
    ∀ t, exec (.sessionEndAtQueue p) s = .next t → exec (.sessionEndAtQueue p) t = .next t

/-- A session end at a group takes the port out of both sets. In RELEASING with the set then fully acknowledged the group enters
NORMAL, and TRIP_CLEARED goes to every OPEN or LAPSED port; otherwise the state, the count and the deadline stay. Sources, causes
and window stay (sections 6.6, 6.7). -/
def Obligations.SessionEndAtGroupOutcomes : Prop :=
  ∀ (s : State) p g run, Ending s p run → run.step = .group g →
    let run' := { run with step := if g = .G0 then .group .G1 else .queue }
    let r := { s.group g with owed := (s.group g).owed.set p false, acked := (s.group g).acked.set p false }
    (¬(r.state = .releasing ∧ r.acked = r.owed) →
      exec (.sessionEndAtTripGroup p g) s = .next ((s.setGroup g r).withRun p run')) ∧
    (r.state = .releasing → r.acked = r.owed → ∃ tr, exec (.sessionEndAtTripGroup p g) s = .next (((s.setGroup g
        { r with state := .normal, count := 0, owed := .fill false, acked := .fill false, deadline := none }).setTransit
          tr).withRun p run') ∧
      ∀ q, tr.get q = addBatch (s.transit.get q)
        (if (s.port q).session = .closed then [] else [{ kind := .tripCleared g, time := s.now }]))

/-- A session end at an output record that the port owns cancels the port's entries on that output with no record to the port,
hands the output to the head waiter with CLAIM_GRANTED or leaves it unowned, and keeps level, safe level and group; at a record where
the port waits it leaves the list; at any other it changes nothing; each time the session end goes on to the next step. In good order
each port's cancellation records stand depth first, in agenda order of the entries cancelled (sections 3.4, 5.4, 8.5). -/
def Obligations.SessionEndAtOutputOutcomes : Prop :=
  ∀ (s : State) p o run, Ending s p run → run.step = .output o →
    let next : EndStep := if h : o.val + 1 < 12 then .output ⟨o.val + 1, h⟩ else .agenda
    ((s.output o).owner ≠ some p → exec (.sessionEndAtOutput p o) s = .next ((s.setOutput o
      { s.output o with waiting := (s.output o).waiting.filter (· ≠ p) }).withRun p { run with step := next })) ∧
    ((s.output o).owner = some p → Listed s.agenda →
      let target := Holds s.agenda fun e => e.owner = p ∧ e.plan.output = o
      ∃ a tr, exec (.sessionEndAtOutput p o) s = .next ((((s.setAgenda a).setOutput o
          { s.output o with owner := (s.output o).waiting.head?, waiting := (s.output o).waiting.tail }).setTransit
            tr).withRun p { run with
              step := next
              released := run.released + 1
              cancelled := run.cancelled + (s.agenda.live.get p - a.live.get p) }) ∧
        Freed s.agenda a (Falls s.agenda target) ∧
        ∀ q, ∃ ms, CancelRecords s.agenda target none (some p) s.now q ms ∧
          tr.get q = addBatch (s.transit.get q)
            (ms ++ if (s.output o).waiting.head? = some q then [{ kind := .claimGranted o, time := s.now }] else []))

/-- A session end at the agenda cancels every live entry that the port still owns, with what waits on them, sends the port no
record for its own, tells the owners of the dependents with ANCHOR_LOST, in good order depth first in agenda order of the entries it
names, and leaves the port no entry (sections 5.4, 8.5). -/
def Obligations.SessionEndAtAgendaEmptiesThePort : Prop :=
  ∀ (s : State) p run, Ending s p run → run.step = .agenda → Listed s.agenda →
    let target := Holds s.agenda fun e => e.owner = p
    ∃ a tr, exec (.sessionEndAtAgenda p) s = .next (((s.setAgenda a).setTransit tr).withRun p { run with
          step := .group .G0
          cancelled := run.cancelled + (s.agenda.live.get p - a.live.get p) }) ∧
      Freed s.agenda a (Falls s.agenda target) ∧ (∀ i e, (a.slots.get i).entry = some e → e.owner ≠ p) ∧
      ∀ q, ∃ ms, CancelRecords s.agenda target none (some p) s.now q ms ∧ tr.get q = addBatch (s.transit.get q) ms

/-! ### Outputs -/

/-- CLAIM makes the caller owner of an output without one; it changes nothing where the caller owns it, where the wait flag is
clear, or where the caller waits already; with the flag set another port's output takes the caller at the tail of its list. The reply
names the owner after the request and the caller's place. WITHDRAW takes the caller out of the list, or answers WRONG_STATE
(section 3.3). -/
def Obligations.ClaimAndWithdrawOutcomes : Prop :=
  (∀ (s : State) p o wait f, InFlight s p f (.claim o wait) →
    let r := s.output o
    (r.owner = none → p ∉ r.waiting → exec (.claim p o wait) s = .next
      ((s.setOutput o { r with owner := some p }).answered p f ⟨.ok, .claim (some p) 0⟩)) ∧
    (r.owner = some p → p ∉ r.waiting → exec (.claim p o wait) s = .next (s.answered p f ⟨.ok, .claim (some p) 0⟩)) ∧
    (∀ q, r.owner = some q → q ≠ p → p ∉ r.waiting → wait = false → exec (.claim p o wait) s = .next
      (s.answered p f ⟨.heldByOther, .claim (some q) 0⟩)) ∧
    (∀ q, r.owner = some q → q ≠ p → p ∉ r.waiting → wait = true → exec (.claim p o wait) s = .next
      ((s.setOutput o { r with waiting := r.waiting ++ [p] }).answered p f
        ⟨.queued, .claim (some q) (r.waiting.length + 1)⟩)) ∧
    (∀ q ahead behind, r.owner = some q → q ≠ p → r.waiting = ahead ++ p :: behind → p ∉ ahead →
      exec (.claim p o wait) s = .next (s.answered p f
        ⟨if wait then .queued else .heldByOther, .claim (some q) (ahead.length + 1)⟩))) ∧
  (∀ (s : State) p o f, InFlight s p f (.withdraw o) →
    let r := s.output o
    (∀ ahead behind, r.waiting = ahead ++ p :: behind → p ∉ ahead → p ∉ behind → exec (.withdraw p o) s = .next
      ((s.setOutput o { r with waiting := ahead ++ behind }).answered p f
        ⟨.ok, .withdraw r.owner (ahead.length + behind.length)⟩)) ∧
    (p ∉ r.waiting → exec (.withdraw p o) s = .next (s.answered p f ⟨.wrongState, .withdraw r.owner r.waiting.length⟩)))

/-- WRITE_OUTPUT sets the level of an output that the caller owns and that is not forced; NOT_OWNER comes before TRIPPED.
SET_SAFE writes safe level and group where neither the present group nor the one named is out of NORMAL, and changes nothing
otherwise. Each reply carries what stands after the request (sections 3.5, 3.6). -/
def Obligations.WriteOutputAndSetSafeOutcomes : Prop :=
  (∀ (s : State) p o level f, InFlight s p f (.writeOutput o level) →
    let r := s.output o
    (r.owner ≠ some p → exec (.writeOutput p o level) s = .next (s.answered p f ⟨.notOwner, .level r.level⟩)) ∧
    (∀ g, r.owner = some p → r.group = some g → (s.group g).state ≠ .normal →
      exec (.writeOutput p o level) s = .next (s.answered p f ⟨.tripped, .level r.level⟩)) ∧
    (r.owner = some p → (∀ g, r.group = some g → (s.group g).state = .normal) → exec (.writeOutput p o level) s = .next
      ((s.setOutput o { r with level := level }).answered p f ⟨.ok, .level level⟩))) ∧
  (∀ (s : State) p o safe group f, InFlight s p f (.setSafe o safe group) →
    let r := s.output o
    ((∃ g, (r.group = some g ∨ group = some g) ∧ (s.group g).state ≠ .normal) →
      exec (.setSafe p o safe group) s = .next (s.answered p f ⟨.wrongState, .safe r.safe r.group⟩)) ∧
    ((∀ g, (r.group = some g ∨ group = some g) → (s.group g).state = .normal) →
      exec (.setSafe p o safe group) s = .next
        ((s.setOutput o { r with safe := safe, group := group }).answered p f ⟨.ok, .safe safe group⟩)))

/-- RELEASE of an output that the caller does not own answers NOT_OWNER and changes nothing. By the owner it cancels the caller's
entries on the output with reason RELEASED and what waits on them with ANCHOR_LOST, an entry that is both with ANCHOR_LOST, in good
order depth first in agenda order, then hands the output to the head waiter, who gets
CLAIM_GRANTED behind any cancellation record, or leaves it with no owner; level, safe level and group stay; the reply counts the
caller's entries cancelled with reason RELEASED (sections 3.4, 5.4; log entry 9). -/
def Obligations.ReleaseHandsTheOutputOn : Prop :=
  ∀ (s : State) p o f, InFlight s p f (.release o) →
    ((s.output o).owner ≠ some p →
      exec (.release p o) s = .next (s.answered p f ⟨.notOwner, .release (s.output o).owner 0⟩)) ∧
    ((s.output o).owner = some p → Listed s.agenda →
      let target := Holds s.agenda fun e => e.owner = p ∧ e.plan.output = o
      let heir := (s.output o).waiting.head?
      ∃ a tr n, exec (.release p o) s = .next ((((s.setAgenda a).setOutput o
          { s.output o with owner := heir, waiting := (s.output o).waiting.tail }).setTransit tr).answered p f
            ⟨.ok, .release heir n⟩) ∧
        Freed s.agenda a (Falls s.agenda target) ∧
        ∀ q, ∃ ms, CancelRecords s.agenda target (some .released) none s.now q ms ∧
          tr.get q = addBatch (s.transit.get q)
            (ms ++ if heir = some q then [{ kind := .claimGranted o, time := s.now }] else []) ∧
          (q = p → n = ms.countP fun m => match m.kind with | .entryCancelled _ _ .released => true | _ => false))

/-- RECLAIM gives the supervisor an output without an owner and changes nothing where it owns it. From another owner it cancels
that owner's entries on the output with reason RECLAIMED and what waits on them with ANCHOR_LOST, in good order depth first in agenda
order, sends that owner OWNERSHIP_REVOKED after those records, and takes the output ahead of the waiters, leaving the list if it was
there; level, safe level and group stay (sections 3.4, 5.4). That nobody gets CLAIM_GRANTED is the model's choice between R42 and
R44 (log entry 21). -/
def Obligations.ReclaimTakesTheOutput : Prop :=
  ∀ (s : State) p o f, InFlight s p f (.reclaim o) →
    let r := s.output o
    (r.owner = none → exec (.reclaim p o) s = .next
      ((s.setOutput o { r with owner := some p }).answered p f ⟨.ok, .reclaim none (some p)⟩)) ∧
    (r.owner = some p → exec (.reclaim p o) s = .next (s.answered p f ⟨.ok, .reclaim (some p) (some p)⟩)) ∧
    (∀ q, r.owner = some q → q ≠ p → Listed s.agenda →
      let target := Holds s.agenda fun e => e.owner = q ∧ e.plan.output = o
      ∃ a tr, exec (.reclaim p o) s = .next ((((s.setAgenda a).setOutput o
          { r with owner := some p, waiting := r.waiting.filter (· ≠ p) }).setTransit tr).answered p f
            ⟨.ok, .reclaim (some q) (some p)⟩) ∧
        Freed s.agenda a (Falls s.agenda target) ∧
        ∀ k, ∃ ms, CancelRecords s.agenda target (some .reclaimed) none s.now k ms ∧
          tr.get k = addBatch (s.transit.get k)
            (ms ++ if k = q then [{ kind := .ownershipRevoked o, time := s.now }] else []))

/-- A level action sets the level to 1 for SET and for the FIRST phase of a PULSE, to 0 for CLEAR and for the SECOND phase, and to
the opposite for TOGGLE, whatever set the level, whoever owns the output and whether or not it is forced; it changes nothing else;
a level set to what it was leaves the state as it was (section 3.2). -/
def Obligations.LevelActionsSetTheLevel : Prop :=
  ∀ (w : Work) (o : Output) (action : Action) (phase : Phase),
    applyLevel o action phase w = { w with st := w.st.setOutput o { w.st.output o with level :=
      match action, phase with
      | .set, _ => true
      | .clear, _ => false
      | .toggle, _ => !(w.st.output o).level
      | .pulse _, .first => true
      | .pulse _, .second => false } } ∧
    ((applyLevel o action phase w).st.output o = w.st.output o → applyLevel o action phase w = w)

/-! ### The agenda -/

/-- The checks of SUBMIT against the state of the part, in their order, with the three counts in every refusal; and the
acceptance of an entry: it takes the lowest FREE slot with that slot's generation, the caller's live count rises by one, an INPUT or
ENTRY entry joins the tail of the waiting list, an ABSOLUTE one stands in the armed list behind every due no later than its own. With
the due of an ABSOLUTE one not reached nothing else changes; with it reached, under RUN, a firing pass at now follows in the same event,
whatever the entry's action and runs, and the reply is read after it (sections 4.5, 5.1, 5.2). -/
def Obligations.SubmitChecksAndPlacesTheEntry : Prop :=
  ∀ (s : State) p d f, InFlight s p f (.submit d) →
    let a := s.agenda
    let free := {i | s.entry i = none}.ncard
    let refused := fun x => exec (.submit p d) s = .next
      (s.answered p f ⟨x, .counts (a.live.get p) (a.quota.get p) free⟩)
    let mine := (s.output d.output).owner = some p
    let anchored := ∀ h n, d.anchor = .entry h n → (liveEntry a h).isSome
    let tooLate := d.late = .drop ∧ ∃ due, d.anchor = .absolute due ∧ reached s.now due = true
    (¬mine → refused .notOwner) ∧
    (mine → forced s d.output = true → refused .tripped) ∧
    (mine → forced s d.output = false → ¬anchored → refused .badAnchor) ∧
    (mine → forced s d.output = false → anchored → a.quota.get p ≤ a.live.get p → refused .overQuota) ∧
    (mine → forced s d.output = false → anchored → a.live.get p < a.quota.get p → (∀ i, s.entry i ≠ none) →
      refused .noSpace) ∧
    (mine → forced s d.output = false → anchored → a.live.get p < a.quota.get p → (∃ i, s.entry i = none) → tooLate →
      refused .late) ∧
    (mine → forced s d.output = false → anchored → a.live.get p < a.quota.get p → a.ok →
      ∀ i, s.entry i = none → (∀ j, j < i → s.entry j ≠ none) →
        let entry := fun st => { owner := p, plan := d, runs := d.runs, fired := 0, state := st : Entry }
        let reply := fun st => ⟨.ok, .submitted (a.live.get p + 1) (a.quota.get p) (free - 1)
          ⟨i, (s.slot i).gen⟩ s.now st⟩
        ((∀ due, d.anchor ≠ .absolute due) → exec (.submit p d) s = .next ((s.setAgenda { a with
          slots := a.slots.set i { gen := (s.slot i).gen, entry := some (entry .waiting) }
          live := a.live.set p (a.live.get p + 1)
          waiting := a.waiting ++ [i] }).answered p f (reply .waiting))) ∧
        (∀ due, d.anchor = .absolute due → reached s.now due = false → ∃ ahead behind,
          exec (.submit p d) s = .next ((s.setAgenda { a with
            slots := a.slots.set i { gen := (s.slot i).gen, entry := some (entry (.armed .first due due)) }
            live := a.live.set p (a.live.get p + 1)
            armed := ahead ++ i :: behind }).answered p f (reply (.armed due))) ∧
          a.armed = ahead ++ behind ∧ (∀ j ∈ ahead, slotPosition a s.now j ≤ position s.now due) ∧
          (∀ j, behind.head? = some j → position s.now due < slotPosition a s.now j)) ∧
        (∀ due, d.anchor = .absolute due → reached s.now due = true → d.late = .run → ∃ ahead behind,
          let t := runEvent (pass s.now) (s.setAgenda { a with
            slots := a.slots.set i { gen := (s.slot i).gen, entry := some (entry (.armed .first due due)) }
            live := a.live.set p (a.live.get p + 1)
            armed := ahead ++ i :: behind })
          a.armed = ahead ++ behind ∧ (∀ j ∈ ahead, slotPosition a s.now j ≤ position s.now due) ∧
          (∀ j, behind.head? = some j → position s.now due < slotPosition a s.now j) ∧
          ∃ st, exec (.submit p d) s = .next (t.answered p f ⟨.ok, .submitted (t.agenda.live.get p) (t.agenda.quota.get p)
              {j | t.entry j = none}.ncard ⟨i, (s.slot i).gen⟩ s.now st⟩) ∧
            (t.entry i = none → st = .completed) ∧
            ∀ e phase next start, t.entry i = some e → e.state = .armed phase next start → st = .armed next))

/-- A single-run SET, CLEAR or TOGGLE accepted under RUN with a reached due fires and completes within its own SUBMIT, where no other
armed due is reached: the output takes the level, the slot is FREE again with its generation advanced, the live counts and the lists are
as before, ENTRY_DONE goes to the caller if notify asks, with the LATE flag set exactly if the due is behind now, and the reply says
COMPLETED (sections 4.5, 5.1, 5.2). -/
def Obligations.SubmitFiresAtOnce : Prop :=
  ∀ (s : State) p d f due, InFlight s p f (.submit d) → (s.output d.output).owner = some p → forced s d.output = false →
    s.agenda.live.get p < s.agenda.quota.get p → s.agenda.ok → (∀ j ∈ s.agenda.armed, 0 < slotPosition s.agenda s.now j) →
    d.anchor = .absolute due → reached s.now due = true → d.late = .run → d.runs = .left 1 →
    (d.action = .set ∨ d.action = .clear ∨ d.action = .toggle) →
    ∀ i, s.entry i = none → (∀ j, j < i → s.entry j ≠ none) →
      let r := s.output d.output
      let done := { kind := .entryDone ⟨i, (s.slot i).gen⟩ d.tag (decide (position s.now due < 0)), time := s.now : Msg }
      exec (.submit p d) s = .next ((((s.setAgenda { s.agenda with
          slots := s.agenda.slots.set i { gen := (s.slot i).gen + 1, entry := none } }).setOutput d.output
          { r with level := if d.action = .set then true else if d.action = .clear then false else !r.level }).setTransit
          (s.transit.set p (addBatch (s.transit.get p) (if d.notify = .never then [] else [done])))).answered p f
          ⟨.ok, .submitted (s.agenda.live.get p) (s.agenda.quota.get p) {i | s.entry i = none}.ncard
            ⟨i, (s.slot i).gen⟩ s.now .completed⟩)

/-- CANCEL of a stale handle answers BAD_HANDLE, and of another port's entry NOT_OWNER, and changes nothing. By the owner it frees the
entry's slot without a record for it, and cancels with it every entry that waits on it, however deep, whichever port owns it, telling
their owners with ANCHOR_LOST, in good order depth first; the reply carries state, phase, due and fired count as they stood, and in
good order the number of dependents cancelled (section 5.4). -/
def Obligations.CancelTakesTheDependents : Prop :=
  ∀ (s : State) p h f, InFlight s p f (.cancel h) →
    (liveEntry s.agenda h = none → exec (.cancel p h) s = .next (s.answered p f ⟨.badHandle, .empty⟩)) ∧
    ∀ e, liveEntry s.agenda h = some e →
      (e.owner ≠ p → exec (.cancel p h) s = .next (s.answered p f ⟨.notOwner, .empty⟩)) ∧
      (e.owner = p →
        let target := fun i => i = h.slot
        ∃ a tr n, exec (.cancel p h) s = .next (((s.setAgenda a).setTransit tr).answered p f
            ⟨.ok, .cancelled s.now e.state e.fired n⟩) ∧
          Freed s.agenda a (Falls s.agenda target) ∧
          (∀ q, ∃ ms, CancelRecords s.agenda target none none s.now q ms ∧ tr.get q = addBatch (s.transit.get q) ms) ∧
          (s.agenda.ok → n + 1 = {j | Falls s.agenda target j}.ncard))

/-- An edge that the agenda has still to take arms every waiting INPUT entry on its line whose setting accepts its direction, each
with due and run start at the stamp plus its offset, in waiting-list order behind the equal dues already armed, and a firing pass at the
stamp follows; with no such entry it changes nothing; with
no due then reached at the head of the armed list it fires nothing (sections 4.3, 5.3). -/
def Obligations.EdgeArmsTheWaitingEntries : Prop :=
  ∀ (s : State) (e : Edge), e ∈ s.published.agenda → s.agenda.ok →
    let s' := s.setPublished { s.published with agenda := s.published.agenda.erase e }
    ∃ js a, js.Sublist s.agenda.waiting ∧
      (∀ j, j ∈ js ↔ ∃ x line edge n, s.entry j = some x ∧ x.state = .waiting ∧ x.plan.anchor = .input line edge n ∧
        line = e.line ∧ (edge = .both ∨ (edge = .rise ∧ e.dir = .rise) ∨ (edge = .fall ∧ e.dir = .fall))) ∧
      Arms s.agenda a e.stamp js ∧
      (js = [] → exec (.edgeAtAgenda e) s = .next s') ∧
      (js ≠ [] → exec (.edgeAtAgenda e) s = .next (runEvent (pass e.stamp) (s'.setAgenda a))) ∧
      (reachedHead e.stamp a = none → exec (.edgeAtAgenda e) s = .next (s'.setAgenda a))

/-- One firing. The FIRST phase of a PULSE sets 1, sends nothing, keeps the run start and moves the due to run start plus width. A run
end that is not the last raises the fired count unless it is 65535, lowers the runs unless FREE, moves run start and due by one period
with phase FIRST, and sends ENTRY_FIRED only with notify EACH. The last run's end sends ENTRY_DONE with notify FINAL or EACH, arms the
entries that wait on it from now, in waiting-list order behind the equal dues already armed, and frees the slot. The LATE flag is that
of this firing (sections 5.1, 5.2, 5.3). -/
def Obligations.FiringAdvancesTheEntry : Prop :=
  ∀ now i (w : Work) e phase due start, w.st.entry i = some e → e.state = .armed phase due start →
    let w1 := applyLevel e.plan.output e.plan.action phase w
    let late := decide (position now due < 0)
    let h := handleOf w.st.agenda i
    let more := (e.runs = .free ∨ ∃ n, e.runs = .left n ∧ 1 < n)
    let endsRun := (∀ width, e.plan.action = .pulse width → phase = .second)
    (∀ width, e.plan.action = .pulse width → phase = .first → fire now i w =
      { st := w1.st.setAgenda (placeArmed w.st.agenda now i
          { e with state := .armed .second (start + width.setWidth 40) start })
        sent := w.sent }) ∧
    (∀ q, endsRun → more → e.plan.period = some q →
      let e' := { e with
        fired := if e.fired = 65535 then 65535 else e.fired + 1
        runs := match e.runs with | .free => .free | .left n => .left (n - 1)
        state := .armed .first (start + q.setWidth 40) (start + q.setWidth 40) }
      fire now i w =
        { st := w1.st.setAgenda (placeArmed w.st.agenda now i e')
          sent := w.sent ++ if e.plan.notify = .each then
            [(e.owner, { kind := .entryFired h e.plan.tag e'.fired late, time := now })] else [] }) ∧
    (endsRun → ¬more → w.st.agenda.ok → ∃ a, Arms w.st.agenda a now (dependents w.st.agenda i) ∧ fire now i w =
      { st := w1.st.setAgenda (freeSlot a i)
        sent := w.sent ++ if e.plan.notify = .never then [] else
          [(e.owner, { kind := .entryDone h e.plan.tag late, time := now })] })

/-- A firing pass takes the head of the armed list while its due is reached. With no reached due at the head DUE_REACHED changes
nothing; otherwise it fires the head and goes on; and from an agenda in good order and in due order, whose entries each move
forward when they fire, it ends with no reached due in the armed list, however far behind the present an entry stood
(sections 5.1, 5.2). That the model's bound on firings is never met is part of this (log entry 14). -/
def Obligations.PassFiresEveryReachedDue : Prop :=
  (∀ s : State, reachedHead s.now s.agenda = none → exec .dueReached s = .next s) ∧
  (∀ s : State, exec .dueReached s = .next (finishWork (pass s.now (startWork s)))) ∧
  ∀ (w : Work) now, w.st.agenda.ok → (∀ i e, w.st.entry i = some e → e.moves) →
    (∀ i, reachedHead now w.st.agenda = some i → pass now w = pass now (fire now i w)) ∧
    reachedHead now (pass now w).st.agenda = none ∧
    (ArmedSorted now w.st.agenda → ∀ i due, i ∈ (pass now w).st.agenda.armed →
      dueOf (pass now w).st.agenda i = some due → reached now due = false)

/-- An entry placed in an armed list in due order goes behind every entry whose due is no later and ahead of every entry whose due is
later, so the list stays in due order with equal dues in order of arming; it leaves the place it had in either list, and no
other entry changes (section 4.3). -/
def Obligations.PlacementKeepsTheDueOrder : Prop :=
  ∀ (a : Agenda) now i (e : Entry) phase due start, e.state = .armed phase due start → ArmedSorted now a →
    let b := placeArmed a now i e
    (∃ ahead behind, a.armed.filter (· ≠ i) = ahead ++ behind ∧ b.armed = ahead ++ i :: behind ∧
      (∀ j ∈ ahead, slotPosition a now j ≤ position now due) ∧ (∀ j ∈ behind, position now due < slotPosition a now j)) ∧
    ArmedSorted now b ∧ b.waiting = a.waiting.filter (· ≠ i) ∧ dueOf b i = some due ∧
    (b.slots.get i).gen = (a.slots.get i).gen ∧ (∀ j, j ≠ i → b.slots.get j = a.slots.get j) ∧ b.quota = a.quota ∧
    b.live = a.live

/-! ### Trip groups -/

/-- The cause that a group takes from an edge it has still to take is that of the lowest-numbered matching place, at the stamp: an
edge source matches its direction, HIGH matches RISE and LOW matches FALL, on the same line; with no match the group is unchanged. A
settling change matches HIGH sources on its line alone (section 6.2). An edge is handed on with its cause, a settling change is not
(log entry 6). -/
def Obligations.EdgesCauseFromTheLowestPlace : Prop :=
  (∀ (s : State) g (e : Edge), e ∈ s.published.groups.get g →
    let s' := s.setPublished
      { s.published with groups := s.published.groups.set g ((s.published.groups.get g).erase e) }
    let hit := fun i => ∃ c, (s.group g).sources.get i = some ⟨e.line, c⟩ ∧
      ((e.dir = .rise ∧ (c = .rise ∨ c = .high)) ∨ (e.dir = .fall ∧ (c = .fall ∨ c = .low)))
    ((∀ i, ¬hit i) → exec (.edgeAtTripGroup g e) s = .next s') ∧
    (∀ i, hit i → (∀ j, j < i → ¬hit j) →
      exec (.edgeAtTripGroup g e) s = .next (runEvent (takeCause g ⟨.place i, e.stamp⟩ (some e)) s'))) ∧
  (∀ (s : State) g x ahead behind, s.published.settling.get g = ahead ++ x :: behind → (∀ y ∈ ahead, y.line ≠ x.line) →
    let s' := s.setPublished { s.published with settling := s.published.settling.set g (ahead ++ behind) }
    let hit := fun i => (s.group g).sources.get i = some ⟨x.line, .high⟩
    ((∀ i, ¬hit i) → exec (.settlingChange g x.line) s = .next s') ∧
    (∀ i, hit i → (∀ j, j < i → ¬hit j) →
      exec (.settlingChange g x.line) s = .next (runEvent (takeCause g ⟨.place i, x.stamp⟩ none) s')))

/-- A cause in NORMAL is the trip event: the group is TRIPPED with count 1 and this cause as first and latest, every member output
goes to its safe level, every live entry on a member is cancelled with reason TRIPPED and what waits on one with ANCHOR_LOST, member
or not, in good order depth first in agenda order, the owners of members are owed and nobody has acknowledged, and a TRIP record
follows those records to every OPEN or LAPSED port. A further cause makes the group TRIPPED without a deadline, raises the count
unless it is 255, keeps the first cause, forms the owed set afresh, clears the acknowledgments and sends TRIP, and moves no output and
cancels no entry. TRIP is a manual cause by the caller in every state, and answers with the group as it then stands (sections 6.2,
6.3, 6.4). That the TRIP record of a trip event on an edge carries that edge until it arrives is the model's own means for section 6.9
(log entry 6). -/
def Obligations.CausesTripAndRenewTheTrip : Prop :=
  (∀ (s : State) g (cause : Cause) edge, Listed s.agenda →
    let r := s.group g
    let owes := fun q => ∃ o, (s.output o).group = some g ∧ (s.output o).owner = some q
    let target := Holds s.agenda fun e => (s.output e.plan.output).group = some g
    let count : Byte := if r.count = 255 then 255 else r.count + 1
    ∃ owed, (∀ q, owed.get q = true ↔ owes q) ∧
      (r.state = .normal → ∃ outs a tr, runEvent (takeCause g cause edge) s = (((s.setGroup g
          { r with state := .tripped, count := 1, first := some cause, latest := some cause, owed := owed,
                   acked := .fill false, deadline := none }).setOutputs outs).setAgenda a).setTransit tr ∧
        (∀ o, outs.get o = if (s.output o).group = some g then { s.output o with level := (s.output o).safe }
          else s.output o) ∧
        Freed s.agenda a (Falls s.agenda target) ∧
        ∀ q, ∃ ms, CancelRecords s.agenda target (some .tripped) none cause.tick q ms ∧
          tr.get q = addBatch (s.transit.get q)
            (ms ++ if (s.port q).session = .closed then [] else [{ kind := .trip g cause.by' 1, time := cause.tick, edge }])) ∧
      (r.state ≠ .normal → ∃ tr, runEvent (takeCause g cause edge) s = (s.setGroup g
          { r with state := .tripped, count := count, latest := some cause, owed := owed, acked := .fill false,
                   deadline := none }).setTransit tr ∧
        ∀ q, tr.get q = addBatch (s.transit.get q) (if (s.port q).session = .closed then [] else
          [{ kind := .trip g cause.by' count, time := cause.tick }]))) ∧
  (∀ (s : State) p g f, InFlight s p f (.trip g) →
    let t := runEvent (takeCause g ⟨.manual p, s.now⟩ none) s
    exec (.trip p g) s = .next (t.answered p f ⟨.ok, .group (groupView t g)⟩))

/-- A reached release deadline returns a RELEASING group to TRIPPED with no deadline, keeps both sets, the count and both causes,
and sends RELEASE_EXPIRED with the deadline's time to the supervisor, if its session is OPEN or LAPSED (section 6.6). That with no
deadline reached, or out of RELEASING, the command changes nothing is the model's choice (log entry 3). -/
def Obligations.ReleaseDeadlineFallsBack : Prop :=
  ∀ (s : State) g,
    (∀ d, (s.group g).state = .releasing → (s.group g).deadline = some d → reached s.now d = true →
      exec (.releaseDeadlineReached g) s = .next
        ((s.setGroup g { s.group g with state := .tripped, deadline := none }).setTransit (s.transit.set s.supervisor
          (addBatch (s.transit.get s.supervisor) (if (s.port s.supervisor).session = .closed then [] else
            [{ kind := .releaseExpired g, time := d }]))))) ∧
    ((s.group g).state ≠ .releasing ∨ deadlineReached s.now (s.group g).deadline = false →
      exec (.releaseDeadlineReached g) s = .next s)

/-- ACK_TRIP: WRONG_STATE in NORMAL; from a port that is not owed, OK with the not-required flag set and no change; from an owed port
it enters the acknowledged set, and in RELEASING, where that set then equals the owed set, the group enters NORMAL: count 0, both sets
empty, no deadline, causes and window kept, TRIP_CLEARED to every OPEN or LAPSED port. The reply carries the group as it then stands
(sections 6.5, 6.6). -/
def Obligations.AckTripOutcomes : Prop :=
  ∀ (s : State) p g f, InFlight s p f (.ackTrip g) →
    let r := s.group g
    let acked := r.acked.set p true
    let answers := fun (t : State) x flag =>
      exec (.ackTrip p g) s = .next (t.answered p f ⟨x, .acked flag (groupView t g)⟩)
    (r.state = .normal → answers s .wrongState false) ∧
    (r.state ≠ .normal → r.owed.get p = false → answers s .ok true) ∧
    (r.state ≠ .normal → r.owed.get p = true → ¬(r.state = .releasing ∧ acked = r.owed) →
      answers (s.setGroup g { r with acked := acked }) .ok false) ∧
    (r.state = .releasing → r.owed.get p = true → acked = r.owed → ∃ tr,
      answers ((s.setGroup g { r with state := .normal, count := 0, owed := .fill false, acked := .fill false,
                                      deadline := none }).setTransit tr) .ok false ∧
      ∀ q, tr.get q = addBatch (s.transit.get q)
        (if (s.port q).session = .closed then [] else [{ kind := .tripCleared g, time := s.now }]))

/-- CLEAR_TRIP by the state of the group: WRONG_STATE in NORMAL; in TRIPPED, CONDITION_ACTIVE while a level source is active, forced or
not; otherwise NORMAL, if forced or fully acknowledged, or RELEASING, with a deadline one window ahead of now where the window is not
0; in RELEASING, NORMAL if forced and WRONG_STATE if not. NORMAL sends TRIP_CLEARED to every OPEN or LAPSED port. Nothing else changes
but the result, which carries the group as it then stands (section 6.6). -/
def Obligations.ClearTripOutcomes : Prop :=
  ∀ (s : State) p g force f, InFlight s p f (.clearTrip g force) →
    let r := s.group g
    let active := ∃ i line, (r.sources.get i = some ⟨line, .high⟩ ∧ (s.line line).qualified = true) ∨
      (r.sources.get i = some ⟨line, .low⟩ ∧ (s.line line).qualified = false)
    let answers := fun (t : State) x => exec (.clearTrip p g force) s = .next (t.answered p f ⟨x, .group (groupView t g)⟩)
    let clears := ∃ tr, answers ((s.setGroup g
        { r with state := .normal, count := 0, owed := .fill false, acked := .fill false, deadline := none }).setTransit
          tr) .ok ∧
      ∀ q, tr.get q = addBatch (s.transit.get q)
        (if (s.port q).session = .closed then [] else [{ kind := .tripCleared g, time := s.now }])
    (r.state = .normal → answers s .wrongState) ∧
    (r.state = .tripped → active → answers s .conditionActive) ∧
    (r.state = .tripped → ¬active → (force = true ∨ r.acked = r.owed) → clears) ∧
    (r.state = .tripped → ¬active → force = false → r.acked ≠ r.owed → answers (s.setGroup g
      { r with state := .releasing
               deadline := if r.window = 0 then none else some (s.now + r.window.setWidth 40) }) .ok) ∧
    (r.state = .releasing → force = true → clears) ∧
    (r.state = .releasing → force = false → answers s .wrongState)

/-- SET_TRIP_SOURCE writes the place, whatever it held, in every group state. A place made unused, an edge source, and a level source
that is not active cause nothing; a level source that is then active is a cause by that place at now, in the same event. The reply
carries the group as it then stands (section 6.8). -/
def Obligations.SetTripSourceOutcomes : Prop :=
  ∀ (s : State) p g i src f, InFlight s p f (.setTripSource g i src) →
    let s' := s.setGroup g { s.group g with sources := (s.group g).sources.set i src }
    let active := ∃ line, (src = some ⟨line, .high⟩ ∧ (s.line line).qualified = true) ∨
      (src = some ⟨line, .low⟩ ∧ (s.line line).qualified = false)
    (¬active → exec (.setTripSource p g i src) s = .next (s'.answered p f ⟨.ok, .group (groupView s' g)⟩)) ∧
    (active → let t := runEvent (takeCause g ⟨.place i, s.now⟩ none) s'
      exec (.setTripSource p g i src) s = .next (t.answered p f ⟨.ok, .group (groupView t g)⟩))

/-! ### Event queues -/

/-- A record that arrives at a queue. At a SHUT intake it is discarded and changes nothing. With room for its class (56 for a general
record, 64 for a system record) it is accepted at the tail under the next sequence number, which advances. Without room, in STOP: a
general record is discarded; a system record takes the place of the newest general record, and is discarded if there is none. In RING:
the oldest general record is removed for the arrival; with none, a general record is discarded, and a system record takes the place of
the oldest record. Each loss counts one in both lost counts, and a discarded record takes no number; a list of 56 general records at
most stays one (section 7.3). That the command names the batch a record comes from, and that a batch waits, the command changing
nothing, while one ahead of it still holds the TRIP record of the other group's trip event on the same edge (section 6.9), is the
model's reading (log entries 3, 6). -/
def Obligations.ArrivalsAreAdmittedOrOverflow : Prop :=
  ∀ (s : State) p ahead m later behind, s.transit.get p = ahead ++ (m :: later) :: behind →
    let q := s.queue p
    let bs := ahead ++ (if later = [] then behind else later :: behind)
    let becomes := fun q' => exec (.recordArrival p ahead.length) s =
      .next ((s.setTransit (s.transit.set p bs)).setQueue p q')
    let taken := { kind := m.kind, seq := q.nextSeq, time := m.time : Record }
    let lose := fun (x : Queue) => { x with lost := satInc x.lost, lostTotal := satInc x.lostTotal }
    let accept := fun (x : Queue) rs => { x with records := rs ++ [taken], nextSeq := q.nextSeq + 1 }
    let system := m.kind.isSystem = true
    let full := (system → 64 ≤ q.records.length) ∧ (¬system → 56 ≤ q.records.length)
    let waits := ∃ b ∈ ahead, ∃ x ∈ b, ∃ y ∈ m :: later, ∃ g h, g ≠ h ∧ (∃ i n, x.kind = .trip g i n) ∧
      (∃ j k, y.kind = .trip h j k) ∧ ∃ e, x.edge = some e ∧ y.edge = some e
    (waits → exec (.recordArrival p ahead.length) s = .next s) ∧
    (¬waits → q.intake = .shut → becomes q) ∧
    (¬waits → q.intake = .accepting → ¬full → becomes (accept q q.records)) ∧
    (¬waits → q.intake = .accepting → full → q.mode = .stop →
      (¬system → becomes (lose q)) ∧
      (∀ older x newer, system → q.records = older ++ x :: newer → x.isGeneral = true →
        newer.all Record.isSystem = true → becomes (accept (lose q) (older ++ newer))) ∧
      (system → q.records.all Record.isSystem = true → becomes (lose q))) ∧
    (¬waits → q.intake = .accepting → full → q.mode = .ring →
      (∀ older x newer, q.records = older ++ x :: newer → x.isGeneral = true → older.all Record.isSystem = true →
        becomes (accept (lose q) (older ++ newer))) ∧
      (¬system → q.records.all Record.isSystem = true → becomes (lose q)) ∧
      (∀ x newer, system → q.records = x :: newer → q.records.all Record.isSystem = true →
        becomes (accept (lose q) newer))) ∧
    (q.records.countP Record.isGeneral ≤ 56 → ∀ t, exec (.recordArrival p ahead.length) s = .next t →
      (t.queue p).records.countP Record.isGeneral ≤ 56)

/-- An edge that a port's queue has still to take changes nothing at a cell that does not accept its direction. At a cell that does, an
INPUT_EDGE record with the stamp as its time arrives, to be accepted, displaced or discarded like any other, and a one-shot cell then
becomes none with the flag clear, whether the record was accepted or lost. No other queue is reached (section 7.4; log entry 7). -/
def Obligations.EdgeReachesTheSubscribedQueue : Prop :=
  ∀ (s : State) p (e : Edge), e ∈ s.published.queues.get p →
    let s' := s.setPublished
      { s.published with queues := s.published.queues.set p ((s.published.queues.get p).erase e) }
    let q := s.queue p
    let cell := q.row.get e.line
    let hears := cell.edge = .both ∨ (cell.edge = .rise ∧ e.dir = .rise) ∨ (cell.edge = .fall ∧ e.dir = .fall)
    let q' := arrive q { kind := .inputEdge e.line e.dir, time := e.stamp }
    (¬hears → exec (.edgeAtQueue p e) s = .next s') ∧
    (hears → cell.oneShot = false → exec (.edgeAtQueue p e) s = .next (s'.setQueue p q')) ∧
    (hears → cell.oneShot = true → exec (.edgeAtQueue p e) s = .next (s'.setQueue p
      { q' with row := q.row.set e.line { edge := .none, oneShot := false } }))

/-- FETCH removes the oldest records, up to the count, and returns them oldest first with the lost count as it stood, which it then
clears; it changes nothing else but its own result (section 7.5). The attention line is asserted exactly while the list holds the
threshold of records or a system record; an arrival never releases it, and a system record accepted asserts it (section 7.7). -/
def Obligations.FetchAndAttentionFollowTheList : Prop :=
  (∀ (s : State) p n f, InFlight s p f (.fetch n) → ∃ out rest, (s.queue p).records = out ++ rest ∧
    out.length = min n.toNat (s.queue p).records.length ∧
    exec (.fetch p n) s = .next ((s.setQueue p { s.queue p with records := rest, lost := 0 }).answered p f
      ⟨.ok, .fetched (s.queue p).lost out⟩)) ∧
  (∀ q : Queue, q.attention = true ↔ q.threshold ≤ q.records.length ∨ ∃ r ∈ q.records, r.kind.isSystem = true) ∧
  (∀ (q : Queue) m, q.attention = true → (arrive q m).attention = true) ∧
  (∀ (q : Queue) m, q.intake = .accepting → m.kind.isSystem = true →
    q.records.length < 64 ∨ 0 < q.records.countP Record.isGeneral → (arrive q m).attention = true)

/-! ### The host link -/

/-- CS_N going low fixes what MISO carries for the whole transaction: the stored reply while IDLE, the NOT_READY header while
EXECUTING (with the SEQ in flight) or ENDING (with SEQ 0), the idle header while PRST_N is low, each with the marks of that moment in
FLAGS and a check byte over the bytes as offered; byte k of MISO is byte k of it, and FFh after its length. The controller's other
state stays. While RESET_N is low no transaction is taken and MISO carries FFh (sections 9.1, 9.4, 9.6, 10.2). -/
def Obligations.TransactionBeginFixesMiso : Prop :=
  (∀ (s : State) p, s.resetLow = true → exec (.transactionBegin p) s = .next s ∧ ∀ k, misoByte s p k = 0xFF) ∧
  ∀ (s : State) p, s.resetLow = false → (s.port p).txn = none →
    let c := s.port p
    let q := s.queue p
    let flags : Byte := (if c.mark then 0x80 else 0) + (if q.attention then 0x40 else 0)
    let framed := fun (seq status flags : Byte) (n : Nat) (body : List Byte) =>
      let bs := BitVec.ofNat 8 (body.length + 6) :: seq :: status :: flags :: BitVec.ofNat 8 n :: body
      bs ++ [crc8 bs]
    let carries := fun mode bytes marked => ∃ t, exec (.transactionBegin p) s = .next t ∧
      t = s.setPort p { c with txn := some { mode := mode, offered := bytes, marked := marked } } ∧
      ∀ k, misoByte t p k = if h : k < bytes.length then bytes[k] else 0xFF
    (c.prstLow = true → carries .ignored (framed 0 0x02 0 0 []) false) ∧
    (c.prstLow = false → c.activity = .idle →
      carries .judged (framed c.stored.seq c.stored.status.byte flags c.stored.queued c.stored.body.bytes) c.mark) ∧
    (∀ f, c.prstLow = false → c.activity = .executing f →
      carries .notReady (framed f.seq 0xFE flags q.records.length []) c.mark) ∧
    (∀ run, c.prstLow = false → c.activity = .ending run →
      carries .notReady (framed 0 0xFE flags q.records.length []) c.mark)

/-- What the bytes of MOSI carry. No byte, or a first byte of 0, is a poll. A frame has a link error exactly when LEN is 1, 2 or above
32, or fewer than LEN bytes came, or the check byte differs from the CRC of the bytes before it. Any other is a frame with the
SEQ, the check byte, the CODE if LEN is 4 or more, and the operands that stand in it; bytes beyond LEN are ignored (sections 9.2,
9.3). -/
def Obligations.FramesAreJudgedByLengthAndCheck : Prop :=
  (judge [] = .poll) ∧ (∀ rest, judge (0 :: rest) = .poll) ∧
  (∀ (len : Byte) rest, len ≠ 0 → (judge (len :: rest) = .linkError ↔
    len = 1 ∨ len = 2 ∨ 32 < len.toNat ∨ (len :: rest).length < len.toNat ∨
      (len :: rest)[len.toNat - 1]? ≠ some (crc8 ((len :: rest).take (len.toNat - 1))))) ∧
  (∀ (seq code : Byte) (ops beyond : List Byte), ops.length ≤ 28 →
    let body := BitVec.ofNat 8 (ops.length + 4) :: seq :: code :: ops
    judge (body ++ crc8 body :: beyond) = .frame seq (crc8 body) (some code) ops) ∧
  (∀ (seq : Byte) (beyond : List Byte),
    judge (3 :: seq :: crc8 [3, seq] :: beyond) = .frame seq (crc8 [3, seq]) none [])

/-- CS_N going high. A transaction ignored under PRST_N, or that began while not IDLE, discards its bytes. A transaction judged while
IDLE: a poll changes nothing but the mark; a link error raises the count unless it is 255 and sets the mark; a new request is
admitted, with the checks made and the deadline of an OPEN port with an interval restarted. Where PRST_N did not abandon the
transaction, the mark is cleared first if it clocked out the FLAGS byte of a header that carried it. Nothing else changes (sections
9.1, 9.3, 9.4, 8.3). That the FLAGS byte is clocked out exactly with four or more complete bytes is the model's reading (log entry
12). That the end of a transaction that PRST_N abandoned leaves the mark, whatever it clocked out, is the model's choice (log entry
22). -/
def Obligations.TransactionEndTakesUpTheBytes : Prop :=
  ∀ (s : State) p mosi x, (s.port p).txn = some x →
    let c := s.port p
    let c' := { c with txn := none, mark := if x.marked = true ∧ 4 ≤ mosi.length then false else c.mark }
    let becomes := fun c2 => exec (.transactionEnd p mosi) s = .next (s.setPort p c2)
    (x.mode = .ignored → becomes { c with txn := none }) ∧
    (x.mode = .notReady → becomes c') ∧
    (x.mode = .judged → c.activity = .idle → judge mosi = .poll → becomes c') ∧
    (x.mode = .judged → c.activity = .idle → judge mosi = .linkError → becomes
      { c' with linkErrors := if c.linkErrors = 255 then 255 else c.linkErrors + 1, mark := true }) ∧
    (∀ seq check code ops, x.mode = .judged → c.activity = .idle → judge mosi = .frame seq check code ops →
      (seq = 0 ∨ c.last ≠ some (seq, check)) → becomes { c' with
        deadline := if c.session = .isOpen ∧ c.interval ≠ 0 then some (s.now + c.interval.setWidth 40) else c.deadline
        activity := .executing
          { seq := seq, check := check, stage := acceptance c.session (s.supervisor == p) code ops } })

/-- A frame without a link error whose SEQ is not 0 and whose SEQ and check byte are the last ones is a replay, whatever the session
state and whatever it asks: it is not executed, restarts the deadline of an OPEN port with an interval, and beyond the end of its
transaction changes nothing else of the part; the next transaction offers the stored reply. A frame with SEQ 0, or with the last SEQ
and another check byte, is executed as new, and its REQUEST_COMPLETION, with no port reset held, writes its own SEQ and check byte
(section 9.5). That the end of the transaction clears a mark that its header carried exactly with four or more complete bytes is the
model's reading (log entry 12). -/
def Obligations.ReplayIsAnsweredFromTheStoredReply : Prop :=
  ∀ (s : State) p mosi x seq check code ops, (s.port p).txn = some x → x.mode = .judged → (s.port p).activity = .idle →
    judge mosi = .frame seq check code ops →
    let c := s.port p
    let c' := { c with
      txn := none
      mark := if x.marked = true ∧ 4 ≤ mosi.length then false else c.mark
      deadline := if c.session = .isOpen ∧ c.interval ≠ 0 then some (s.now + c.interval.setWidth 40) else c.deadline }
    (seq ≠ 0 → c.last = some (seq, check) →
      exec (.transactionEnd p mosi) s = .next (s.setPort p c') ∧
      (s.resetLow = false → c.prstLow = false → ∃ flags, exec (.transactionBegin p) (s.setPort p c') = .next (s.setPort p
        { c' with txn := some { mode := .judged, offered := c.stored.bytes flags, marked := c'.mark } }))) ∧
    (seq = 0 ∨ c.last ≠ some (seq, check) →
      exec (.transactionEnd p mosi) s = .next (s.setPort p { c' with
        activity := .executing
          { seq := seq, check := check, stage := acceptance c.session (s.supervisor == p) code ops } }) ∧
      ∀ u a, (u.port p).activity = .executing { seq := seq, check := check, stage := .answered a } →
        (u.port p).resetHeld = false → ∃ v, exec (.requestCompletion p) u = .next v ∧
          (v.port p).last = some (seq, check) ∧ (v.port p).stored.seq = seq)

/-- The acceptance checks in their order, the first that fails giving the status, each refusal with no body: a missing or unknown
CODE; a wrong operand length; a session state that does not admit the request (CLOSED admits OPEN, STATUS and READ_TIME, LAPSED these
and CLOSE and FETCH, OPEN all); a request reserved to the supervisor from another port; an operand out of range. What passes goes to
its block (sections 8.2, 8.10, 9.6, 10.1). -/
def Obligations.AcceptanceChecksInOrder : Prop :=
  (∀ x sup ops, acceptance x sup none ops = .answered ⟨.unknownRequest, .empty⟩) ∧
  (∀ x sup b ops, (∀ c : Code, c.byte ≠ b) → acceptance x sup (some b) ops = .answered ⟨.unknownRequest, .empty⟩) ∧
  (∀ x sup (c : Code) ops, ops.length ≠ c.operandBytes →
    acceptance x sup (some c.byte) ops = .answered ⟨.badLength, .empty⟩) ∧
  (∀ sup (c : Code) ops, ops.length = c.operandBytes → c ∉ [.openSession, .status, .readTime] →
    acceptance .closed sup (some c.byte) ops = .answered ⟨.notOpen, .empty⟩) ∧
  (∀ sup (c : Code) ops, ops.length = c.operandBytes →
    c ∉ [.openSession, .closeSession, .status, .readTime, .fetch] →
    acceptance .lapsed sup (some c.byte) ops = .answered ⟨.lapsed, .empty⟩) ∧
  (∀ x sup (c : Code) ops, ops.length = c.operandBytes →
    (x = .isOpen ∨ c ∈ [.openSession, .status, .readTime] ∨ (x = .lapsed ∧ c ∈ [.closeSession, .fetch])) →
    let eight := c ∈ [.setDivide, .setFilter, .reclaim, .setSafe, .setQuota, .setTripSource, .setReleaseWindow, .clearTrip]
    (eight → sup = false → acceptance x sup (some c.byte) ops = .answered ⟨.notSupervisor, .empty⟩) ∧
    ((eight → sup = true) → requestInRange c ops = none →
      acceptance x sup (some c.byte) ops = .answered ⟨.badArgument, .empty⟩) ∧
    (∀ r, (eight → sup = true) → requestInRange c ops = some r → acceptance x sup (some c.byte) ops = .awaiting r))

/-- Which operand bytes are refused with BAD_ARGUMENT at check 5, for each request, in an OPEN session of the supervisor and with the
right number of operand bytes: an output above 11, a line above 15, a slot above 95, a code outside its list, a flag or a level other
than 0 and 1, and the narrower ranges of some requests; the bytes that a request leaves unread are not checked, and every other request
goes to its block (sections 4.5, 10.1). -/
def Obligations.BadOperandBytesAreRefused : Prop :=
  ∀ (c : Code) (ops : List Byte), ops.length = c.operandBytes →
    let b := fun k => (ops.getD k 0).toNat
    let count := fun k => ((b k * 256 + b (k + 1)) * 256 + b (k + 2)) * 256 + b (k + 3)
    let noGroup := b 0 ≠ 1 ∧ b 0 ≠ 2
    let bad : Prop := match c with
      | .openSession | .closeSession | .ping | .status | .setLapse | .readTime | .setDivide | .readInputs | .readOutputs => False
      | .setFilter => b 0 = 0 ∧ b 1 = 0
      | .claim | .writeOutput => 11 < b 0 ∨ 1 < b 1
      | .withdraw | .release | .reclaim => 11 < b 0
      | .setSafe => 11 < b 0 ∨ 1 < b 1 ∨ 2 < b 2
      | .submit => 11 < b 0 ∨ 3 < b 1 ∨ 2 < b 2 ∨ 1 < b 3 ∨ 2 < b 4 ∨ (b 1 = 3 ∧ count 8 = 0) ∨ (b 5 ≠ 0 ∧ count 12 = 0) ∨
          (b 1 = 3 ∧ b 5 ≠ 0 ∧ count 12 ≤ count 8) ∨ (b 4 = 1 ∧ (15 < b 16 ∨ b 17 = 0 ∨ 3 < b 17)) ∨ (b 4 = 2 ∧ 95 < b 16)
      | .query | .cancel | .list => 95 < b 0
      | .setQuota => 2 < b 0 ∨ 96 < b 1
      | .trip | .ackTrip | .setReleaseWindow => noGroup
      | .clearTrip => noGroup ∨ 1 < b 1
      | .setTripSource => noGroup ∨ 3 < b 1 ∨ 4 < b 3 ∨ (b 3 ≠ 0 ∧ 15 < b 2)
      | .subscribe => 15 < b 0 ∨ 3 < b 1 ∨ 1 < b 2
      | .fetch => b 0 = 0 ∨ 4 < b 0
      | .setQueue => 1 < b 0 ∨ b 1 = 0 ∨ 64 < b 1
    (bad → acceptance .isOpen true (some c.byte) ops = .answered ⟨.badArgument, .empty⟩) ∧
    (¬bad → ∃ r, acceptance .isOpen true (some c.byte) ops = .awaiting r ∧ r.code = c)

/-- Request completion stores the reply with the request's SEQ and the length of the queue at that event, writes the frame's SEQ and
check byte as the last ones, and returns the activity to IDLE, where no port reset is held and no lapse expiry whose deadline is still
reached. A lapse held to it begins there, and a transaction in progress will be discarded as NOT_READY. A port reset held to it is
taken there first, and puts the cleared reply in place of the one stored. That an expiry is held by a mark of its own is log entry 20,
and that a port reset clears when it is taken is log entry 16. A request whose result is not known does not complete, and the command
then changes nothing (log entry 3; sections 8.7, 8.8, 9.4). -/
def Obligations.CompletionStoresTheReply : Prop :=
  (∀ (s : State) p f a, (s.port p).activity = .executing f → f.stage = .answered a →
    let c := s.port p
    let done := { c with
      stored := { seq := f.seq, status := a.status, body := a.body, queued := (s.queue p).records.length }
      last := some (f.seq, f.check), activity := .idle, lapseHeld := false }
    let due := c.lapseHeld = true ∧ c.session = .isOpen ∧ ∃ d, c.deadline = some d ∧ reached s.now d = true
    let cleared := { done with
      stored := { seq := 0, status := .noRequest, body := .empty, queued := 0 }, last := none, linkErrors := 0,
      mark := false, resetHeld := false }
    (c.resetHeld = false → ¬due → exec (.requestCompletion p) s = .next (s.setPort p done)) ∧
    (c.resetHeld = false → due → exec (.requestCompletion p) s = .next (s.setPort p { done with
      deadline := none, activity := .ending ⟨.lapse, .output 0, 0, 0, 0⟩
      txn := c.txn.map fun x => { x with mode := if x.mode = .judged then .notReady else x.mode } })) ∧
    (c.resetHeld = true → c.session = .closed → exec (.requestCompletion p) s = .next (s.setPort p cleared)) ∧
    (c.resetHeld = true → c.session ≠ .closed → exec (.requestCompletion p) s = .next (s.setPort p
      { cleared with deadline := none, activity := .ending ⟨.portReset, .output 0, 0, 0, 0⟩ }))) ∧
  ∀ (s : State) p, (∀ f a, (s.port p).activity = .executing f → f.stage ≠ .answered a) →
    exec (.requestCompletion p) s = .next s

/-- PRST_N going low is taken at an IDLE controller and held at a busy one. Taken, it puts the cleared reply in place, clears the last
bytes, the link error count and the mark, and, where the session is OPEN or LAPSED, begins a session end, in which the deadline is
absent. A transaction in progress is abandoned: MISO carries the idle header from then on and its end discards its bytes. The
supervisor and the other ports are not reached. PRST_N going high changes the pin alone (sections 8.8, 9.6; log entries 12, 16). That
a pin already low has no assertion is log entry 3, and that while RESET_N is low the pin's level alone changes is log entry 13. That
at a busy controller the abandoned transaction clears no mark, which so stands until the held port reset is taken, is the model's
choice (log entry 22). -/
def Obligations.PortResetOutcomes : Prop :=
  ∀ (s : State) p,
    let c := s.port p
    let idle : List Byte := [6, 0, 2, 0, 0, crc8 [6, 0, 2, 0, 0]]
    let txn := c.txn.map fun _ => { mode := .ignored, offered := idle, marked := false : Txn }
    let cleared := { c with
      prstLow := true, txn := txn, resetHeld := false, last := none, linkErrors := 0, mark := false,
      stored := { seq := 0, status := .noRequest, body := .empty, queued := 0 } }
    (s.resetLow = false → c.prstLow = false →
      (c.activity = .idle → c.session = .closed → exec (.portReset p) s = .next (s.setPort p cleared)) ∧
      (c.activity = .idle → c.session ≠ .closed → exec (.portReset p) s = .next (s.setPort p
        { cleared with deadline := none, activity := .ending ⟨.portReset, .output 0, 0, 0, 0⟩ })) ∧
      (c.activity ≠ .idle → exec (.portReset p) s = .next (s.setPort p
        { c with prstLow := true, txn := txn, resetHeld := true }))) ∧
    (c.prstLow = true → exec (.portReset p) s = .next s) ∧
    (s.resetLow = true → c.prstLow = false → exec (.portReset p) s = .next (s.setPort p { c with prstLow := true })) ∧
    exec (.portResetRelease p) s = .next (s.setPort p { c with prstLow := false })

/-- SET_LAPSE writes the interval; the deadline becomes now plus the interval if that is 1 or more, and absent if it is 0; the reply
carries both; every value of the operand is in range, and the request is admitted in OPEN from any port (R161). -/
def Obligations.SetLapseSetsTheDeadline : Prop :=
  (∀ (s : State) p n f, InFlight s p f (.setLapse n) →
    let deadline := if n = 0 then none else some (s.now + n.setWidth 40)
    exec (.setLapse p n) s = .next ((s.setPort p { s.port p with interval := n, deadline := deadline }).answered p f
      ⟨.ok, .lapseSet s.now n deadline⟩)) ∧
  ∀ sup (n : Count32), acceptance .isOpen sup (some 0x05) (count32Bytes n) = .awaiting (.setLapse n)

/-- Only the admission of a request or a replay in OPEN, OPEN taken from LAPSED, and SET_LAPSE give a port a deadline; each gives
it now plus an interval of 1 or more, so the deadline lies that many ticks ahead; every other event leaves the deadline or makes it
absent (section 8.3). -/
def Obligations.DeadlinesAreRestartedByTheseEvents : Prop :=
  (∀ c (s t : State) p, exec c s = .next t →
    (t.port p).deadline = (s.port p).deadline ∨ (t.port p).deadline = none ∨
    (∃ n, n ≠ 0 ∧ (t.port p).deadline = some (s.now + n.setWidth 40) ∧
      ((∃ mosi seq check code ops, c = .transactionEnd p mosi ∧ judge mosi = .frame seq check code ops ∧
          (s.port p).session = .isOpen ∧ n = (s.port p).interval) ∨
       (c = .openSession p ∧ (s.port p).session = .lapsed ∧ n = (s.port p).interval) ∨ c = .setLapse p n))) ∧
  ∀ (now : Tick) (n : Count32), position now (now + n.setWidth 40) = n.toNat

/-! ### Frames -/

/-- The check byte is the CRC-8 with generator x^8 + x^2 + x + 1: as polynomials over the field of two elements, the generator divides
the message times x^8 plus its check byte, initial value 0, bits most significant first; the CRC over a whole frame, check byte
included, is 0, for what is offered too; the CRC of 01h is 07h, and of 01h 07h it is 00h; a frame that came whole has a link error
exactly when its last byte differs from it (R174). -/
def Obligations.CheckByteIsTheRemainder : Prop :=
  (∀ bs : List Byte, ((Polynomial.X ^ 8 + Polynomial.X ^ 2 + Polynomial.X + 1 : Polynomial (ZMod 2)) ∣
    ((bs ++ [crc8 bs]).foldl (fun a b => a * Polynomial.X ^ 8 +
      ((List.range 8).map fun i => if b.getLsbD i then (Polynomial.X ^ i : Polynomial (ZMod 2)) else 0).sum) 0))) ∧
  (∀ bs : List Byte, crc8 (bs ++ [crc8 bs]) = 0) ∧
  crc8 [1] = 7 ∧ crc8 [1, 7] = 0 ∧
  (∀ seq status flags n body, crc8 (offeredBytes seq status flags n body) = 0) ∧
  (∀ (len check : Byte) bs beyond, 3 ≤ len.toNat → len.toNat ≤ 32 → bs.length + 2 = len.toNat →
    (judge (len :: bs ++ check :: beyond) = .linkError ↔ check ≠ crc8 (len :: bs)))

/-- The frame of every request that is in range is read back as that request, whatever the SEQ and whatever follows the frame: it has
no link error, its CODE names the request, and its operands give it with every field at every value that the encoding admits
(sections 9.2, 10.1). -/
def Obligations.RequestFrameRoundTrip : Prop :=
  ∀ (r : Request) (seq : Byte) (beyond : List Byte), r.wellFormed = true →
    ∃ check, judge (r.frame seq ++ beyond) = .frame seq check (some r.code.byte) r.operands ∧
      codeOfByte r.code.byte = some r.code ∧ r.operands.length = r.code.operandBytes ∧
      (r.frame seq).length = r.code.operandBytes + 4 ∧ requestInRange r.code r.operands = some r

/-! ### What every step keeps -/

/-- Every step keeps the line records in good order, the prescaler count at the divide value or below, and the output records in
good order: at most one owner, two distinct waiters, and no waiter on an output without an owner (sections 1.1, 2.1, 2.6, 3.1). -/
def Obligations.EveryStepKeepsLinesAndOutputRecords : Prop :=
  ∀ s t, step s = .next t →
    ((∀ l, (s.line l).ok) → ∀ l, (t.line l).ok) ∧ (s.timebase.ok → t.timebase.ok) ∧
    ((∀ o, (s.output o).ok) → ∀ o, (t.output o).ok)

/-- Every step keeps the queues within their bounds, which are 64 records, 56 general records, and none at a SHUT intake; and it keeps
the groups in good order: in RELEASING an acknowledgment is missing, a deadline stands in RELEASING alone, and in NORMAL nothing is owed
(sections 6.1, 6.6, 7.1, 7.3, 7.4). -/
def Obligations.EveryStepKeepsQueuesAndGroups : Prop :=
  ∀ s t, step s = .next t →
    ((∀ p, (s.queue p).ok) → ∀ p, (t.queue p).ok) ∧ ((∀ g, (s.group g).ok) → ∀ g, (t.group g).ok)

/-- Every step keeps the agenda in good order: both lists, the live counts, the quotas, and the anchors, of which none is lost and none
makes a cycle (sections 4.3, 4.4). With the controllers in good order it also keeps the agenda in order of time: every entry moves
forward when it fires, the armed list stands in due order as seen from the present, over a rollover too, and an edge that the agenda
has still to take is of the present tick (sections 2.5, 4.3, 5.2). -/
def Obligations.EveryStepKeepsTheAgenda : Prop :=
  ∀ (s : State) t, s.agenda.ok → step s = .next t →
    t.agenda.ok ∧ (Timely s → (∀ p, (s.port p).ok s.supervisor p) → Timely t)

/-- Every step keeps the protective state: no live entry stands on a forced output or on an output that its owner does not own, and
every forced output stands at its safe level (sections 3.2, 3.4). -/
def Obligations.EveryStepKeepsForcedOutputsSafe : Prop :=
  ∀ (s : State) t, Protected s → step s = .next t → Protected t

/-- Every step keeps the controllers in good order, and every block at its reset values while RESET_N is low (sections 1.7, 8.1 to
8.8). -/
def Obligations.EveryStepKeepsTheControllers : Prop :=
  ∀ (s : State) t, (∀ p, (s.port p).ok s.supervisor p) → HeldInReset s → step s = .next t →
    (∀ p, (t.port p).ok t.supervisor p) ∧ HeldInReset t

/-- Every step keeps each port within its session: a port out of OPEN owns no output, waits for none, has no live entry and owes no
acknowledgment, a CLOSED port's queue is flushed, and a session end never gives back what its steps have taken (sections 8.2, 8.5). -/
def Obligations.EveryStepKeepsSessionsToTheirBounds : Prop :=
  ∀ (s : State) t, (∀ p, SessionHolds s p) → (∀ p, (s.port p).ok s.supervisor p) → HeldInReset s → (∀ o, (s.output o).ok) →
    Protected s → step s = .next t → ∀ p, SessionHolds t p

/-- Right after reset every block is in good order, so each of the invariants above holds of every state that a run from reset
reaches. -/
def Obligations.ResetIsInGoodOrder : Prop :=
  let s := State.reset
  (∀ l, (s.line l).ok) ∧ s.timebase.ok ∧ (∀ o, (s.output o).ok) ∧ (∀ p, (s.queue p).ok) ∧ (∀ g, (s.group g).ok) ∧
    s.agenda.ok ∧ Timely s ∧ Protected s ∧ (∀ p, (s.port p).ok s.supervisor p) ∧ HeldInReset s ∧ (∀ p, SessionHolds s p) ∧ Settled s
end

