-- ==== Sys2Proof/Laws/State.lean ====
section
/-! SUPPORT. Reading after replacing: the fixed-size tables, and one lemma for each field of the state and each update of one
part of it, so that no later proof unfolds a record update. -/

namespace Sys2Proof

/-! ### Tables -/

@[ext] theorem PerPort.ext_get {α : Type} {t u : PerPort α} (h : ∀ p, t.get p = u.get p) : t = u := by
  have ha := h .A; have hb := h .B; have hc := h .C
  cases t; cases u; simp_all [PerPort.get]

@[ext] theorem PerGroup.ext_get {α : Type} {t u : PerGroup α} (h : ∀ g, t.get g = u.get g) : t = u := by
  have h0 := h .G0; have h1 := h .G1
  cases t; cases u; simp_all [PerGroup.get]

@[simp] theorem PerPort.get_set_self {α : Type} (t : PerPort α) (p : Port) (x : α) : (t.set p x).get p = x := by
  cases p <;> rfl

theorem PerPort.get_set_ne {α : Type} (t : PerPort α) {p q : Port} (h : q ≠ p) (x : α) : (t.set p x).get q = t.get q := by
  cases p <;> cases q <;> first | rfl | exact absurd rfl h

theorem PerPort.get_set {α : Type} (t : PerPort α) (p q : Port) (x : α) :
    (t.set p x).get q = if q = p then x else t.get q := by
  split
  · next h => subst h; simp
  · next h => exact PerPort.get_set_ne t h x

@[simp] theorem PerPort.set_get {α : Type} (t : PerPort α) (p : Port) : t.set p (t.get p) = t := by
  cases p <;> rfl

@[simp] theorem PerPort.set_set {α : Type} (t : PerPort α) (p : Port) (x y : α) : (t.set p x).set p y = t.set p y := by
  cases p <;> rfl

@[simp] theorem PerPort.get_fill {α : Type} (x : α) (p : Port) : (PerPort.fill x).get p = x := by cases p <;> rfl

@[simp] theorem PerPort.get_ofFn {α : Type} (f : Port → α) (p : Port) : (PerPort.ofFn f).get p = f p := by cases p <;> rfl

@[simp] theorem PerGroup.get_set_self {α : Type} (t : PerGroup α) (g : Group) (x : α) : (t.set g x).get g = x := by
  cases g <;> rfl

theorem PerGroup.get_set_ne {α : Type} (t : PerGroup α) {g k : Group} (h : k ≠ g) (x : α) :
    (t.set g x).get k = t.get k := by
  cases g <;> cases k <;> first | rfl | exact absurd rfl h

theorem PerGroup.get_set {α : Type} (t : PerGroup α) (g k : Group) (x : α) :
    (t.set g x).get k = if k = g then x else t.get k := by
  split
  · next h => subst h; simp
  · next h => exact PerGroup.get_set_ne t h x

@[simp] theorem PerGroup.set_get {α : Type} (t : PerGroup α) (g : Group) : t.set g (t.get g) = t := by
  cases g <;> rfl

@[simp] theorem PerGroup.set_set {α : Type} (t : PerGroup α) (g : Group) (x y : α) :
    (t.set g x).set g y = t.set g y := by
  cases g <;> rfl

@[simp] theorem PerGroup.get_fill {α : Type} (x : α) (g : Group) : (PerGroup.fill x).get g = x := by cases g <;> rfl

@[simp] theorem PerGroup.get_ofFn {α : Type} (f : Group → α) (g : Group) : (PerGroup.ofFn f).get g = f g := by
  cases g <;> rfl

@[ext] theorem Table.ext_get {n : Nat} {α : Type} {t u : Table n α} (h : ∀ i, t.get i = u.get i) : t = u := by
  cases t with | mk tc ts => cases u with | mk uc us =>
    congr 1
    apply List.ext_getElem (by rw [ts, us])
    intro k hk _
    exact h ⟨k, by omega⟩

@[simp] theorem Table.get_set_self {n : Nat} {α : Type} (t : Table n α) (i : Fin n) (x : α) : (t.set i x).get i = x := by
  simp [Table.get, Table.set]

theorem Table.get_set_ne {n : Nat} {α : Type} (t : Table n α) {i j : Fin n} (h : j ≠ i) (x : α) :
    (t.set i x).get j = t.get j := by
  simp only [Table.get, Table.set]
  exact List.getElem_set_ne (fun hv => h (Fin.ext hv.symm)) _

theorem Table.get_set {n : Nat} {α : Type} (t : Table n α) (i j : Fin n) (x : α) :
    (t.set i x).get j = if j = i then x else t.get j := by
  split
  · next h => subst h; simp
  · next h => exact Table.get_set_ne t h x

@[simp] theorem Table.set_get {n : Nat} {α : Type} (t : Table n α) (i : Fin n) : t.set i (t.get i) = t := by
  ext j
  rw [Table.get_set]
  split
  · next h => rw [h]
  · rfl

@[simp] theorem Table.set_set {n : Nat} {α : Type} (t : Table n α) (i : Fin n) (x y : α) :
    (t.set i x).set i y = t.set i y := by
  ext j
  simp only [Table.get_set]
  split <;> rfl

@[simp] theorem Table.get_ofFn {n : Nat} {α : Type} (f : Fin n → α) (i : Fin n) : (Table.ofFn f).get i = f i := by
  simp [Table.get, Table.ofFn]

@[simp] theorem Table.get_fill {n : Nat} {α : Type} (x : α) (i : Fin n) : (Table.fill x : Table n α).get i = x := by
  simp [Table.get, Table.fill]

/-- The first index that passes a test. -/
theorem find_finRange_some {n : Nat} {f : Fin n → Bool} {i : Fin n} :
    (List.finRange n).find? f = some i ↔ f i = true ∧ ∀ j, j < i → ¬f j = true := by
  rw [List.find?_eq_some_iff_append]
  have hsorted : (List.finRange n).Pairwise (· < ·) := List.pairwise_lt_finRange n
  constructor
  · rintro ⟨h, as, bs, hl, has⟩
    refine ⟨h, fun j hj hn => ?_⟩
    have hmem : j ∈ List.finRange n := List.mem_finRange j
    rw [hl] at hmem hsorted
    rcases List.mem_append.1 hmem with hm | hm
    · have := has j hm; simp [hn] at this
    · rw [List.pairwise_append, List.pairwise_cons] at hsorted
      rcases List.mem_cons.1 hm with rfl | hm
      · exact lt_irrefl _ hj
      · exact absurd (hsorted.2.1.1 j hm) (not_lt.2 hj.le)
  · rintro ⟨h, hj⟩
    refine ⟨h, ?_⟩
    obtain ⟨as, bs, hl⟩ := List.append_of_mem (List.mem_finRange i)
    refine ⟨as, bs, hl, fun j hm => ?_⟩
    rw [hl, List.pairwise_append] at hsorted
    simpa using hj j (hsorted.2.2 j hm i (by simp))

@[simp] theorem mem_Port_all (p : Port) : p ∈ Port.all := by cases p <;> decide

@[simp] theorem mem_Group_all (g : Group) : g ∈ Group.all := by cases g <;> decide

namespace Machine


/-! ### `State.setPending` -/

@[simp] theorem State.setPending_pending (s : State) (q : List Instr) : (s.setPending q).pending = q := rfl
@[simp] theorem State.setPending_resetLow (s : State) (q : List Instr) : (s.setPending q).resetLow = s.resetLow := rfl
@[simp] theorem State.setPending_supervisor (s : State) (q : List Instr) : (s.setPending q).supervisor = s.supervisor := rfl
@[simp] theorem State.setPending_timebase (s : State) (q : List Instr) : (s.setPending q).timebase = s.timebase := rfl
@[simp] theorem State.setPending_lines (s : State) (q : List Instr) : (s.setPending q).lines = s.lines := rfl
@[simp] theorem State.setPending_published (s : State) (q : List Instr) : (s.setPending q).published = s.published := rfl
@[simp] theorem State.setPending_outputs (s : State) (q : List Instr) : (s.setPending q).outputs = s.outputs := rfl
@[simp] theorem State.setPending_agenda (s : State) (q : List Instr) : (s.setPending q).agenda = s.agenda := rfl
@[simp] theorem State.setPending_groups (s : State) (q : List Instr) : (s.setPending q).groups = s.groups := rfl
@[simp] theorem State.setPending_queues (s : State) (q : List Instr) : (s.setPending q).queues = s.queues := rfl
@[simp] theorem State.setPending_transit (s : State) (q : List Instr) : (s.setPending q).transit = s.transit := rfl
@[simp] theorem State.setPending_ports (s : State) (q : List Instr) : (s.setPending q).ports = s.ports := rfl

/-! ### `State.setTimebase` -/

@[simp] theorem State.setTimebase_pending (s : State) (t : Timebase) : (s.setTimebase t).pending = s.pending := rfl
@[simp] theorem State.setTimebase_resetLow (s : State) (t : Timebase) : (s.setTimebase t).resetLow = s.resetLow := rfl
@[simp] theorem State.setTimebase_supervisor (s : State) (t : Timebase) : (s.setTimebase t).supervisor = s.supervisor := rfl
@[simp] theorem State.setTimebase_timebase (s : State) (t : Timebase) : (s.setTimebase t).timebase = t := rfl
@[simp] theorem State.setTimebase_lines (s : State) (t : Timebase) : (s.setTimebase t).lines = s.lines := rfl
@[simp] theorem State.setTimebase_published (s : State) (t : Timebase) : (s.setTimebase t).published = s.published := rfl
@[simp] theorem State.setTimebase_outputs (s : State) (t : Timebase) : (s.setTimebase t).outputs = s.outputs := rfl
@[simp] theorem State.setTimebase_agenda (s : State) (t : Timebase) : (s.setTimebase t).agenda = s.agenda := rfl
@[simp] theorem State.setTimebase_groups (s : State) (t : Timebase) : (s.setTimebase t).groups = s.groups := rfl
@[simp] theorem State.setTimebase_queues (s : State) (t : Timebase) : (s.setTimebase t).queues = s.queues := rfl
@[simp] theorem State.setTimebase_transit (s : State) (t : Timebase) : (s.setTimebase t).transit = s.transit := rfl
@[simp] theorem State.setTimebase_ports (s : State) (t : Timebase) : (s.setTimebase t).ports = s.ports := rfl

/-! ### `State.setLines` -/

@[simp] theorem State.setLines_pending (s : State) (t : Table 16 LineRec) : (s.setLines t).pending = s.pending := rfl
@[simp] theorem State.setLines_resetLow (s : State) (t : Table 16 LineRec) : (s.setLines t).resetLow = s.resetLow := rfl
@[simp] theorem State.setLines_supervisor (s : State) (t : Table 16 LineRec) : (s.setLines t).supervisor = s.supervisor := rfl
@[simp] theorem State.setLines_timebase (s : State) (t : Table 16 LineRec) : (s.setLines t).timebase = s.timebase := rfl
@[simp] theorem State.setLines_lines (s : State) (t : Table 16 LineRec) : (s.setLines t).lines = t := rfl
@[simp] theorem State.setLines_published (s : State) (t : Table 16 LineRec) : (s.setLines t).published = s.published := rfl
@[simp] theorem State.setLines_outputs (s : State) (t : Table 16 LineRec) : (s.setLines t).outputs = s.outputs := rfl
@[simp] theorem State.setLines_agenda (s : State) (t : Table 16 LineRec) : (s.setLines t).agenda = s.agenda := rfl
@[simp] theorem State.setLines_groups (s : State) (t : Table 16 LineRec) : (s.setLines t).groups = s.groups := rfl
@[simp] theorem State.setLines_queues (s : State) (t : Table 16 LineRec) : (s.setLines t).queues = s.queues := rfl
@[simp] theorem State.setLines_transit (s : State) (t : Table 16 LineRec) : (s.setLines t).transit = s.transit := rfl
@[simp] theorem State.setLines_ports (s : State) (t : Table 16 LineRec) : (s.setLines t).ports = s.ports := rfl

/-! ### `State.setPublished` -/

@[simp] theorem State.setPublished_pending (s : State) (e : Published) : (s.setPublished e).pending = s.pending := rfl
@[simp] theorem State.setPublished_resetLow (s : State) (e : Published) : (s.setPublished e).resetLow = s.resetLow := rfl
@[simp] theorem State.setPublished_supervisor (s : State) (e : Published) : (s.setPublished e).supervisor = s.supervisor := rfl
@[simp] theorem State.setPublished_timebase (s : State) (e : Published) : (s.setPublished e).timebase = s.timebase := rfl
@[simp] theorem State.setPublished_lines (s : State) (e : Published) : (s.setPublished e).lines = s.lines := rfl
@[simp] theorem State.setPublished_published (s : State) (e : Published) : (s.setPublished e).published = e := rfl
@[simp] theorem State.setPublished_outputs (s : State) (e : Published) : (s.setPublished e).outputs = s.outputs := rfl
@[simp] theorem State.setPublished_agenda (s : State) (e : Published) : (s.setPublished e).agenda = s.agenda := rfl
@[simp] theorem State.setPublished_groups (s : State) (e : Published) : (s.setPublished e).groups = s.groups := rfl
@[simp] theorem State.setPublished_queues (s : State) (e : Published) : (s.setPublished e).queues = s.queues := rfl
@[simp] theorem State.setPublished_transit (s : State) (e : Published) : (s.setPublished e).transit = s.transit := rfl
@[simp] theorem State.setPublished_ports (s : State) (e : Published) : (s.setPublished e).ports = s.ports := rfl

/-! ### `State.setOutputs` -/

@[simp] theorem State.setOutputs_pending (s : State) (t : Table 12 OutputRec) : (s.setOutputs t).pending = s.pending := rfl
@[simp] theorem State.setOutputs_resetLow (s : State) (t : Table 12 OutputRec) : (s.setOutputs t).resetLow = s.resetLow := rfl
@[simp] theorem State.setOutputs_supervisor (s : State) (t : Table 12 OutputRec) : (s.setOutputs t).supervisor = s.supervisor := rfl
@[simp] theorem State.setOutputs_timebase (s : State) (t : Table 12 OutputRec) : (s.setOutputs t).timebase = s.timebase := rfl
@[simp] theorem State.setOutputs_lines (s : State) (t : Table 12 OutputRec) : (s.setOutputs t).lines = s.lines := rfl
@[simp] theorem State.setOutputs_published (s : State) (t : Table 12 OutputRec) : (s.setOutputs t).published = s.published := rfl
@[simp] theorem State.setOutputs_outputs (s : State) (t : Table 12 OutputRec) : (s.setOutputs t).outputs = t := rfl
@[simp] theorem State.setOutputs_agenda (s : State) (t : Table 12 OutputRec) : (s.setOutputs t).agenda = s.agenda := rfl
@[simp] theorem State.setOutputs_groups (s : State) (t : Table 12 OutputRec) : (s.setOutputs t).groups = s.groups := rfl
@[simp] theorem State.setOutputs_queues (s : State) (t : Table 12 OutputRec) : (s.setOutputs t).queues = s.queues := rfl
@[simp] theorem State.setOutputs_transit (s : State) (t : Table 12 OutputRec) : (s.setOutputs t).transit = s.transit := rfl
@[simp] theorem State.setOutputs_ports (s : State) (t : Table 12 OutputRec) : (s.setOutputs t).ports = s.ports := rfl

/-! ### `State.setOutput` -/

@[simp] theorem State.setOutput_pending (s : State) (o : Output) (r : OutputRec) : (s.setOutput o r).pending = s.pending := rfl
@[simp] theorem State.setOutput_resetLow (s : State) (o : Output) (r : OutputRec) : (s.setOutput o r).resetLow = s.resetLow := rfl
@[simp] theorem State.setOutput_supervisor (s : State) (o : Output) (r : OutputRec) : (s.setOutput o r).supervisor = s.supervisor := rfl
@[simp] theorem State.setOutput_timebase (s : State) (o : Output) (r : OutputRec) : (s.setOutput o r).timebase = s.timebase := rfl
@[simp] theorem State.setOutput_lines (s : State) (o : Output) (r : OutputRec) : (s.setOutput o r).lines = s.lines := rfl
@[simp] theorem State.setOutput_published (s : State) (o : Output) (r : OutputRec) : (s.setOutput o r).published = s.published := rfl
@[simp] theorem State.setOutput_outputs (s : State) (o : Output) (r : OutputRec) : (s.setOutput o r).outputs = s.outputs.set o r := rfl
@[simp] theorem State.setOutput_agenda (s : State) (o : Output) (r : OutputRec) : (s.setOutput o r).agenda = s.agenda := rfl
@[simp] theorem State.setOutput_groups (s : State) (o : Output) (r : OutputRec) : (s.setOutput o r).groups = s.groups := rfl
@[simp] theorem State.setOutput_queues (s : State) (o : Output) (r : OutputRec) : (s.setOutput o r).queues = s.queues := rfl
@[simp] theorem State.setOutput_transit (s : State) (o : Output) (r : OutputRec) : (s.setOutput o r).transit = s.transit := rfl
@[simp] theorem State.setOutput_ports (s : State) (o : Output) (r : OutputRec) : (s.setOutput o r).ports = s.ports := rfl

/-! ### `State.setAgenda` -/

@[simp] theorem State.setAgenda_pending (s : State) (a : Agenda) : (s.setAgenda a).pending = s.pending := rfl
@[simp] theorem State.setAgenda_resetLow (s : State) (a : Agenda) : (s.setAgenda a).resetLow = s.resetLow := rfl
@[simp] theorem State.setAgenda_supervisor (s : State) (a : Agenda) : (s.setAgenda a).supervisor = s.supervisor := rfl
@[simp] theorem State.setAgenda_timebase (s : State) (a : Agenda) : (s.setAgenda a).timebase = s.timebase := rfl
@[simp] theorem State.setAgenda_lines (s : State) (a : Agenda) : (s.setAgenda a).lines = s.lines := rfl
@[simp] theorem State.setAgenda_published (s : State) (a : Agenda) : (s.setAgenda a).published = s.published := rfl
@[simp] theorem State.setAgenda_outputs (s : State) (a : Agenda) : (s.setAgenda a).outputs = s.outputs := rfl
@[simp] theorem State.setAgenda_agenda (s : State) (a : Agenda) : (s.setAgenda a).agenda = a := rfl
@[simp] theorem State.setAgenda_groups (s : State) (a : Agenda) : (s.setAgenda a).groups = s.groups := rfl
@[simp] theorem State.setAgenda_queues (s : State) (a : Agenda) : (s.setAgenda a).queues = s.queues := rfl
@[simp] theorem State.setAgenda_transit (s : State) (a : Agenda) : (s.setAgenda a).transit = s.transit := rfl
@[simp] theorem State.setAgenda_ports (s : State) (a : Agenda) : (s.setAgenda a).ports = s.ports := rfl

/-! ### `State.setGroup` -/

@[simp] theorem State.setGroup_pending (s : State) (g : Group) (r : GroupRec) : (s.setGroup g r).pending = s.pending := rfl
@[simp] theorem State.setGroup_resetLow (s : State) (g : Group) (r : GroupRec) : (s.setGroup g r).resetLow = s.resetLow := rfl
@[simp] theorem State.setGroup_supervisor (s : State) (g : Group) (r : GroupRec) : (s.setGroup g r).supervisor = s.supervisor := rfl
@[simp] theorem State.setGroup_timebase (s : State) (g : Group) (r : GroupRec) : (s.setGroup g r).timebase = s.timebase := rfl
@[simp] theorem State.setGroup_lines (s : State) (g : Group) (r : GroupRec) : (s.setGroup g r).lines = s.lines := rfl
@[simp] theorem State.setGroup_published (s : State) (g : Group) (r : GroupRec) : (s.setGroup g r).published = s.published := rfl
@[simp] theorem State.setGroup_outputs (s : State) (g : Group) (r : GroupRec) : (s.setGroup g r).outputs = s.outputs := rfl
@[simp] theorem State.setGroup_agenda (s : State) (g : Group) (r : GroupRec) : (s.setGroup g r).agenda = s.agenda := rfl
@[simp] theorem State.setGroup_groups (s : State) (g : Group) (r : GroupRec) : (s.setGroup g r).groups = s.groups.set g r := rfl
@[simp] theorem State.setGroup_queues (s : State) (g : Group) (r : GroupRec) : (s.setGroup g r).queues = s.queues := rfl
@[simp] theorem State.setGroup_transit (s : State) (g : Group) (r : GroupRec) : (s.setGroup g r).transit = s.transit := rfl
@[simp] theorem State.setGroup_ports (s : State) (g : Group) (r : GroupRec) : (s.setGroup g r).ports = s.ports := rfl

/-! ### `State.setQueue` -/

@[simp] theorem State.setQueue_pending (s : State) (p : Port) (q : Queue) : (s.setQueue p q).pending = s.pending := rfl
@[simp] theorem State.setQueue_resetLow (s : State) (p : Port) (q : Queue) : (s.setQueue p q).resetLow = s.resetLow := rfl
@[simp] theorem State.setQueue_supervisor (s : State) (p : Port) (q : Queue) : (s.setQueue p q).supervisor = s.supervisor := rfl
@[simp] theorem State.setQueue_timebase (s : State) (p : Port) (q : Queue) : (s.setQueue p q).timebase = s.timebase := rfl
@[simp] theorem State.setQueue_lines (s : State) (p : Port) (q : Queue) : (s.setQueue p q).lines = s.lines := rfl
@[simp] theorem State.setQueue_published (s : State) (p : Port) (q : Queue) : (s.setQueue p q).published = s.published := rfl
@[simp] theorem State.setQueue_outputs (s : State) (p : Port) (q : Queue) : (s.setQueue p q).outputs = s.outputs := rfl
@[simp] theorem State.setQueue_agenda (s : State) (p : Port) (q : Queue) : (s.setQueue p q).agenda = s.agenda := rfl
@[simp] theorem State.setQueue_groups (s : State) (p : Port) (q : Queue) : (s.setQueue p q).groups = s.groups := rfl
@[simp] theorem State.setQueue_queues (s : State) (p : Port) (q : Queue) : (s.setQueue p q).queues = s.queues.set p q := rfl
@[simp] theorem State.setQueue_transit (s : State) (p : Port) (q : Queue) : (s.setQueue p q).transit = s.transit := rfl
@[simp] theorem State.setQueue_ports (s : State) (p : Port) (q : Queue) : (s.setQueue p q).ports = s.ports := rfl

/-! ### `State.setTransit` -/

@[simp] theorem State.setTransit_pending (s : State) (t : PerPort (List (List Msg))) : (s.setTransit t).pending = s.pending := rfl
@[simp] theorem State.setTransit_resetLow (s : State) (t : PerPort (List (List Msg))) : (s.setTransit t).resetLow = s.resetLow := rfl
@[simp] theorem State.setTransit_supervisor (s : State) (t : PerPort (List (List Msg))) : (s.setTransit t).supervisor = s.supervisor := rfl
@[simp] theorem State.setTransit_timebase (s : State) (t : PerPort (List (List Msg))) : (s.setTransit t).timebase = s.timebase := rfl
@[simp] theorem State.setTransit_lines (s : State) (t : PerPort (List (List Msg))) : (s.setTransit t).lines = s.lines := rfl
@[simp] theorem State.setTransit_published (s : State) (t : PerPort (List (List Msg))) : (s.setTransit t).published = s.published := rfl
@[simp] theorem State.setTransit_outputs (s : State) (t : PerPort (List (List Msg))) : (s.setTransit t).outputs = s.outputs := rfl
@[simp] theorem State.setTransit_agenda (s : State) (t : PerPort (List (List Msg))) : (s.setTransit t).agenda = s.agenda := rfl
@[simp] theorem State.setTransit_groups (s : State) (t : PerPort (List (List Msg))) : (s.setTransit t).groups = s.groups := rfl
@[simp] theorem State.setTransit_queues (s : State) (t : PerPort (List (List Msg))) : (s.setTransit t).queues = s.queues := rfl
@[simp] theorem State.setTransit_transit (s : State) (t : PerPort (List (List Msg))) : (s.setTransit t).transit = t := rfl
@[simp] theorem State.setTransit_ports (s : State) (t : PerPort (List (List Msg))) : (s.setTransit t).ports = s.ports := rfl

/-! ### `State.setPort` -/

@[simp] theorem State.setPort_pending (s : State) (p : Port) (c : Controller) : (s.setPort p c).pending = s.pending := rfl
@[simp] theorem State.setPort_resetLow (s : State) (p : Port) (c : Controller) : (s.setPort p c).resetLow = s.resetLow := rfl
@[simp] theorem State.setPort_supervisor (s : State) (p : Port) (c : Controller) : (s.setPort p c).supervisor = s.supervisor := rfl
@[simp] theorem State.setPort_timebase (s : State) (p : Port) (c : Controller) : (s.setPort p c).timebase = s.timebase := rfl
@[simp] theorem State.setPort_lines (s : State) (p : Port) (c : Controller) : (s.setPort p c).lines = s.lines := rfl
@[simp] theorem State.setPort_published (s : State) (p : Port) (c : Controller) : (s.setPort p c).published = s.published := rfl
@[simp] theorem State.setPort_outputs (s : State) (p : Port) (c : Controller) : (s.setPort p c).outputs = s.outputs := rfl
@[simp] theorem State.setPort_agenda (s : State) (p : Port) (c : Controller) : (s.setPort p c).agenda = s.agenda := rfl
@[simp] theorem State.setPort_groups (s : State) (p : Port) (c : Controller) : (s.setPort p c).groups = s.groups := rfl
@[simp] theorem State.setPort_queues (s : State) (p : Port) (c : Controller) : (s.setPort p c).queues = s.queues := rfl
@[simp] theorem State.setPort_transit (s : State) (p : Port) (c : Controller) : (s.setPort p c).transit = s.transit := rfl
@[simp] theorem State.setPort_ports (s : State) (p : Port) (c : Controller) : (s.setPort p c).ports = s.ports.set p c := rfl

/-! ### The accessors -/

@[simp] theorem State.setPort_port_self (s : State) (p : Port) (c : Controller) : (s.setPort p c).port p = c := by
  simp [State.port]

theorem State.setPort_port (s : State) (p q : Port) (c : Controller) :
    (s.setPort p c).port q = if q = p then c else s.port q := by
  simp [State.port, PerPort.get_set]

@[simp] theorem State.setQueue_queue_self (s : State) (p : Port) (c : Queue) : (s.setQueue p c).queue p = c := by
  simp [State.queue]

theorem State.setQueue_queue (s : State) (p q : Port) (c : Queue) :
    (s.setQueue p c).queue q = if q = p then c else s.queue q := by
  simp [State.queue, PerPort.get_set]

@[simp] theorem State.setGroup_group_self (s : State) (g : Group) (r : GroupRec) : (s.setGroup g r).group g = r := by
  simp [State.group]

theorem State.setGroup_group (s : State) (g k : Group) (r : GroupRec) :
    (s.setGroup g r).group k = if k = g then r else s.group k := by
  simp [State.group, PerGroup.get_set]

@[simp] theorem State.setOutput_output_self (s : State) (o : Output) (r : OutputRec) : (s.setOutput o r).output o = r := by
  simp [State.output]

theorem State.setOutput_output (s : State) (o k : Output) (r : OutputRec) :
    (s.setOutput o r).output k = if k = o then r else s.output k := by
  simp [State.output, Table.get_set]

@[simp] theorem State.setPort_same (s : State) (p : Port) : s.setPort p (s.port p) = s := by
  simp [State.setPort, State.port]

@[simp] theorem State.setQueue_same (s : State) (p : Port) : s.setQueue p (s.queue p) = s := by
  simp [State.setQueue, State.queue]

@[simp] theorem State.setGroup_same (s : State) (g : Group) : s.setGroup g (s.group g) = s := by
  simp [State.setGroup, State.group]

@[simp] theorem State.setOutput_same (s : State) (o : Output) : s.setOutput o (s.output o) = s := by
  simp [State.setOutput, State.output]

@[simp] theorem State.setPort_setPort (s : State) (p : Port) (c d : Controller) :
    (s.setPort p c).setPort p d = s.setPort p d := by
  simp [State.setPort]

@[simp] theorem State.setQueue_setQueue (s : State) (p : Port) (c d : Queue) :
    (s.setQueue p c).setQueue p d = s.setQueue p d := by
  simp [State.setQueue]

@[simp] theorem State.setGroup_setGroup (s : State) (g : Group) (r q : GroupRec) :
    (s.setGroup g r).setGroup g q = s.setGroup g q := by
  simp [State.setGroup]

@[simp] theorem State.setOutput_setOutput (s : State) (o : Output) (r q : OutputRec) :
    (s.setOutput o r).setOutput o q = s.setOutput o q := by
  simp [State.setOutput]

@[simp] theorem State.setAgenda_setAgenda (s : State) (a b : Agenda) : (s.setAgenda a).setAgenda b = s.setAgenda b := rfl

@[simp] theorem State.setAgenda_same (s : State) : s.setAgenda s.agenda = s := rfl

@[simp] theorem State.setTransit_same (s : State) : s.setTransit s.transit = s := rfl

/-! ### What an accessor reads after another part was replaced -/

@[simp] theorem State.setPending_now_other (s : State) (q : List Instr) : (s.setPending q).now = s.now := rfl
@[simp] theorem State.setPending_port_other (s : State) (q : List Instr) (k : Port) : (s.setPending q).port k = s.port k := rfl
@[simp] theorem State.setPending_queue_other (s : State) (q : List Instr) (k : Port) : (s.setPending q).queue k = s.queue k := rfl
@[simp] theorem State.setPending_group_other (s : State) (q : List Instr) (k : Group) : (s.setPending q).group k = s.group k := rfl
@[simp] theorem State.setPending_output_other (s : State) (q : List Instr) (k : Output) : (s.setPending q).output k = s.output k := rfl
@[simp] theorem State.setPending_line_other (s : State) (q : List Instr) (k : Line) : (s.setPending q).line k = s.line k := rfl
@[simp] theorem State.setPending_slot_other (s : State) (q : List Instr) (k : SlotNo) : (s.setPending q).slot k = s.slot k := rfl
@[simp] theorem State.setPending_entry_other (s : State) (q : List Instr) (k : SlotNo) : (s.setPending q).entry k = s.entry k := rfl
@[simp] theorem State.setTimebase_port_other (s : State) (t : Timebase) (k : Port) : (s.setTimebase t).port k = s.port k := rfl
@[simp] theorem State.setTimebase_queue_other (s : State) (t : Timebase) (k : Port) : (s.setTimebase t).queue k = s.queue k := rfl
@[simp] theorem State.setTimebase_group_other (s : State) (t : Timebase) (k : Group) : (s.setTimebase t).group k = s.group k := rfl
@[simp] theorem State.setTimebase_output_other (s : State) (t : Timebase) (k : Output) : (s.setTimebase t).output k = s.output k := rfl
@[simp] theorem State.setTimebase_line_other (s : State) (t : Timebase) (k : Line) : (s.setTimebase t).line k = s.line k := rfl
@[simp] theorem State.setTimebase_slot_other (s : State) (t : Timebase) (k : SlotNo) : (s.setTimebase t).slot k = s.slot k := rfl
@[simp] theorem State.setTimebase_entry_other (s : State) (t : Timebase) (k : SlotNo) : (s.setTimebase t).entry k = s.entry k := rfl
@[simp] theorem State.setLines_now_other (s : State) (t : Table 16 LineRec) : (s.setLines t).now = s.now := rfl
@[simp] theorem State.setLines_port_other (s : State) (t : Table 16 LineRec) (k : Port) : (s.setLines t).port k = s.port k := rfl
@[simp] theorem State.setLines_queue_other (s : State) (t : Table 16 LineRec) (k : Port) : (s.setLines t).queue k = s.queue k := rfl
@[simp] theorem State.setLines_group_other (s : State) (t : Table 16 LineRec) (k : Group) : (s.setLines t).group k = s.group k := rfl
@[simp] theorem State.setLines_output_other (s : State) (t : Table 16 LineRec) (k : Output) : (s.setLines t).output k = s.output k := rfl
@[simp] theorem State.setLines_slot_other (s : State) (t : Table 16 LineRec) (k : SlotNo) : (s.setLines t).slot k = s.slot k := rfl
@[simp] theorem State.setLines_entry_other (s : State) (t : Table 16 LineRec) (k : SlotNo) : (s.setLines t).entry k = s.entry k := rfl
@[simp] theorem State.setPublished_now_other (s : State) (e : Published) : (s.setPublished e).now = s.now := rfl
@[simp] theorem State.setPublished_port_other (s : State) (e : Published) (k : Port) : (s.setPublished e).port k = s.port k := rfl
@[simp] theorem State.setPublished_queue_other (s : State) (e : Published) (k : Port) : (s.setPublished e).queue k = s.queue k := rfl
@[simp] theorem State.setPublished_group_other (s : State) (e : Published) (k : Group) : (s.setPublished e).group k = s.group k := rfl
@[simp] theorem State.setPublished_output_other (s : State) (e : Published) (k : Output) : (s.setPublished e).output k = s.output k := rfl
@[simp] theorem State.setPublished_line_other (s : State) (e : Published) (k : Line) : (s.setPublished e).line k = s.line k := rfl
@[simp] theorem State.setPublished_slot_other (s : State) (e : Published) (k : SlotNo) : (s.setPublished e).slot k = s.slot k := rfl
@[simp] theorem State.setPublished_entry_other (s : State) (e : Published) (k : SlotNo) : (s.setPublished e).entry k = s.entry k := rfl
@[simp] theorem State.setOutputs_now_other (s : State) (t : Table 12 OutputRec) : (s.setOutputs t).now = s.now := rfl
@[simp] theorem State.setOutputs_port_other (s : State) (t : Table 12 OutputRec) (k : Port) : (s.setOutputs t).port k = s.port k := rfl
@[simp] theorem State.setOutputs_queue_other (s : State) (t : Table 12 OutputRec) (k : Port) : (s.setOutputs t).queue k = s.queue k := rfl
@[simp] theorem State.setOutputs_group_other (s : State) (t : Table 12 OutputRec) (k : Group) : (s.setOutputs t).group k = s.group k := rfl
@[simp] theorem State.setOutputs_line_other (s : State) (t : Table 12 OutputRec) (k : Line) : (s.setOutputs t).line k = s.line k := rfl
@[simp] theorem State.setOutputs_slot_other (s : State) (t : Table 12 OutputRec) (k : SlotNo) : (s.setOutputs t).slot k = s.slot k := rfl
@[simp] theorem State.setOutputs_entry_other (s : State) (t : Table 12 OutputRec) (k : SlotNo) : (s.setOutputs t).entry k = s.entry k := rfl
@[simp] theorem State.setOutput_now_other (s : State) (o : Output) (r : OutputRec) : (s.setOutput o r).now = s.now := rfl
@[simp] theorem State.setOutput_port_other (s : State) (o : Output) (r : OutputRec) (k : Port) : (s.setOutput o r).port k = s.port k := rfl
@[simp] theorem State.setOutput_queue_other (s : State) (o : Output) (r : OutputRec) (k : Port) : (s.setOutput o r).queue k = s.queue k := rfl
@[simp] theorem State.setOutput_group_other (s : State) (o : Output) (r : OutputRec) (k : Group) : (s.setOutput o r).group k = s.group k := rfl
@[simp] theorem State.setOutput_line_other (s : State) (o : Output) (r : OutputRec) (k : Line) : (s.setOutput o r).line k = s.line k := rfl
@[simp] theorem State.setOutput_slot_other (s : State) (o : Output) (r : OutputRec) (k : SlotNo) : (s.setOutput o r).slot k = s.slot k := rfl
@[simp] theorem State.setOutput_entry_other (s : State) (o : Output) (r : OutputRec) (k : SlotNo) : (s.setOutput o r).entry k = s.entry k := rfl
@[simp] theorem State.setAgenda_now_other (s : State) (a : Agenda) : (s.setAgenda a).now = s.now := rfl
@[simp] theorem State.setAgenda_port_other (s : State) (a : Agenda) (k : Port) : (s.setAgenda a).port k = s.port k := rfl
@[simp] theorem State.setAgenda_queue_other (s : State) (a : Agenda) (k : Port) : (s.setAgenda a).queue k = s.queue k := rfl
@[simp] theorem State.setAgenda_group_other (s : State) (a : Agenda) (k : Group) : (s.setAgenda a).group k = s.group k := rfl
@[simp] theorem State.setAgenda_output_other (s : State) (a : Agenda) (k : Output) : (s.setAgenda a).output k = s.output k := rfl
@[simp] theorem State.setAgenda_line_other (s : State) (a : Agenda) (k : Line) : (s.setAgenda a).line k = s.line k := rfl
@[simp] theorem State.setGroup_now_other (s : State) (g : Group) (r : GroupRec) : (s.setGroup g r).now = s.now := rfl
@[simp] theorem State.setGroup_port_other (s : State) (g : Group) (r : GroupRec) (k : Port) : (s.setGroup g r).port k = s.port k := rfl
@[simp] theorem State.setGroup_queue_other (s : State) (g : Group) (r : GroupRec) (k : Port) : (s.setGroup g r).queue k = s.queue k := rfl
@[simp] theorem State.setGroup_output_other (s : State) (g : Group) (r : GroupRec) (k : Output) : (s.setGroup g r).output k = s.output k := rfl
@[simp] theorem State.setGroup_line_other (s : State) (g : Group) (r : GroupRec) (k : Line) : (s.setGroup g r).line k = s.line k := rfl
@[simp] theorem State.setGroup_slot_other (s : State) (g : Group) (r : GroupRec) (k : SlotNo) : (s.setGroup g r).slot k = s.slot k := rfl
@[simp] theorem State.setGroup_entry_other (s : State) (g : Group) (r : GroupRec) (k : SlotNo) : (s.setGroup g r).entry k = s.entry k := rfl
@[simp] theorem State.setQueue_now_other (s : State) (p : Port) (q : Queue) : (s.setQueue p q).now = s.now := rfl
@[simp] theorem State.setQueue_port_other (s : State) (p : Port) (q : Queue) (k : Port) : (s.setQueue p q).port k = s.port k := rfl
@[simp] theorem State.setQueue_group_other (s : State) (p : Port) (q : Queue) (k : Group) : (s.setQueue p q).group k = s.group k := rfl
@[simp] theorem State.setQueue_output_other (s : State) (p : Port) (q : Queue) (k : Output) : (s.setQueue p q).output k = s.output k := rfl
@[simp] theorem State.setQueue_line_other (s : State) (p : Port) (q : Queue) (k : Line) : (s.setQueue p q).line k = s.line k := rfl
@[simp] theorem State.setQueue_slot_other (s : State) (p : Port) (q : Queue) (k : SlotNo) : (s.setQueue p q).slot k = s.slot k := rfl
@[simp] theorem State.setQueue_entry_other (s : State) (p : Port) (q : Queue) (k : SlotNo) : (s.setQueue p q).entry k = s.entry k := rfl
@[simp] theorem State.setTransit_now_other (s : State) (t : PerPort (List (List Msg))) : (s.setTransit t).now = s.now := rfl
@[simp] theorem State.setTransit_port_other (s : State) (t : PerPort (List (List Msg))) (k : Port) : (s.setTransit t).port k = s.port k := rfl
@[simp] theorem State.setTransit_queue_other (s : State) (t : PerPort (List (List Msg))) (k : Port) : (s.setTransit t).queue k = s.queue k := rfl
@[simp] theorem State.setTransit_group_other (s : State) (t : PerPort (List (List Msg))) (k : Group) : (s.setTransit t).group k = s.group k := rfl
@[simp] theorem State.setTransit_output_other (s : State) (t : PerPort (List (List Msg))) (k : Output) : (s.setTransit t).output k = s.output k := rfl
@[simp] theorem State.setTransit_line_other (s : State) (t : PerPort (List (List Msg))) (k : Line) : (s.setTransit t).line k = s.line k := rfl
@[simp] theorem State.setTransit_slot_other (s : State) (t : PerPort (List (List Msg))) (k : SlotNo) : (s.setTransit t).slot k = s.slot k := rfl
@[simp] theorem State.setTransit_entry_other (s : State) (t : PerPort (List (List Msg))) (k : SlotNo) : (s.setTransit t).entry k = s.entry k := rfl
@[simp] theorem State.setPort_now_other (s : State) (p : Port) (c : Controller) : (s.setPort p c).now = s.now := rfl
@[simp] theorem State.setPort_queue_other (s : State) (p : Port) (c : Controller) (k : Port) : (s.setPort p c).queue k = s.queue k := rfl
@[simp] theorem State.setPort_group_other (s : State) (p : Port) (c : Controller) (k : Group) : (s.setPort p c).group k = s.group k := rfl
@[simp] theorem State.setPort_output_other (s : State) (p : Port) (c : Controller) (k : Output) : (s.setPort p c).output k = s.output k := rfl
@[simp] theorem State.setPort_line_other (s : State) (p : Port) (c : Controller) (k : Line) : (s.setPort p c).line k = s.line k := rfl
@[simp] theorem State.setPort_slot_other (s : State) (p : Port) (c : Controller) (k : SlotNo) : (s.setPort p c).slot k = s.slot k := rfl
@[simp] theorem State.setPort_entry_other (s : State) (p : Port) (c : Controller) (k : SlotNo) : (s.setPort p c).entry k = s.entry k := rfl

end Machine

end Sys2Proof
end

