-- ==== Sys2Proof/Laws/Work.lean ====
section
/-! SUPPORT. What an event in progress does: the records it has sent, the end of an event, a request at its block, and the parts of
the state that the operations on outputs, agenda and groups leave alone. -/

namespace Sys2Proof.Machine

/-! ### Events in progress -/

@[simp] theorem startWork_st (s : State) : (startWork s).st = s := rfl
@[simp] theorem startWork_sent (s : State) : (startWork s).sent = [] := rfl
@[simp] theorem onState_st (f : State → State) (w : Work) : (onState f w).st = f w.st := rfl
@[simp] theorem onState_sent (f : State → State) (w : Work) : (onState f w).sent = w.sent := rfl
@[simp] theorem onAgenda_st (f : Agenda → Agenda) (w : Work) : (onAgenda f w).st = w.st.setAgenda (f w.st.agenda) := rfl
@[simp] theorem onAgenda_sent (f : Agenda → Agenda) (w : Work) : (onAgenda f w).sent = w.sent := rfl
@[simp] theorem sendMsg_st (p : Port) (m : Msg) (w : Work) : (sendMsg p m w).st = w.st := rfl
@[simp] theorem sendMsg_sent (p : Port) (m : Msg) (w : Work) : (sendMsg p m w).sent = w.sent ++ [(p, m)] := rfl
@[simp] theorem send_st (p : Port) (k : Kind) (t : Tick) (w : Work) : (send p k t w).st = w.st := rfl
@[simp] theorem send_sent (p : Port) (k : Kind) (t : Tick) (w : Work) :
    (send p k t w).sent = w.sent ++ [(p, { kind := k, time := t })] := rfl

@[simp] theorem batchFor_nil (p : Port) : batchFor p [] = [] := rfl

@[simp] theorem batchFor_append (p : Port) (xs ys : List (Port × Msg)) :
    batchFor p (xs ++ ys) = batchFor p xs ++ batchFor p ys := by
  simp [batchFor]

theorem batchFor_cons (p q : Port) (m : Msg) (xs : List (Port × Msg)) :
    batchFor p ((q, m) :: xs) = if q = p then m :: batchFor p xs else batchFor p xs := by
  by_cases h : q = p <;> simp [batchFor, h]

theorem batchFor_one (p q : Port) (m : Msg) : batchFor p [(q, m)] = if q = p then [m] else [] := by
  by_cases h : q = p <;> simp [batchFor, h]

@[simp] theorem batchFor_self (p : Port) (m : Msg) : batchFor p [(p, m)] = [m] := by simp [batchFor_one]

@[simp] theorem addBatch_nil (bs : List (List Msg)) : addBatch bs [] = bs := rfl

/-- The end of an event touches the records on their way and nothing else. -/
theorem finishWork_eq (w : Work) :
    finishWork w = w.st.setTransit (.ofFn fun p => addBatch (w.st.transit.get p) (batchFor p w.sent)) := rfl

/-- The same, where the state reached is known. -/
theorem finishWork_of_st {w : Work} {t : State} (h : w.st = t) :
    finishWork w = t.setTransit (.ofFn fun p => addBatch (t.transit.get p) (batchFor p w.sent)) := by
  rw [← h]; rfl

@[simp] theorem finishWork_transit (w : Work) (p : Port) :
    (finishWork w).transit.get p = addBatch (w.st.transit.get p) (batchFor p w.sent) := by
  simp [finishWork]

/-- An event that sent nothing ends in the state it has reached. -/
theorem finishWork_silent {w : Work} (h : w.sent = []) : finishWork w = w.st := by
  have : (PerPort.ofFn fun p => addBatch (w.st.transit.get p) (batchFor p w.sent)) = w.st.transit := by
    ext p; simp [h]
  rw [finishWork, this, State.setTransit]

@[simp] theorem finishWork_startWork (s : State) : finishWork (startWork s) = s := finishWork_silent rfl

/-- An event that sent one record. -/
theorem finishWork_one {w : Work} {p : Port} {m : Msg} (h : w.sent = [(p, m)]) :
    finishWork w = w.st.setTransit (w.st.transit.set p (addBatch (w.st.transit.get p) [m])) := by
  rw [finishWork]
  congr 1
  ext q
  rw [PerPort.get_ofFn, h, batchFor_one, PerPort.get_set]
  by_cases hq : q = p
  · subst hq; simp
  · simp [hq, Ne.symm hq]

@[simp] theorem finishWork_pending (w : Work) : (finishWork w).pending = w.st.pending := rfl
@[simp] theorem finishWork_resetLow (w : Work) : (finishWork w).resetLow = w.st.resetLow := rfl
@[simp] theorem finishWork_supervisor (w : Work) : (finishWork w).supervisor = w.st.supervisor := rfl
@[simp] theorem finishWork_timebase (w : Work) : (finishWork w).timebase = w.st.timebase := rfl
@[simp] theorem finishWork_now (w : Work) : (finishWork w).now = w.st.now := rfl
@[simp] theorem finishWork_lines (w : Work) : (finishWork w).lines = w.st.lines := rfl
@[simp] theorem finishWork_published (w : Work) : (finishWork w).published = w.st.published := rfl
@[simp] theorem finishWork_outputs (w : Work) : (finishWork w).outputs = w.st.outputs := rfl
@[simp] theorem finishWork_agenda (w : Work) : (finishWork w).agenda = w.st.agenda := rfl
@[simp] theorem finishWork_groups (w : Work) : (finishWork w).groups = w.st.groups := rfl
@[simp] theorem finishWork_queues (w : Work) : (finishWork w).queues = w.st.queues := rfl
@[simp] theorem finishWork_ports (w : Work) : (finishWork w).ports = w.st.ports := rfl
@[simp] theorem finishWork_output (w : Work) (o : Output) : (finishWork w).output o = w.st.output o := rfl
@[simp] theorem finishWork_group (w : Work) (g : Group) : (finishWork w).group g = w.st.group g := rfl
@[simp] theorem finishWork_port (w : Work) (p : Port) : (finishWork w).port p = w.st.port p := rfl
@[simp] theorem finishWork_queue (w : Work) (p : Port) : (finishWork w).queue p = w.st.queue p := rfl
@[simp] theorem finishWork_line (w : Work) (l : Line) : (finishWork w).line l = w.st.line l := rfl
@[simp] theorem finishWork_entry (w : Work) (i : SlotNo) : (finishWork w).entry i = w.st.entry i := rfl
@[simp] theorem finishWork_slot (w : Work) (i : SlotNo) : (finishWork w).slot i = w.st.slot i := rfl

/-! ### Counts that saturate -/

theorem satInc_byte (x : Byte) : satInc x = if x = 255 then 255 else x + 1 := by
  unfold satInc
  by_cases h : x = 255
  · subst h; rfl
  · exact (if_neg h).trans (if_neg h).symm

theorem satInc_word16 (x : BitVec 16) : satInc x = if x = 65535 then 65535 else x + 1 := by
  unfold satInc
  by_cases h : x = 65535
  · subst h; rfl
  · exact (if_neg h).trans (if_neg h).symm

/-! ### A request at its block -/

/-- A request in flight is what `awaits` tests. -/
theorem awaits_iff {s : State} {p : Port} {r : Request} : awaits s p r = true ↔ ∃ f, InFlight s p f r := by
  unfold awaits InFlight
  cases h : (s.port p).activity <;> simp

theorem InFlight.awaits {s : State} {p : Port} {f : Flight} {r : Request} (h : InFlight s p f r) : awaits s p r = true :=
  awaits_iff.2 ⟨f, h⟩

/-- A request that is not in flight changes nothing. -/
theorem takeRequest_stale {s : State} {p : Port} {r : Request} (h : awaits s p r = false)
    (f : Work → Work × Answer) : takeRequest p r f s = s := by
  simp [takeRequest, h]

/-- A request in flight at its block: the block's event, and then its answer at the controller, which the event has left as it
was. -/
theorem takeRequest_eq {s : State} {p : Port} {x : Flight} {r : Request} (h : InFlight s p x r) {f : Work → Work × Answer}
    (hp : ((f (startWork s)).1.st.port p).activity = (s.port p).activity) :
    takeRequest p r f s = (finishWork (f (startWork s)).1).answered p x (f (startWork s)).2 := by
  simp only [takeRequest, h.awaits, if_true, onPort, State.answered, finishWork_port]
  congr 1
  unfold putAnswer
  rw [hp, h.1]

/-- A request whose block sends no record and leaves the controller's activity as it was. -/
theorem takeRequest_silent {s : State} {p : Port} {x : Flight} {r : Request} (h : InFlight s p x r)
    {f : Work → Work × Answer} (hs : (f (startWork s)).1.sent = [])
    (hp : ((f (startWork s)).1.st.port p).activity = (s.port p).activity) :
    takeRequest p r f s = (f (startWork s)).1.st.answered p x (f (startWork s)).2 := by
  rw [takeRequest_eq h hp, finishWork_silent hs]

/-- The same, with the block's event written out. -/
theorem takeRequest_of_eq {s : State} {p : Port} {x : Flight} {r : Request} (h : InFlight s p x r)
    {f : Work → Work × Answer} {t : State} {a : Answer} (hf : f (startWork s) = ({ st := t, sent := [] }, a))
    (hp : (t.port p).activity = (s.port p).activity) : takeRequest p r f s = t.answered p x a := by
  rw [takeRequest_silent h (by rw [hf]) (by rw [hf]; exact hp), hf]

/-- A request that reads and changes nothing. -/
theorem takeRequest_reading {s : State} {p : Port} {x : Flight} {r : Request} (h : InFlight s p x r)
    {f : Work → Work × Answer} {a : Answer} (hf : f (startWork s) = (startWork s, a)) :
    takeRequest p r f s = s.answered p x a :=
  takeRequest_of_eq h hf rfl

/-! ### What the operations on outputs, agenda and groups leave alone -/

/-- Only the output table, the agenda and the group records differ between `s` and `t`. -/
structure SharedOnly (s t : State) : Prop where
  pending : t.pending = s.pending
  resetLow : t.resetLow = s.resetLow
  supervisor : t.supervisor = s.supervisor
  timebase : t.timebase = s.timebase
  lines : t.lines = s.lines
  published : t.published = s.published
  queues : t.queues = s.queues
  transit : t.transit = s.transit
  ports : t.ports = s.ports

theorem SharedOnly.refl (s : State) : SharedOnly s s := ⟨rfl, rfl, rfl, rfl, rfl, rfl, rfl, rfl, rfl⟩

theorem SharedOnly.trans {s t u : State} (h : SharedOnly s t) (k : SharedOnly t u) : SharedOnly s u :=
  ⟨k.1.trans h.1, k.2.trans h.2, k.3.trans h.3, k.4.trans h.4, k.5.trans h.5, k.6.trans h.6, k.7.trans h.7, k.8.trans h.8,
    k.9.trans h.9⟩

theorem SharedOnly.setAgenda (s : State) (a : Agenda) : SharedOnly s (s.setAgenda a) :=
  ⟨rfl, rfl, rfl, rfl, rfl, rfl, rfl, rfl, rfl⟩

theorem SharedOnly.setOutputs (s : State) (t : Table 12 OutputRec) : SharedOnly s (s.setOutputs t) :=
  ⟨rfl, rfl, rfl, rfl, rfl, rfl, rfl, rfl, rfl⟩

theorem SharedOnly.setOutput (s : State) (o : Output) (r : OutputRec) : SharedOnly s (s.setOutput o r) :=
  ⟨rfl, rfl, rfl, rfl, rfl, rfl, rfl, rfl, rfl⟩

theorem SharedOnly.setGroup (s : State) (g : Group) (r : GroupRec) : SharedOnly s (s.setGroup g r) :=
  ⟨rfl, rfl, rfl, rfl, rfl, rfl, rfl, rfl, rfl⟩

theorem SharedOnly.port {s t : State} (h : SharedOnly s t) (p : Port) : t.port p = s.port p := by
  simp only [State.port, h.ports]

theorem SharedOnly.queue {s t : State} (h : SharedOnly s t) (p : Port) : t.queue p = s.queue p := by
  simp only [State.queue, h.queues]

theorem SharedOnly.line {s t : State} (h : SharedOnly s t) (l : Line) : t.line l = s.line l := by
  simp only [State.line, h.lines]

theorem SharedOnly.now {s t : State} (h : SharedOnly s t) : t.now = s.now := by
  simp only [State.now, h.timebase]

/-- A state is what its shared parts make of any state that differs in them alone. -/
theorem SharedOnly.eq {s t : State} (h : SharedOnly s t) :
    t = { s with outputs := t.outputs, agenda := t.agenda, groups := t.groups } := by
  cases t; cases s; obtain ⟨h1, h2, h3, h4, h5, h6, h7, h8, h9⟩ := h
  simp_all

/-- A fold of steps each of which changes only the shared parts changes only the shared parts. -/
theorem SharedOnly.foldl {α β : Type} (st : β → State) (f : β → α → β) (h : ∀ x a, SharedOnly (st x) (st (f x a))) :
    ∀ (l : List α) (x : β), SharedOnly (st x) (st (l.foldl f x))
  | [], _ => SharedOnly.refl _
  | a :: l, x => (h x a).trans (SharedOnly.foldl st f h l (f x a))

/-! ### Records to every port that hears (R113, R124) -/

@[simp] theorem sendToHearing_st (m : Msg) (w : Work) : (sendToHearing m w).st = w.st := by
  simp only [sendToHearing, Port.all, List.foldl_cons, List.foldl_nil]
  repeat' split
  all_goals simp

theorem hears_iff (x : Session) : x.hears = true ↔ x ≠ .closed := by cases x <;> simp [Session.hears]

/-- The records that `sendToHearing` sends: one to each port whose session is OPEN or LAPSED, behind what was sent before. -/
theorem sendToHearing_sent (m : Msg) (w : Work) (p : Port) :
    batchFor p (sendToHearing m w).sent =
      batchFor p w.sent ++ if (w.st.port p).session = .closed then [] else [m] := by
  simp only [sendToHearing, Port.all, List.foldl_cons, List.foldl_nil]
  cases ha : (w.st.port .A).session <;> cases hb : (w.st.port .B).session <;>
    cases hc : (w.st.port .C).session <;> cases p <;> simp [ha, hb, hc, batchFor_cons, Session.hears]

end Sys2Proof.Machine
end

