-- ==== Sys2Proof/Laws/Frames.lean ====
section
/-! SUPPORT. The operations on outputs, agenda and groups leave everything else as it was: cancelling, firing, causes, the end of an
ownership, and the requests made of them. What each leaves of the three shared parts is said too, where it leaves one alone. -/

namespace Sys2Proof.Machine

/-! ### Small steps -/

theorem onState_shared {f : State → State} (h : ∀ s, SharedOnly s (f s)) (w : Work) : SharedOnly w.st (onState f w).st := h w.st

theorem onAgenda_shared (f : Agenda → Agenda) (w : Work) : SharedOnly w.st (onAgenda f w).st := SharedOnly.setAgenda _ _

theorem onOutput_shared (o : Output) (f : OutputRec → OutputRec) (s : State) : SharedOnly s (onOutput o f s) :=
  SharedOnly.setOutput _ _ _

theorem onGroup_shared (g : Group) (f : GroupRec → GroupRec) (s : State) : SharedOnly s (onGroup g f s) :=
  SharedOnly.setGroup _ _ _

/-! ### Cancellation -/

/-- A cancelled entry frees its slot, and nothing else of the state changes. -/
theorem cancelOne_st (r : Option Reason) (muted : Option Port) (now : Tick) (w : Work) (i : SlotNo) :
    (cancelOne r muted now w i).st = w.st.setAgenda (freeSlot w.st.agenda i) := by
  have hf : w.st.entry i = none → freeSlot w.st.agenda i = w.st.agenda := by
    intro h
    simp only [freeSlot, show (w.st.agenda.slots.get i).entry = none from h]
  unfold cancelOne
  cases h : w.st.entry i with
  | none => simp [hf h]
  | some e =>
    cases r with
    | none => rfl
    | some r => simp only; split <;> rfl

/-- A cancellation changes the agenda alone. -/
theorem cancelOnes_st (r : Option Reason) (muted : Option Port) (now : Tick) :
    ∀ (l : List SlotNo) (w : Work),
      (l.foldl (cancelOne r muted now) w).st = w.st.setAgenda (l.foldl freeSlot w.st.agenda)
  | [], w => by simp
  | i :: l, w => by simp [cancelOnes_st r muted now l, cancelOne_st]

theorem cancelTree_st (r : Option Reason) (muted : Option Port) (now : Tick) (i : SlotNo) (w : Work) :
    (cancelTree r muted now i w).st =
      w.st.setAgenda ((cascade Config.slots w.st.agenda i).tail.foldl freeSlot (freeSlot w.st.agenda i)) := by
  simp only [cancelTree, cancelOnes_st, cancelOne_st, State.setAgenda_agenda, State.setAgenda_setAgenda]

/-- Cancelling targets changes the agenda alone. -/
theorem cancelTargets_st (r : Option Reason) (muted : Option Port) (now : Tick) (l : List SlotNo) (w : Work) :
    (cancelTargets r muted now l w).1.st = w.st.setAgenda (cancelTargets r muted now l w).1.st.agenda := by
  unfold cancelTargets
  generalize 0 = n
  induction l generalizing w n with
  | nil => simp
  | cons i l ih =>
    simp only [List.foldl_cons]
    split
    · rw [ih, cancelTree_st]; simp
    · exact ih w n

theorem cancelTargets_shared (r : Option Reason) (muted : Option Port) (now : Tick) (l : List SlotNo) (w : Work) :
    SharedOnly w.st (cancelTargets r muted now l w).1.st := by
  rw [cancelTargets_st]; exact SharedOnly.setAgenda _ _

@[simp] theorem cancelTargets_outputs (r : Option Reason) (muted : Option Port) (now : Tick) (l : List SlotNo) (w : Work) :
    (cancelTargets r muted now l w).1.st.outputs = w.st.outputs := by
  rw [cancelTargets_st]; rfl

@[simp] theorem cancelTargets_groups (r : Option Reason) (muted : Option Port) (now : Tick) (l : List SlotNo) (w : Work) :
    (cancelTargets r muted now l w).1.st.groups = w.st.groups := by
  rw [cancelTargets_st]; rfl

/-! ### Ownership -/

theorem handOn_st (now : Tick) (o : Output) (w : Work) :
    (handOn now o w).st = w.st.setOutput o
      { w.st.output o with owner := (w.st.output o).waiting.head?, waiting := (w.st.output o).waiting.tail } := by
  unfold handOn
  cases h : (w.st.output o).waiting with
  | nil =>
    simp only [onState_st, onOutput, List.head?_nil, List.tail_nil]
    congr 1
    cases hr : w.st.output o; simp_all
  | cons p ps => rfl

theorem handOn_sent (now : Tick) (o : Output) (w : Work) (q : Port) :
    batchFor q (handOn now o w).sent = batchFor q w.sent ++
      if (w.st.output o).waiting.head? = some q then [{ kind := .claimGranted o, time := now }] else [] := by
  unfold handOn
  cases h : (w.st.output o).waiting with
  | nil => simp
  | cons p ps => simp [batchFor_one]

/-! ### Causes -/

/-- Forcing the members keeps every owner and every membership. -/
theorem forceMembers_get (g : Group) (t : Table 12 OutputRec) (o : Output) :
    (forceMembers g t).get o = if (t.get o).group = some g then { t.get o with level := (t.get o).safe } else t.get o := by
  simp only [forceMembers, Table.get_ofFn, isMember, beq_iff_eq]

@[simp] theorem isMember_forceMembers (g k : Group) (t : Table 12 OutputRec) (o : Output) :
    isMember (forceMembers g t) k o = isMember t k o := by
  unfold isMember; rw [forceMembers_get]; split <;> rfl

@[simp] theorem owedSet_forceMembers (g k : Group) (t : Table 12 OutputRec) :
    owedSet (forceMembers g t) k = owedSet t k := by
  ext p
  simp only [owedSet, PerPort.get_ofFn, ownsMember, isMember_forceMembers]
  congr 1; funext o
  rw [forceMembers_get]; split <;> rfl

theorem owedSet_get {t : Table 12 OutputRec} {g : Group} {p : Port} :
    (owedSet t g).get p = true ↔ ∃ o, (t.get o).group = some g ∧ (t.get o).owner = some p := by
  simp [owedSet, ownsMember, isMember]

/-- The state of a trip event when its targets are to be cancelled: the group tripped and its members forced. -/
def trippedState (g : Group) (c : Cause) (s : State) : State :=
  (s.setGroup g (tripRecord c (s.group g))).setOutputs (forceMembers g s.outputs)

/-- The targets of a trip event are cancelled. -/
def tripCancelled (g : Group) (c : Cause) (w : Work) : Work × Nat :=
  cancelTargets (some .tripped) none c.tick (agendaOrder w.st.agenda fun e => isMember w.st.outputs g e.plan.output)
    { w with st := trippedState g c w.st }

theorem tripEvent_eq (g : Group) (c : Cause) (edge : Option Edge) (w : Work) : tripEvent g c edge w =
    sendToHearing { kind := .trip g c.by' 1, time := c.tick, edge } (onState (formOwed g) (tripCancelled g c w).1) := by
  have : (fun e : Entry => isMember (forceMembers g w.st.outputs) g e.plan.output) =
      fun e => isMember w.st.outputs g e.plan.output := by
    funext e; simp
  simp only [tripEvent, tripCancelled, ← this]
  rfl

/-- What a trip event leaves (R113). -/
theorem tripEvent_st (g : Group) (c : Cause) (edge : Option Edge) (w : Work) : (tripEvent g c edge w).st =
    ((w.st.setGroup g { tripRecord c (w.st.group g) with owed := owedSet w.st.outputs g, acked := portSetEmpty }).setOutputs
      (forceMembers g w.st.outputs)).setAgenda (tripCancelled g c w).1.st.agenda := by
  rw [tripEvent_eq, sendToHearing_st, onState_st, tripCancelled, cancelTargets_st]
  simp only [formOwed, trippedState, onGroup]
  simp only [State.setAgenda_outputs, State.setOutputs_outputs, owedSet_forceMembers]
  generalize (cancelTargets _ _ _ _ _).1.st.agenda = a
  simp [State.setAgenda, State.setOutputs, State.setGroup, State.group]

theorem tripEvent_shared (g : Group) (c : Cause) (edge : Option Edge) (w : Work) : SharedOnly w.st (tripEvent g c edge w).st := by
  rw [tripEvent_st]
  exact ⟨rfl, rfl, rfl, rfl, rfl, rfl, rfl, rfl, rfl⟩

theorem furtherCause_st (g : Group) (c : Cause) (w : Work) :
    (furtherCause g c w).st = w.st.setGroup g
      { furtherRecord c (w.st.group g) with owed := owedSet w.st.outputs g, acked := portSetEmpty } := by
  simp only [furtherCause, sendToHearing_st, onState_st, formOwed, onGroup, State.setGroup_group_self,
    State.setGroup_setGroup, State.setGroup_outputs]

theorem takeCause_shared (g : Group) (c : Cause) (edge : Option Edge) (w : Work) : SharedOnly w.st (takeCause g c edge w).st := by
  unfold takeCause
  cases (w.st.group g).state
  · exact tripEvent_shared g c edge w
  · show SharedOnly w.st (furtherCause g c w).st
    rw [furtherCause_st]; exact SharedOnly.setGroup _ _ _
  · show SharedOnly w.st (furtherCause g c w).st
    rw [furtherCause_st]; exact SharedOnly.setGroup _ _ _

@[simp] theorem enterNormal_st (now : Tick) (g : Group) (w : Work) :
    (enterNormal now g w).st = w.st.setGroup g (normalRecord (w.st.group g)) := by
  simp [enterNormal, onGroup]

theorem enterNormal_sent (now : Tick) (g : Group) (w : Work) (q : Port) :
    batchFor q (enterNormal now g w).sent = batchFor q w.sent ++
      if (w.st.port q).session = .closed then [] else [{ kind := .tripCleared g, time := now }] :=
  sendToHearing_sent _ _ _

/-- An event in which a group enters NORMAL and nothing else is sent (R124). -/
theorem finish_enterNormal (now : Tick) (g : Group) (s : State) : finishWork (enterNormal now g (startWork s)) =
    (s.setGroup g (normalRecord (s.group g))).setTransit (.ofFn fun q => addBatch (s.transit.get q)
      (if (s.port q).session = .closed then [] else [{ kind := .tripCleared g, time := now }])) := by
  rw [finishWork_eq, enterNormal_st]
  simp only [enterNormal_sent, startWork_sent, batchFor_nil, List.nil_append]
  rfl

/-! ### Firing -/

theorem applyLevel_st (o : Output) (a : Action) (ph : Phase) (w : Work) :
    (applyLevel o a ph w).st = w.st.setOutput o
      { w.st.output o with level := levelAfter a ph (w.st.output o).level } := rfl

@[simp] theorem applyLevel_sent (o : Output) (a : Action) (ph : Phase) (w : Work) : (applyLevel o a ph w).sent = w.sent := rfl

/-- What follows the level action changes the agenda alone. -/
theorem advanceEntry_st (now : Tick) (i : SlotNo) (e : Entry) (ph : Phase) (due start : Tick) (w : Work) :
    (advanceEntry now i e ph due start w).st = w.st.setAgenda (advanceEntry now i e ph due start w).st.agenda := by
  have h1 : ∀ late, (completeEntry now i e late w).st = w.st.setAgenda (completeEntry now i e late w).st.agenda := by
    intro late; unfold completeEntry; cases e.plan.notify <;> rfl
  have h2 : ∀ late, (endRun now i e late start w).st = w.st.setAgenda (endRun now i e late start w).st.agenda := by
    intro late; unfold endRun; cases e.plan.notify <;> rfl
  unfold advanceEntry
  split
  · rfl
  · split
    · exact h1 _
    · exact h2 _

/-- A firing changes one level and the agenda. -/
theorem fire_shared (now : Tick) (i : SlotNo) (w : Work) : SharedOnly w.st (fire now i w).st := by
  unfold fire
  cases w.st.entry i with
  | none => exact SharedOnly.refl _
  | some e =>
    simp only
    cases e.state with
    | waiting => exact SharedOnly.refl _
    | armed ph due start =>
      simp only
      rw [advanceEntry_st]
      exact (SharedOnly.setOutput _ _ _).trans (SharedOnly.setAgenda _ _)

@[simp] theorem fire_groups (now : Tick) (i : SlotNo) (w : Work) : (fire now i w).st.groups = w.st.groups := by
  unfold fire
  cases w.st.entry i with
  | none => rfl
  | some e =>
    simp only
    cases e.state with
    | waiting => rfl
    | armed ph due start => simp only; rw [advanceEntry_st]; rfl

/-- A property that every firing of a pass keeps, the pass keeps. -/
theorem passLoop_induct {P : Work → Prop} (now : Tick)
    (h : ∀ w i, P w → reachedHead now w.st.agenda = some i → P (fire now i w)) :
    ∀ (n : Nat) (w : Work), P w → P (passLoop n now w)
  | 0, _, hw => hw
  | n + 1, w, hw => by
    unfold passLoop
    cases hr : reachedHead now w.st.agenda with
    | none => exact hw
    | some i => exact passLoop_induct now h n _ (h w i hw hr)

theorem pass_induct {P : Work → Prop} (now : Tick)
    (h : ∀ w i, P w → reachedHead now w.st.agenda = some i → P (fire now i w)) (w : Work) (hw : P w) : P (pass now w) :=
  passLoop_induct now h _ w hw

theorem pass_shared (now : Tick) (w : Work) : SharedOnly w.st (pass now w).st :=
  pass_induct (P := fun x => SharedOnly w.st x.st) now (fun _ _ h _ => h.trans (fire_shared _ _ _)) w (SharedOnly.refl _)

@[simp] theorem pass_groups (now : Tick) (w : Work) : (pass now w).st.groups = w.st.groups :=
  pass_induct (P := fun x => x.st.groups = w.st.groups) now (fun _ _ h _ => (fire_groups _ _ _).trans h) w rfl

/-- A pass with no reached due at the head fires nothing. -/
theorem passLoop_none {now : Tick} {w : Work} (h : reachedHead now w.st.agenda = none) (n : Nat) : passLoop n now w = w := by
  cases n with
  | zero => rfl
  | succ n => simp only [passLoop, h]

theorem pass_none {now : Tick} {w : Work} (h : reachedHead now w.st.agenda = none) : pass now w = w := passLoop_none h _

end Sys2Proof.Machine
end

