-- ==== Sys2Proof/Laws/Agenda.lean ====
section
/-! SUPPORT. The agenda: freeing a slot, placing an entry in the armed list, arming from an anchor, the lowest FREE slot, the orders,
and the dependents of an entry. -/

namespace Sys2Proof.Machine

/-! ### Slots -/

@[simp] theorem putEntry_slots (a : Agenda) (i : SlotNo) (e : Entry) :
    (putEntry a i e).slots = a.slots.set i { gen := (a.slots.get i).gen, entry := some e } := rfl
@[simp] theorem putEntry_armed (a : Agenda) (i : SlotNo) (e : Entry) : (putEntry a i e).armed = a.armed := rfl
@[simp] theorem putEntry_waiting (a : Agenda) (i : SlotNo) (e : Entry) : (putEntry a i e).waiting = a.waiting := rfl
@[simp] theorem putEntry_quota (a : Agenda) (i : SlotNo) (e : Entry) : (putEntry a i e).quota = a.quota := rfl
@[simp] theorem putEntry_live (a : Agenda) (i : SlotNo) (e : Entry) : (putEntry a i e).live = a.live := rfl

/-- Freeing a FREE slot changes nothing. -/
theorem freeSlot_none {a : Agenda} {i : SlotNo} (h : (a.slots.get i).entry = none) : freeSlot a i = a := by
  simp only [freeSlot, h]

/-- Freeing a live slot (R58). -/
theorem freeSlot_some {a : Agenda} {i : SlotNo} {e : Entry} (h : (a.slots.get i).entry = some e) :
    freeSlot a i = { a with
      slots := a.slots.set i { gen := (a.slots.get i).gen + 1, entry := none }
      armed := a.armed.filter (· ≠ i)
      waiting := a.waiting.filter (· ≠ i)
      live := a.live.set e.owner (a.live.get e.owner - 1) } := by
  simp only [freeSlot, h]

@[simp] theorem freeSlot_quota (a : Agenda) (i : SlotNo) : (freeSlot a i).quota = a.quota := by
  unfold freeSlot; split <;> rfl

theorem freeSlot_get_ne {a : Agenda} {i j : SlotNo} (h : j ≠ i) : (freeSlot a i).slots.get j = a.slots.get j := by
  unfold freeSlot; split
  · rfl
  · exact Table.get_set_ne _ h _

theorem freeSlot_get_self {a : Agenda} {i : SlotNo} {e : Entry} (h : (a.slots.get i).entry = some e) :
    (freeSlot a i).slots.get i = { gen := (a.slots.get i).gen + 1, entry := none } := by
  rw [freeSlot_some h]; exact Table.get_set_self _ _ _

/-- A freed slot is FREE. -/
theorem freeSlot_entry_self (a : Agenda) (i : SlotNo) : ((freeSlot a i).slots.get i).entry = none := by
  cases h : (a.slots.get i).entry with
  | none => rw [freeSlot_none h]; exact h
  | some e => rw [freeSlot_get_self h]

/-! ### The armed list (R64) -/

/-- A slot placed by its due goes behind every slot no later and ahead of the first that is later. -/
theorem placeByDue_split (pos : SlotNo → Int) (i : SlotNo) : ∀ l : List SlotNo, ∃ ahead behind,
    l = ahead ++ behind ∧ placeByDue pos i l = ahead ++ i :: behind ∧ (∀ j ∈ ahead, pos j ≤ pos i) ∧
      ∀ j, behind.head? = some j → pos i < pos j
  | [] => ⟨[], [], rfl, rfl, by simp, by simp⟩
  | j :: js => by
    by_cases h : pos i < pos j
    · exact ⟨[], j :: js, rfl, by simp [placeByDue, h], by simp, by simpa using h⟩
    · obtain ⟨ahead, behind, h1, h2, h3, h4⟩ := placeByDue_split pos i js
      refine ⟨j :: ahead, behind, by simp [h1], by simp [placeByDue, h, h2], ?_, h4⟩
      intro k hk
      rcases List.mem_cons.1 hk with rfl | hk
      · omega
      · exact h3 k hk

theorem placeByDue_perm (pos : SlotNo → Int) (i : SlotNo) (l : List SlotNo) : (placeByDue pos i l).Perm (i :: l) := by
  obtain ⟨ahead, behind, h1, h2, _, _⟩ := placeByDue_split pos i l
  rw [h2, h1]; exact List.perm_middle

@[simp] theorem mem_placeByDue (pos : SlotNo → Int) (i j : SlotNo) (l : List SlotNo) :
    j ∈ placeByDue pos i l ↔ j = i ∨ j ∈ l := by
  rw [(placeByDue_perm pos i l).mem_iff, List.mem_cons]

/-- In a list in due order everything behind the place is later. -/
theorem placeByDue_sorted {pos : SlotNo → Int} {i : SlotNo} {l : List SlotNo}
    (h : l.Pairwise fun x y => pos x ≤ pos y) : (placeByDue pos i l).Pairwise fun x y => pos x ≤ pos y := by
  induction l with
  | nil => simp [placeByDue]
  | cons j js ih =>
    rw [List.pairwise_cons] at h
    unfold placeByDue
    split
    · next hlt =>
      refine List.pairwise_cons.2 ⟨?_, List.pairwise_cons.2 h⟩
      intro k hk
      rcases List.mem_cons.1 hk with rfl | hk
      · omega
      · have := h.1 k hk; omega
    · next hle =>
      refine List.pairwise_cons.2 ⟨?_, ih h.2⟩
      intro k hk
      rcases (mem_placeByDue pos i k js).1 hk with rfl | hk
      · omega
      · exact h.1 k hk

/-- The due of an entry put in a slot. -/
theorem dueOf_putEntry_self (a : Agenda) (i : SlotNo) (e : Entry) : dueOf (putEntry a i e) i =
    match e.state with
    | .armed _ due _ => some due
    | .waiting => none := by
  simp only [dueOf, putEntry_slots, Table.get_set_self]
  all_goals (cases e.state <;> rfl)

theorem dueOf_congr {a b : Agenda} {i : SlotNo} (h : b.slots.get i = a.slots.get i) : dueOf b i = dueOf a i := by
  simp only [dueOf, h]

theorem slotPosition_congr {a b : Agenda} {now : Tick} {i : SlotNo} (h : b.slots.get i = a.slots.get i) :
    slotPosition b now i = slotPosition a now i := by
  simp only [slotPosition, dueOf_congr h]

/-! ### Placing an entry in the armed list -/

theorem placeArmed_get_self (a : Agenda) (now : Tick) (i : SlotNo) (e : Entry) :
    (placeArmed a now i e).slots.get i = { gen := (a.slots.get i).gen, entry := some e } := Table.get_set_self _ _ _

theorem placeArmed_get_ne (a : Agenda) (now : Tick) {i j : SlotNo} (h : j ≠ i) (e : Entry) :
    (placeArmed a now i e).slots.get j = a.slots.get j := Table.get_set_ne _ h _

@[simp] theorem placeArmed_quota (a : Agenda) (now : Tick) (i : SlotNo) (e : Entry) : (placeArmed a now i e).quota = a.quota := rfl
@[simp] theorem placeArmed_live (a : Agenda) (now : Tick) (i : SlotNo) (e : Entry) : (placeArmed a now i e).live = a.live := rfl
@[simp] theorem placeArmed_waiting (a : Agenda) (now : Tick) (i : SlotNo) (e : Entry) :
    (placeArmed a now i e).waiting = a.waiting.filter (· ≠ i) := rfl

/-- What an entry placed in the armed list does to it (R64). -/
theorem placeArmed_split (a : Agenda) (now : Tick) (i : SlotNo) {e : Entry} {ph : Phase} {due start : Tick}
    (he : e.state = .armed ph due start) : ∃ ahead behind,
    a.armed.filter (· ≠ i) = ahead ++ behind ∧ (placeArmed a now i e).armed = ahead ++ i :: behind ∧
      (∀ j ∈ ahead, slotPosition a now j ≤ position now due) ∧
      ∀ j, behind.head? = some j → position now due < slotPosition a now j := by
  obtain ⟨ahead, behind, h1, h2, h3, h4⟩ :=
    placeByDue_split (slotPosition (putEntry a i e) now) i (a.armed.filter (· ≠ i))
  have hi : slotPosition (putEntry a i e) now i = position now due := by
    simp only [slotPosition, dueOf_putEntry_self, he]
  have hne : ∀ j ∈ ahead ++ behind, j ≠ i := by
    intro j hj; rw [← h1] at hj; simpa using (List.mem_filter.1 hj).2
  have hp : ∀ j ∈ ahead ++ behind, slotPosition (putEntry a i e) now j = slotPosition a now j :=
    fun j hj => slotPosition_congr (Table.get_set_ne _ (hne j hj) _)
  refine ⟨ahead, behind, h1, h2, ?_, ?_⟩
  · intro j hj
    rw [← hp j (by simp [hj]), ← hi]; exact h3 j hj
  · intro j hj
    rw [← hp j (by simp [List.mem_of_head? hj]), ← hi]; exact h4 j hj

theorem placeArmed_armed_perm (a : Agenda) (now : Tick) (i : SlotNo) (e : Entry) :
    (placeArmed a now i e).armed.Perm (i :: a.armed.filter (· ≠ i)) := placeByDue_perm _ _ _

theorem mem_placeArmed_armed (a : Agenda) (now : Tick) (i j : SlotNo) (e : Entry) :
    j ∈ (placeArmed a now i e).armed ↔ j = i ∨ j ∈ a.armed := by
  rw [(placeArmed_armed_perm a now i e).mem_iff]
  by_cases h : j = i <;> simp [h]

/-- Placing an entry keeps the due order. -/
theorem placeArmed_sorted {a : Agenda} {now : Tick} (i : SlotNo) (e : Entry) (h : ArmedSorted now a) :
    ArmedSorted now (placeArmed a now i e) := by
  have hp : ∀ j ∈ a.armed.filter (· ≠ i), slotPosition (putEntry a i e) now j = slotPosition a now j :=
    fun j hj => slotPosition_congr (Table.get_set_ne _ (by simpa using (List.mem_filter.1 hj).2) _)
  have hs : (a.armed.filter (· ≠ i)).Pairwise fun x y =>
      slotPosition (putEntry a i e) now x ≤ slotPosition (putEntry a i e) now y := by
    refine List.Pairwise.imp_of_mem ?_ (List.Pairwise.filter _ h)
    intro x y hx hy hxy
    rw [hp x hx, hp y hy]; exact hxy
  exact placeByDue_sorted hs

theorem dueOf_placeArmed_self (a : Agenda) (now : Tick) (i : SlotNo) {e : Entry} {ph : Phase} {due start : Tick}
    (he : e.state = .armed ph due start) : dueOf (placeArmed a now i e) i = some due := by
  simp only [dueOf, placeArmed_get_self, he]

/-- An entry placed in a list in due order stands behind every entry of its due, and the entries of every due keep their order. -/
theorem placeArmed_order {a : Agenda} {now : Tick} {i : SlotNo} {e : Entry} {ph : Phase} {due start : Tick}
    (he : e.state = .armed ph due start) (hi : i ∉ a.armed) (h : ArmedSorted now a) (d : Tick) :
    (placeArmed a now i e).armed.filter (fun j => dueOf (placeArmed a now i e) j = some d) =
      (a.armed ++ [i]).filter fun j => dueOf (placeArmed a now i e) j = some d := by
  obtain ⟨ahead, behind, h1, h2, _, h4⟩ := placeArmed_split a now i he
  have hf : a.armed.filter (· ≠ i) = a.armed := by
    rw [List.filter_eq_self]; intro k hk
    simp only [decide_eq_true_eq]; rintro rfl; exact hi hk
  rw [hf] at h1
  have later : ∀ k ∈ behind, position now due < slotPosition a now k := by
    unfold ArmedSorted at h
    rw [h1, List.pairwise_append] at h
    cases behind with
    | nil => simp
    | cons x xs =>
      intro k hk
      rcases List.mem_cons.1 hk with rfl | hk
      · exact h4 k rfl
      · exact lt_of_lt_of_le (h4 x rfl) ((List.pairwise_cons.1 h.2.1).1 k hk)
  by_cases hd : due = d
  · have hb : behind.filter (fun j => dueOf (placeArmed a now i e) j = some d) = [] := by
      rw [List.filter_eq_nil_iff]
      intro k hk
      have hk' := later k hk
      have hne : k ≠ i := by rintro rfl; exact hi (by rw [h1]; simp [hk])
      rw [dueOf_congr (placeArmed_get_ne a now hne e)]
      intro hc
      rw [decide_eq_true_eq] at hc
      simp only [slotPosition, hc, hd, lt_irrefl] at hk'
    rw [h2, h1]
    simp only [List.filter_append, List.filter_cons, hb, List.append_nil, List.filter_nil]
  · have hn : ¬dueOf (placeArmed a now i e) i = some d := by
      rw [dueOf_placeArmed_self a now i he]; simpa using hd
    rw [h2, h1]
    simp only [List.filter_append, List.filter_cons, hn, decide_false, Bool.false_eq_true, if_false, List.filter_nil,
      List.append_nil]

/-! ### Arming from an anchor (R93, R94) -/

theorem armFromAnchor_some {now : Tick} {a : Agenda} {i : SlotNo} {e : Entry} (h : (a.slots.get i).entry = some e) :
    armFromAnchor now a i = placeArmed a now i
      { e with state := .armed .first (now + (offsetOf e.plan).setWidth 40) (now + (offsetOf e.plan).setWidth 40) } := by
  simp only [armFromAnchor, h, after]

theorem Arms.nil (a : Agenda) (now : Tick) : Arms a a now [] :=
  ⟨by simp, by simp, by simp, by simp, id, by simp, rfl, rfl⟩

/-- Arming live entries that are not in the armed list, each once, arms exactly them. -/
theorem armAll_arms (now : Tick) : ∀ (js : List SlotNo) (a : Agenda), js.Nodup →
    (∀ j ∈ js, (a.slots.get j).entry.isSome) → (∀ j ∈ js, j ∉ a.armed) → Arms a (js.foldl (armFromAnchor now) a) now js
  | [], a, _, _, _ => Arms.nil a now
  | j :: js, a, hn, hl, ha => by
    rw [List.nodup_cons] at hn
    obtain ⟨e, he⟩ := Option.isSome_iff_exists.1 (hl j (by simp))
    rw [List.foldl_cons, armFromAnchor_some he]
    generalize hx : ({ e with state := _ } : Entry) = x
    have hne : ∀ k ∈ js, k ≠ j := fun k hk h => hn.1 (h ▸ hk)
    have ih := armAll_arms now js (placeArmed a now j x) hn.2
      (fun k hk => by rw [placeArmed_get_ne a now (hne k hk)]; exact hl k (by simp [hk]))
      (fun k hk => by rw [mem_placeArmed_armed]; exact fun h => h.elim (hne k hk) (ha k (by simp [hk])))
    refine ⟨?_, ?_, ?_, ?_, fun h => ih.sorted (placeArmed_sorted _ _ h), ?_, ih.quota, ih.live⟩
    · intro k hk y hy
      by_cases hkj : k = j
      · subst hkj
        rw [ih.kept k hn.1, placeArmed_get_self, ← hx]
        rw [he] at hy; cases hy; rfl
      · have hk' : k ∈ js := by simpa [hkj] using hk
        have := ih.moved k hk' y (by rw [placeArmed_get_ne a now hkj]; exact hy)
        rw [this, placeArmed_get_ne a now hkj]
    · intro k hk
      rw [List.mem_cons, not_or] at hk
      rw [ih.kept k hk.2, placeArmed_get_ne a now hk.1]
    · rw [ih.waiting, placeArmed_waiting, List.filter_filter]
      apply List.filter_congr
      intro k _
      by_cases h1 : k = j <;> by_cases h2 : k ∈ js <;> simp [h1, h2]
    · refine ih.armed.trans ?_
      have : a.armed.filter (· ≠ j) = a.armed := by
        rw [List.filter_eq_self]; intro k hk
        have := ha j (by simp)
        simp only [decide_eq_true_eq]; rintro rfl; exact this hk
      have hp := placeArmed_armed_perm a now j x
      rw [this] at hp
      exact (hp.append_left js).trans (List.perm_middle)
    · intro h d
      have keep : ∀ k, k ∉ js → (dueOf (js.foldl (armFromAnchor now) (placeArmed a now j x)) k = some d ↔
          dueOf (placeArmed a now j x) k = some d) := fun k hk => by rw [dueOf_congr (ih.kept k hk)]
      have hjs : ∀ k ∈ (placeArmed a now j x).armed, k ∉ js := by
        intro k hk hkj
        rcases (mem_placeArmed_armed a now j k x).1 hk with rfl | hk
        · exact hn.1 hkj
        · exact ha k (by simp [hkj]) hk
      have hjs' : ∀ k ∈ a.armed ++ [j], k ∉ js := by
        intro k hk
        refine hjs k ((mem_placeArmed_armed a now j k x).2 ?_)
        rcases List.mem_append.1 hk with hk | hk
        · exact .inr hk
        · exact .inl (by simpa using hk)
      rw [ih.order (placeArmed_sorted _ _ h) d, List.filter_append,
        List.filter_congr fun k hk => decide_eq_decide.2 (keep k (hjs k hk)),
        placeArmed_order (by rw [← hx]) (ha j (by simp)) h d,
        List.filter_congr fun k hk => (decide_eq_decide.2 (keep k (hjs' k hk))).symm, ← List.filter_append,
        List.append_assoc, List.singleton_append]

/-- The waiting entries of a list are none of the armed ones, in good order. -/
theorem armWaiting_arms {now : Tick} {a : Agenda} (h : a.ok) {js : List SlotNo} (hs : js.Sublist a.waiting) :
    Arms a (js.foldl (armFromAnchor now) a) now js := by
  refine armAll_arms now js a (h.waitingOnce.sublist hs) ?_ ?_
  · intro j hj
    obtain ⟨e, he, _⟩ := (h.waiting j).1 (hs.subset hj)
    rw [he]; rfl
  · intro j hj ha
    obtain ⟨e, he, hw⟩ := (h.waiting j).1 (hs.subset hj)
    obtain ⟨e', he', hw'⟩ := (h.armed j).1 ha
    rw [he] at he'; cases he'; exact hw' hw

/-! ### Firing (R83 to R91) -/

theorem isLast_iff (r : Runs) : Runs.isLast r = false ↔ r = .free ∨ ∃ n, r = .left n ∧ 1 < n := by
  cases r with
  | free => simp [Runs.isLast]
  | left n => simp [Runs.isLast]

/-- The three ways a firing ends (R83 to R88). -/
theorem fire_some {now : Tick} {i : SlotNo} {w : Work} {e : Entry} {ph : Phase} {due start : Tick}
    (he : w.st.entry i = some e) (hs : e.state = .armed ph due start) :
    fire now i w = advanceEntry now i e ph due start (applyLevel e.plan.output e.plan.action ph w) := by
  simp only [fire, he, hs]

theorem advanceEntry_pulse {now : Tick} {i : SlotNo} {e : Entry} {width : Count32} {due start : Tick} {w : Work}
    (h : e.plan.action = .pulse width) :
    advanceEntry now i e .first due start w = pulseToSecond now i e width start w := by
  simp only [advanceEntry, h]

theorem advanceEntry_end {now : Tick} {i : SlotNo} {e : Entry} {ph : Phase} {due start : Tick} {w : Work}
    (h : ∀ width, e.plan.action = .pulse width → ph = .second) :
    advanceEntry now i e ph due start w =
      if Runs.isLast e.runs then completeEntry now i e (isLate now due) w else endRun now i e (isLate now due) start w := by
  cases ha : e.plan.action with
  | pulse width => cases h width ha; simp only [advanceEntry, ha]
  | set => simp only [advanceEntry, ha]
  | clear => simp only [advanceEntry, ha]
  | toggle => simp only [advanceEntry, ha]

/-! ### Orders, dependents and FREE slots -/

theorem entryIs_iff {a : Agenda} {f : Entry → Bool} {i : SlotNo} :
    entryIs a f i = true ↔ ∃ e, (a.slots.get i).entry = some e ∧ f e = true := by
  unfold entryIs
  cases (a.slots.get i).entry <;> simp

theorem mem_agendaOrder {a : Agenda} {f : Entry → Bool} {i : SlotNo} :
    i ∈ agendaOrder a f ↔ (i ∈ a.armed ∨ i ∈ a.waiting) ∧ ∃ e, (a.slots.get i).entry = some e ∧ f e = true := by
  simp only [agendaOrder, List.mem_filter, List.mem_append, entryIs_iff]

theorem mem_dependents {a : Agenda} {i j : SlotNo} :
    j ∈ dependents a i ↔ j ∈ a.waiting ∧ ∃ e n, (a.slots.get j).entry = some e ∧ e.plan.anchor = .entry (handleOf a i) n := by
  simp only [dependents, List.mem_filter, entryIs_iff, waitsOn]
  refine and_congr_right fun _ => ⟨?_, ?_⟩
  · rintro ⟨e, he, h⟩
    cases hp : e.plan.anchor with
    | absolute d => rw [hp] at h; cases h
    | input l k n => rw [hp] at h; cases h
    | entry h' n =>
      rw [hp] at h
      have : h' = handleOf a i := by simpa using h
      exact ⟨e, n, he, by rw [← this]; exact hp⟩
  · rintro ⟨e, n, he, h⟩
    exact ⟨e, he, by rw [h]; simp⟩

/-- A waiting entry has at most one anchor, so it depends on one slot at most. -/
theorem dependents_unique {a : Agenda} {i k j : SlotNo} (h : j ∈ dependents a i) (h' : j ∈ dependents a k) : i = k := by
  obtain ⟨_, e, n, he, hn⟩ := mem_dependents.1 h
  obtain ⟨_, e', n', he', hn'⟩ := mem_dependents.1 h'
  rw [he] at he'; cases he'
  rw [hn] at hn'
  have : handleOf a i = handleOf a k := by injection hn'
  exact congrArg Handle.slot this

/-- The lowest-numbered FREE slot (R57). -/
theorem lowestFree_some {a : Agenda} {i : SlotNo} :
    lowestFree a = some i ↔ (a.slots.get i).entry = none ∧ ∀ j, j < i → (a.slots.get j).entry ≠ none := by
  rw [lowestFree, find_finRange_some]
  simp only [Option.isNone_iff_eq_none]

theorem lowestFree_none {a : Agenda} : lowestFree a = none ↔ ∀ i, (a.slots.get i).entry ≠ none := by
  simp [lowestFree]

/-- The number of FREE slots is how many there are. -/
theorem freeSlots_eq (a : Agenda) : freeSlots a = {i | (a.slots.get i).entry = none}.ncard := by
  have hn : ((List.finRange 96).filter fun i => (a.slots.get i).entry.isNone).Nodup :=
    (List.nodup_finRange 96).filter _
  rw [freeSlots, ← List.toFinset_card_of_nodup hn, ← Set.ncard_coe_finset]
  congr 1
  ext i; simp

theorem liveEntry_some {a : Agenda} {h : Handle} {e : Entry} :
    liveEntry a h = some e ↔ (a.slots.get h.slot).gen = h.gen ∧ (a.slots.get h.slot).entry = some e := by
  simp only [liveEntry]
  by_cases hg : (a.slots.get h.slot).gen = h.gen <;> simp [hg]

end Sys2Proof.Machine
end

