-- ==== Sys2Proof/Laws/Cancel.lean ====
section
/-! SUPPORT. Cancellation: which entries a cascade names, what freeing a list of slots leaves, and what cancelling targets frees and
sends (R98 to R102). -/

namespace Sys2Proof.Machine

/-! ### The cascade (R100) -/

/-- One entry waits on another, directly or through others. -/
def Below (a : Agenda) : SlotNo → SlotNo → Prop := Relation.ReflTransGen fun x y => y ∈ dependents a x

theorem cascade_self (n : Nat) (a : Agenda) (i : SlotNo) : i ∈ cascade n a i := by cases n <;> simp [cascade]

theorem cascade_below {n : Nat} {a : Agenda} {i j : SlotNo} (h : j ∈ cascade n a i) : Below a i j := by
  induction n generalizing i with
  | zero => rw [cascade, List.mem_singleton] at h; rw [h]; exact .refl
  | succ n ih =>
    rw [cascade, List.mem_cons] at h
    rcases h with rfl | h
    · exact .refl
    · obtain ⟨l, hl, hj⟩ := List.mem_flatten.1 h
      obtain ⟨k, hk, rfl⟩ := List.mem_map.1 hl
      exact .head hk (ih hj)

theorem cascade_step {n : Nat} {a : Agenda} {i j k : SlotNo} (h : k ∈ cascade n a i) (hj : j ∈ dependents a k) :
    j ∈ cascade (n + 1) a i := by
  induction n generalizing i with
  | zero =>
    rw [cascade, List.mem_singleton] at h; subst h
    rw [cascade, List.mem_cons]; right
    exact List.mem_flatten.2 ⟨cascade 0 a j, List.mem_map.2 ⟨j, hj, rfl⟩, cascade_self _ _ _⟩
  | succ n ih =>
    rw [cascade, List.mem_cons] at h
    rw [cascade, List.mem_cons]; right
    rcases h with rfl | h
    · exact List.mem_flatten.2 ⟨cascade (n + 1) a j, List.mem_map.2 ⟨j, hj, rfl⟩, cascade_self _ _ _⟩
    · obtain ⟨l, hl, hk⟩ := List.mem_flatten.1 h
      obtain ⟨m, hm, rfl⟩ := List.mem_map.1 hl
      exact List.mem_flatten.2 ⟨_, List.mem_map.2 ⟨m, hm, rfl⟩, ih hk⟩

theorem cascade_mono {n : Nat} {a : Agenda} {i j : SlotNo} (h : j ∈ cascade n a i) : j ∈ cascade (n + 1) a i := by
  induction n generalizing i with
  | zero => rw [cascade, List.mem_singleton] at h; subst h; exact cascade_self _ _ _
  | succ n ih =>
    rw [cascade, List.mem_cons] at h
    rcases h with rfl | h
    · exact cascade_self _ _ _
    · obtain ⟨l, hl, hk⟩ := List.mem_flatten.1 h
      obtain ⟨m, hm, rfl⟩ := List.mem_map.1 hl
      rw [cascade, List.mem_cons]; right
      exact List.mem_flatten.2 ⟨_, List.mem_map.2 ⟨m, hm, rfl⟩, ih hk⟩

theorem cascade_step_iff {n : Nat} {a : Agenda} {i j : SlotNo} :
    j ∈ cascade (n + 1) a i ↔ j ∈ cascade n a i ∨ ∃ k ∈ cascade n a i, j ∈ dependents a k := by
  constructor
  · intro h
    induction n generalizing i with
    | zero =>
      rw [cascade, List.mem_cons] at h
      rcases h with rfl | h
      · exact .inl (cascade_self _ _ _)
      · obtain ⟨l, hl, hk⟩ := List.mem_flatten.1 h
        obtain ⟨m, hm, rfl⟩ := List.mem_map.1 hl
        rw [cascade, List.mem_singleton] at hk; subst hk
        exact .inr ⟨i, cascade_self _ _ _, hm⟩
    | succ n ih =>
      rw [cascade, List.mem_cons] at h
      rcases h with rfl | h
      · exact .inl (cascade_self _ _ _)
      · obtain ⟨l, hl, hk⟩ := List.mem_flatten.1 h
        obtain ⟨m, hm, rfl⟩ := List.mem_map.1 hl
        have up : ∀ x, x ∈ cascade n a m → x ∈ cascade (n + 1) a i := fun x hx => by
          rw [cascade, List.mem_cons]; right
          exact List.mem_flatten.2 ⟨_, List.mem_map.2 ⟨m, hm, rfl⟩, hx⟩
        rcases ih hk with h | ⟨k, hk, hj⟩
        · exact .inl (up _ h)
        · exact .inr ⟨k, up _ hk, hj⟩
  · rintro (h | ⟨k, hk, hj⟩)
    · exact cascade_mono h
    · exact cascade_step hk hj

/-- A cascade as deep as there are slots names every entry below its head. -/
theorem mem_cascade {a : Agenda} {i j : SlotNo} : j ∈ cascade Config.slots a i ↔ Below a i j := by
  refine ⟨cascade_below, fun h => ?_⟩
  have grow : ∀ n, (∀ x ∈ cascade n a i, ∀ y ∈ dependents a x, y ∈ cascade n a i) ∨ n + 1 ≤ (cascade n a i).toFinset.card := by
    intro n
    induction n with
    | zero => right; simp [cascade]
    | succ n ih =>
      rcases ih with h | h
      · left
        intro x hx y hy
        rcases cascade_step_iff.1 hx with hx | ⟨k, hk, hx⟩
        · exact cascade_step hx hy
        · exact cascade_step (h k hk x hx) hy
      · by_cases hc : ∀ x ∈ cascade (n + 1) a i, ∀ y ∈ dependents a x, y ∈ cascade (n + 1) a i
        · exact .inl hc
        · right
          have hsub : (cascade n a i).toFinset ⊂ (cascade (n + 1) a i).toFinset := by
            refine Finset.ssubset_iff_subset_ne.2 ⟨fun x hx => ?_, fun he => hc ?_⟩
            · rw [List.mem_toFinset] at hx ⊢; exact cascade_mono hx
            · intro x hx y hy
              have hx' : x ∈ cascade n a i := by
                have := List.mem_toFinset.2 hx
                rw [← he, List.mem_toFinset] at this; exact this
              exact cascade_step hx' hy
          have := Finset.card_lt_card hsub
          omega
  have closed : ∀ x ∈ cascade Config.slots a i, ∀ y ∈ dependents a x, y ∈ cascade Config.slots a i := by
    rcases grow Config.slots with h | h
    · exact h
    · have : (cascade Config.slots a i).toFinset.card ≤ 96 := by
        simpa using Finset.card_le_univ (cascade Config.slots a i).toFinset
      simp only [Config.slots] at h this
      omega
  induction h with
  | refl => exact cascade_self _ _ _
  | tail _ hxy ih => exact closed _ ih _ hxy

/-- Below the head, a cascade names dependents of what it names. -/
theorem mem_cascade_tail {n : Nat} {a : Agenda} {i j : SlotNo} (h : j ∈ (cascade n a i).tail) :
    ∃ x ∈ cascade n a i, j ∈ dependents a x := by
  induction n generalizing i with
  | zero => simp [cascade] at h
  | succ n ih =>
    rw [cascade, List.tail_cons] at h
    obtain ⟨l, hl, hk⟩ := List.mem_flatten.1 h
    obtain ⟨m, hm, rfl⟩ := List.mem_map.1 hl
    have up : ∀ x, x ∈ cascade n a m → x ∈ cascade (n + 1) a i := fun x hx => by
      rw [cascade, List.mem_cons]; right
      exact List.mem_flatten.2 ⟨_, List.mem_map.2 ⟨m, hm, rfl⟩, hx⟩
    have hc : cascade n a m = m :: (cascade n a m).tail := by cases n <;> simp [cascade]
    rw [hc, List.mem_cons] at hk
    rcases hk with rfl | hk
    · exact ⟨i, cascade_self _ _ _, hm⟩
    · obtain ⟨x, hx, hj⟩ := ih hk
      exact ⟨x, up x hx, hj⟩

/-! ### A cascade names each entry once (R67, R103) -/

/-- Of two entries that both stand above a third, one stands above the other. -/
theorem below_linear {a : Agenda} {c d j : SlotNo} (hc : Below a c j) (hd : Below a d j) : Below a c d ∨ Below a d c := by
  induction hc generalizing d with
  | refl => exact .inr hd
  | @tail x y hcx hxy ih =>
    rcases Relation.ReflTransGen.cases_tail hd with rfl | ⟨z, hdz, hzy⟩
    · exact .inl (hcx.tail hxy)
    · have : z = x := dependents_unique hzy hxy
      exact ih (this ▸ hdz)

/-- In good order an anchor stands ahead of its dependents in the waiting list. -/
theorem dependents_later {a : Agenda} (h : a.ok) {x y : SlotNo} (hx : x ∈ a.waiting) (hy : y ∈ dependents a x) :
    a.waiting.idxOf x < a.waiting.idxOf y := by
  have hyw : y ∈ a.waiting := (mem_dependents.1 hy).1
  have hlx := List.idxOf_lt_length_of_mem hx
  have hly := List.idxOf_lt_length_of_mem hyw
  rcases Nat.lt_trichotomy (a.waiting.idxOf x) (a.waiting.idxOf y) with hlt | heq | hgt
  · exact hlt
  · have : x = y := by
      rw [← List.getElem_idxOf hlx, ← List.getElem_idxOf hly]; simp only [heq]
    exact absurd (this ▸ hy) (h.noSelf x)
  · have := List.pairwise_iff_getElem.1 h.anchorFirst _ _ hly hlx hgt
    rw [List.getElem_idxOf hly, List.getElem_idxOf hlx] at this
    exact absurd hy this

/-- In good order no entry stands above itself. -/
theorem not_above_self {a : Agenda} (h : a.ok) {i j : SlotNo}
    (hb : Relation.TransGen (fun x y => y ∈ dependents a x) i j) : i ≠ j := by
  have key : j ∈ a.waiting ∧ (i ∈ a.waiting → a.waiting.idxOf i < a.waiting.idxOf j) := by
    induction hb with
    | single hd => exact ⟨(mem_dependents.1 hd).1, fun hi => dependents_later h hi hd⟩
    | tail _ hd ih => exact ⟨(mem_dependents.1 hd).1, fun hi => (ih.2 hi).trans (dependents_later h ih.1 hd)⟩
  rintro rfl
  exact lt_irrefl _ (key.2 key.1)

/-- In good order a cascade names each entry once. -/
theorem cascade_nodup {a : Agenda} (h : a.ok) : ∀ (n : Nat) (i : SlotNo), (cascade n a i).Nodup
  | 0, i => by simp [cascade]
  | n + 1, i => by
    rw [cascade, List.nodup_cons, List.nodup_flatten]
    refine ⟨?_, ?_, ?_⟩
    · intro hi
      obtain ⟨l, hl, hj⟩ := List.mem_flatten.1 hi
      obtain ⟨k, hk, rfl⟩ := List.mem_map.1 hl
      exact not_above_self h (Relation.TransGen.head' hk (cascade_below hj)) rfl
    · intro l hl
      obtain ⟨k, _, rfl⟩ := List.mem_map.1 hl
      exact cascade_nodup h n k
    · rw [List.pairwise_map]
      have hn : (dependents a i).Nodup := h.waitingOnce.filter _
      refine List.Pairwise.imp_of_mem ?_ hn
      intro c d hc hd hcd
      rw [List.disjoint_left]
      intro j hjc hjd
      rcases below_linear (cascade_below hjc) (cascade_below hjd) with hb | hb
      · rcases Relation.ReflTransGen.cases_tail hb with rfl | ⟨x, hcx, hxd⟩
        · exact hcd rfl
        · have : x = i := dependents_unique hxd hd
          exact not_above_self h (Relation.TransGen.head' hc (this ▸ hcx)) rfl
      · rcases Relation.ReflTransGen.cases_tail hb with rfl | ⟨x, hdx, hxc⟩
        · exact hcd rfl
        · have : x = i := dependents_unique hxc hc
          exact not_above_self h (Relation.TransGen.head' hd (this ▸ hdx)) rfl

/-- In good order the length of a cascade is the number of entries that it takes. -/
theorem cascade_length {a : Agenda} (h : a.ok) (i : SlotNo) :
    (cascade Config.slots a i).length = {j | Falls a (· = i) j}.ncard := by
  rw [← List.toFinset_card_of_nodup (cascade_nodup h _ i), ← Set.ncard_coe_finset]
  congr 1
  ext j
  simp only [List.coe_toFinset, Set.mem_ofPred_eq, mem_cascade, Falls, exists_eq_left]
  rfl

/-! ### Freed slots (R58, R98) -/

theorem Freed.refl (a : Agenda) : Freed a a fun _ => False :=
  ⟨by simp, by simp, List.Sublist.refl _, by simp, List.Sublist.refl _, by simp, rfl, by simp⟩

theorem Freed.congr {a b : Agenda} {C D : SlotNo → Prop} (h : Freed a b C) (e : ∀ i, C i ↔ D i) : Freed a b D := by
  have : C = D := funext fun i => propext (e i)
  exact this ▸ h

theorem freeSlot_freed {a : Agenda} {i : SlotNo} (h : (a.slots.get i).entry.isSome) : Freed a (freeSlot a i) (· = i) := by
  obtain ⟨e, he⟩ := Option.isSome_iff_exists.1 h
  have hs := freeSlot_some he
  refine ⟨?_, ?_, ?_, ?_, ?_, ?_, by rw [hs], ?_⟩
  · rintro j rfl; exact freeSlot_get_self he
  · intro j hj; exact freeSlot_get_ne hj
  · rw [hs]; exact List.filter_sublist
  · intro j; rw [hs]; simp
  · rw [hs]; exact List.filter_sublist
  · intro j; rw [hs]; simp
  · intro p
    rw [hs]
    by_cases hp : e.owner = p
    · have : {j | j = i ∧ Holds a (fun e => e.owner = p) j} = {i} := by
        ext j
        simp only [Set.mem_ofPred_eq, Set.mem_singleton_iff, and_iff_left_iff_imp]
        rintro rfl; exact ⟨e, he, hp⟩
      simp only [hp, PerPort.get_set_self, this, Set.ncard_singleton]
    · have : {j | j = i ∧ Holds a (fun e => e.owner = p) j} = ∅ := by
        ext j
        simp only [Set.mem_ofPred_eq, Set.mem_empty_iff_false, iff_false, not_and]
        rintro rfl ⟨x, hx, hxp⟩
        rw [he] at hx; cases hx; exact hp hxp
      simp only [this, Set.ncard_empty, Nat.sub_zero]
      exact PerPort.get_set_ne _ (Ne.symm hp) _

/-- Freeing more slots after freeing some. -/
theorem Freed.trans {a b c : Agenda} {C D : SlotNo → Prop} (h : Freed a b C) (k : Freed b c D) (hd : ∀ i, D i → ¬C i) :
    Freed a c fun i => C i ∨ D i := by
  refine ⟨?_, ?_, k.armedOrder.trans h.armedOrder, ?_, k.waitingOrder.trans h.waitingOrder, ?_, k.quota.trans h.quota, ?_⟩
  · rintro i (hi | hi)
    · rw [k.kept i fun hdi => hd i hdi hi, h.gone i hi]
    · rw [k.gone i hi, h.kept i (hd i hi)]
  · intro i hi
    rw [not_or] at hi
    rw [k.kept i hi.2, h.kept i hi.1]
  · intro i; rw [k.armed, h.armed, not_or, and_assoc]
  · intro i; rw [k.waiting, h.waiting, not_or, and_assoc]
  · intro p
    rw [k.live, h.live, Nat.sub_sub]
    congr 1
    have e : {i | D i ∧ Holds b (fun e => e.owner = p) i} = {i | D i ∧ Holds a (fun e => e.owner = p) i} := by
      ext i
      simp only [Set.mem_ofPred_eq]
      refine and_congr_right fun hi => ?_
      simp only [Holds, h.kept i (hd i hi)]
    rw [e, ← Set.ncard_union_eq]
    · congr 1; ext i; simp only [Set.mem_union, Set.mem_ofPred_eq, or_and_right]
    · rw [Set.disjoint_left]; rintro i ⟨hi, _⟩ ⟨hi', _⟩; exact hd i hi' hi

/-- What is still live was not freed. -/
theorem Freed.live_not {a b : Agenda} {C : SlotNo → Prop} (h : Freed a b C) {i : SlotNo} (hi : (b.slots.get i).entry.isSome) :
    ¬C i := by
  intro hc; rw [h.gone i hc] at hi; cases hi

theorem Freed.handle {a b : Agenda} {C : SlotNo → Prop} (h : Freed a b C) {i : SlotNo} (hi : ¬C i) :
    handleOf b i = handleOf a i := by
  simp only [handleOf, h.kept i hi]

theorem Freed.dependents_iff {a b : Agenda} {C : SlotNo → Prop} (h : Freed a b C) {i j : SlotNo} (hi : ¬C i) :
    j ∈ dependents b i ↔ j ∈ dependents a i ∧ ¬C j := by
  rw [mem_dependents, mem_dependents, h.waiting, h.handle hi]
  constructor
  · rintro ⟨⟨hw, hc⟩, hx⟩
    rw [h.kept j hc] at hx; exact ⟨⟨hw, hx⟩, hc⟩
  · rintro ⟨⟨hw, hx⟩, hc⟩
    rw [h.kept j hc]; exact ⟨⟨hw, hc⟩, hx⟩

/-- Where whatever waits on a freed slot was freed too, what is below a slot that was not freed is as it was, less the freed. -/
theorem Freed.below {a b : Agenda} {C : SlotNo → Prop} (h : Freed a b C) (hcl : ∀ x y, C x → y ∈ dependents a x → C y)
    {i j : SlotNo} (hi : ¬C i) : Below b i j ↔ Below a i j ∧ ¬C j := by
  constructor
  · intro hb
    induction hb with
    | refl => exact ⟨.refl, hi⟩
    | tail _ hxy ih =>
      obtain ⟨hd, hc⟩ := (h.dependents_iff ih.2).1 hxy
      exact ⟨ih.1.tail hd, hc⟩
  · rintro ⟨hb, hj⟩
    induction hb with
    | refl => exact .refl
    | @tail x y _ hxy ih =>
      have hx : ¬C x := fun hc => hj (hcl x y hc hxy)
      exact (ih hx).tail ((h.dependents_iff hx).2 ⟨hxy, hj⟩)

theorem Freed.listed {a b : Agenda} {C : SlotNo → Prop} (h : Freed a b C) (hl : Listed a) : Listed b := by
  intro i hi
  have hc := h.live_not hi
  rw [h.kept i hc] at hi
  rcases hl i hi with hx | hx
  · exact .inl ((h.armed i).2 ⟨hx, hc⟩)
  · exact .inr ((h.waiting i).2 ⟨hx, hc⟩)

/-! ### Cancelling one entry after another -/

/-- What an event that cancels has done when it has cancelled the slots of `C`, of those of `K` that it will cancel in all. -/
structure Cancelling (a : Agenda) (target K : SlotNo → Prop) (reason : Option Reason) (muted : Option Port) (now : Tick)
    (w0 : Work) (C : SlotNo → Prop) (w : Work) : Prop where
  freed : Freed a w.st.agenda C
  told : ∀ q, ∃ ms, batchFor q w.sent = batchFor q w0.sent ++ ms ∧
    (ms.Pairwise fun x y => cancelledHandle x ≠ cancelledHandle y) ∧
    (∀ m ∈ ms, ∃ i e r, C i ∧ (a.slots.get i).entry = some e ∧ e.owner = q ∧ CancelRecord a i e r now m ∧
      ((target i ∧ reason = some r) ∨ (r = .anchorLost ∧ ∃ x, K x ∧ i ∈ dependents a x))) ∧
    (∀ i e, C i → (a.slots.get i).entry = some e → e.owner = q → muted ≠ some q → (reason.isSome ∨ ¬target i) →
      ∃ r, ∃ m ∈ ms, CancelRecord a i e r now m) ∧
    (muted = some q → ms = [])

variable {a : Agenda} {target K C : SlotNo → Prop} {reason : Option Reason} {muted : Option Port} {now : Tick} {w0 w : Work}

theorem Cancelling.start (h : w0.st.agenda = a) : Cancelling a target K reason muted now w0 (fun _ => False) w0 :=
  ⟨h ▸ Freed.refl _, fun _ => ⟨[], by simp, by simp, by simp, by simp, by simp⟩⟩

theorem Cancelling.congr {D : SlotNo → Prop} (h : Cancelling a target K reason muted now w0 C w) (e : ∀ i, C i ↔ D i) :
    Cancelling a target K reason muted now w0 D w := by
  have : C = D := funext fun i => propext (e i)
  exact this ▸ h

theorem cancelledHandle_record {i : SlotNo} {e : Entry} {r : Reason} {m : Msg} (h : CancelRecord a i e r now m) :
    cancelledHandle m = some (handleOf a i) := by
  rw [h]; rfl

/-- One more entry cancelled, as a target with the event's reason or as a dependent with ANCHOR_LOST. -/
theorem Cancelling.step (h : Cancelling a target K reason muted now w0 C w) {i : SlotNo}
    (hi : (w.st.agenda.slots.get i).entry.isSome) {r : Option Reason}
    (hr : (target i ∧ r = reason) ∨ (r = some .anchorLost ∧ ∃ x, K x ∧ i ∈ dependents a x)) :
    Cancelling a target K reason muted now w0 (fun j => C j ∨ j = i) (cancelOne r muted now w i) := by
  have hc : ¬C i := h.freed.live_not hi
  obtain ⟨e, he⟩ := Option.isSome_iff_exists.1 hi
  have hea : (a.slots.get i).entry = some e := by rw [← h.freed.kept i hc]; exact he
  have hh : handleOf w.st.agenda i = handleOf a i := h.freed.handle hc
  refine ⟨?_, ?_⟩
  · rw [cancelOne_st]
    exact h.freed.trans (freeSlot_freed hi) fun j hj => by rw [hj]; exact hc
  · intro q
    obtain ⟨ms, h1, h2, h3, h4, h5⟩ := h.told q
    let rec' : Reason → Msg := fun x => { kind := .entryCancelled (handleOf a i) e.plan.tag x, time := now }
    have hsent : (cancelOne r muted now w i).sent = w.sent ++
        match r with
        | some x => if muted = some e.owner then [] else [(e.owner, rec' x)]
        | none => [] := by
      unfold cancelOne
      rw [show w.st.entry i = some e from he]
      cases r with
      | none => simp
      | some x => simp only; split <;> simp [rec', hh]
    have old : ∀ m ∈ ms, ∃ j e r, (C j ∨ j = i) ∧ (a.slots.get j).entry = some e ∧ e.owner = q ∧ CancelRecord a j e r now m ∧
        ((target j ∧ reason = some r) ∨ (r = .anchorLost ∧ ∃ x, K x ∧ j ∈ dependents a x)) := fun m hm => by
      obtain ⟨j, e, r, hj, hx⟩ := h3 m hm
      exact ⟨j, e, r, .inl hj, hx⟩
    by_cases hq : e.owner = q ∧ muted ≠ some q ∧ r.isSome
    · obtain ⟨hq, hm, hr'⟩ := hq
      obtain ⟨x, rfl⟩ := Option.isSome_iff_exists.1 hr'
      refine ⟨ms ++ [rec' x], ?_, ?_, ?_, ?_, fun hm' => absurd hm' hm⟩
      · rw [hsent, batchFor_append, h1, List.append_assoc]
        simp only [hq, if_neg hm, batchFor_self]
      · rw [List.pairwise_append]
        refine ⟨h2, by simp, ?_⟩
        intro m hm' m' hm''
        rw [List.mem_singleton] at hm''; subst hm''
        obtain ⟨j, e', r', hj, _, _, hrec, _⟩ := h3 m hm'
        rw [cancelledHandle_record hrec]
        intro heq
        have : handleOf a j = handleOf a i := Option.some.inj heq
        have hji : j = i := congrArg Handle.slot this
        exact hc (hji ▸ hj)
      · intro m hm'
        rcases List.mem_append.1 hm' with hm' | hm'
        · exact old m hm'
        · rw [List.mem_singleton] at hm'; subst hm'
          refine ⟨i, e, x, .inr rfl, hea, hq, rfl, ?_⟩
          rcases hr with ⟨ht, hx⟩ | ⟨hx, hk⟩
          · exact .inl ⟨ht, hx.symm⟩
          · exact .inr ⟨Option.some.inj hx, hk⟩
      · rintro j e' (hj | rfl) hje hjq hm' hrt
        · obtain ⟨r', m, hm, hrec⟩ := h4 j e' hj hje hjq hm' hrt
          exact ⟨r', m, by simp [hm], hrec⟩
        · rw [hea] at hje; cases hje
          exact ⟨x, rec' x, by simp, rfl⟩
    · refine ⟨ms, ?_, h2, old, ?_, h5⟩
      · rw [hsent, batchFor_append, h1]
        cases r with
        | none => simp
        | some x =>
          simp only
          by_cases hm : muted = some e.owner
          · simp [hm]
          · rw [if_neg hm, batchFor_one]
            have : ¬e.owner = q := fun hoq => hq ⟨hoq, fun hm' => hm (by rw [hm', hoq]), rfl⟩
            simp [this]
      · rintro j e' (hj | rfl) hje hjq hm' hrt
        · exact h4 j e' hj hje hjq hm' hrt
        · rw [hea] at hje; cases hje
          exfalso
          refine hq ⟨hjq, hm', ?_⟩
          rcases hr with ⟨ht, rfl⟩ | ⟨rfl, _⟩
          · exact hrt.resolve_right fun hn => hn ht
          · rfl

theorem cancelOne_none {i : SlotNo} (h : (w.st.agenda.slots.get i).entry = none) (r : Option Reason) :
    cancelOne r muted now w i = w := by
  unfold cancelOne
  rw [show w.st.entry i = none from h]

/-- A list of dependents cancelled one after another, each that is still live. -/
theorem Cancelling.steps : ∀ (l : List SlotNo) {w : Work} {C : SlotNo → Prop}, Cancelling a target K reason muted now w0 C w →
    (∀ j ∈ l, ∃ x, K x ∧ j ∈ dependents a x) →
    Cancelling a target K reason muted now w0 (fun j => C j ∨ (j ∈ l ∧ (w.st.agenda.slots.get j).entry.isSome))
      (l.foldl (cancelOne (some .anchorLost) muted now) w)
  | [], w, C, h, _ => h.congr fun j => by simp
  | i :: l, w, C, h, hl => by
    rw [List.foldl_cons]
    by_cases hi : (w.st.agenda.slots.get i).entry.isSome
    · have h1 := h.step hi (r := some .anchorLost) (.inr ⟨rfl, hl i (by simp)⟩)
      refine (Cancelling.steps l h1 fun j hj => hl j (by simp [hj])).congr fun j => ?_
      rw [cancelOne_st, State.setAgenda_agenda]
      by_cases hji : j = i
      · subst hji; simp [hi]
      · simp [hji, freeSlot_get_ne hji]
    · have hi' : (w.st.agenda.slots.get i).entry = none := by simpa using hi
      rw [cancelOne_none hi']
      refine (Cancelling.steps l h fun j hj => hl j (by simp [hj])).congr fun j => ?_
      by_cases hji : j = i
      · subst hji; simp [hi']
      · simp [hji]

/-- A live target cancelled with everything below it. -/
theorem Cancelling.tree (h : Cancelling a target K reason muted now w0 C w) (hcl : ∀ x y, C x → y ∈ dependents a x → C y)
    {i : SlotNo} (hi : (w.st.agenda.slots.get i).entry.isSome) (ht : target i) (hK : ∀ j, Below a i j → K j) :
    Cancelling a target K reason muted now w0 (fun j => C j ∨ Below a i j) (cancelTree reason muted now i w) := by
  have hc : ¬C i := h.freed.live_not hi
  have h1 := h.step hi (r := reason) (.inl ⟨ht, rfl⟩)
  have hl : ∀ j ∈ (cascade Config.slots w.st.agenda i).tail, ∃ x, K x ∧ j ∈ dependents a x := by
    intro j hj
    obtain ⟨x, hx, hxj⟩ := mem_cascade_tail hj
    have hb := (h.freed.below hcl hc).1 (mem_cascade.1 hx)
    exact ⟨x, hK x hb.1, ((h.freed.dependents_iff hb.2).1 hxj).1⟩
  refine (h1.steps _ hl).congr fun j => ?_
  rw [cancelOne_st, State.setAgenda_agenda]
  have hcas : cascade Config.slots w.st.agenda i = i :: (cascade Config.slots w.st.agenda i).tail := rfl
  have hmem : j ∈ cascade Config.slots w.st.agenda i ↔ Below a i j ∧ ¬C j := by rw [mem_cascade, h.freed.below hcl hc]
  by_cases hji : j = i
  · subst hji; simp only [or_true, true_or, true_iff]; exact .inr .refl
  · rw [freeSlot_get_ne hji]
    rw [hcas, List.mem_cons] at hmem
    simp only [hji, or_false, false_or] at hmem ⊢
    constructor
    · rintro (hj | ⟨hj, _⟩)
      · exact .inl hj
      · exact .inr (hmem.1 hj).1
    · rintro (hj | hj)
      · exact .inl hj
      · by_cases hcj : C j
        · exact .inl hcj
        · have hm := hmem.2 ⟨hj, hcj⟩
          obtain ⟨x, _, hd⟩ := mem_cascade_tail hm
          obtain ⟨_, e, n, he, _⟩ := mem_dependents.1 hd
          exact .inr ⟨hm, by rw [he]; rfl⟩

/-- The targets cancelled one after another, each that is still live, with everything below them. -/
theorem Cancelling.targets : ∀ (l : List SlotNo) {w : Work} {C : SlotNo → Prop} (n : Nat),
    Cancelling a target K reason muted now w0 C w → (∀ x y, C x → y ∈ dependents a x → C y) →
    (∀ i ∈ l, target i ∧ (a.slots.get i).entry.isSome) → (∀ i j, target i → Below a i j → K j) →
    Cancelling a target K reason muted now w0 (fun j => C j ∨ ∃ i ∈ l, Below a i j)
      (l.foldl (fun x i => if (x.1.st.entry i).isSome then (cancelTree reason muted now i x.1, x.2 + 1) else x) (w, n)).1
  | [], w, C, n, h, _, _, _ => h.congr fun j => by simp
  | i :: l, w, C, n, h, hcl, hl, hK => by
    rw [List.foldl_cons]
    have hl' : ∀ j ∈ l, target j ∧ (a.slots.get j).entry.isSome := fun j hj => hl j (by simp [hj])
    by_cases hi : (w.st.agenda.slots.get i).entry.isSome
    · have ht := (hl i (by simp)).1
      have h1 := h.tree hcl hi ht fun j hj => hK i j ht hj
      have hcl' : ∀ x y, (C x ∨ Below a i x) → y ∈ dependents a x → (C y ∨ Below a i y) := by
        rintro x y (hx | hx) hy
        · exact .inl (hcl x y hx hy)
        · exact .inr (hx.tail hy)
      rw [if_pos (show ((w, n).1.st.entry i).isSome from hi)]
      refine (Cancelling.targets l (n + 1) h1 hcl' hl' hK).congr fun j => ?_
      simp only [List.mem_cons, exists_eq_or_imp, or_assoc]
    · rw [if_neg (show ¬((w, n).1.st.entry i).isSome from hi)]
      refine (Cancelling.targets l n h hcl hl' hK).congr fun j => ?_
      have hci : C i := by
        by_contra hc
        exact hi (by rw [h.freed.kept i hc]; exact (hl i (by simp)).2)
      have hb : Below a i j → C j := by
        intro hb
        induction hb with
        | refl => exact hci
        | tail _ hxy ih => exact hcl _ _ ih hxy
      simp only [List.mem_cons, exists_eq_or_imp]
      constructor
      · rintro (hj | hj)
        · exact .inl hj
        · exact .inr (.inr hj)
      · rintro (hj | hj | hj)
        · exact .inl hj
        · exact .inl (hb hj)
        · exact .inr hj

/-! ### The order of a cancellation (R100, R101, R106) -/

/-- Two sublists of a list without repeats that hold the same are the same. -/
theorem sublist_eq_filter {l m : List SlotNo} {f : SlotNo → Bool} (hn : m.Nodup) (hs : l.Sublist m)
    (hm : ∀ i, i ∈ l ↔ i ∈ m ∧ f i = true) : l = m.filter f := by
  induction hs with
  | slnil => rfl
  | @cons l m x hs ih =>
    rw [List.nodup_cons] at hn
    have hx : f x = false := by
      by_contra hc
      exact hn.1 (hs.subset ((hm x).2 ⟨by simp, by simpa using hc⟩))
    rw [List.filter_cons_of_neg (by simp [hx])]
    refine ih hn.2 fun i => ?_
    rw [hm, List.mem_cons]
    refine ⟨fun h => ⟨h.1.resolve_left ?_, h.2⟩, fun h => ⟨.inr h.1, h.2⟩⟩
    rintro rfl; rw [hx] at h; exact absurd h.2 (by simp)
  | @cons_cons l m x hs ih =>
    rw [List.nodup_cons] at hn
    have hx : f x = true := ((hm x).1 (by simp)).2
    rw [List.filter_cons_of_pos hx]
    congr 1
    refine ih hn.2 fun i => ?_
    have := hm i
    by_cases hi : i = x
    · subst hi
      exact ⟨fun h => absurd (hs.subset h) hn.1, fun h => absurd h.1 hn.1⟩
    · simpa [hi] using this

theorem Freed.dependents_eq {a b : Agenda} {C : SlotNo → Prop} [DecidablePred C] (h : Freed a b C) (ha : a.ok) {i : SlotNo}
    (hi : ¬C i) : dependents b i = (dependents a i).filter fun j => ¬C j := by
  have hn : (dependents a i).Nodup := ha.waitingOnce.filter _
  refine sublist_eq_filter hn ?_ fun j => by rw [h.dependents_iff hi]; simp
  have : dependents b i = b.waiting.filter (entryIs a (waitsOn (handleOf a i))) := by
    unfold dependents
    refine List.filter_congr fun j hj => ?_
    rw [h.handle hi]
    simp only [entryIs, h.kept j ((h.waiting j).1 hj).2]
  rw [this]
  exact h.waitingOrder.filter _

/-- Where whatever waits on a freed slot was freed too, a cascade names what it named before, in the same order, less the freed. -/
theorem Freed.cascade_eq {a b : Agenda} {C : SlotNo → Prop} [DecidablePred C] (h : Freed a b C) (ha : a.ok)
    (hcl : ∀ x y, C x → y ∈ dependents a x → C y) : ∀ (n : Nat) {i : SlotNo}, ¬C i →
    cascade n b i = (cascade n a i).filter fun j => ¬C j
  | 0, i, hi => by simp [cascade, hi]
  | n + 1, i, hi => by
    rw [cascade, cascade, List.filter_cons_of_pos (by simpa using hi), h.dependents_eq ha hi, List.filter_flatten, List.map_map]
    have gone : ∀ j, C j → (cascade n a j).filter (fun j => ¬C j) = [] := by
      intro j hj
      rw [List.filter_eq_nil_iff]
      intro k hk
      have : Below a j k → C k := by
        clear hk
        intro hb
        induction hb with
        | refl => exact hj
        | tail _ hxy ih => exact hcl _ _ ih hxy
      simp [this (cascade_below hk)]
    congr 1
    induction dependents a i with
    | nil => rfl
    | cons k l ih =>
      by_cases hk : C k
      · rw [List.filter_cons_of_neg (by simpa using hk), List.map_cons, List.flatten_cons, Function.comp, gone k hk,
          List.nil_append]
        exact ih
      · rw [List.filter_cons_of_pos (by simpa using hk), List.map_cons, List.map_cons, List.flatten_cons, List.flatten_cons,
          h.cascade_eq ha hcl n hk, ih]
        rfl

/-- In good order the two lists hold no slot twice between them. -/
theorem lists_nodup {a : Agenda} (h : a.ok) : (a.armed ++ a.waiting).Nodup := by
  rw [List.nodup_append]
  refine ⟨h.armedOnce, h.waitingOnce, ?_⟩
  rintro x hx _ hy rfl
  obtain ⟨e, he, hs⟩ := (h.armed x).1 hx
  obtain ⟨e', he', hs'⟩ := (h.waiting x).1 hy
  rw [he] at he'; cases he'; exact hs hs'

/-- In good order an entry stands ahead of whatever is below it. -/
theorem above_ahead {a : Agenda} (h : a.ok) {i j : SlotNo} (hi : i ∈ a.armed ++ a.waiting)
    (hb : Relation.TransGen (fun x y => y ∈ dependents a x) i j) :
    (a.armed ++ a.waiting).idxOf i < (a.armed ++ a.waiting).idxOf j := by
  have key : j ∈ a.waiting ∧ (i ∈ a.waiting → a.waiting.idxOf i < a.waiting.idxOf j) := by
    induction hb with
    | single hd => exact ⟨(mem_dependents.1 hd).1, fun hi => dependents_later h hi hd⟩
    | tail _ hd ih => exact ⟨(mem_dependents.1 hd).1, fun hi => (ih.2 hi).trans (dependents_later h ih.1 hd)⟩
  have hn := List.disjoint_of_nodup_append (lists_nodup h)
  rw [List.idxOf_append_of_notMem (fun hc => hn hc key.1)]
  by_cases hia : i ∈ a.armed
  · rw [List.idxOf_append_of_mem hia]
    have := List.idxOf_lt_length_of_mem hia
    omega
  · rw [List.idxOf_append_of_notMem hia]
    have := key.2 ((List.mem_append.1 hi).resolve_left hia)
    omega

/-- A sublist of a list without repeats stands in its order. -/
theorem sublist_idxOf {l m : List SlotNo} (hn : m.Nodup) (hs : l.Sublist m) :
    l.Pairwise fun x y => m.idxOf x < m.idxOf y := by
  refine List.Pairwise.sublist hs ?_
  rw [List.pairwise_iff_getElem]
  intro i j hi hj hij
  rw [hn.idxOf_getElem, hn.idxOf_getElem]
  exact hij

/-- The record that the cancellation of the entry in slot `i` sends. -/
def cancelSends (a : Agenda) (r : Option Reason) (muted : Option Port) (now : Tick) (i : SlotNo) : List (Port × Msg) :=
  match (a.slots.get i).entry, r with
  | some e, some x =>
    if muted = some e.owner then []
    else [(e.owner, { kind := .entryCancelled (handleOf a i) e.plan.tag x, time := now })]
  | _, _ => []

theorem cancelOne_sends (r : Option Reason) (muted : Option Port) (now : Tick) (w : Work) (i : SlotNo) :
    (cancelOne r muted now w i).sent = w.sent ++ cancelSends w.st.agenda r muted now i := by
  unfold cancelOne cancelSends State.entry State.slot
  cases (w.st.agenda.slots.get i).entry with
  | none => simp
  | some e =>
    cases r with
    | none => simp
    | some x => simp only; split <;> simp

theorem cancelSends_congr {a b : Agenda} {i : SlotNo} (h : b.slots.get i = a.slots.get i) (r : Option Reason)
    (muted : Option Port) (now : Tick) : cancelSends b r muted now i = cancelSends a r muted now i := by
  simp only [cancelSends, handleOf, h]

theorem cancelOnes_sends (r : Option Reason) (muted : Option Port) (now : Tick) : ∀ (l : List SlotNo) (w : Work), l.Nodup →
    (l.foldl (cancelOne r muted now) w).sent = w.sent ++ (l.map (cancelSends w.st.agenda r muted now)).flatten
  | [], w, _ => by simp
  | i :: l, w, hn => by
    rw [List.nodup_cons] at hn
    rw [List.foldl_cons, cancelOnes_sends r muted now l _ hn.2, cancelOne_sends, List.map_cons, List.flatten_cons,
      List.append_assoc]
    congr 3
    refine List.map_congr_left fun j hj => ?_
    have hne : j ≠ i := by rintro rfl; exact hn.1 hj
    rw [cancelOne_st, State.setAgenda_agenda]
    exact cancelSends_congr (freeSlot_get_ne hne) r muted now

/-- What was sent so far names slots of the walk `P` in its order, and an entry whose anchor falls too with ANCHOR_LOST. -/
structure Walked (a : Agenda) (target : SlotNo → Prop) (P : List SlotNo) (S : List (Port × Msg)) : Prop where
  order : S.Pairwise fun x y => ∀ h k, cancelledHandle x.2 = some h → cancelledHandle y.2 = some k →
    P.idxOf h.slot < P.idxOf k.slot
  named : ∀ x ∈ S, ∃ h tag r, x.2.kind = .entryCancelled h tag r ∧ h.slot ∈ P ∧
    ((∃ y, Falls a target y ∧ h.slot ∈ dependents a y) → r = .anchorLost)

/-- The walk goes on through `Q`, and the slots `c` of it that are new are told of in its order. -/
theorem Walked.append {a : Agenda} {target : SlotNo → Prop} {P Q c : List SlotNo} {S : List (Port × Msg)}
    (h : Walked a target P S) (hQ : Q.Nodup) (hc : c.Sublist Q) (hd : ∀ j ∈ c, j ∉ P) {f : SlotNo → List (Port × Msg)}
    (h1 : ∀ j ∈ c, (f j).length ≤ 1) (hf : ∀ j ∈ c, ∀ x ∈ f j, ∃ h tag r, x.2.kind = .entryCancelled h tag r ∧ h.slot = j ∧
      ((∃ y, Falls a target y ∧ h.slot ∈ dependents a y) → r = .anchorLost)) :
    Walked a target (P ++ Q) (S ++ (c.map f).flatten) := by
  have hmem : ∀ x ∈ (c.map f).flatten, ∃ j ∈ c, x ∈ f j := by
    intro x hx
    obtain ⟨l, hl, hx⟩ := List.mem_flatten.1 hx
    obtain ⟨j, hj, rfl⟩ := List.mem_map.1 hl
    exact ⟨j, hj, hx⟩
  have hhandle : ∀ {x : Port × Msg} {h k : Handle} {tag r}, x.2.kind = .entryCancelled h tag r → cancelledHandle x.2 = some k →
      k = h := by
    intro x h k tag r hx hk
    simp only [cancelledHandle, hx] at hk
    exact (Option.some.inj hk).symm
  refine ⟨?_, ?_⟩
  · rw [List.pairwise_append]
    refine ⟨?_, ?_, ?_⟩
    · refine h.order.imp_of_mem ?_
      intro x y hx hy hxy p q hp hq
      obtain ⟨px, _, _, hk, hm, _⟩ := h.named x hx
      obtain ⟨py, _, _, hk', hm', _⟩ := h.named y hy
      have e1 := hhandle hk hp
      have e2 := hhandle hk' hq
      subst e1 e2
      rw [List.idxOf_append_of_mem hm, List.idxOf_append_of_mem hm']
      exact hxy _ _ hp hq
    · rw [List.pairwise_flatten]
      refine ⟨?_, ?_⟩
      · intro l hl
        obtain ⟨j, hj, rfl⟩ := List.mem_map.1 hl
        have := h1 j hj
        match hfj : f j with
        | [] => simp
        | [x] => simp
        | x :: y :: l => rw [hfj] at this; simp at this
      · rw [List.pairwise_map]
        refine (sublist_idxOf hQ hc).imp_of_mem ?_
        intro i j hi hj hij x hx y hy p q hp hq
        obtain ⟨px, _, _, hk, rfl, _⟩ := hf i hi x hx
        obtain ⟨py, _, _, hk', rfl, _⟩ := hf j hj y hy
        rw [hhandle hk hp, hhandle hk' hq, List.idxOf_append_of_notMem (hd _ hi), List.idxOf_append_of_notMem (hd _ hj)]
        omega
    · intro x hx y hy p q hp hq
      obtain ⟨j, hj, hy⟩ := hmem y hy
      obtain ⟨px, _, _, hk, hm, _⟩ := h.named x hx
      obtain ⟨py, _, _, hk', rfl, _⟩ := hf j hj y hy
      rw [hhandle hk hp, hhandle hk' hq, List.idxOf_append_of_notMem (hd _ hj), List.idxOf_append_of_mem hm]
      have := List.idxOf_lt_length_of_mem hm
      omega
  · intro x hx
    rcases List.mem_append.1 hx with hx | hx
    · obtain ⟨p, tag, r, hk, hm, hr⟩ := h.named x hx
      exact ⟨p, tag, r, hk, by simp [hm], hr⟩
    · obtain ⟨j, hj, hx⟩ := hmem x hx
      obtain ⟨p, tag, r, hk, hp, hr⟩ := hf j hj x hx
      exact ⟨p, tag, r, hk, by rw [hp]; exact List.mem_append.2 (.inr (hc.subset hj)), hr⟩

/-- What cancelling a live target sends, where what was cancelled before it is all that is below some slots. -/
theorem cancelTree_sends (ha : a.ok) (h : Freed a w.st.agenda C) (hcl : ∀ x y, C x → y ∈ dependents a x → C y)
    {P : List SlotNo} (hP : ∀ j, C j ↔ j ∈ P) {i : SlotNo} (hi : ¬C i) (hfirst : ∀ y, Falls a target y → i ∉ dependents a y) :
    ∃ S', (cancelTree reason muted now i w).sent = w.sent ++ S' ∧
      ∀ S, Walked a target P S → Walked a target (P ++ cascade Config.slots a i) (S ++ S') := by
  classical
  have hcas := h.cascade_eq ha hcl Config.slots hi
  have hnd : (cascade Config.slots w.st.agenda i).Nodup := by rw [hcas]; exact (cascade_nodup ha _ i).filter _
  have hhead : cascade Config.slots w.st.agenda i = i :: (cascade Config.slots w.st.agenda i).tail := rfl
  rw [hhead, List.nodup_cons] at hnd
  let f : SlotNo → List (Port × Msg) := fun j =>
    cancelSends w.st.agenda (if j = i then reason else some .anchorLost) muted now j
  refine ⟨((cascade Config.slots w.st.agenda i).map f).flatten, ?_, ?_⟩
  · unfold cancelTree
    rw [cancelOnes_sends _ _ _ _ _ hnd.2, cancelOne_sends, hhead, List.map_cons, List.flatten_cons, List.append_assoc,
      List.tail_cons]
    congr 2
    · simp [f]
    · congr 1
      refine List.map_congr_left fun j hj => ?_
      have hne : j ≠ i := by rintro rfl; exact hnd.1 hj
      simp only [f, if_neg hne]
      rw [cancelOne_st, State.setAgenda_agenda]
      exact cancelSends_congr (freeSlot_get_ne hne) _ _ _
  · intro S hS
    refine hS.append (cascade_nodup ha _ i) (by rw [hcas]; exact List.filter_sublist) ?_ ?_ ?_
    · intro j hj
      rw [hcas, List.mem_filter] at hj
      rw [← hP]; simpa using hj.2
    · intro j _
      simp only [f, cancelSends]
      split
      · split <;> simp
      · simp
    · intro j _ x hx
      simp only [f, cancelSends] at hx
      split at hx
      · next e r he hr =>
        split at hx
        · cases hx
        · rw [List.mem_singleton] at hx; subst hx
          refine ⟨_, _, _, rfl, rfl, ?_⟩
          rintro ⟨y, hy, hd⟩
          by_cases hji : j = i
          · exact absurd (show i ∈ dependents a y from hji ▸ hd) (hfirst y hy)
          · rw [if_neg hji] at hr; exact (Option.some.inj hr).symm
      · cases hx

/-- The targets cancelled one after another in agenda order: the records follow the walk. -/
theorem Cancelling.walked (ha : a.ok) {targets : List SlotNo} (hs : targets.Sublist (a.armed ++ a.waiting))
    (ht : ∀ i, i ∈ targets ↔ target i) (hlive : ∀ i ∈ targets, (a.slots.get i).entry.isSome) :
    ∀ (l pre : List SlotNo) {w : Work} {C : SlotNo → Prop} (n : Nat) (S : List (Port × Msg)), targets = pre ++ l →
    Cancelling a target (Falls a target) reason muted now w0 C w → (∀ j, C j ↔ j ∈ walk a pre) →
    w.sent = w0.sent ++ S → Walked a target (walk a pre) S → ∃ S', Walked a target (walk a targets) S' ∧
      (l.foldl (fun x i => if (x.1.st.entry i).isSome then (cancelTree reason muted now i x.1, x.2 + 1) else x)
        (w, n)).1.sent = w0.sent ++ S'
  | [], pre, w, C, n, S, he, _, _, hS, hW => ⟨S, by simpa [he] using hW, hS⟩
  | i :: l, pre, w, C, n, S, he, h, hC, hS, hW => by
    have hcl : ∀ x y, C x → y ∈ dependents a x → C y := by
      intro x y hx hy
      rw [hC] at hx ⊢
      obtain ⟨m, hm, hx⟩ := List.mem_flatten.1 hx
      obtain ⟨t, ht', rfl⟩ := List.mem_map.1 hm
      exact List.mem_flatten.2 ⟨_, List.mem_map.2 ⟨t, ht', rfl⟩, mem_cascade.2 ((mem_cascade.1 hx).tail hy)⟩
    have hwalk : walk a (pre ++ [i]) = walk a pre ++ cascade Config.slots a i := by simp [walk]
    have hti : target i := (ht i).1 (by rw [he]; simp)
    rw [List.foldl_cons]
    by_cases hi : (w.st.agenda.slots.get i).entry.isSome
    · have hc : ¬C i := h.freed.live_not hi
      have hfirst : ∀ y, Falls a target y → i ∉ dependents a y := by
        rintro y ⟨t, htt, hty⟩ hd
        have hti' : Relation.TransGen (fun x y => y ∈ dependents a x) t i := Relation.TransGen.tail' hty hd
        have hm := (ht t).2 htt
        have hlt := above_ahead ha (hs.subset hm) hti'
        have hord := sublist_idxOf (lists_nodup ha) hs
        rw [he] at hm hord
        rcases List.mem_append.1 hm with hm | hm
        · refine hc ((hC i).2 ?_)
          exact List.mem_flatten.2 ⟨_, List.mem_map.2 ⟨t, hm, rfl⟩, mem_cascade.2 hti'.to_reflTransGen⟩
        · rcases List.mem_cons.1 hm with rfl | hm
          · exact lt_irrefl _ hlt
          · have := (List.pairwise_cons.1 (List.pairwise_append.1 hord).2.1).1 t hm
            omega
      obtain ⟨S', hsent, hnext⟩ := cancelTree_sends (reason := reason) (muted := muted) (now := now) ha h.freed hcl hC hc hfirst
      rw [if_pos (show ((w, n).1.st.entry i).isSome from hi)]
      refine Cancelling.walked ha hs ht hlive l (pre ++ [i]) (n + 1) (S ++ S') (by simp [he])
        (h.tree hcl hi hti fun j hj => ⟨i, hti, hj⟩) ?_ (by rw [hsent, hS, List.append_assoc]) (by rw [hwalk]; exact hnext S hW)
      intro j
      rw [hwalk, List.mem_append, hC, mem_cascade]
    · rw [if_neg (show ¬((w, n).1.st.entry i).isSome from hi)]
      have hci : C i := by
        by_contra hc
        exact hi (by rw [h.freed.kept i hc]; exact hlive i (by rw [he]; simp))
      have hsub : ∀ j, Below a i j → C j := by
        intro j hb
        induction hb with
        | refl => exact hci
        | tail _ hxy ih => exact hcl _ _ ih hxy
      refine Cancelling.walked ha hs ht hlive l (pre ++ [i]) n S (by simp [he]) h ?_ hS ?_
      · intro j
        rw [hwalk, List.mem_append, ← hC, mem_cascade]
        exact ⟨.inl, fun hj => hj.elim id (hsub j)⟩
      · rw [hwalk]
        have := hW.append (cascade_nodup ha Config.slots i) (c := []) (List.nil_sublist _) (by simp) (f := fun _ => []) (by simp)
          (by simp)
        simpa using this

/-- What cancelling targets does (R98 to R102): exactly the slots of the targets and of what waits on them are freed, and each port
gets its records behind what was sent before. -/
theorem cancelTargets_spec {l : List SlotNo} (ht : ∀ i, i ∈ l ↔ target i) (hl : ∀ i ∈ l, (w.st.agenda.slots.get i).entry.isSome)
    (ho : w.st.agenda.ok → l.Sublist (w.st.agenda.armed ++ w.st.agenda.waiting) := by exact fun _ => List.filter_sublist) :
    Freed w.st.agenda (cancelTargets reason muted now l w).1.st.agenda (Falls w.st.agenda target) ∧
    ∀ q, ∃ ms, CancelRecords w.st.agenda target reason muted now q ms ∧
      batchFor q (cancelTargets reason muted now l w).1.sent = batchFor q w.sent ++ ms := by
  have h := Cancelling.targets (a := w.st.agenda) (target := target) (K := Falls w.st.agenda target) (reason := reason)
    (muted := muted) (now := now) (w0 := w) l 0 (Cancelling.start rfl) (by simp)
    (fun i hi => ⟨(ht i).1 hi, hl i hi⟩) fun i j hi hb => ⟨i, hi, hb⟩
  have h' := h.congr (D := Falls w.st.agenda target) fun j => by
    simp only [false_or, Falls, ht]; rfl
  refine ⟨h'.freed, fun q => ?_⟩
  obtain ⟨ms, h1, h2, h3, h4, h5⟩ := h'.told q
  have walked : w.st.agenda.ok → ∃ S, Walked w.st.agenda target (walk w.st.agenda l) S ∧ batchFor q S = ms := by
    intro ha
    obtain ⟨S, hS, hsent⟩ := Cancelling.walked (reason := reason) (muted := muted) (now := now) (w0 := w) ha (ho ha) ht hl l [] 0 []
      rfl (Cancelling.start rfl) (by simp [walk]) (by simp) ⟨by simp, by simp⟩
    refine ⟨S, hS, ?_⟩
    rw [hsent, batchFor_append] at h1
    exact List.append_cancel_left h1
  refine ⟨ms, ⟨h2, h3, h4, h5, ?_, ?_⟩, h1⟩
  · intro ha m hm p tag r hk hx
    obtain ⟨S, hS, rfl⟩ := walked ha
    obtain ⟨x, hx', rfl⟩ := List.mem_map.1 hm
    obtain ⟨p', tag', r', hk', _, hr⟩ := hS.named x (List.mem_filter.1 hx').1
    rw [hk] at hk'; cases hk'
    exact hr hx
  · intro ha
    obtain ⟨S, hS, rfl⟩ := walked ha
    refine ⟨l, ho ha, ht, ?_⟩
    unfold batchFor
    rw [List.pairwise_map]
    exact hS.order.filter _

/-- An entry cancelled with what waits on it. -/
theorem cancelTree_spec {i : SlotNo} (hi : (w.st.agenda.slots.get i).entry.isSome) :
    Freed w.st.agenda (cancelTree reason muted now i w).st.agenda (Falls w.st.agenda (· = i)) ∧
    ∀ q, ∃ ms, CancelRecords w.st.agenda (· = i) reason muted now q ms ∧
      batchFor q (cancelTree reason muted now i w).sent = batchFor q w.sent ++ ms := by
  have := cancelTargets_spec (target := (· = i)) (reason := reason) (muted := muted) (now := now) (w := w) (l := [i])
    (by simp) (by simpa using hi) (by
      intro ha
      rw [List.singleton_sublist, List.mem_append]
      obtain ⟨e, he⟩ := Option.isSome_iff_exists.1 hi
      by_cases hs : e.state = .waiting
      · exact .inr ((ha.waiting i).2 ⟨e, he, hs⟩)
      · exact .inl ((ha.armed i).2 ⟨e, he, hs⟩))
  have hf : (cancelTargets reason muted now [i] w).1 = cancelTree reason muted now i w := by
    simp only [cancelTargets, List.foldl_cons, List.foldl_nil]
    rw [if_pos (show (w.st.entry i).isSome from hi)]
  rwa [hf] at this

/-! ### Counting -/

/-- A cancellation record with this reason. -/
def hasReason (r : Reason) (m : Msg) : Bool :=
  match m.kind with
  | .entryCancelled _ _ x => x == r
  | _ => false

theorem cancelOnes_reason {r x : Reason} (hx : x ≠ r) (muted : Option Port) (now : Tick) (p : Port) :
    ∀ (l : List SlotNo) (w : Work),
      (batchFor p (l.foldl (cancelOne (some x) muted now) w).sent).countP (hasReason r) =
        (batchFor p w.sent).countP (hasReason r)
  | [], w => rfl
  | i :: l, w => by
    rw [List.foldl_cons, cancelOnes_reason hx muted now p l]
    unfold cancelOne
    cases w.st.entry i with
    | none => rfl
    | some e =>
      simp only
      split
      · rfl
      · rw [send_sent, batchFor_append, batchFor_one, List.countP_append]
        split <;> simp [hasReason, hx]

/-- Where every target is of port `p`, the number of targets cancelled as targets is the number of records that carry the event's
reason to `p`. -/
theorem cancelTargets_count {r : Reason} (hr : Reason.anchorLost ≠ r) (now : Tick) (p : Port) {l : List SlotNo} {w : Work}
    (hl : ∀ i ∈ l, ∀ e, w.st.entry i = some e → e.owner = p) :
    (batchFor p (cancelTargets (some r) none now l w).1.sent).countP (hasReason r) =
      (batchFor p w.sent).countP (hasReason r) + (cancelTargets (some r) none now l w).2 := by
  have key : ∀ (l : List SlotNo) (w : Work) (n : Nat), (∀ i ∈ l, ∀ e, w.st.entry i = some e → e.owner = p) →
      let x := l.foldl
        (fun x i => if (x.1.st.entry i).isSome then (cancelTree (some r) none now i x.1, x.2 + 1) else x) (w, n)
      (batchFor p x.1.sent).countP (hasReason r) + n = (batchFor p w.sent).countP (hasReason r) + x.2 := by
    intro l
    induction l with
    | nil => intro w n _; rfl
    | cons i l ih =>
      intro w n hl
      simp only [List.foldl_cons]
      by_cases hi : (w.st.entry i).isSome
      · rw [if_pos hi]
        obtain ⟨e, he⟩ := Option.isSome_iff_exists.1 hi
        have hf := (cancelTree_spec (reason := some r) (muted := none) (now := now) hi).1
        have ih' := ih (cancelTree (some r) none now i w) (n + 1) (fun j hj e' he' => by
          have hc := hf.live_not (i := j) (by rw [show ((cancelTree _ _ _ _ _).st.agenda.slots.get j).entry = _ from he']; rfl)
          exact hl j (by simp [hj]) e' (by rw [← he']; exact (congrArg Slot.entry (hf.kept j hc)).symm))
        have ht : (batchFor p (cancelTree (some r) none now i w).sent).countP (hasReason r) =
            (batchFor p w.sent).countP (hasReason r) + 1 := by
          unfold cancelTree
          rw [cancelOnes_reason hr]
          unfold cancelOne
          simp only [he, reduceCtorEq, if_false, send_sent, onAgenda_sent, batchFor_append, List.countP_append,
            hl i (by simp) e he, batchFor_self]
          simp [hasReason]
        simp only at ih' ⊢
        omega
      · rw [if_neg hi]; exact ih w n fun j hj => hl j (by simp [hj])
  have := key l w 0 hl
  simpa [cancelTargets] using this

/-- The targets of an event are the live entries with a property, in agenda order (R101). -/
theorem agendaOrder_targets {a : Agenda} (hl : Listed a) (f : Entry → Bool) (i : SlotNo) :
    i ∈ agendaOrder a f ↔ Holds a (fun e => f e = true) i := by
  rw [mem_agendaOrder]
  constructor
  · rintro ⟨_, h⟩; exact h
  · rintro ⟨e, he, hf⟩
    exact ⟨hl i (by rw [he]; rfl), e, he, hf⟩

end Sys2Proof.Machine
end

