-- ==== Sys2Proof/Laws/Queues.lean ====
section
/-! SUPPORT. What a record's arrival does to a queue, said once: it is discarded, accepted, or accepted in place of one record; and what
an arrival never changes. -/

namespace Sys2Proof.Machine

/-! ### One record taken out of a list -/

/-- The first record with a property leaves the list. -/
theorem eraseP_split {α : Type} {f : α → Bool} : ∀ {ahead behind : List α} {x : α}, f x = true →
    (∀ y ∈ ahead, ¬f y = true) → (ahead ++ x :: behind).eraseP f = ahead ++ behind
  | [], _, _, hx, _ => List.eraseP_cons_of_pos hx
  | a :: as, behind, x, hx, h => by
    rw [List.cons_append, List.eraseP_cons_of_neg (h a (by simp)), eraseP_split hx fun y hy => h y (by simp [hy])]; rfl

theorem dropOldestGeneral_split {older newer : List Record} {x : Record} (hx : x.isGeneral = true)
    (ho : older.all Record.isSystem = true) : dropOldestGeneral (older ++ x :: newer) = older ++ newer := by
  refine eraseP_split hx fun y hy => ?_
  have := List.all_eq_true.1 ho y hy
  simpa [Record.isGeneral, Record.isSystem] using this

theorem dropNewestGeneral_split {older newer : List Record} {x : Record} (hx : x.isGeneral = true)
    (hn : newer.all Record.isSystem = true) : dropNewestGeneral (older ++ x :: newer) = older ++ newer := by
  have h : (older ++ x :: newer).reverse = newer.reverse ++ x :: older.reverse := by simp
  rw [dropNewestGeneral, h, eraseP_split hx fun y hy => ?_]
  · simp
  · have := List.all_eq_true.1 hn y (by simpa using hy)
    simpa [Record.isGeneral, Record.isSystem] using this

/-- A list either holds a general record or is made of system records. -/
theorem any_general_iff (rs : List Record) : rs.any Record.isGeneral = false ↔ rs.all Record.isSystem = true := by
  simp [Record.isGeneral, Record.isSystem]

/-- `rs` is `q`'s list without one record: the newest or the oldest general one, or, for a system record, the oldest of a list
with no general record. -/
def MakesRoom (q : Queue) (m : Msg) (rs : List Record) : Prop :=
  rs.Sublist q.records ∧ rs.length + 1 = q.records.length ∧
    ((rs.countP Record.isGeneral + 1 = q.records.countP Record.isGeneral) ∨
      (m.kind.isSystem = true ∧ q.records.countP Record.isGeneral = 0))

theorem countP_eraseP {α : Type} {f : α → Bool} : ∀ {l : List α}, l.any f = true →
    (l.eraseP f).countP f + 1 = l.countP f ∧ (l.eraseP f).length + 1 = l.length
  | [], h => by simp at h
  | a :: as, h => by
    by_cases ha : f a = true
    · rw [List.eraseP_cons_of_pos ha, List.countP_cons_of_pos ha]; exact ⟨rfl, rfl⟩
    · have h' : as.any f = true := by simpa [ha] using h
      obtain ⟨h1, h2⟩ := countP_eraseP h'
      rw [List.eraseP_cons_of_neg ha, List.countP_cons_of_neg ha, List.countP_cons_of_neg ha, List.length_cons,
        List.length_cons]
      exact ⟨h1, by omega⟩

theorem dropOldestGeneral_room {q : Queue} {m : Msg} (h : q.records.any Record.isGeneral = true) :
    MakesRoom q m (dropOldestGeneral q.records) :=
  ⟨List.eraseP_sublist, (countP_eraseP h).2, .inl (countP_eraseP h).1⟩

theorem dropNewestGeneral_room {q : Queue} {m : Msg} (h : q.records.any Record.isGeneral = true) :
    MakesRoom q m (dropNewestGeneral q.records) := by
  have h' : q.records.reverse.any Record.isGeneral = true := by rw [List.any_reverse]; exact h
  obtain ⟨h1, h2⟩ := countP_eraseP h'
  refine ⟨?_, ?_, .inl ?_⟩
  · have := (List.eraseP_sublist (p := Record.isGeneral) (l := q.records.reverse)).reverse
    rwa [List.reverse_reverse] at this
  · simpa [dropNewestGeneral] using h2
  · simpa [dropNewestGeneral, List.countP_reverse] using h1

/-! ### A record's arrival -/

/-- A SHUT intake discards. -/
theorem arrive_shut {q : Queue} (m : Msg) (h : q.intake = .shut) : arrive q m = q := by
  unfold arrive; rw [h]

/-- With room for its class a record is accepted. -/
theorem arrive_room {q : Queue} {m : Msg} (hi : q.intake = .accepting) (hr : hasRoom q m = true) :
    arrive q m = acceptRecord q m := by
  unfold arrive; rw [hi]; exact if_pos hr

/-- Without room, mode STOP decides. -/
theorem arrive_stop {q : Queue} {m : Msg} (hi : q.intake = .accepting) (hr : hasRoom q m = false) (hm : q.mode = .stop) :
    arrive q m = stopOverflow q m := by
  unfold arrive; rw [hi, hm]; exact if_neg (by simp [hr])

/-- Without room, mode RING decides. -/
theorem arrive_ring {q : Queue} {m : Msg} (hi : q.intake = .accepting) (hr : hasRoom q m = false) (hm : q.mode = .ring) :
    arrive q m = ringOverflow q m := by
  unfold arrive; rw [hi, hm]; exact if_neg (by simp [hr])

theorem hasRoom_iff (q : Queue) (m : Msg) : hasRoom q m = true ↔
    (m.kind.isSystem = true ∧ q.records.length < 64) ∨ (m.kind.isSystem = false ∧ q.records.length < 56) := by
  cases hk : m.kind.isSystem <;> simp [hasRoom, hk, Config.queueRecords, Config.generalRecords]

/-- Everything that a record's arrival can do to a queue. -/
theorem arrive_cases (q : Queue) (m : Msg) :
    (arrive q m = q ∧ q.intake = .shut) ∨
    (arrive q m = acceptRecord q m ∧ q.intake = .accepting ∧ hasRoom q m = true) ∨
    (arrive q m = countLoss q ∧ q.intake = .accepting ∧ hasRoom q m = false ∧
      (m.kind.isSystem = true → q.mode = .stop ∧ q.records.countP Record.isGeneral = 0)) ∨
    (∃ rs, arrive q m = acceptRecord (countLoss { q with records := rs }) m ∧ q.intake = .accepting ∧
      hasRoom q m = false ∧ MakesRoom q m rs) := by
  have hzero : q.records.any Record.isGeneral = false → q.records.countP Record.isGeneral = 0 := by
    intro h; rw [List.countP_eq_zero]; simpa using h
  obtain hi | hi : q.intake = .shut ∨ q.intake = .accepting := by cases q.intake <;> simp
  · exact .inl ⟨arrive_shut m hi, hi⟩
  by_cases hr : hasRoom q m = true
  · exact .inr (.inl ⟨arrive_room hi hr, hi, hr⟩)
  rw [Bool.not_eq_true] at hr
  obtain hm | hm : q.mode = .stop ∨ q.mode = .ring := by cases q.mode <;> simp
  · rw [arrive_stop hi hr hm]
    by_cases hc : (m.kind.isSystem && q.records.any Record.isGeneral) = true
    · refine .inr (.inr (.inr ⟨_, if_pos hc, hi, hr, dropNewestGeneral_room ?_⟩))
      rw [Bool.and_eq_true] at hc; exact hc.2
    · refine .inr (.inr (.inl ⟨if_neg hc, hi, hr, fun hs => ⟨hm, hzero ?_⟩⟩))
      rw [hs, Bool.true_and, Bool.not_eq_true] at hc; exact hc
  · rw [arrive_ring hi hr hm]
    by_cases hg : q.records.any Record.isGeneral = true
    · exact .inr (.inr (.inr ⟨_, if_pos hg, hi, hr, dropOldestGeneral_room hg⟩))
    · have h0 := hzero ((Bool.not_eq_true _).mp hg)
      by_cases hs : m.kind.isSystem = true
      · refine .inr (.inr (.inr ⟨q.records.tail, (if_neg hg).trans (if_pos hs), hi, hr, List.tail_sublist _, ?_,
          .inr ⟨hs, h0⟩⟩))
        have hl : ¬q.records.length < 64 := by simpa [hasRoom, hs, Config.queueRecords] using hr
        rw [List.length_tail]; omega
      · exact .inr (.inr (.inl ⟨(if_neg hg).trans (if_neg hs), hi, hr, fun h => absurd h hs⟩))

/-- An arrival leaves everything of a queue but the list, the next sequence number and the lost counts. -/
theorem arrive_keeps (q : Queue) (m : Msg) : (arrive q m).intake = q.intake ∧ (arrive q m).mode = q.mode ∧
    (arrive q m).threshold = q.threshold ∧ (arrive q m).row = q.row := by
  obtain ⟨h, _⟩ | ⟨h, _⟩ | ⟨h, _⟩ | ⟨rs, h, _⟩ := arrive_cases q m <;> rw [h] <;> exact ⟨rfl, rfl, rfl, rfl⟩

@[simp] theorem arrive_intake (q : Queue) (m : Msg) : (arrive q m).intake = q.intake := (arrive_keeps q m).1
@[simp] theorem arrive_mode (q : Queue) (m : Msg) : (arrive q m).mode = q.mode := (arrive_keeps q m).2.1
@[simp] theorem arrive_threshold (q : Queue) (m : Msg) : (arrive q m).threshold = q.threshold := (arrive_keeps q m).2.2.1
@[simp] theorem arrive_row (q : Queue) (m : Msg) : (arrive q m).row = q.row := (arrive_keeps q m).2.2.2

/-- An arrival never makes a list shorter. -/
theorem arrive_length (q : Queue) (m : Msg) : q.records.length ≤ (arrive q m).records.length := by
  obtain ⟨h, _⟩ | ⟨h, _⟩ | ⟨h, _⟩ | ⟨rs, h, _, _, hr⟩ := arrive_cases q m <;> rw [h]
  · simp [acceptRecord]
  · simp [countLoss]
  · simp only [acceptRecord, countLoss, List.length_append, List.length_singleton]
    exact hr.2.1.ge

/-- An arrival keeps a queue within its bounds. -/
theorem arrive_ok {q : Queue} (m : Msg) (h : q.ok) : (arrive q m).ok := by
  obtain ⟨h1, h2, h3, h4⟩ := h
  have hcount : ∀ (rs : List Record) (x : Queue), (acceptRecord { x with records := rs } m).records.countP Record.isGeneral =
      rs.countP Record.isGeneral + if m.kind.isSystem then 0 else 1 := by
    intro rs x
    simp only [acceptRecord, List.countP_append, List.countP_singleton, Record.isGeneral]
    by_cases hk : m.kind.isSystem = true <;> simp [hk]
  have hsub : ∀ (rs : List Record), rs.countP Record.isGeneral ≤ rs.length := fun rs => List.countP_le_length
  obtain ⟨h, _⟩ | ⟨h, hi, hr⟩ | ⟨h, hi, hr, _⟩ | ⟨rs, h, hi, hr, hs, hl, hg⟩ := arrive_cases q m <;> rw [h]
  · exact ⟨h1, h2, h3, h4⟩
  · have hr' := of_decide_eq_true hr
    have hc := hcount q.records q
    refine ⟨?_, ?_, fun hsh => ?_, h4⟩
    · simp only [acceptRecord, List.length_append, List.length_singleton]
      cases hk : m.kind.isSystem <;> simp [hk, Config.queueRecords, Config.generalRecords] at hr' <;> omega
    · show (acceptRecord q m).records.countP Record.isGeneral ≤ 56
      rw [show acceptRecord q m = acceptRecord { q with records := q.records } m from rfl, hc]
      have := hsub q.records
      cases hk : m.kind.isSystem <;> simp [hk, Config.queueRecords, Config.generalRecords] at hr' ⊢ <;> omega
    · have : q.intake = .shut := hsh
      rw [hi] at this; cases this
  · exact ⟨h1, h2, fun hsh => h3 hsh, h4⟩
  · refine ⟨?_, ?_, fun hsh => ?_, h4⟩
    · simp only [acceptRecord, countLoss, List.length_append, List.length_singleton]; omega
    · show (acceptRecord { countLoss q with records := rs } m).records.countP Record.isGeneral ≤ 56
      rw [hcount]
      rcases hg with hg | ⟨hk, hg⟩
      · split <;> omega
      · rw [if_pos hk]
        have := hs.countP_le (p := Record.isGeneral)
        omega
    · have : q.intake = .shut := hsh
      rw [hi] at this; cases this

/-! ### The command RECORD_ARRIVAL -/

theorem edgeTrip_iff {m : Msg} {g : Group} {e : Edge} :
    edgeTrip m = some (g, e) ↔ (∃ i n, m.kind = .trip g i n) ∧ m.edge = some e := by
  unfold edgeTrip
  split
  · next h he => simp [h, he]
  · next h =>
    simp only [reduceCtorEq, false_iff]
    rintro ⟨⟨i, n, hi⟩, he⟩
    exact h _ _ _ _ hi he

/-- A batch waits exactly behind one that still holds the TRIP record of the other group's trip event on the same edge. -/
theorem batchWaits_iff {bs : List (List Msg)} {k : Nat} :
    batchWaits bs k = true ↔ ∃ b ∈ bs.take k, ∃ x ∈ b, ∃ y ∈ bs.getD k [], ∃ g h e, edgeTrip x = some (g, e) ∧
      edgeTrip y = some (h, e) ∧ g ≠ h := by
  have hal : ∀ x y, tripsAlike x y = true ↔ ∃ g h e, edgeTrip x = some (g, e) ∧ edgeTrip y = some (h, e) ∧ g ≠ h := by
    intro x y
    unfold tripsAlike
    split
    · next g e h f hx hy =>
      simp only [Bool.and_eq_true, bne_iff_ne, beq_iff_eq, hx, hy, Option.some.injEq, Prod.mk.injEq]
      constructor
      · rintro ⟨hg, rfl⟩; exact ⟨g, h, e, ⟨rfl, rfl⟩, ⟨rfl, rfl⟩, hg⟩
      · rintro ⟨_, _, _, ⟨rfl, rfl⟩, ⟨rfl, rfl⟩, hg⟩; exact ⟨hg, rfl⟩
    · next hn =>
      simp only [Bool.false_eq_true, false_iff]
      rintro ⟨g, h, e, hx, hy, -⟩
      exact hn _ _ _ _ hx hy
  simp only [batchWaits, List.any_eq_true, hal]

/-- Everything RECORD_ARRIVAL can do: nothing, or the head of a batch that does not wait arrives at the port's queue. -/
theorem recordArrives_cases (p : Port) (k : Nat) (s : State) :
    recordArrives p k s = s ∨ ∃ m bs, batchWaits (s.transit.get p) k = false ∧ takeFromBatch (s.transit.get p) k = some (m, bs) ∧
      recordArrives p k s = (s.setTransit (s.transit.set p bs)).setQueue p (arrive (s.queue p) m) := by
  unfold recordArrives
  split
  · exact .inl rfl
  · next hw =>
    split
    · next m bs hm => exact .inr ⟨m, bs, by simpa using hw, hm, rfl⟩
    · exact .inl rfl

end Sys2Proof.Machine
end

