-- ==== Sys2Proof/Laws/Good.lean ====
section
/-! SUPPORT. The agenda stays in good order, and its entries keep moving, when slots are freed, when an entry is placed in the armed
list, when entries are armed from an anchor, when an entry fires, and when a new entry is accepted. -/

namespace Sys2Proof.Machine

theorem Holds.imp {a : Agenda} {f g : Entry → Prop} {i : SlotNo} (h : Holds a f i) (k : ∀ e, f e → g e) : Holds a g i := by
  obtain ⟨e, he, hf⟩ := h; exact ⟨e, he, k e hf⟩

theorem Holds.live {a : Agenda} {f : Entry → Prop} {i : SlotNo} (h : Holds a f i) : (a.slots.get i).entry.isSome := by
  obtain ⟨e, he, _⟩ := h; rw [he]; rfl

/-! ### Good order as its parts -/

theorem Agenda.ok.listed {a : Agenda} (h : a.ok) : Listed a := by
  intro i hi
  obtain ⟨e, he⟩ := Option.isSome_iff_exists.1 hi
  by_cases hw : e.state = .waiting
  · exact .inr ((h.waiting i).2 ⟨e, he, hw⟩)
  · exact .inl ((h.armed i).2 ⟨e, he, hw⟩)

theorem Agenda.ok.armed_live {a : Agenda} (h : a.ok) {i : SlotNo} (hi : i ∈ a.armed) :
    ∃ e ph due start, (a.slots.get i).entry = some e ∧ e.state = .armed ph due start := by
  obtain ⟨e, he, hs⟩ := (h.armed i).1 hi
  cases hst : e.state with
  | waiting => exact absurd hst hs
  | armed ph due start => exact ⟨e, ph, due, start, he, hst⟩

theorem Agenda.ok.not_waiting {a : Agenda} (h : a.ok) {i : SlotNo} (hi : i ∈ a.armed) : i ∉ a.waiting := by
  intro hw
  obtain ⟨e, he, hs⟩ := (h.armed i).1 hi
  obtain ⟨e', he', hs'⟩ := (h.waiting i).1 hw
  rw [he] at he'; cases he'; exact hs hs'

/-- A live anchor names its slot: its dependents wait on the handle it carries. -/
theorem mem_dependents_of_live {a : Agenda} {h : Handle} (hl : (liveEntry a h).isSome) {j : SlotNo} {e : Entry} {n : Count32}
    (hj : j ∈ a.waiting) (he : (a.slots.get j).entry = some e) (ha : e.plan.anchor = .entry h n) : j ∈ dependents a h.slot := by
  obtain ⟨x, hx⟩ := Option.isSome_iff_exists.1 hl
  refine mem_dependents.2 ⟨hj, e, n, he, ?_⟩
  rw [ha, handleOf, (liveEntry_some.1 hx).1]

/-! ### Freeing -/

theorem Freed.holds {a b : Agenda} {C : SlotNo → Prop} (h : Freed a b C) {f : Entry → Prop} {i : SlotNo} :
    Holds b f i ↔ Holds a f i ∧ ¬C i := by
  constructor
  · intro hb
    have hc := h.live_not hb.live
    obtain ⟨e, he, hf⟩ := hb
    rw [h.kept i hc] at he
    exact ⟨⟨e, he, hf⟩, hc⟩
  · rintro ⟨⟨e, he, hf⟩, hc⟩
    exact ⟨e, by rw [h.kept i hc]; exact he, hf⟩

/-- Freeing slots together with all that waits on them keeps the agenda in good order. -/
theorem Freed.ok {a b : Agenda} {C : SlotNo → Prop} (h : Freed a b C) (hcl : ∀ x y, C x → y ∈ Machine.dependents a x → C y)
    (ha : a.ok) : b.ok where
  armed i := by rw [h.armed, ha.armed, h.holds]
  waiting i := by rw [h.waiting, ha.waiting, h.holds]
  armedOnce := ha.armedOnce.sublist h.armedOrder
  waitingOnce := ha.waitingOnce.sublist h.waitingOrder
  live p := by
    rw [h.live, ha.live]
    have : {i | Holds b (fun e => e.owner = p) i} =
        {i | Holds a (fun e => e.owner = p) i} \ {i | C i ∧ Holds a (fun e => e.owner = p) i} := by
      ext i
      simp only [Set.mem_ofPred_eq, Set.mem_sdiff, h.holds]
      tauto
    rw [this, Set.ncard_sdiff]
    intro i hi; exact hi.2
  quotas := by rw [h.quota]; exact ha.quotas
  anchored i e due he hw := by
    have hc := h.live_not (i := i) (by rw [he]; rfl)
    rw [h.kept i hc] at he; exact ha.anchored i e due he hw
  anchorLive i e hd n he hw hn := by
    have hc := h.live_not (i := i) (by rw [he]; rfl)
    rw [h.kept i hc] at he
    have hl := ha.anchorLive i e hd n he hw hn
    have hcs : ¬C hd.slot := fun hcs =>
      hc (hcl _ _ hcs (mem_dependents_of_live hl ((ha.waiting i).2 ⟨e, he, hw⟩) he hn))
    simpa only [liveEntry, h.kept _ hcs] using hl
  anchorFirst := by
    refine (ha.anchorFirst.sublist h.waitingOrder).imp_of_mem ?_
    intro x y _ hy hxy hd
    exact hxy ((h.dependents_iff ((h.waiting y).1 hy).2).1 hd).1
  noSelf i hi := by
    have hc := ((h.waiting i).1 (mem_dependents.1 hi).1).2
    exact ha.noSelf i ((h.dependents_iff hc).1 hi).1

/-- What cancelling takes is closed under waiting. -/
theorem Falls.closed {a : Agenda} {target : SlotNo → Prop} {x y : SlotNo} (h : Falls a target x) (hy : y ∈ dependents a x) :
    Falls a target y := by
  obtain ⟨i, hi, hb⟩ := h; exact ⟨i, hi, hb.tail hy⟩

/-! ### Placing an entry in the armed list -/

/-- The dependents of every slot after one live entry was placed in the armed list: as before, without that entry. -/
theorem dependents_placeArmed {a : Agenda} (now : Tick) {i : SlotNo} {e0 e : Entry} (_h0 : (a.slots.get i).entry = some e0)
    (_hp : e.plan = e0.plan) {x y : SlotNo} :
    y ∈ dependents (placeArmed a now i e) x ↔ y ∈ dependents a x ∧ y ≠ i := by
  have hh : handleOf (placeArmed a now i e) x = handleOf a x := by
    unfold handleOf
    by_cases hx : x = i
    · subst hx; rw [placeArmed_get_self]
    · rw [placeArmed_get_ne a now hx]
  rw [mem_dependents, mem_dependents, hh, placeArmed_waiting, List.mem_filter, decide_eq_true_eq]
  by_cases hy : y = i
  · simp [hy]
  · rw [placeArmed_get_ne a now hy]; simp [hy]

/-- A live entry that is placed in the armed list with the owner and the plan it had keeps the agenda in good order. -/
theorem placeArmed_ok {a : Agenda} (now : Tick) {i : SlotNo} {e0 e : Entry} (h0 : (a.slots.get i).entry = some e0)
    (ho : e.owner = e0.owner) (hp : e.plan = e0.plan) (hs : e.state ≠ .waiting) (ha : a.ok) : (placeArmed a now i e).ok where
  armed j := by
    rw [mem_placeArmed_armed, ha.armed]
    by_cases hj : j = i
    · subst hj
      simp only [true_or, Holds, placeArmed_get_self, Option.some.injEq, exists_eq_left', true_iff]; exact hs
    · simp only [hj, false_or, Holds, placeArmed_get_ne a now hj]
  waiting j := by
    rw [placeArmed_waiting, List.mem_filter, decide_eq_true_eq, ha.waiting]
    by_cases hj : j = i
    · subst hj
      simp only [ne_eq, not_true_eq_false, and_false, Holds, placeArmed_get_self, Option.some.injEq, exists_eq_left',
        false_iff]; exact hs
    · simp only [ne_eq, hj, not_false_eq_true, and_true, Holds, placeArmed_get_ne a now hj]
  armedOnce := by
    rw [(placeArmed_armed_perm a now i e).nodup_iff, List.nodup_cons]
    exact ⟨by simp, ha.armedOnce.filter _⟩
  waitingOnce := by rw [placeArmed_waiting]; exact ha.waitingOnce.filter _
  live p := by
    rw [placeArmed_live, ha.live]
    congr 1
    ext j
    simp only [Set.mem_ofPred_eq]
    by_cases hj : j = i
    · subst hj
      simp only [Holds, placeArmed_get_self, h0, Option.some.injEq, exists_eq_left', ho]
    · simp only [Holds, placeArmed_get_ne a now hj]
  quotas := ha.quotas
  anchored j x due hx hw := by
    by_cases hj : j = i
    · subst hj; rw [placeArmed_get_self] at hx; cases hx; exact absurd hw hs
    · rw [placeArmed_get_ne a now hj] at hx; exact ha.anchored j x due hx hw
  anchorLive j x hd n hx hw hn := by
    by_cases hj : j = i
    · subst hj; rw [placeArmed_get_self] at hx; cases hx; exact absurd hw hs
    · rw [placeArmed_get_ne a now hj] at hx
      have hl := ha.anchorLive j x hd n hx hw hn
      by_cases hsl : hd.slot = i
      · obtain ⟨y, hy⟩ := Option.isSome_iff_exists.1 hl
        rw [liveEntry_some] at hy
        refine Option.isSome_iff_exists.2 ⟨e, liveEntry_some.2 ?_⟩
        rw [hsl, placeArmed_get_self]
        exact ⟨by rw [← hy.1, hsl], rfl⟩
      · simpa only [liveEntry, placeArmed_get_ne a now hsl] using hl
  anchorFirst := by
    rw [placeArmed_waiting]
    refine (ha.anchorFirst.filter _).imp ?_
    intro x y hxy hd
    exact hxy ((dependents_placeArmed now h0 hp).1 hd).1
  noSelf j hj := ha.noSelf j ((dependents_placeArmed now h0 hp).1 hj).1

/-- Arming live entries one after another keeps the agenda in good order. -/
theorem armAll_ok (now : Tick) : ∀ (js : List SlotNo) {a : Agenda}, a.ok → (js.foldl (armFromAnchor now) a).ok
  | [], _, ha => ha
  | j :: js, a, ha => by
    rw [List.foldl_cons]
    refine armAll_ok now js ?_
    cases h : (a.slots.get j).entry with
    | none => simpa only [armFromAnchor, h] using ha
    | some e =>
      rw [armFromAnchor_some h]
      exact placeArmed_ok now h rfl rfl (by simp) ha

/-- Arming one after another takes the armed out of every set of dependents. -/
theorem dependents_armAll (now : Tick) : ∀ (js : List SlotNo) {a : Agenda}, (∀ j ∈ js, (a.slots.get j).entry.isSome) →
    ∀ x y, y ∈ dependents (js.foldl (armFromAnchor now) a) x ↔ y ∈ dependents a x ∧ y ∉ js
  | [], _, _, _, _ => by simp
  | j :: js, a, hl, x, y => by
    obtain ⟨e, he⟩ := Option.isSome_iff_exists.1 (hl j (by simp))
    rw [List.foldl_cons, armFromAnchor_some he]
    generalize hz : ({ e with state := _ } : Entry) = z
    rw [dependents_armAll now js _ x y, dependents_placeArmed now he (by rw [← hz]), List.mem_cons, not_or, and_assoc]
    intro k hk
    by_cases hkj : k = j
    · subst hkj; rw [placeArmed_get_self]; rfl
    · rw [placeArmed_get_ne a now hkj]; exact hl k (by simp [hk])

/-! ### Completion and firing -/

/-- A completion arms all that waits on the entry and frees its slot: the agenda stays in good order. -/
theorem completed_ok (now : Tick) {a : Agenda} (i : SlotNo) (ha : a.ok) :
    (freeSlot ((dependents a i).foldl (armFromAnchor now) a) i).ok := by
  have hb := armAll_ok now (dependents a i) ha
  have hd : ∀ x y, y ∈ dependents ((dependents a i).foldl (armFromAnchor now) a) x ↔ y ∈ dependents a x ∧ y ∉ dependents a i :=
    dependents_armAll now (dependents a i) fun j hj => by
      obtain ⟨_, e, n, he, _⟩ := mem_dependents.1 hj; rw [he]; rfl
  cases h : (((dependents a i).foldl (armFromAnchor now) a).slots.get i).entry with
  | none => rw [freeSlot_none h]; exact hb
  | some e =>
    refine (freeSlot_freed (by rw [h]; rfl)).ok ?_ hb
    rintro x y rfl hy
    obtain ⟨h1, h2⟩ := (hd x y).1 hy
    exact absurd h1 h2

/-- A firing keeps the agenda in good order. -/
theorem fire_ok (now : Tick) (i : SlotNo) (w : Work) (ha : w.st.agenda.ok) : (fire now i w).st.agenda.ok := by
  unfold fire
  cases he : w.st.entry i with
  | none => exact ha
  | some e =>
    simp only
    cases hs : e.state with
    | waiting => exact ha
    | armed ph due start =>
      simp only
      have hput : ∀ e' : Entry, e'.owner = e.owner → e'.plan = e.plan → e'.state ≠ .waiting →
          (placeArmed w.st.agenda now i e').ok := fun e' h1 h2 h3 => placeArmed_ok now he h1 h2 h3 ha
      have hc : ∀ late, (completeEntry now i e late (applyLevel e.plan.output e.plan.action ph w)).st.agenda.ok := by
        intro late
        have := completed_ok now i ha
        unfold completeEntry
        cases e.plan.notify <;> exact this
      have hr : ∀ late, (endRun now i e late start (applyLevel e.plan.output e.plan.action ph w)).st.agenda.ok := by
        intro late
        unfold endRun
        cases e.plan.notify <;> exact hput _ rfl rfl (by simp)
      unfold advanceEntry
      split
      · exact hput _ rfl rfl (by simp)
      · split
        · exact hc _
        · exact hr _

theorem pass_ok (now : Tick) (w : Work) (ha : w.st.agenda.ok) : (pass now w).st.agenda.ok :=
  pass_induct (P := fun x => x.st.agenda.ok) now (fun _ _ h _ => fire_ok now _ _ h) w ha

/-! ### A new entry (R75) -/

/-- A new entry in a FREE slot keeps the agenda in good order: an ARMED one in the armed list, or a WAITING one, with an anchor that
is not stale, at the tail of the waiting list. -/
theorem newEntry_ok {a b : Agenda} {i : SlotNo} {e : Entry} (ha : a.ok) (hi : (a.slots.get i).entry = none)
    (hne : ∀ j, j ≠ i → b.slots.get j = a.slots.get j)
    (hself : b.slots.get i = { gen := (a.slots.get i).gen, entry := some e })
    (hlive : b.live = a.live.set e.owner (a.live.get e.owner + 1)) (hquota : b.quota = a.quota)
    (hlist : (e.state ≠ .waiting ∧ b.armed.Perm (i :: a.armed) ∧ b.waiting = a.waiting) ∨
      (e.state = .waiting ∧ b.armed = a.armed ∧ b.waiting = a.waiting ++ [i] ∧ (∀ due, e.plan.anchor ≠ .absolute due) ∧
        ∀ h n, e.plan.anchor = .entry h n → (liveEntry a h).isSome)) : b.ok := by
  have hiw : i ∉ a.waiting := fun h => by
    obtain ⟨x, hx, _⟩ := (ha.waiting i).1 h; rw [hi] at hx; cases hx
  have hia : i ∉ a.armed := fun h => by
    obtain ⟨x, hx, _⟩ := (ha.armed i).1 h; rw [hi] at hx; cases hx
  have hholds : ∀ (f : Entry → Prop) j, Holds b f j ↔ Holds a f j ∨ (j = i ∧ f e) := by
    intro f j
    by_cases hj : j = i
    · subst hj; simp [Holds, hself, hi]
    · simp [Holds, hne j hj, hj]
  have hh : ∀ x, handleOf b x = handleOf a x := fun x => by
    unfold handleOf
    by_cases hx : x = i
    · subst hx; rw [hself]
    · rw [hne x hx]
  have hslot : ∀ h : Handle, (liveEntry a h).isSome → h.slot ≠ i := by
    intro h hl hs
    obtain ⟨y, hy⟩ := Option.isSome_iff_exists.1 hl
    have := (liveEntry_some.1 hy).2
    rw [hs, hi] at this; cases this
  have hl : ∀ h : Handle, (liveEntry a h).isSome → (liveEntry b h).isSome := by
    intro h hx
    simpa only [liveEntry, hne _ (hslot h hx)] using hx
  have hwait : ∀ j, j ∈ b.waiting ↔ j ∈ a.waiting ∨ (j = i ∧ e.state = .waiting) := by
    intro j
    rcases hlist with ⟨h1, _, h3⟩ | ⟨h1, _, h3, _⟩
    · rw [h3]; simp [h1]
    · rw [h3]; simp [h1]
  -- the anchor of the new entry is live, so no new dependent is its own
  have hanchor : e.state = .waiting → ∀ h n, e.plan.anchor = .entry h n → (liveEntry a h).isSome := by
    intro hw
    rcases hlist with ⟨h1, _⟩ | ⟨_, _, _, _, h5⟩
    · exact absurd hw h1
    · exact h5
  have hold : ∀ x y, y ≠ i → y ∈ dependents b x → y ∈ dependents a x := by
    intro x y hy hd
    rw [mem_dependents, hh, hwait, hne y hy] at hd
    exact mem_dependents.2 ⟨hd.1.resolve_right fun h => hy h.1, hd.2⟩
  have hnone : ∀ y, y ∉ dependents b i := by
    intro y hd
    rw [mem_dependents, hh, hwait] at hd
    obtain ⟨hw, x, n, hx, hn⟩ := hd
    have hlv : (liveEntry a (handleOf a i)).isSome := by
      by_cases hy : y = i
      · subst hy; rw [hself] at hx; cases hx
        rcases hw with hw | ⟨_, hw⟩
        · exact absurd hw hiw
        · exact hanchor hw _ n hn
      · rw [hne y hy] at hx
        have hyw := hw.resolve_right fun h => hy h.1
        obtain ⟨x', hx', hs'⟩ := (ha.waiting y).1 hyw
        rw [hx] at hx'; cases hx'
        exact ha.anchorLive y x _ n hx hs' hn
    exact hslot _ hlv rfl
  refine ⟨?_, ?_, ?_, ?_, ?_, ?_, ?_, ?_, ?_, ?_⟩
  · intro j
    rw [hholds, ← ha.armed]
    rcases hlist with ⟨h1, h2, _⟩ | ⟨h1, h2, _⟩
    · rw [h2.mem_iff, List.mem_cons]; simp [h1, or_comm]
    · rw [h2]; simp [h1]
  · intro j; rw [hwait, hholds, ha.waiting]
  · rcases hlist with ⟨_, h2, _⟩ | ⟨_, h2, _⟩
    · rw [h2.nodup_iff]; exact List.nodup_cons.2 ⟨hia, ha.armedOnce⟩
    · rw [h2]; exact ha.armedOnce
  · rcases hlist with ⟨_, _, h3⟩ | ⟨_, _, h3, _⟩
    · rw [h3]; exact ha.waitingOnce
    · rw [h3, List.nodup_append]
      exact ⟨ha.waitingOnce, by simp, fun x hx y hy => by
        rw [List.mem_singleton] at hy; rw [hy]; rintro rfl; exact hiw hx⟩
  · intro q
    rw [hlive, PerPort.get_set]
    have hni : i ∉ {j | Holds a (fun e => e.owner = q) j} := by
      rintro ⟨x, hx, _⟩; rw [hi] at hx; cases hx
    by_cases hq : q = e.owner
    · rw [if_pos hq, ← hq, ha.live]
      have : {j | Holds b (fun e => e.owner = q) j} = insert i {j | Holds a (fun e => e.owner = q) j} := by
        ext j
        simp only [Set.mem_ofPred_eq, Set.mem_insert_iff, hholds, hq, and_true, or_comm]
      rw [this, Set.ncard_insert_of_notMem hni]
    · rw [if_neg hq, ha.live]
      congr 1
      ext j
      simp only [Set.mem_ofPred_eq, hholds, Ne.symm hq, and_false, or_false]
  · rw [hquota]; exact ha.quotas
  · intro j x due hx hw
    by_cases hj : j = i
    · subst hj; rw [hself] at hx; cases hx
      rcases hlist with ⟨h1, _⟩ | ⟨_, _, _, h4, _⟩
      · exact absurd hw h1
      · exact h4 due
    · rw [hne j hj] at hx; exact ha.anchored j x due hx hw
  · intro j x h n hx hw hn
    refine hl h ?_
    by_cases hj : j = i
    · subst hj; rw [hself] at hx; cases hx; exact hanchor hw h n hn
    · rw [hne j hj] at hx; exact ha.anchorLive j x h n hx hw hn
  · have hfirst : a.waiting.Pairwise fun x y => x ∉ dependents b y := by
      refine ha.anchorFirst.imp_of_mem ?_
      intro x y hx _ hxy hd
      exact hxy (hold y x (fun h => hiw (h ▸ hx)) hd)
    rcases hlist with ⟨_, _, h3⟩ | ⟨_, _, h3, _⟩
    · rw [h3]; exact hfirst
    · rw [h3, List.pairwise_append]
      refine ⟨hfirst, by simp, ?_⟩
      intro x _ y hy
      rw [List.mem_singleton] at hy; subst hy
      exact hnone x
  · intro j hd
    by_cases hj : j = i
    · exact hnone j (by rw [hj] at hd ⊢; exact hd)
    · exact ha.noSelf j (hold j j hj hd)

/-- An accepted entry keeps the agenda in good order. -/
theorem acceptEntry_ok (now : Tick) {p : Port} {d : Plan} {i : SlotNo} {a : Agenda} (ha : a.ok)
    (hi : (a.slots.get i).entry = none) (hs : anchorStale a d.anchor = false) : (acceptEntry now p d i a).ok := by
  have hiw : a.waiting.filter (· ≠ i) = a.waiting := by
    rw [List.filter_eq_self]; intro k hk; simp only [decide_eq_true_eq]; rintro rfl
    obtain ⟨x, hx, _⟩ := (ha.waiting k).1 hk; rw [hi] at hx; cases hx
  have hia : a.armed.filter (· ≠ i) = a.armed := by
    rw [List.filter_eq_self]; intro k hk; simp only [decide_eq_true_eq]; rintro rfl
    obtain ⟨x, hx, _⟩ := (ha.armed k).1 hk; rw [hi] at hx; cases hx
  have hwaits : ∀ d', d'.anchor = d.anchor → (∀ due, d'.anchor ≠ .absolute due) →
      ({ putEntry a i (newEntry p d') with
        live := a.live.set p (a.live.get p + 1), waiting := a.waiting ++ [i] } : Agenda).ok := by
    intro d' hd hx
    refine newEntry_ok ha hi (fun j hj => Table.get_set_ne _ hj _) (Table.get_set_self _ _ _) rfl rfl
      (.inr ⟨rfl, rfl, rfl, hx, ?_⟩)
    intro h n hn
    rw [← hd, show d'.anchor = _ from hn] at hs
    simpa [anchorStale] using hs
  cases hd : d.anchor with
  | absolute due =>
    simp only [acceptEntry, hd]
    refine newEntry_ok (e := { newEntry p d with state := .armed .first due due }) ha hi ?_ ?_ rfl rfl (.inl ⟨by simp, ?_, hiw⟩)
    · intro j hj
      rw [placeArmed_get_ne _ now hj]; exact Table.get_set_ne _ hj _
    · rw [placeArmed_get_self]
      show ({ gen := ((a.slots.set i _).get i).gen, entry := _ } : Slot) = _
      rw [Table.get_set_self]
    · refine (placeArmed_armed_perm _ now i _).trans ?_
      show (i :: a.armed.filter (· ≠ i)).Perm _
      rw [hia]
  | input l k n =>
    simp only [acceptEntry, hd]
    exact hwaits d rfl (fun due => by simp [hd])
  | entry h n =>
    simp only [acceptEntry, hd]
    exact hwaits d rfl (fun due => by simp [hd])

end Sys2Proof.Machine
end

