-- ==== Sys2Proof/Laws/Times.lean ====
section
/-! SUPPORT. Times by their position (R4 to R8). -/

namespace Sys2Proof.Machine

/-- The position of a time lies from -(2^39 - 1) to 2^39 (R4). -/
theorem position_bounds (now t : Tick) : -(2 ^ 39 - 1) ≤ position now t ∧ position now t ≤ 2 ^ 39 := by
  unfold position
  have := (t - now).isLt
  simp only
  split <;> constructor <;> omega

/-- A distance that is moved forward by `n` without passing the highest position is `n` greater. -/
theorem position_forward {now t : Tick} {n : Nat} (h : position now t + n ≤ 2 ^ 39) :
    position now (t + BitVec.ofNat 40 n) = position now t + n := by
  have hb := position_bounds now t
  unfold position at *
  have e : (t + BitVec.ofNat 40 n - now).toNat = ((t - now).toNat + n) % 2 ^ 40 := by
    have : t + BitVec.ofNat 40 n - now = (t - now) + BitVec.ofNat 40 n := by
      rw [BitVec.sub_eq_add_neg, BitVec.sub_eq_add_neg, BitVec.add_assoc, BitVec.add_comm (BitVec.ofNat 40 n), ← BitVec.add_assoc]
    rw [this, BitVec.toNat_add, BitVec.toNat_ofNat]
    omega
  have hlt := (t - now).isLt
  simp only [e] at *
  generalize (t - now).toNat = d at *
  split at h <;> split <;> omega

/-- The same for a 32-bit count. -/
theorem position_after {now t : Tick} (n : Count32) (h : position now t + n.toNat ≤ 2 ^ 39) :
    position now (t + n.setWidth 40) = position now t + n.toNat := by
  have : n.setWidth 40 = BitVec.ofNat 40 n.toNat := by
    apply BitVec.eq_of_toNat_eq
    simp only [BitVec.toNat_setWidth, BitVec.toNat_ofNat]
  rw [this]; exact position_forward h

@[simp] theorem position_self (now : Tick) : position now now = 0 := by
  simp [position]

/-- A count ahead of the present stands at that position (R7). -/
theorem position_now_after (now : Tick) (n : Count32) : position now (now + n.setWidth 40) = n.toNat := by
  rw [position_after n (by rw [position_self]; have := n.isLt; omega), position_self]; omega

theorem reached_iff (now t : Tick) : reached now t = true ↔ position now t ≤ 0 := by simp [reached]

theorem reached_false_iff (now t : Tick) : reached now t = false ↔ 0 < position now t := by simp [reached]

end Sys2Proof.Machine
end

