-- ==== Sys2Proof/Laws/Firing.lean ====
section
/-! SUPPORT. A firing pass ends: each firing moves one due forward or frees an entry, so a pass makes fewer firings than
`Config.passFirings` allows, and ends with no reached due at the head of the armed list (R82, R91; log entry 14). -/

namespace Sys2Proof.Machine

/-! ### What a firing does to each slot -/

/-- A firing leaves every other slot as it was, or arms the waiting entry in it from now. -/
def FiresOthers (now : Tick) (i : SlotNo) (a b : Agenda) : Prop :=
  ∀ j, j ≠ i → b.slots.get j = a.slots.get j ∨
    ∃ e, (a.slots.get j).entry = some e ∧ e.state = .waiting ∧ b.slots.get j =
      { gen := (a.slots.get j).gen
        entry := some { e with state := .armed .first (now + (offsetOf e.plan).setWidth 40)
                                          (now + (offsetOf e.plan).setWidth 40) } }

/-- The entry with its run ended and another to come (R86). -/
def runEnded (e : Entry) (start : Tick) : Entry :=
  { e with
    fired := satInc e.fired
    runs := Runs.lower e.runs
    state := .armed .first (after start (e.plan.period.getD 0)) (after start (e.plan.period.getD 0)) }

/-- What a firing makes of the entry that fires: its SECOND phase, its next run, or nothing. -/
theorem fire_slots {now : Tick} {i : SlotNo} {w : Work} {e : Entry} {ph : Phase} {due start : Tick}
    (ha : w.st.agenda.ok) (he : w.st.entry i = some e) (hs : e.state = .armed ph due start) :
    FiresOthers now i w.st.agenda (fire now i w).st.agenda ∧
    ((∃ width, e.plan.action = .pulse width ∧ ph = .first ∧ (fire now i w).st.agenda =
        placeArmed w.st.agenda now i { e with state := .armed .second (after start width) start }) ∨
     ((∀ width, e.plan.action = .pulse width → ph = .second) ∧ Runs.isLast e.runs = false ∧
        (fire now i w).st.agenda = placeArmed w.st.agenda now i (runEnded e start)) ∨
     ((∀ width, e.plan.action = .pulse width → ph = .second) ∧ Runs.isLast e.runs = true ∧
        (fire now i w).st.agenda =
          freeSlot ((dependents w.st.agenda i).foldl (armFromAnchor now) w.st.agenda) i)) := by
  have hplace : ∀ x, FiresOthers now i w.st.agenda (placeArmed w.st.agenda now i x) :=
    fun x j hj => .inl (placeArmed_get_ne _ now hj x)
  rw [fire_some he hs]
  by_cases hp : ∃ width, e.plan.action = .pulse width ∧ ph = .first
  · obtain ⟨width, h1, rfl⟩ := hp
    rw [advanceEntry_pulse h1]
    exact ⟨hplace _, .inl ⟨width, h1, rfl, rfl⟩⟩
  · have hend : ∀ width, e.plan.action = .pulse width → ph = .second := by
      intro width h1
      cases ph with
      | first => exact absurd ⟨width, h1, rfl⟩ hp
      | second => rfl
    rw [advanceEntry_end hend]
    by_cases hl : Runs.isLast e.runs = true
    · rw [if_pos hl]
      have hag : (completeEntry now i e (isLate now due) (applyLevel e.plan.output e.plan.action ph w)).st.agenda =
          freeSlot ((dependents w.st.agenda i).foldl (armFromAnchor now) w.st.agenda) i := by
        unfold completeEntry; cases e.plan.notify <;> rfl
      rw [hag]
      refine ⟨?_, .inr (.inr ⟨hend, hl, rfl⟩)⟩
      intro j hj
      rw [freeSlot_get_ne hj]
      have harm := armWaiting_arms (now := now) ha (js := dependents w.st.agenda i) List.filter_sublist
      by_cases hd : j ∈ dependents w.st.agenda i
      · obtain ⟨x, hx, hw⟩ := (ha.waiting j).1 (mem_dependents.1 hd).1
        exact .inr ⟨x, hx, hw, harm.moved j hd x hx⟩
      · exact .inl (harm.kept j hd)
    · rw [if_neg hl]
      have hl' : Runs.isLast e.runs = false := by simpa using hl
      have hag : (endRun now i e (isLate now due) start (applyLevel e.plan.output e.plan.action ph w)).st.agenda =
          placeArmed w.st.agenda now i (runEnded e start) := by
        unfold endRun runEnded; cases e.plan.notify <;> rfl
      rw [hag]
      exact ⟨hplace _, .inr (.inl ⟨hend, hl', rfl⟩)⟩

/-! ### Entries keep moving -/

/-- An entry armed from its anchor keeps moving. -/
theorem moves_armed {e : Entry} {t : Tick} (h : e.moves) : ({ e with state := .armed .first t t } : Entry).moves :=
  ⟨⟨h.1.width, h.1.period⟩, rfl⟩

theorem moves_runEnded {e : Entry} {start : Tick} (h : e.moves) (hl : Runs.isLast e.runs = false) : (runEnded e start).moves :=
  ⟨⟨h.1.width, fun _ => h.1.period hl⟩, rfl⟩

theorem moves_second {e : Entry} {start : Tick} {width : Count32} (h : e.moves) (ha : e.plan.action = .pulse width) :
    ({ e with state := .armed .second (after start width) start } : Entry).moves :=
  ⟨⟨h.1.width, h.1.period⟩, width, ha, rfl⟩

/-- A firing keeps every entry moving. -/
theorem fire_moves {now : Tick} {i : SlotNo} {w : Work} (ha : w.st.agenda.ok)
    (hm : ∀ j x, w.st.entry j = some x → x.moves) : ∀ j x, (fire now i w).st.entry j = some x → x.moves := by
  cases he : w.st.entry i with
  | none => unfold fire; rw [he]; exact hm
  | some e =>
    cases hs : e.state with
    | waiting => unfold fire; rw [he]; simp only [hs]; exact hm
    | armed ph due start =>
      obtain ⟨ho, hi⟩ := fire_slots (now := now) ha he hs
      have hme := hm i e he
      intro j x hx
      by_cases hj : j = i
      · subst hj
        rw [show (fire now j w).st.entry j = ((fire now j w).st.agenda.slots.get j).entry from rfl] at hx
        rcases hi with ⟨width, h1, _, h3⟩ | ⟨_, h2, h3⟩ | ⟨_, _, h3⟩
        · rw [h3, placeArmed_get_self] at hx; cases hx; exact moves_second hme h1
        · rw [h3, placeArmed_get_self] at hx; cases hx; exact moves_runEnded hme h2
        · rw [h3, freeSlot_entry_self] at hx; cases hx
      · rcases ho j hj with h | ⟨y, hy, _, h⟩
        · exact hm j x (by rw [← hx]; exact (congrArg Slot.entry h).symm)
        · have : (fire now i w).st.entry j = _ := congrArg Slot.entry h
          rw [this] at hx; cases hx
          exact moves_armed (hm j y hy)

/-! ### How much a pass has left to do -/

/-- What a slot can still fire at `now`: as many times as the reached due stands behind, and once for a waiting entry. -/
def toFire (now : Tick) (x : Slot) : Nat :=
  match x.entry with
  | none => 0
  | some e =>
    match e.state with
    | .waiting => 1
    | .armed _ due _ => (1 - position now due).toNat

theorem toFire_le (now : Tick) (x : Slot) : toFire now x ≤ 2 ^ 39 := by
  unfold toFire
  cases x.entry with
  | none => simp
  | some e =>
    simp only
    cases e.state with
    | waiting => norm_num
    | armed ph due start => simp only; have := (position_bounds now due).1; omega

/-- What an agenda can still fire. -/
def leftToFire (now : Tick) (a : Agenda) : Nat := ∑ i : SlotNo, toFire now (a.slots.get i)

theorem leftToFire_le (now : Tick) (a : Agenda) : leftToFire now a ≤ Config.passFirings := by
  unfold leftToFire
  refine (Finset.sum_le_card_nsmul Finset.univ _ (2 ^ 39) fun i _ => toFire_le now _).trans ?_
  simp [Config.passFirings]

theorem reachedHead_some {now : Tick} {a : Agenda} {i : SlotNo} : reachedHead now a = some i ↔
    a.armed.head? = some i ∧ ∃ due, dueOf a i = some due ∧ reached now due = true := by
  unfold reachedHead
  cases a.armed with
  | nil => simp
  | cons k ks =>
    simp only [List.head?_cons, Option.some.injEq]
    constructor
    · intro h
      cases hd : dueOf a k with
      | none => rw [hd] at h; cases h
      | some due =>
        rw [hd] at h; simp only at h
        split at h
        · next hr => cases h; exact ⟨rfl, due, hd, hr⟩
        · cases h
    · rintro ⟨rfl, due, hd, hr⟩
      simp only [hd, hr, if_true]

theorem dueOf_some {a : Agenda} {i : SlotNo} {due : Tick} :
    dueOf a i = some due ↔ ∃ e ph start, (a.slots.get i).entry = some e ∧ e.state = .armed ph due start := by
  unfold dueOf
  cases (a.slots.get i).entry with
  | none => simp
  | some e =>
    obtain ⟨owner, plan, runs, fired, state⟩ := e
    cases state with
    | waiting => simp
    | armed ph d st => simp [eq_comm]

/-- Adding a greater count of two moves a time forward by their difference. -/
theorem add_later (t : Tick) {w q : Count32} (h : w ≤ q) :
    t + q.setWidth 40 = (t + w.setWidth 40) + BitVec.ofNat 40 (q.toNat - w.toNat) := by
  have hle : w.toNat ≤ q.toNat := h
  have hq := q.isLt
  have ht := t.isLt
  apply BitVec.eq_of_toNat_eq
  simp only [BitVec.toNat_add, BitVec.toNat_setWidth, BitVec.toNat_ofNat]
  omega

theorem setWidth_eq_ofNat (q : Count32) : q.setWidth 40 = BitVec.ofNat 40 q.toNat := by
  apply BitVec.eq_of_toNat_eq
  simp only [BitVec.toNat_setWidth, BitVec.toNat_ofNat]

/-- A PULSE moves on by its width. -/
theorem pulse_forward {e : Entry} {width : Count32} {due start : Tick} (h : e.moves) (hs : e.state = .armed .first due start)
    (ha : e.plan.action = .pulse width) :
    ∃ n : Nat, 1 ≤ n ∧ n < 2 ^ 32 ∧ after start width = due + BitVec.ofNat 40 n := by
  have hp : due = start := by have := h.2; simpa only [Entry.placed, hs] using this
  refine ⟨width.toNat, ?_, width.isLt, ?_⟩
  · have hw := h.1.width width ha
    have : width.toNat ≠ 0 := fun h0 => hw (BitVec.eq_of_toNat_eq h0)
    omega
  · rw [hp, after, setWidth_eq_ofNat]

/-- The end of a run moves the entry on by its period, less the width already gone. -/
theorem run_forward {e : Entry} {ph : Phase} {due start : Tick} (h : e.moves) (hs : e.state = .armed ph due start)
    (hend : ∀ width, e.plan.action = .pulse width → ph = .second) (hl : Runs.isLast e.runs = false) :
    ∃ n : Nat, 1 ≤ n ∧ n < 2 ^ 32 ∧ after start (e.plan.period.getD 0) = due + BitVec.ofNat 40 n := by
  obtain ⟨q, hq, hq0, hwq⟩ := h.1.period hl
  have hqn : q.toNat ≠ 0 := fun h0 => hq0 (BitVec.eq_of_toNat_eq h0)
  rw [hq, Option.getD_some, after]
  have hp := h.2
  cases ph with
  | first =>
    have hp : due = start := by simpa only [Entry.placed, hs] using hp
    exact ⟨q.toNat, by omega, q.isLt, by rw [hp, setWidth_eq_ofNat]⟩
  | second =>
    have hp : ∃ w, e.plan.action = .pulse w ∧ due = start + w.setWidth 40 := by simpa only [Entry.placed, hs] using hp
    obtain ⟨w, hw, rfl⟩ := hp
    have hlt : w.toNat < q.toNat := hwq w hw
    have := q.isLt
    exact ⟨q.toNat - w.toNat, by omega, by omega, add_later start (by exact Nat.le_of_lt hlt)⟩

/-- A due that was reached and moved forward leaves less to fire. -/
theorem toFire_forward {now due : Tick} {n : Nat} (hr : position now due ≤ 0) (h1 : 1 ≤ n) (h2 : n < 2 ^ 32) :
    (1 - position now (due + BitVec.ofNat 40 n)).toNat < (1 - position now due).toNat := by
  rw [position_forward (by omega)]; omega

/-- Each firing of a reached due leaves less to fire. -/
theorem leftToFire_fire {now : Tick} {i : SlotNo} {w : Work} (ha : w.st.agenda.ok)
    (hm : ∀ j x, w.st.entry j = some x → x.moves) (hr : reachedHead now w.st.agenda = some i) :
    leftToFire now (fire now i w).st.agenda < leftToFire now w.st.agenda := by
  obtain ⟨_, due, hd, hreach⟩ := reachedHead_some.1 hr
  obtain ⟨e, ph, start, he, hs⟩ := dueOf_some.1 hd
  have hpos := (reached_iff now due).1 hreach
  obtain ⟨ho, hi⟩ := fire_slots (now := now) ha he hs
  have hme := hm i e he
  have hself : toFire now ((fire now i w).st.agenda.slots.get i) < toFire now (w.st.agenda.slots.get i) := by
    have hold : toFire now (w.st.agenda.slots.get i) = (1 - position now due).toNat := by simp only [toFire, he, hs]
    rw [hold]
    rcases hi with ⟨width, h1, rfl, h3⟩ | ⟨hend, h2, h3⟩ | ⟨_, _, h3⟩
    · obtain ⟨n, hn1, hn2, hn3⟩ := pulse_forward hme hs h1
      rw [h3, placeArmed_get_self]
      simp only [toFire, hn3]
      exact toFire_forward hpos hn1 hn2
    · obtain ⟨n, hn1, hn2, hn3⟩ := run_forward hme hs hend h2
      rw [h3, placeArmed_get_self]
      simp only [toFire, runEnded, hn3]
      exact toFire_forward hpos hn1 hn2
    · have : toFire now ((fire now i w).st.agenda.slots.get i) = 0 := by
        simp only [toFire, h3, freeSlot_entry_self]
      rw [this]; omega
  refine Finset.sum_lt_sum (fun j _ => ?_) ⟨i, Finset.mem_univ i, hself⟩
  by_cases hj : j = i
  · subst hj; exact hself.le
  · rcases ho j hj with h | ⟨x, hx, hw, h⟩
    · rw [h]
    · have hold : toFire now (w.st.agenda.slots.get j) = 1 := by simp only [toFire, hx, hw]
      rw [h, hold]
      simp only [toFire, position_now_after]
      omega

/-! ### A pass ends -/

/-- A pass with enough firings allowed ends with no reached due at the head, and would end so with more. -/
theorem passLoop_ends {now : Tick} (n : Nat) : ∀ w : Work, w.st.agenda.ok →
    (∀ j x, w.st.entry j = some x → x.moves) → leftToFire now w.st.agenda ≤ n →
    reachedHead now (passLoop n now w).st.agenda = none ∧ ∀ m, n ≤ m → passLoop m now w = passLoop n now w := by
  induction n with
  | zero =>
    intro w ha hm h
    have hn : reachedHead now w.st.agenda = none := by
      cases hr : reachedHead now w.st.agenda with
      | none => rfl
      | some i => have := leftToFire_fire ha hm hr; omega
    exact ⟨hn, fun m _ => passLoop_none hn m⟩
  | succ n ih =>
    intro w ha hm h
    cases hr : reachedHead now w.st.agenda with
    | none =>
      rw [passLoop_none hr]
      exact ⟨hr, fun m _ => passLoop_none hr m⟩
    | some i =>
      have hlt := leftToFire_fire ha hm hr
      obtain ⟨h1, h2⟩ := ih (fire now i w) (fire_ok now i w ha) (fire_moves ha hm) (by omega)
      have e : ∀ k, passLoop (k + 1) now w = passLoop k now (fire now i w) := fun k => by simp only [passLoop, hr]
      rw [e]
      refine ⟨h1, fun m hm' => ?_⟩
      obtain ⟨k, rfl⟩ : ∃ k, m = k + 1 := ⟨m - 1, by omega⟩
      rw [e]; exact h2 k (by omega)

/-- A firing pass ends with no reached due at the head of the armed list. -/
theorem pass_ends {now : Tick} {w : Work} (ha : w.st.agenda.ok) (hm : ∀ j x, w.st.entry j = some x → x.moves) :
    reachedHead now (pass now w).st.agenda = none :=
  (passLoop_ends _ w ha hm (leftToFire_le now _)).1

/-- A pass fires the head, if its due is reached, and goes on. -/
theorem pass_step {now : Tick} {w : Work} {i : SlotNo} (ha : w.st.agenda.ok) (hm : ∀ j x, w.st.entry j = some x → x.moves)
    (hr : reachedHead now w.st.agenda = some i) : pass now w = pass now (fire now i w) := by
  have hlt := leftToFire_fire ha hm hr
  have hle := leftToFire_le now w.st.agenda
  obtain ⟨k, hk⟩ : ∃ k, Config.passFirings = k + 1 := ⟨Config.passFirings - 1, by omega⟩
  have h := (passLoop_ends (now := now) k (fire now i w) (fire_ok now i w ha) (fire_moves ha hm) (by omega)).2 (k + 1) (by omega)
  unfold pass
  rw [hk, h]
  simp only [passLoop, hr]

theorem pass_moves {now : Tick} {w : Work} (ha : w.st.agenda.ok) (hm : ∀ j x, w.st.entry j = some x → x.moves) :
    ∀ j x, (pass now w).st.entry j = some x → x.moves :=
  (pass_induct (P := fun v => v.st.agenda.ok ∧ ∀ j x, v.st.entry j = some x → x.moves) now
    (fun _ _ h _ => ⟨fire_ok now _ _ h.1, fire_moves h.1 h.2⟩) w ⟨ha, hm⟩).2

/-! ### The due order is kept -/

theorem freeSlot_sorted {now : Tick} {a : Agenda} (i : SlotNo) (h : ArmedSorted now a) : ArmedSorted now (freeSlot a i) := by
  cases he : (a.slots.get i).entry with
  | none => rw [freeSlot_none he]; exact h
  | some e =>
    have harm : (freeSlot a i).armed = a.armed.filter (· ≠ i) := by rw [freeSlot_some he]
    unfold ArmedSorted
    rw [harm]
    refine List.Pairwise.imp_of_mem ?_ (List.Pairwise.filter _ h)
    intro x y hx hy hxy
    have hx' : x ≠ i := by simpa using (List.mem_filter.1 hx).2
    have hy' : y ≠ i := by simpa using (List.mem_filter.1 hy).2
    rwa [slotPosition_congr (freeSlot_get_ne hx'), slotPosition_congr (freeSlot_get_ne hy')]

theorem Freed.sorted {now : Tick} {a b : Agenda} {C : SlotNo → Prop} (h : Freed a b C) (hs : ArmedSorted now a) :
    ArmedSorted now b := by
  refine (hs.sublist h.armedOrder).imp_of_mem ?_
  intro x y hx hy hxy
  rwa [slotPosition_congr (h.kept x ((h.armed x).1 hx).2), slotPosition_congr (h.kept y ((h.armed y).1 hy).2)]

theorem armAll_sorted {now : Tick} : ∀ (js : List SlotNo) {a : Agenda}, ArmedSorted now a →
    ArmedSorted now (js.foldl (armFromAnchor now) a)
  | [], _, h => h
  | j :: js, a, h => by
    rw [List.foldl_cons]
    refine armAll_sorted js ?_
    cases he : (a.slots.get j).entry with
    | none => simpa only [armFromAnchor, he] using h
    | some e => rw [armFromAnchor_some he]; exact placeArmed_sorted _ _ h

/-- A firing keeps the due order. -/
theorem fire_sorted {now : Tick} (i : SlotNo) {w : Work} (ha : w.st.agenda.ok) (h : ArmedSorted now w.st.agenda) :
    ArmedSorted now (fire now i w).st.agenda := by
  cases he : w.st.entry i with
  | none => unfold fire; rw [he]; exact h
  | some e =>
    cases hs : e.state with
    | waiting => unfold fire; rw [he]; simp only [hs]; exact h
    | armed ph due start =>
      rcases (fire_slots (now := now) ha he hs).2 with ⟨_, _, _, h3⟩ | ⟨_, _, h3⟩ | ⟨_, _, h3⟩
      · rw [h3]; exact placeArmed_sorted _ _ h
      · rw [h3]; exact placeArmed_sorted _ _ h
      · rw [h3]; exact freeSlot_sorted _ (armAll_sorted _ h)

theorem pass_sorted {now : Tick} {w : Work} (ha : w.st.agenda.ok) (h : ArmedSorted now w.st.agenda) :
    ArmedSorted now (pass now w).st.agenda :=
  (pass_induct (P := fun v => v.st.agenda.ok ∧ ArmedSorted now v.st.agenda) now
    (fun _ _ h _ => ⟨fire_ok now _ _ h.1, fire_sorted _ h.1 h.2⟩) w ⟨ha, h⟩).2

/-- In due order, with no reached due at the head, no due in the list is reached. -/
theorem none_reached {now : Tick} {a : Agenda} (ha : a.ok) (hs : ArmedSorted now a) (hn : reachedHead now a = none)
    {i : SlotNo} {due : Tick} (hi : i ∈ a.armed) (hd : dueOf a i = some due) : reached now due = false := by
  rw [reached_false_iff]
  have hpos : slotPosition a now i = position now due := by simp only [slotPosition, hd]
  rw [← hpos]
  cases hl : a.armed with
  | nil => rw [hl] at hi; cases hi
  | cons k ks =>
    obtain ⟨e, ph, dk, st, he, hst⟩ := ha.armed_live (i := k) (by rw [hl]; simp)
    have hdk : dueOf a k = some dk := dueOf_some.2 ⟨e, ph, st, he, hst⟩
    have hk : 0 < slotPosition a now k := by
      by_contra hc
      have hr : reached now dk = true := by
        rw [reached_iff]; simp only [slotPosition, hdk] at hc; omega
      have := reachedHead_some.2 ⟨by rw [hl]; rfl, dk, hdk, hr⟩
      rw [hn] at this; cases this
    unfold ArmedSorted at hs
    rw [hl] at hi hs
    rcases List.mem_cons.1 hi with rfl | hi
    · exact hk
    · have := (List.pairwise_cons.1 hs).1 i hi; omega

end Sys2Proof.Machine
end

