-- ==== Sys2Proof/Laws/Ticks.lean ====
section
/-! SUPPORT. What a tick does: the events that are taken before the rollover keep the time and the lines, and leave nothing published;
with nothing to be taken they change nothing. -/

namespace Sys2Proof.Machine

/-! ### What the events before a rollover leave alone -/

/-- The time, the lines, the role and the reset pin are the same in `s` and `t`. -/
structure SameTick (s t : State) : Prop where
  pending : t.pending = s.pending
  resetLow : t.resetLow = s.resetLow
  supervisor : t.supervisor = s.supervisor
  timebase : t.timebase = s.timebase
  lines : t.lines = s.lines

theorem SameTick.refl (s : State) : SameTick s s := ⟨rfl, rfl, rfl, rfl, rfl⟩

theorem SameTick.trans {s t u : State} (h : SameTick s t) (k : SameTick t u) : SameTick s u :=
  ⟨k.1.trans h.1, k.2.trans h.2, k.3.trans h.3, k.4.trans h.4, k.5.trans h.5⟩

theorem SameTick.now {s t : State} (h : SameTick s t) : t.now = s.now := by simp only [State.now, h.timebase]

theorem SharedOnly.sameTick {s t : State} (h : SharedOnly s t) : SameTick s t :=
  ⟨h.pending, h.resetLow, h.supervisor, h.timebase, h.lines⟩

theorem SameTick.foldl {α : Type} {f : State → α → State} (h : ∀ s a, SameTick s (f s a)) :
    ∀ (l : List α) (s : State), SameTick s (l.foldl f s)
  | [], s => SameTick.refl s
  | a :: l, s => (h s a).trans (SameTick.foldl h l (f s a))

theorem finishWork_sameTick (w : Work) : SameTick w.st (finishWork w) := ⟨rfl, rfl, rfl, rfl, rfl⟩

theorem setPublished_sameTick (s : State) (x : Published) : SameTick s (s.setPublished x) := ⟨rfl, rfl, rfl, rfl, rfl⟩

/-- An event on outputs, agenda and groups keeps the tick, whatever it sends. -/
theorem runEvent_sameTick {f : Work → Work} (h : ∀ w, SharedOnly w.st (f w).st) (s : State) : SameTick s (runEvent f s) :=
  (h (startWork s)).sameTick.trans (finishWork_sameTick _)

theorem runEvent_published {f : Work → Work} (h : ∀ w, SharedOnly w.st (f w).st) (s : State) :
    (runEvent f s).published = s.published := (h (startWork s)).published

theorem queueEdge_sameTick (p : Port) (e : Edge) (s : State) : SameTick s (queueEdge p e s) := by
  unfold queueEdge; split
  · exact ⟨rfl, rfl, rfl, rfl, rfl⟩
  · exact SameTick.refl s

theorem edgeAtAgendaEvent_shared (e : Edge) (w : Work) : SharedOnly w.st (edgeAtAgendaEvent e w).st := by
  simp only [edgeAtAgendaEvent]
  split
  · exact onAgenda_shared _ _
  · exact (onAgenda_shared _ _).trans (pass_shared _ _)

theorem agendaEdge_sameTick (e : Edge) (s : State) : SameTick s (agendaEdge e s) := by
  unfold agendaEdge; split
  · exact (setPublished_sameTick s _).trans (runEvent_sameTick (edgeAtAgendaEvent_shared e) _)
  · exact SameTick.refl s

theorem causeFrom_shared (g : Group) (t : Tick) (edge : Option Edge) (f : Source → Bool) (w : Work) :
    SharedOnly w.st (causeFrom g t edge f w).st := by
  unfold causeFrom; split
  · exact takeCause_shared _ _ _ _
  · exact SharedOnly.refl _

theorem groupEdge_sameTick (g : Group) (e : Edge) (s : State) : SameTick s (groupEdge g e s) := by
  unfold groupEdge; split
  · exact (setPublished_sameTick s _).trans (runEvent_sameTick (causeFrom_shared _ _ _ _) _)
  · exact SameTick.refl s

theorem groupSettling_sameTick (g : Group) (l : Line) (s : State) : SameTick s (groupSettling g l s) := by
  unfold groupSettling; split
  · exact (setPublished_sameTick s _).trans (runEvent_sameTick (causeFrom_shared _ _ _ _) _)
  · exact SameTick.refl s

theorem duePass_sameTick (s : State) : SameTick s (duePass s) :=
  runEvent_sameTick (pass_shared s.now) s

theorem releaseExpiryEvent_shared (g : Group) (w : Work) : SharedOnly w.st (releaseExpiryEvent g w).st := by
  simp only [releaseExpiryEvent]
  split
  · split
    · split
      · exact onGroup_shared _ _ _
      · exact onGroup_shared _ _ _
    · exact SharedOnly.refl _
  · exact SharedOnly.refl _

theorem releaseExpiry_sameTick (g : Group) (s : State) : SameTick s (releaseExpiry g s) :=
  runEvent_sameTick (releaseExpiryEvent_shared g) s

theorem lapseAt_sameTick (p : Port) (s : State) : SameTick s (lapseAt p s) := ⟨rfl, rfl, rfl, rfl, rfl⟩

theorem takeOutstanding_sameTick (s : State) : SameTick s (takeOutstanding s) := by
  unfold takeOutstanding takeLapses takeExpiries takeSettling takeGroupEdges takeAgendaEdges takeQueueEdges
  refine SameTick.trans ?_ (SameTick.foldl (fun s p => lapseAt_sameTick p s) _ _)
  refine SameTick.trans ?_ (SameTick.foldl (fun s g => releaseExpiry_sameTick g s) _ _)
  refine SameTick.trans ?_ (duePass_sameTick _)
  refine SameTick.trans ?_ (SameTick.foldl (fun s g => SameTick.foldl (fun s c => groupSettling_sameTick g _ s) _ s) _ _)
  refine SameTick.trans ?_ (SameTick.foldl (fun s g => SameTick.foldl (fun s e => groupEdge_sameTick g e s) _ s) _ _)
  refine SameTick.trans ?_ (SameTick.foldl (fun s e => agendaEdge_sameTick e s) _ _)
  exact SameTick.foldl (fun s p => SameTick.foldl (fun s e => queueEdge_sameTick p e s) _ s) _ _

/-! ### What the events before a rollover leave published -/

theorem queueEdge_published (p : Port) (e : Edge) (s : State) : (queueEdge p e s).published =
    { s.published with queues := s.published.queues.set p ((s.published.queues.get p).erase e) } := by
  unfold queueEdge; split
  · rfl
  · next h => rw [List.erase_of_not_mem h, PerPort.set_get]

theorem agendaEdge_published (e : Edge) (s : State) : (agendaEdge e s).published =
    { s.published with agenda := s.published.agenda.erase e } := by
  unfold agendaEdge; split
  · exact runEvent_published (edgeAtAgendaEvent_shared e) _
  · next h => rw [List.erase_of_not_mem h]

theorem groupEdge_published (g : Group) (e : Edge) (s : State) : (groupEdge g e s).published =
    { s.published with groups := s.published.groups.set g ((s.published.groups.get g).erase e) } := by
  unfold groupEdge; split
  · exact runEvent_published (causeFrom_shared _ _ _ _) _
  · next h => rw [List.erase_of_not_mem h, PerGroup.set_get]

/-- The first settling change of a line leaves the list. -/
theorem groupSettling_published (g : Group) (l : Line) (s : State) : (groupSettling g l s).published =
    { s.published with
      settling := s.published.settling.set g ((s.published.settling.get g).eraseP fun x => x.line == l) } := by
  unfold groupSettling; split
  · next x h =>
    have he : (s.published.settling.get g).erase x = (s.published.settling.get g).eraseP fun x => x.line == l := by
      generalize s.published.settling.get g = xs at h
      induction xs with
      | nil => cases h
      | cons y ys ih =>
        by_cases hy : (y.line == l) = true
        · rw [List.find?_cons_of_pos (by exact hy)] at h; cases h
          rw [List.erase_cons_head, List.eraseP_cons_of_pos (by exact hy)]
        · rw [List.find?_cons_of_neg (by exact hy)] at h
          have hne : y ≠ x := by rintro rfl; exact hy (by simpa using List.find?_some h)
          rw [List.erase_cons_tail (by simpa using hne), List.eraseP_cons_of_neg (by exact hy), ih h]
    rw [← he]
    exact runEvent_published (causeFrom_shared _ _ _ _) _
  · next h =>
    rw [List.eraseP_of_forall_not (by simpa using h), PerGroup.set_get]

/-- Erasing the members of a list one after another from the list leaves nothing. -/
theorem foldl_erase_self {α : Type} [DecidableEq α] : ∀ (l m : List α), m.Perm l → l.foldl (fun x e => x.erase e) m = []
  | [], m, h => by simpa using h
  | a :: l, m, h => by
    rw [List.foldl_cons]
    exact foldl_erase_self l (m.erase a) (by simpa using h.erase a)

theorem foldl_eraseP_line : ∀ (l : List Settling) (m : List Settling), (m.map Settling.line).Perm (l.map Settling.line) →
    l.foldl (fun x c => x.eraseP fun y => y.line == c.line) m = []
  | [], m, h => by simpa using h
  | a :: l, m, h => by
    rw [List.foldl_cons]
    refine foldl_eraseP_line l _ ?_
    have he : (m.eraseP fun y => y.line == a.line).map Settling.line = (m.map Settling.line).erase a.line := by
      clear h
      induction m with
      | nil => rfl
      | cons y ys ih =>
        by_cases hy : y.line = a.line
        · rw [List.eraseP_cons_of_pos (by simpa using hy), List.map_cons, hy, List.erase_cons_head]
        · rw [List.eraseP_cons_of_neg (by simpa using hy), List.map_cons, List.map_cons,
            List.erase_cons_tail (by simpa using hy), ih]
    rw [he]
    simpa using h.erase a.line

theorem takeOutstanding_published (s : State) : (takeOutstanding s).published = Published.reset := by
  have hl : ∀ (l : List Port) (x : State), (l.foldl (fun x p => lapseAt p x) x).published = x.published := by
    intro l; induction l with
    | nil => intro x; rfl
    | cons p l ih => intro x; rw [List.foldl_cons, ih]; rfl
  have hr : ∀ (l : List Group) (x : State), (l.foldl (fun x g => releaseExpiry g x) x).published = x.published := by
    intro l; induction l with
    | nil => intro x; rfl
    | cons g l ih => intro x; rw [List.foldl_cons, ih]; exact runEvent_published (releaseExpiryEvent_shared g) x
  have hd : ∀ x : State, (duePass x).published = x.published := fun x => runEvent_published (pass_shared x.now) x
  have hq : ∀ (p : Port) (l : List Edge) (x : State), (l.foldl (fun y e => queueEdge p e y) x).published =
      { x.published with
        queues := x.published.queues.set p (l.foldl (fun m e => m.erase e) (x.published.queues.get p)) } := by
    intro p l; induction l with
    | nil => intro x; simp
    | cons e l ih => intro x; rw [List.foldl_cons, ih, queueEdge_published]; simp
  have hg : ∀ (g : Group) (l : List Edge) (x : State), (l.foldl (fun y e => groupEdge g e y) x).published =
      { x.published with
        groups := x.published.groups.set g (l.foldl (fun m e => m.erase e) (x.published.groups.get g)) } := by
    intro g l; induction l with
    | nil => intro x; simp
    | cons e l ih => intro x; rw [List.foldl_cons, ih, groupEdge_published]; simp
  have hs : ∀ (g : Group) (l : List Settling) (x : State), (l.foldl (fun y c => groupSettling g c.line y) x).published =
      { x.published with
        settling := x.published.settling.set g
          (l.foldl (fun m c => m.eraseP fun y => y.line == c.line) (x.published.settling.get g)) } := by
    intro g l; induction l with
    | nil => intro x; simp
    | cons c l ih => intro x; rw [List.foldl_cons, ih, groupSettling_published]; simp
  have ha : ∀ (l : List Edge) (x : State), (l.foldl (fun y e => agendaEdge e y) x).published =
      { x.published with agenda := l.foldl (fun m e => m.erase e) x.published.agenda } := by
    intro l; induction l with
    | nil => intro x; rfl
    | cons e l ih => intro x; rw [List.foldl_cons, ih, agendaEdge_published]; rfl
  have h1 : ∀ x : State, (takeQueueEdges x).published = { x.published with queues := .fill [] } := by
    intro x
    simp only [takeQueueEdges, Port.all, List.foldl_cons, List.foldl_nil, hq, foldl_erase_self _ _ (List.Perm.refl _)]
    congr 1
  have h2 : ∀ x : State, (takeAgendaEdges x).published = { x.published with agenda := [] } := by
    intro x
    simp only [takeAgendaEdges, ha, foldl_erase_self _ _ (List.Perm.refl _)]
  have h3 : ∀ x : State, (takeGroupEdges x).published = { x.published with groups := .fill [] } := by
    intro x
    simp only [takeGroupEdges, Group.all, List.foldl_cons, List.foldl_nil, hg, foldl_erase_self _ _ (List.Perm.refl _)]
    congr 1
  have h4 : ∀ x : State, (takeSettling x).published = { x.published with settling := .fill [] } := by
    intro x
    simp only [takeSettling, Group.all, List.foldl_cons, List.foldl_nil, hs, foldl_eraseP_line _ _ (List.Perm.refl _)]
    congr 1
  simp only [takeOutstanding, takeLapses, takeExpiries, hl, hr, hd, h4, h3, h2, h1, Published.reset]

/-- With nothing to be taken, nothing is taken. -/
theorem takeOutstanding_settled {s : State} (h : Settled s) : takeOutstanding s = s := by
  have hp : s.published = Published.reset := h.published
  have h1 : takeQueueEdges s = s := by
    simp only [takeQueueEdges, Port.all, List.foldl_cons, List.foldl_nil, hp, Published.reset, PerPort.get_fill]
  have h2 : takeAgendaEdges s = s := by simp only [takeAgendaEdges, hp, Published.reset, List.foldl_nil]
  have h3 : takeGroupEdges s = s := by
    simp only [takeGroupEdges, Group.all, List.foldl_cons, List.foldl_nil, hp, Published.reset, PerGroup.get_fill]
  have h4 : takeSettling s = s := by
    simp only [takeSettling, Group.all, List.foldl_cons, List.foldl_nil, hp, Published.reset, PerGroup.get_fill]
  have h5 : duePass s = s := by
    simp only [duePass, runEvent]
    rw [pass_none (by exact h.due), finishWork_startWork]
  have h6 : ∀ g, releaseExpiry g s = s := by
    intro g
    have : releaseExpiryEvent g (startWork s) = startWork s := by
      simp only [releaseExpiryEvent, startWork_st]
      split
      · next t hs hd => exact if_neg (by rw [h.release g t hs hd]; exact Bool.false_ne_true)
      · rfl
    simp only [releaseExpiry, runEvent, this, finishWork_startWork]
  have h7 : ∀ p, lapseAt p s = s := by
    intro p
    have : expireLapse s.now (s.port p) = s.port p := by
      unfold expireLapse
      rw [if_neg]
      rintro ⟨_, hd⟩
      rw [h.lapse p] at hd; cases hd
    simp only [lapseAt, onPort, this, State.setPort_same]
  simp only [takeOutstanding, h1, h2, h3, h4, h5, takeExpiries, takeLapses, Group.all, Port.all, List.foldl_cons,
    List.foldl_nil, h6, h7]

/-! ### The rollover -/

/-- A tick that is taken, at the divide value: the rollover after what was still to be taken. -/
theorem exec_tick {s : State} (h : s.resetLow = false) (hd : s.timebase.divide ≤ s.timebase.count) (samples : BitVec 16) :
    exec (.tick samples) s = .next (rollover samples (takeOutstanding s)) := by
  have : ¬s.timebase.count < s.timebase.divide := BitVec.not_lt.2 hd
  simp only [exec, execTick, tickAll, h, Bool.false_eq_true, this, or_self, if_false]

/-- Below the divide value there is no tick (log entries 3, 5). -/
theorem exec_tick_below {s : State} (hd : s.timebase.count < s.timebase.divide) (samples : BitVec 16) :
    exec (.tick samples) s = .next s := by
  simp only [exec, execTick, tickAll, hd, or_true, if_true]

@[simp] theorem rollover_pending (samples : BitVec 16) (s : State) : (rollover samples s).pending = s.pending := rfl
@[simp] theorem rollover_resetLow (samples : BitVec 16) (s : State) : (rollover samples s).resetLow = s.resetLow := rfl
@[simp] theorem rollover_supervisor (samples : BitVec 16) (s : State) : (rollover samples s).supervisor = s.supervisor := rfl
@[simp] theorem rollover_outputs (samples : BitVec 16) (s : State) : (rollover samples s).outputs = s.outputs := rfl
@[simp] theorem rollover_agenda (samples : BitVec 16) (s : State) : (rollover samples s).agenda = s.agenda := rfl
@[simp] theorem rollover_groups (samples : BitVec 16) (s : State) : (rollover samples s).groups = s.groups := rfl
@[simp] theorem rollover_queues (samples : BitVec 16) (s : State) : (rollover samples s).queues = s.queues := rfl
@[simp] theorem rollover_transit (samples : BitVec 16) (s : State) : (rollover samples s).transit = s.transit := rfl
@[simp] theorem rollover_ports (samples : BitVec 16) (s : State) : (rollover samples s).ports = s.ports := rfl
@[simp] theorem rollover_port (samples : BitVec 16) (s : State) (p : Port) : (rollover samples s).port p = s.port p := rfl
@[simp] theorem rollover_queue (samples : BitVec 16) (s : State) (p : Port) : (rollover samples s).queue p = s.queue p := rfl
@[simp] theorem rollover_output (samples : BitVec 16) (s : State) (o : Output) : (rollover samples s).output o = s.output o := rfl
@[simp] theorem rollover_group (samples : BitVec 16) (s : State) (g : Group) : (rollover samples s).group g = s.group g := rfl
@[simp] theorem rollover_entry (samples : BitVec 16) (s : State) (i : SlotNo) : (rollover samples s).entry i = s.entry i := rfl

theorem rollover_timebase (samples : BitVec 16) (s : State) :
    (rollover samples (takeOutstanding s)).timebase = rollTimebase s.timebase := by
  simp only [rollover, (takeOutstanding_sameTick s).timebase]

theorem rollover_lines (samples : BitVec 16) (s : State) :
    (rollover samples (takeOutstanding s)).lines = stepLines samples s.lines := by
  simp only [rollover, (takeOutstanding_sameTick s).lines]

theorem rollover_published (samples : BitVec 16) (s : State) : (rollover samples (takeOutstanding s)).published =
    { queues := .fill (newEdges samples (s.now + 1) s.lines), agenda := newEdges samples (s.now + 1) s.lines
      groups := .fill (newEdges samples (s.now + 1) s.lines), settling := .fill (newSettling samples (s.now + 1) s.lines) } := by
  simp only [rollover, (takeOutstanding_sameTick s).lines, (takeOutstanding_sameTick s).timebase,
    takeOutstanding_published, publish, Published.reset, PerPort.get_fill, PerGroup.get_fill, List.nil_append]
  rfl

end Sys2Proof.Machine
end

