-- ==== Sys2Proof/Laws/Commands.lean ====
section
/-! SUPPORT. What every command leaves alone: the queue of commands, the reset pin and the supervisor role, and for each block's part of
a request the parts of the state that it does not reach. -/

namespace Sys2Proof.Machine

/-! ### A request, whatever it asks -/

/-- What holds of the state before a request and of the state that its block and its answer leave holds after it. -/
theorem takeRequest_induct {P : State → Prop} {p : Port} {r : Request} {f : Work → Work × Answer} {s : State} (h0 : P s)
    (h : ∀ x, InFlight s p x r → P (onPort p (putAnswer (f (startWork s)).2) (finishWork (f (startWork s)).1))) :
    P (takeRequest p r f s) := by
  unfold takeRequest
  split
  · next hw => obtain ⟨x, hx⟩ := awaits_iff.1 hw; exact h x hx
  · exact h0

/-- A part of the state that neither the answer nor the sending of records reaches is what the block leaves. -/
theorem takeRequest_part {α : Type} {φ : State → α} (h1 : ∀ s t, φ (s.setTransit t) = φ s)
    (h2 : ∀ s p c, φ (s.setPort p c) = φ s) {p : Port} {r : Request} {f : Work → Work × Answer} {s : State}
    (h : φ (f (startWork s)).1.st = φ s) : φ (takeRequest p r f s) = φ s :=
  takeRequest_induct (P := fun t => φ t = φ s) rfl fun _ _ => (h2 _ _ _).trans ((h1 _ _).trans h)

/-! ### The queue of commands, the reset pin and the role -/

/-- What no block writes: the queue of commands, the reset pin and the supervisor role. -/
def roleOf (s : State) : List Instr × Bool × Port := (s.pending, s.resetLow, s.supervisor)

theorem SameTick.role {s t : State} (h : SameTick s t) : roleOf t = roleOf s := by
  simp only [roleOf, h.pending, h.resetLow, h.supervisor]

theorem takeRequest_role {p : Port} {r : Request} {f : Work → Work × Answer} {s : State}
    (h : roleOf (f (startWork s)).1.st = roleOf s) : roleOf (takeRequest p r f s) = roleOf s :=
  takeRequest_part (fun _ _ => rfl) (fun _ _ _ => rfl) h

/-- A request on outputs, agenda and groups. -/
theorem takeRequest_shared_role {p : Port} {r : Request} {f : Work → Work × Answer} {s : State}
    (h : ∀ w, SharedOnly w.st (f w).1.st) : roleOf (takeRequest p r f s) = roleOf s :=
  takeRequest_role (h (startWork s)).sameTick.role

/-! ### Each block's part of a request that reaches outputs, agenda and groups alone -/

theorem claimAt_shared (p : Port) (o : Output) (wait : Bool) (w : Work) : SharedOnly w.st (claimAt p o wait w).1.st :=
  SharedOnly.setOutput _ _ _

theorem withdrawAt_shared (p : Port) (o : Output) (w : Work) : SharedOnly w.st (withdrawAt p o w).1.st := by
  simp only [withdrawAt]; split
  · exact SharedOnly.setOutput _ _ _
  · exact SharedOnly.refl _

theorem cancelOwned_shared (r : Option Reason) (muted : Option Port) (now : Tick) (o : Output) (p : Port) (w : Work) :
    SharedOnly w.st (cancelOwned r muted now o p w).1.st := cancelTargets_shared _ _ _ _ _

theorem handOn_shared (now : Tick) (o : Output) (w : Work) : SharedOnly w.st (handOn now o w).st := by
  rw [handOn_st]; exact SharedOnly.setOutput _ _ _

theorem releaseAt_shared (p : Port) (o : Output) (w : Work) : SharedOnly w.st (releaseAt p o w).1.st := by
  simp only [releaseAt]; split
  · exact (cancelOwned_shared _ _ _ _ _ _).trans (handOn_shared _ _ _)
  · exact SharedOnly.refl _

theorem writeOutputAt_shared (p : Port) (o : Output) (l : Bool) (w : Work) : SharedOnly w.st (writeOutputAt p o l w).1.st := by
  simp only [writeOutputAt]; repeat' split
  · exact SharedOnly.refl _
  · exact SharedOnly.refl _
  · exact SharedOnly.setOutput _ _ _

theorem reclaimAt_shared (p : Port) (o : Output) (w : Work) : SharedOnly w.st (reclaimAt p o w).1.st := by
  simp only [reclaimAt]; repeat' split
  · exact SharedOnly.setOutput _ _ _
  · exact SharedOnly.refl _
  · exact (cancelOwned_shared _ _ _ _ _ _).trans (SharedOnly.setOutput _ _ _)

theorem setSafeAt_shared (o : Output) (safe : Bool) (g : Option Group) (w : Work) :
    SharedOnly w.st (setSafeAt o safe g w).1.st := by
  simp only [setSafeAt]; split
  · exact SharedOnly.setOutput _ _ _
  · exact SharedOnly.refl _

theorem submitAt_shared (p : Port) (d : Plan) (w : Work) : SharedOnly w.st (submitAt p d w).1.st := by
  simp only [submitAt]; split
  · exact SharedOnly.refl _
  · exact SharedOnly.refl _
  · dsimp only; split
    · exact (onAgenda_shared _ _).trans (pass_shared _ _)
    · exact onAgenda_shared _ _

theorem queryAt_st (h : Handle) (w : Work) : (queryAt h w).1 = w := by
  simp only [queryAt]; split <;> rfl

theorem setQuotaAt_shared (q : Port) (n : Byte) (w : Work) : SharedOnly w.st (setQuotaAt q n w).1.st := by
  simp only [setQuotaAt]; split
  · exact SharedOnly.refl _
  · exact onAgenda_shared _ _

theorem cancelTree_shared (r : Option Reason) (muted : Option Port) (now : Tick) (i : SlotNo) (w : Work) :
    SharedOnly w.st (cancelTree r muted now i w).st := by
  rw [cancelTree_st]; exact SharedOnly.setAgenda _ _

theorem groupAnswer_st (x : Status) (g : Group) (w : Work) : (groupAnswer x g w).1 = w := rfl

theorem tripAt_shared (p : Port) (g : Group) (w : Work) : SharedOnly w.st (tripAt p g w).1.st := takeCause_shared _ _ _ _

theorem enterNormal_shared (now : Tick) (g : Group) (w : Work) : SharedOnly w.st (enterNormal now g w).st := by
  rw [enterNormal_st]; exact SharedOnly.setGroup _ _ _

theorem acknowledge_shared (p : Port) (g : Group) (w : Work) : SharedOnly w.st (acknowledge p g w).st := by
  simp only [acknowledge]; split
  · exact (onState_shared (onGroup_shared _ _) _).trans (enterNormal_shared _ _ _)
  · exact onState_shared (onGroup_shared _ _) _

theorem ackTripAt_shared (p : Port) (g : Group) (w : Work) : SharedOnly w.st (ackTripAt p g w).1.st := by
  simp only [ackTripAt]; repeat' split
  · exact SharedOnly.refl _
  · exact acknowledge_shared _ _ _
  · exact SharedOnly.refl _

theorem clearTripAt_shared (g : Group) (force : Bool) (w : Work) : SharedOnly w.st (clearTripAt g force w).1.st := by
  simp only [clearTripAt]; repeat' split
  all_goals first
    | exact SharedOnly.refl _
    | exact enterNormal_shared _ _ _
    | exact onState_shared (onGroup_shared _ _) _

theorem setTripSourceAt_shared (g : Group) (i : Place) (src : Option Source) (w : Work) :
    SharedOnly w.st (setTripSourceAt g i src w).1.st := by
  simp only [setTripSourceAt]; split
  · exact (onState_shared (onGroup_shared _ _) _).trans (takeCause_shared _ _ _ _)
  · exact onState_shared (onGroup_shared _ _) _

theorem setReleaseWindowAt_shared (g : Group) (n : Count32) (w : Work) :
    SharedOnly w.st (setReleaseWindowAt g n w).1.st := onState_shared (onGroup_shared _ _) _

theorem endAtOutput_shared (p : Port) (o : Output) (w : Work) : SharedOnly w.st (endAtOutput p o w).st := by
  simp only [endAtOutput]; split
  · exact (cancelOwned_shared _ _ _ _ _ _).trans (handOn_shared _ _ _)
  · exact onState_shared (onOutput_shared _ _) _

theorem endAtAgenda_shared (p : Port) (w : Work) : SharedOnly w.st (endAtAgenda p w).st := cancelTargets_shared _ _ _ _ _

theorem endAtGroup_shared (p : Port) (g : Group) (w : Work) : SharedOnly w.st (endAtGroup p g w).st := by
  simp only [endAtGroup]; split
  · exact (onState_shared (onGroup_shared _ _) _).trans (enterNormal_shared _ _ _)
  · exact onState_shared (onGroup_shared _ _) _

theorem cancelAt_shared (p : Port) (h : Handle) (w : Work) : SharedOnly w.st (cancelAt p h w).1.st := by
  simp only [cancelAt]; repeat' split
  · exact SharedOnly.refl _
  · exact cancelTree_shared _ _ _ _ _
  · exact SharedOnly.refl _

/-! ### The events on outputs, agenda and groups -/

/-- The events that reach outputs, agenda and groups alone, at state `s`. Two are not among them: an edge at the agenda also takes
the edge from what is published, and SUBMIT brings a plan that the acceptance checks have judged. -/
inductive SharedEvent (s : State) : (Work → Work) → Prop
  | claim (p o wait) : SharedEvent s fun w => (claimAt p o wait w).1
  | withdraw (p o) : SharedEvent s fun w => (withdrawAt p o w).1
  | release (p o) : SharedEvent s fun w => (releaseAt p o w).1
  | writeOutput (p o level) : SharedEvent s fun w => (writeOutputAt p o level w).1
  | reclaim (p o) : SharedEvent s fun w => (reclaimAt p o w).1
  | setSafe (o safe g) : SharedEvent s fun w => (setSafeAt o safe g w).1
  | setQuota (q n) : SharedEvent s fun w => (setQuotaAt q n w).1
  | cancel (p h) : SharedEvent s fun w => (cancelAt p h w).1
  | trip (p g) : SharedEvent s fun w => (tripAt p g w).1
  | ackTrip (p g) : SharedEvent s fun w => (ackTripAt p g w).1
  | clearTrip (g force) : SharedEvent s fun w => (clearTripAt g force w).1
  | setTripSource (g i src) : SharedEvent s fun w => (setTripSourceAt g i src w).1
  | setReleaseWindow (g n) : SharedEvent s fun w => (setReleaseWindowAt g n w).1
  | outputEnd (p o) : SharedEvent s (endAtOutput p o)
  | agendaEnd (p) : SharedEvent s (endAtAgenda p)
  | groupEnd (p g) : SharedEvent s (endAtGroup p g)
  | due : SharedEvent s (pass s.now)
  | cause (g t edge f) : SharedEvent s (causeFrom g t edge f)
  | expiry (g) : SharedEvent s (releaseExpiryEvent g)

theorem SharedEvent.shared {s : State} {f : Work → Work} (h : SharedEvent s f) (w : Work) : SharedOnly w.st (f w).st := by
  cases h with
  | claim => exact claimAt_shared _ _ _ _
  | withdraw => exact withdrawAt_shared _ _ _
  | release => exact releaseAt_shared _ _ _
  | writeOutput => exact writeOutputAt_shared _ _ _ _
  | reclaim => exact reclaimAt_shared _ _ _
  | setSafe => exact setSafeAt_shared _ _ _ _
  | setQuota => exact setQuotaAt_shared _ _ _
  | cancel => exact cancelAt_shared _ _ _
  | trip => exact tripAt_shared _ _ _
  | ackTrip => exact ackTripAt_shared _ _ _
  | clearTrip => exact clearTripAt_shared _ _ _
  | setTripSource => exact setTripSourceAt_shared _ _ _ _
  | setReleaseWindow => exact setReleaseWindowAt_shared _ _ _
  | outputEnd => exact endAtOutput_shared _ _ _
  | agendaEnd => exact endAtAgenda_shared _ _
  | groupEnd => exact endAtGroup_shared _ _ _
  | due => exact pass_shared _ _
  | cause => exact causeFrom_shared _ _ _ _ _
  | expiry => exact releaseExpiryEvent_shared _ _

/-- What an event may leave of a queue. -/
inductive QueueStep (q : Queue) : Queue → Prop
  | arrive (m) : QueueStep q (arrive q m)
  | edge (e) : QueueStep q (edgeAtQueueEvent e q)
  | subscribe (l e one) : QueueStep q { q with row := q.row.set l (cellOf e one) }
  | fetch (n : Nat) : QueueStep q { q with records := q.records.drop n, lost := 0 }
  | setting (m n) : QueueStep q { q with mode := m, threshold := n }
  | accept : QueueStep q { q with intake := .accepting }
  | sessionEnd (kind now) : QueueStep q (endAtQueue kind now q)

/-! ### A property that every event keeps -/

/-- A property of the state that looks at neither ports nor records on their way, and that every event keeps. -/
structure Kept (P : State → Prop) : Prop where
  port : ∀ s p c, P s → P (s.setPort p c)
  queue : ∀ s p q, QueueStep (s.queue p) q → P s → P (s.setQueue p q)
  transit : ∀ s t, P s → P (s.setTransit t)
  published : ∀ s x, (∀ e ∈ x.agenda, e ∈ s.published.agenda) → P s → P (s.setPublished x)
  event : ∀ s f, SharedEvent s f → P s → P (f (startWork s)).st
  edge : ∀ s e, P s → P (agendaEdge e s)

theorem Kept.run {P : State → Prop} (k : Kept P) {s : State} {f : Work → Work} (hf : SharedEvent s f) (h : P s) :
    P (runEvent f s) := k.transit _ _ (k.event s f hf h)

theorem Kept.foldl {α : Type} {P : State → Prop} {f : State → α → State} (h : ∀ s a, P s → P (f s a)) :
    ∀ (l : List α) (s : State), P s → P (l.foldl f s)
  | [], _, hs => hs
  | a :: l, s, hs => Kept.foldl h l _ (h s a hs)

theorem Kept.queueEdge {P : State → Prop} (k : Kept P) (p : Port) (e : Edge) {s : State} (h : P s) :
    P (queueEdge p e s) := by
  unfold Machine.queueEdge; split
  · exact k.queue _ _ _ (.edge e) (k.published _ _ (fun _ h => h) h)
  · exact h

theorem Kept.groupEdge {P : State → Prop} (k : Kept P) (g : Group) (e : Edge) {s : State} (h : P s) :
    P (groupEdge g e s) := by
  unfold Machine.groupEdge; split
  · exact k.run (.cause _ _ _ _) (k.published _ _ (fun _ h => h) h)
  · exact h

theorem Kept.groupSettling {P : State → Prop} (k : Kept P) (g : Group) (l : Line) {s : State} (h : P s) :
    P (groupSettling g l s) := by
  unfold Machine.groupSettling; split
  · exact k.run (.cause _ _ _ _) (k.published _ _ (fun _ h => h) h)
  · exact h

/-- What every event keeps is kept by all that is taken before a rollover. -/
theorem Kept.takeOutstanding {P : State → Prop} (k : Kept P) {s : State} (h : P s) : P (takeOutstanding s) := by
  unfold Machine.takeOutstanding takeLapses takeExpiries takeSettling takeGroupEdges takeAgendaEdges takeQueueEdges
  refine Kept.foldl (fun s p hs => k.port _ _ _ hs) _ _ ?_
  refine Kept.foldl (fun s g hs => k.run (.expiry g) hs) _ _ ?_
  refine k.run .due ?_
  refine Kept.foldl (fun s g hs => Kept.foldl (fun s c hs => k.groupSettling g _ hs) _ _ hs) _ _ ?_
  refine Kept.foldl (fun s g hs => Kept.foldl (fun s e hs => k.groupEdge g e hs) _ _ hs) _ _ ?_
  refine Kept.foldl (fun s e hs => k.edge _ e hs) _ _ ?_
  exact Kept.foldl (fun s p hs => Kept.foldl (fun s e hs => k.queueEdge p e hs) _ _ hs) _ _ h

theorem Kept.takeRequest {P : State → Prop} (k : Kept P) {p : Port} {r : Request} {f : Work → Work × Answer} {s : State}
    (h : P s) (hf : ∀ x, InFlight s p x r → P (f (startWork s)).1.st) : P (takeRequest p r f s) :=
  takeRequest_induct h fun x hx => k.port _ _ _ (k.transit _ _ (hf x hx))

theorem Kept.request {P : State → Prop} (k : Kept P) {p : Port} {r : Request} {f : Work → Work × Answer} {s : State}
    (h : P s) (hf : ∀ x, InFlight s p x r → SharedEvent s fun w => (f w).1) : P (Machine.takeRequest p r f s) :=
  k.takeRequest h fun x hx => k.event s _ (hf x hx) h

/-- What every event keeps, every command keeps, where the four commands that reach the time, the lines or the reset pin keep
it. -/
theorem Kept.exec {P : State → Prop} (k : Kept P) {s t : State} {c : Instr} (h : P s) (hx : exec c s = .next t)
    (hreset : c = .deviceReset → P (heldInReset s))
    (hrelease : ∀ a b, c = .deviceResetRelease a b → P (releaseReset a b s))
    (htick : ∀ samples, s.resetLow = false → P (Machine.takeOutstanding s) → P (rollover samples (Machine.takeOutstanding s)))
    (htime : ∀ t : Timebase, t.tick = s.now → (s.timebase.ok → t.ok) → P (s.setTimebase t))
    (hlines : ∀ ls n, P (s.setLines (writeFilters ls n s.lines)))
    (hsubmit : ∀ p d f, InFlight s p f (.submit d) → P (submitAt p d (startWork s)).1.st) : P t := by
  cases c <;> simp only [Machine.exec] at hx
  case deviceReset => cases hx; exact hreset rfl
  case deviceResetRelease a b => cases hx; exact hrelease a b rfl
  case tick samples =>
    cases hx; unfold tickAll; split
    · exact h
    · next hl => exact htick samples (by simpa using (not_or.1 hl).1) (k.takeOutstanding h)
  case edgeAtQueue => cases hx; exact k.queueEdge _ _ h
  case edgeAtAgenda => cases hx; exact k.edge _ _ h
  case edgeAtTripGroup => cases hx; exact k.groupEdge _ _ h
  case settlingChange => cases hx; exact k.groupSettling _ _ h
  case dueReached => cases hx; exact k.run .due h
  case releaseDeadlineReached => cases hx; exact k.run (.expiry _) h
  case lapseExpiry => cases hx; exact k.port _ _ _ h
  case portReset =>
    cases hx; unfold portResetAt; repeat' split
    · exact h
    · exact k.port _ _ _ h
    · exact k.port _ _ _ h
  case portResetRelease => cases hx; exact k.port _ _ _ h
  case transactionBegin =>
    cases hx; unfold beginTransaction; split
    · exact h
    · exact k.port _ _ _ h
  case transactionEnd => cases hx; exact k.port _ _ _ h
  case requestCompletion => cases hx; exact k.port _ _ _ h
  case sessionEndAtOutput =>
    cases hx; unfold sessionEndOutput; repeat' split
    · exact h
    · exact k.port _ _ _ (k.run (.outputEnd _ _) h)
    · exact h
  case sessionEndAtAgenda =>
    cases hx; unfold sessionEndAgenda; repeat' split
    · exact h
    · exact k.port _ _ _ (k.run (.agendaEnd _) h)
    · exact h
  case sessionEndAtTripGroup =>
    cases hx; unfold sessionEndGroup; repeat' split
    · exact h
    · exact k.port _ _ _ (k.run (.groupEnd _ _) h)
    · exact h
  case sessionEndAtQueue =>
    cases hx; unfold sessionEndQueue; repeat' split
    · exact h
    · exact k.port _ _ _ (k.queue _ _ _ (.sessionEnd _ _) h)
    · exact h
  case sessionEndFinish =>
    cases hx; unfold sessionEndFinish; repeat' split
    · exact h
    · exact k.port _ _ _ h
    · exact h
  case recordArrival q n =>
    cases hx
    obtain he | ⟨_, _, _, _, he⟩ := recordArrives_cases q n s <;> rw [he]
    · exact h
    · exact k.queue _ _ _ (.arrive _) (k.transit _ _ h)
  case prescalerAdvance =>
    cases hx; split
    · exact h
    · refine htime _ ?_ ?_
      · unfold advancePrescaler; split <;> rfl
      · intro hk; unfold advancePrescaler; split
        · next hl =>
          have : s.timebase.count.toNat < s.timebase.divide.toNat := hl
          have h2 : s.timebase.divide.toNat < 256 := s.timebase.divide.isLt
          have h1 : (1 : Byte).toNat = 1 := rfl
          show (s.timebase.count + 1).toNat ≤ s.timebase.divide.toNat
          rw [BitVec.toNat_add, h1]; omega
        · exact hk
  case openSession =>
    cases hx; refine k.takeRequest h fun _ _ => k.port _ _ _ (k.queue _ _ _ .accept ?_)
    unfold dropStaleEdges; split
    · exact k.published _ _ (fun _ h => h) h
    · exact h
  case closeSession =>
    cases hx; split
    · exact k.port _ _ _ h
    · exact h
  case ping => cases hx; exact k.takeRequest h fun _ _ => h
  case status => cases hx; exact k.takeRequest h fun _ _ => h
  case setLapse => cases hx; exact k.takeRequest h fun _ _ => k.port _ _ _ h
  case readTime => cases hx; exact k.takeRequest h fun _ _ => h
  case setDivide => cases hx; exact k.takeRequest h fun _ _ => htime _ rfl id
  case readInputs => cases hx; exact k.takeRequest h fun _ _ => h
  case setFilter => cases hx; exact k.takeRequest h fun _ _ => hlines _ _
  case claim => cases hx; exact k.request h fun _ _ => .claim _ _ _
  case withdraw => cases hx; exact k.request h fun _ _ => .withdraw _ _
  case release => cases hx; exact k.request h fun _ _ => .release _ _
  case writeOutput => cases hx; exact k.request h fun _ _ => .writeOutput _ _ _
  case reclaim => cases hx; exact k.request h fun _ _ => .reclaim _ _
  case setSafe => cases hx; exact k.request h fun _ _ => .setSafe _ _ _
  case readOutputs => cases hx; exact k.takeRequest h fun _ _ => h
  case submit => cases hx; exact k.takeRequest h fun x hf => hsubmit _ _ x hf
  case query => cases hx; exact k.takeRequest h fun _ _ => by rw [queryAt_st]; exact h
  case list => cases hx; exact k.takeRequest h fun _ _ => h
  case setQuota => cases hx; exact k.request h fun _ _ => .setQuota _ _
  case cancel => cases hx; exact k.request h fun _ _ => .cancel _ _
  case trip => cases hx; exact k.request h fun _ _ => .trip _ _
  case ackTrip => cases hx; exact k.request h fun _ _ => .ackTrip _ _
  case clearTrip => cases hx; exact k.request h fun _ _ => .clearTrip _ _
  case setTripSource => cases hx; exact k.request h fun _ _ => .setTripSource _ _ _
  case setReleaseWindow => cases hx; exact k.request h fun _ _ => .setReleaseWindow _ _
  case subscribe => cases hx; exact k.takeRequest h fun _ _ => k.queue _ _ _ (.subscribe _ _ _) h
  case fetch => cases hx; exact k.takeRequest h fun _ _ => k.queue _ _ _ (.fetch _) h
  case setQueue => cases hx; exact k.takeRequest h fun _ _ => k.queue _ _ _ (.setting _ _) h

end Sys2Proof.Machine
end

