-- ==== Sys2Proof/Laws/Entries.lean ====
section
/-! SUPPORT. Where the live entries of an agenda can come from: every event but SUBMIT leaves only entries that stood before, with
the owner and the plan they had; and what SUBMIT can do. -/

namespace Sys2Proof.Machine

/-- Every live entry of `b` stood in its slot in `a`, with the same owner and plan, and if every live entry of `a` is listed, every one
of `b` is. -/
structure Thinner (a b : Agenda) : Prop where
  listed : Listed a → Listed b
  stood : ∀ i e, (b.slots.get i).entry = some e → ∃ x, (a.slots.get i).entry = some x ∧ e.owner = x.owner ∧ e.plan = x.plan

theorem Thinner.refl (a : Agenda) : Thinner a a := ⟨id, fun _ e h => ⟨e, h, rfl, rfl⟩⟩

theorem Thinner.trans {a b c : Agenda} (h : Thinner a b) (k : Thinner b c) : Thinner a c :=
  ⟨fun x => k.listed (h.listed x), fun i e he => by
    obtain ⟨x, hx, h1, h2⟩ := k.stood i e he
    obtain ⟨y, hy, h3, h4⟩ := h.stood i x hx
    exact ⟨y, hy, h1.trans h3, h2.trans h4⟩⟩

theorem Freed.thinner {a b : Agenda} {C : SlotNo → Prop} (h : Freed a b C) : Thinner a b :=
  ⟨h.listed, fun i e he => by
    have hc := h.live_not (i := i) (by rw [he]; rfl)
    rw [h.kept i hc] at he; exact ⟨e, he, rfl, rfl⟩⟩

theorem freeSlot_thinner (a : Agenda) (i : SlotNo) : Thinner a (freeSlot a i) := by
  cases h : (a.slots.get i).entry with
  | none => rw [freeSlot_none h]; exact .refl a
  | some e => exact (freeSlot_freed (by rw [h]; rfl)).thinner

theorem placeArmed_thinner {a : Agenda} {now : Tick} {i : SlotNo} {e0 e : Entry} (h0 : (a.slots.get i).entry = some e0)
    (ho : e.owner = e0.owner) (hp : e.plan = e0.plan) : Thinner a (placeArmed a now i e) := by
  refine ⟨fun hl j hj => ?_, fun j x hx => ?_⟩
  · rw [mem_placeArmed_armed, placeArmed_waiting, List.mem_filter, decide_eq_true_eq]
    by_cases h : j = i
    · exact .inl (.inl h)
    · rw [placeArmed_get_ne _ _ h] at hj
      rcases hl j hj with h1 | h1
      · exact .inl (.inr h1)
      · exact .inr ⟨h1, h⟩
  · by_cases h : j = i
    · subst h; rw [placeArmed_get_self] at hx; cases hx; exact ⟨e0, h0, ho, hp⟩
    · rw [placeArmed_get_ne _ _ h] at hx; exact ⟨x, hx, rfl, rfl⟩

theorem armAll_thinner (now : Tick) : ∀ (js : List SlotNo) (a : Agenda), Thinner a (js.foldl (armFromAnchor now) a)
  | [], a => .refl a
  | j :: js, a => by
    refine Thinner.trans ?_ (armAll_thinner now js _)
    unfold armFromAnchor
    cases h : (a.slots.get j).entry with
    | none => exact .refl a
    | some e => exact placeArmed_thinner h rfl rfl

/-- A firing thins the agenda. -/
theorem fire_thinner (now : Tick) (i : SlotNo) (w : Work) : Thinner w.st.agenda (fire now i w).st.agenda := by
  unfold fire
  cases he : w.st.entry i with
  | none => exact .refl _
  | some e =>
    simp only
    cases e.state with
    | waiting => exact .refl _
    | armed ph due start =>
      have he' : (w.st.agenda.slots.get i).entry = some e := he
      simp only
      unfold advanceEntry
      split
      · exact placeArmed_thinner he' rfl rfl
      · split
        · unfold completeEntry
          cases e.plan.notify <;> exact (armAll_thinner now _ _).trans (freeSlot_thinner _ _)
        · unfold endRun
          cases e.plan.notify <;> exact placeArmed_thinner he' rfl rfl

/-- Cancelling the entries with property `f` thins the agenda. -/
theorem cancelTargets_thinner (r : Option Reason) (m : Option Port) (n : Tick) (f : Entry → Bool) (w : Work) :
    Thinner w.st.agenda (cancelTargets r m n (agendaOrder w.st.agenda f) w).1.st.agenda :=
  (cancelTargets_spec (target := fun i => i ∈ agendaOrder w.st.agenda f) (reason := r) (muted := m) (now := n) (w := w)
    (l := agendaOrder w.st.agenda f) (fun _ => Iff.rfl) fun i hi => by
      rw [mem_agendaOrder] at hi; obtain ⟨_, e, he, _⟩ := hi; rw [he]; rfl).1.thinner

/-- Where every live entry is listed, cancelling the entries with property `f` leaves none with it. -/
theorem cancelTargets_gone (r : Option Reason) (m : Option Port) (n : Tick) (f : Entry → Bool) (w : Work)
    (hl : Listed w.st.agenda) (i : SlotNo) (e : Entry)
    (he : ((cancelTargets r m n (agendaOrder w.st.agenda f) w).1.st.agenda.slots.get i).entry = some e) : f e = false := by
  have h := (cancelTargets_spec (target := fun i => i ∈ agendaOrder w.st.agenda f) (reason := r) (muted := m) (now := n) (w := w)
    (l := agendaOrder w.st.agenda f) (fun _ => Iff.rfl) fun i hi => by
      rw [mem_agendaOrder] at hi; obtain ⟨_, e, he, _⟩ := hi; rw [he]; rfl).1
  have hc := h.live_not (i := i) (by rw [he]; rfl)
  rw [h.kept i hc] at he
  by_contra hf
  exact hc ⟨i, (agendaOrder_targets hl f i).2 ⟨e, he, by simpa using hf⟩, .refl⟩

/-- What SUBMIT can do: nothing, or, where the caller owns the output, the output is not forced and the anchor is not stale, a new
entry in a FREE slot, with a pass after it if its due is reached (R73, R75). -/
theorem submitAt_cases (p : Port) (d : Plan) (w : Work) : (submitAt p d w).1 = w ∨
    ∃ i, (w.st.agenda.slots.get i).entry = none ∧ anchorStale w.st.agenda d.anchor = false ∧
      (w.st.output d.output).owner = some p ∧ forced w.st d.output = false ∧
      (submitAt p d w).1 =
        if dueAtOnce w.st.now d.anchor then pass w.st.now (onAgenda (acceptEntry w.st.now p d i) w)
        else onAgenda (acceptEntry w.st.now p d i) w := by
  unfold submitAt
  simp only
  split
  · exact .inl rfl
  · exact .inl rfl
  · next i hr hf =>
    refine .inr ⟨i, by simpa using List.find?_some hf, ?_, ?_, ?_, rfl⟩
    all_goals
      unfold submitRefusal at hr
      split at hr
      · cases hr
      · split at hr
        · cases hr
        · split at hr
          · cases hr
          · simp_all

end Sys2Proof.Machine
end

