-- ==== Sys2Proof/Laws/Order.lean ====
section
/-! SUPPORT. What every event keeps of the agenda: a property of the agenda that a cancellation, a firing pass and a change of the
quotas keep is kept by every event on outputs, agenda and groups. -/

namespace Sys2Proof.Machine

/-- A property of the agenda that the operations on it keep at `now`. -/
structure AgendaKept (now : Tick) (Q : Agenda → Prop) : Prop where
  freed : ∀ a b T, Freed a b (Falls a T) → Q a → Q b
  quota : ∀ (a : Agenda) q, q.a + q.b + q.c ≤ 96 → Q a → Q { a with quota := q }
  pass : ∀ w : Work, Q w.st.agenda → Q (Machine.pass now w).st.agenda
  arm : ∀ (js : List SlotNo) (a : Agenda), Q a → Q (js.foldl (armFromAnchor now) a)

theorem AgendaKept.targets {now : Tick} {Q : Agenda → Prop} (k : AgendaKept now Q) (r : Option Reason) (m : Option Port)
    (n : Tick) (f : Entry → Bool) (w : Work) (h : Q w.st.agenda) :
    Q (cancelTargets r m n (agendaOrder w.st.agenda f) w).1.st.agenda := by
  have := cancelTargets_spec (target := fun i => i ∈ agendaOrder w.st.agenda f) (reason := r) (muted := m) (now := n) (w := w)
    (l := agendaOrder w.st.agenda f) (fun _ => Iff.rfl) (fun i hi => by
      rw [mem_agendaOrder] at hi; obtain ⟨_, e, he, _⟩ := hi; rw [he]; rfl)
  exact k.freed _ _ _ this.1 h

/-- What the operations on the agenda keep, every event on outputs, agenda and groups keeps. -/
theorem AgendaKept.event {s : State} {Q : Agenda → Prop} (k : AgendaKept s.now Q) {f : Work → Work} (hf : SharedEvent s f)
    (h : Q s.agenda) : Q (f (startWork s)).st.agenda := by
  have hcause : ∀ g c edge (w : Work), Q w.st.agenda → Q (takeCause g c edge w).st.agenda := by
    intro g c edge w hw
    unfold takeCause
    cases (w.st.group g).state
    · show Q (tripEvent g c edge w).st.agenda
      rw [tripEvent_st]
      show Q (tripCancelled g c w).1.st.agenda
      unfold tripCancelled
      exact k.targets (some .tripped) none c.tick (fun e => isMember w.st.outputs g e.plan.output) { w with st := trippedState g c w.st } hw
    · show Q (furtherCause g c w).st.agenda
      rw [furtherCause_st]; exact hw
    · show Q (furtherCause g c w).st.agenda
      rw [furtherCause_st]; exact hw
  have hnorm : ∀ n g (w : Work), Q w.st.agenda → Q (enterNormal n g w).st.agenda := by
    intro n g w hw; rw [enterNormal_st]; exact hw
  have hown : ∀ r m n o p (w : Work), Q w.st.agenda → Q (cancelOwned r m n o p w).1.st.agenda := by
    intro r m n o p w hw; exact k.targets r m n _ w hw
  cases hf with
  | claim p o wait => exact h
  | withdraw p o =>
    show Q (withdrawAt p o (startWork s)).1.st.agenda
    unfold withdrawAt; simp only; split <;> exact h
  | release p o =>
    show Q (releaseAt p o (startWork s)).1.st.agenda
    unfold releaseAt; simp only; split
    · show Q (handOn _ _ _).st.agenda
      rw [handOn_st]
      exact hown _ _ _ _ _ _ h
    · exact h
  | writeOutput p o l =>
    show Q (writeOutputAt p o l (startWork s)).1.st.agenda
    unfold writeOutputAt; simp only; repeat' split
    all_goals exact h
  | reclaim p o =>
    show Q (reclaimAt p o (startWork s)).1.st.agenda
    unfold reclaimAt; simp only; repeat' split
    · exact h
    · exact h
    · exact hown _ _ _ _ _ _ h
  | setSafe o safe g =>
    show Q (setSafeAt o safe g (startWork s)).1.st.agenda
    unfold setSafeAt; simp only; split <;> exact h
  | setQuota q n =>
    show Q (setQuotaAt q n (startWork s)).1.st.agenda
    unfold setQuotaAt; simp only; split
    · exact h
    · next hq =>
      refine k.quota _ _ ?_ h
      simpa only [quotaSum, Config.slots, not_lt] using hq
  | cancel p hd =>
    show Q (cancelAt p hd (startWork s)).1.st.agenda
    unfold cancelAt
    cases hl : liveEntry (startWork s).st.agenda hd with
    | none => exact h
    | some e =>
      simp only
      split
      · exact k.freed _ _ _ (cancelTree_spec (by rw [(liveEntry_some.1 hl).2]; rfl)).1 h
      · exact h
  | trip p g => exact hcause _ _ _ _ h
  | ackTrip p g =>
    show Q (ackTripAt p g (startWork s)).1.st.agenda
    unfold ackTripAt; simp only; repeat' split
    · exact h
    · show Q (acknowledge p g (startWork s)).st.agenda
      unfold acknowledge; simp only; split
      · exact hnorm _ _ _ h
      · exact h
    · exact h
  | clearTrip g force =>
    have : ∀ w : Work, Q w.st.agenda → Q (clearTripAt g force w).1.st.agenda := by
      intro w h
      unfold clearTripAt
      cases hs : (w.st.group g).state with
      | normal => simp only [hs]; exact h
      | tripped =>
        simp only [hs]
        by_cases hA : anyActive w.st.lines (w.st.group g) = true
        · rw [if_pos hA]; exact h
        · rw [if_neg hA]
          by_cases hne : force = true ∨ (w.st.group g).acked = (w.st.group g).owed
          · rw [if_pos hne]; exact hnorm _ _ _ h
          · rw [if_neg hne]; exact h
      | releasing =>
        simp only [hs]
        by_cases hf : force = true
        · rw [if_pos hf]; exact hnorm _ _ _ h
        · rw [if_neg hf]; exact h
    exact this (startWork s) h
  | setTripSource g i src =>
    show Q (setTripSourceAt g i src (startWork s)).1.st.agenda
    unfold setTripSourceAt; simp only; split
    · exact hcause _ _ _ _ h
    · exact h
  | setReleaseWindow g n => exact h
  | outputEnd p o =>
    unfold endAtOutput; split
    · rw [handOn_st]; exact hown _ _ _ _ _ _ h
    · exact h
  | agendaEnd p => exact k.targets _ _ _ _ (startWork s) h
  | groupEnd p g =>
    unfold endAtGroup; simp only; split
    · exact hnorm _ _ _ h
    · exact h
  | due => exact k.pass _ h
  | cause g t f =>
    unfold causeFrom; split
    · exact hcause _ _ _ _ h
    · exact h
  | expiry g =>
    unfold releaseExpiryEvent; simp only; repeat' split
    all_goals exact h

/-- An edge at the agenda, whose operations are at its stamp. -/
theorem agendaEdge_keeps {s : State} {Q : Agenda → Prop} {e : Edge} (k : e ∈ s.published.agenda → AgendaKept e.stamp Q)
    (h : Q s.agenda) : Q (agendaEdge e s).agenda := by
  unfold agendaEdge; split
  · next hm =>
    show Q (edgeAtAgendaEvent e (startWork _)).st.agenda
    unfold edgeAtAgendaEvent; simp only
    split
    · exact (k hm).arm _ _ h
    · exact (k hm).pass _ ((k hm).arm _ _ h)
  · exact h

/-- What `Agenda.ok` says is among what the operations keep. -/
theorem agendaOk_kept (now : Tick) : AgendaKept now Agenda.ok where
  freed _ _ _ hf h := hf.ok (fun _ _ => Falls.closed) h
  quota _ _ hq h := ⟨h.1, h.2, h.3, h.4, h.5, hq, h.7, h.8, h.9, h.10⟩
  pass w h := pass_ok now w h
  arm js _ h := armAll_ok now js h

end Sys2Proof.Machine
end

