-- ==== Sys2Proof/Laws/Ports.lean ====
section
/-! SUPPORT. What a command can do to a controller, said once: which of the controller's own operations it runs, or nothing. -/

namespace Sys2Proof.Machine

/-- What command `c` at state `s` may leave of port `p`'s controller. -/
inductive PortStep (s : State) (p : Port) : Instr → Controller → Prop
  | same (c) : PortStep s p c (s.port p)
  | reset : PortStep s p .deviceReset (resetController (s.port p))
  | lapse (c) (h : c = .lapseExpiry p ∨ ∃ x, c = .tick x) : PortStep s p c (expireLapse s.now (s.port p))
  | pin (h : s.resetLow = true) : PortStep s p (.portReset p) { s.port p with prstLow := true }
  | portReset (h : s.resetLow = false) : PortStep s p (.portReset p) (assertPortReset (s.port p))
  | portRelease : PortStep s p (.portResetRelease p) { s.port p with prstLow := false }
  | begin (h : s.resetLow = false) : PortStep s p (.transactionBegin p)
      { s.port p with txn := some (offer (s.port p) (s.queue p)) }
  | finish (mosi) : PortStep s p (.transactionEnd p mosi) (endTransaction s.now (s.supervisor == p) mosi (s.port p))
  | complete : PortStep s p (.requestCompletion p) (completeAt s.now (s.queue p).records.length (s.port p))
  | run (c run run') (h : endRunOf (s.port p) = some run) (hk : run'.kind = run.kind)
      (hc : (∃ o, c = .sessionEndAtOutput p o) ∨ c = .sessionEndAtAgenda p ∨ (∃ g, c = .sessionEndAtTripGroup p g) ∨
        c = .sessionEndAtQueue p) :
      PortStep s p c (setEndRun run' (s.port p))
  | sessionEnd (run) (h : endRunOf (s.port p) = some run) (hs : run.step = .finish) :
      PortStep s p (.sessionEndFinish p) (finishController s.now (s.queue p).records.length run (s.port p))
  | openSession (f a) (h : InFlight s p f .openSession) :
      PortStep s p (.openSession p) (putAnswer a (openController s.now (s.port p)))
  | close (f) (h : InFlight s p f .closeSession) : PortStep s p (.closeSession p) (startClose (s.port p))
  | setLapse (n f a) (h : InFlight s p f (.setLapse n)) :
      PortStep s p (.setLapse p n) (putAnswer a (lapseController s.now n (s.port p)))
  | answer (c f r a) (h : InFlight s p f r) (ho : r ≠ .openSession) (hc : r ≠ .closeSession) :
      PortStep s p c (putAnswer a (s.port p))

theorem onPort_port (q p : Port) (f : Controller → Controller) (s : State) :
    (onPort q f s).port p = if p = q then f (s.port p) else s.port p := by
  unfold onPort; rw [State.setPort_port]; split
  · next h => rw [h]
  · rfl

/-- A command of port `q` on its own controller. -/
theorem onPort_step {s : State} {p q : Port} {c : Instr} {f : Controller → Controller} {t : State} (ht : t.port p = s.port p)
    (h : p = q → PortStep s p c (f (s.port p))) : PortStep s p c ((onPort q f t).port p) := by
  rw [onPort_port, ht]; split
  · next he => exact h he
  · exact .same c

theorem takeRequest_step {s : State} {p q : Port} {c : Instr} {r : Request} {f : Work → Work × Answer}
    (h : (f (startWork s)).1.st.port p = s.port p) (ho : r ≠ .openSession) (hc : r ≠ .closeSession) :
    PortStep s p c ((takeRequest q r f s).port p) := by
  refine takeRequest_induct (P := fun t => PortStep s p c (t.port p)) (.same c) fun x hx => ?_
  exact onPort_step h fun he => by subst he; exact .answer c x r _ hx ho hc

/-- What is taken before a rollover leaves a controller as it was or begins its lapse. -/
theorem takeOutstanding_port (s : State) (p : Port) : (takeOutstanding s).port p = expireLapse s.now (s.port p) := by
  have hk : ∀ (x : State) (e : Edge) q, (queueEdge q e x).port p = x.port p := by
    intro x e q; unfold queueEdge; split <;> rfl
  have ha : ∀ (x : State) (e : Edge), (agendaEdge e x).port p = x.port p := by
    intro x e; unfold agendaEdge; split
    · exact (edgeAtAgendaEvent_shared e (startWork _)).port p
    · rfl
  have hg : ∀ (x : State) (e : Edge) g, (groupEdge g e x).port p = x.port p := by
    intro x e g; unfold groupEdge; split
    · exact (causeFrom_shared _ _ _ _ (startWork _)).port p
    · rfl
  have hs : ∀ (x : State) (l : Line) g, (groupSettling g l x).port p = x.port p := by
    intro x e g; unfold groupSettling; split
    · exact (causeFrom_shared _ _ _ _ (startWork _)).port p
    · rfl
  have hd : ∀ x : State, (duePass x).port p = x.port p := fun x => (pass_shared x.now (startWork x)).port p
  have hr : ∀ (x : State) g, (releaseExpiry g x).port p = x.port p :=
    fun x g => (releaseExpiryEvent_shared g (startWork x)).port p
  have hfold : ∀ {α : Type} (f : State → α → State), (∀ x a, (f x a).port p = x.port p) →
      ∀ (l : List α) x, (l.foldl f x).port p = x.port p := by
    intro α f hf l
    induction l with
    | nil => intro x; rfl
    | cons a l ih => intro x; rw [List.foldl_cons, ih, hf]
  have hnow := takeOutstanding_sameTick s
  unfold takeOutstanding takeExpiries takeSettling takeGroupEdges takeAgendaEdges takeQueueEdges at *
  generalize hx : List.foldl (fun x g => releaseExpiry g x) _ _ = y at *
  have hy : y.port p = s.port p := by
    rw [← hx, hfold _ (fun x g => hr x g), hd, hfold _ (fun x g => hfold _ (fun x e => hs x _ g) _ x),
      hfold _ (fun x g => hfold _ (fun x e => hg x _ g) _ x), hfold _ (fun x e => ha x _),
      hfold _ (fun x g => hfold _ (fun x e => hk x _ g) _ x)]
  have hyn : y.now = s.now := by
    have h1 : (takeLapses y).now = y.now := by
      simp only [takeLapses, Port.all, List.foldl_cons, List.foldl_nil]; rfl
    rw [← h1]; exact hnow.now
  rw [← hy, ← hyn]
  simp only [takeLapses, Port.all, List.foldl_cons, List.foldl_nil, lapseAt, onPort]
  cases p <;> simp [State.setPort_port]

/-- What a command may leave of a controller. -/
theorem exec_port {c : Instr} {s t : State} (p : Port) (hx : exec c s = .next t) : PortStep s p c (t.port p) := by
  cases c <;> simp only [Machine.exec] at hx
  case deviceReset => cases hx; simp only [heldInReset, State.port, PerPort.get_ofFn]; exact .reset
  case deviceResetRelease a b =>
    cases hx
    have : (releaseReset a b s).port p = s.port p := by unfold releaseReset; split <;> rfl
    rw [this]; exact .same _
  case tick samples =>
    cases hx; unfold tickAll; split
    · exact .same _
    · rw [rollover_port, takeOutstanding_port]; exact .lapse _ (.inr ⟨samples, rfl⟩)
  case edgeAtQueue q e =>
    cases hx
    have : (queueEdge q e s).port p = s.port p := by unfold queueEdge; split <;> rfl
    rw [this]; exact .same _
  case edgeAtAgenda e =>
    cases hx
    have : (agendaEdge e s).port p = s.port p := by
      unfold agendaEdge; split
      · exact (edgeAtAgendaEvent_shared e (startWork _)).port p
      · rfl
    rw [this]; exact .same _
  case edgeAtTripGroup g e =>
    cases hx
    have : (groupEdge g e s).port p = s.port p := by
      unfold groupEdge; split
      · exact (causeFrom_shared _ _ _ _ (startWork _)).port p
      · rfl
    rw [this]; exact .same _
  case settlingChange g l =>
    cases hx
    have : (groupSettling g l s).port p = s.port p := by
      unfold groupSettling; split
      · exact (causeFrom_shared _ _ _ _ (startWork _)).port p
      · rfl
    rw [this]; exact .same _
  case dueReached =>
    cases hx
    have : (duePass s).port p = s.port p := (pass_shared s.now (startWork s)).port p
    rw [this]; exact .same _
  case releaseDeadlineReached g =>
    cases hx
    have : (releaseExpiry g s).port p = s.port p := (releaseExpiryEvent_shared g (startWork s)).port p
    rw [this]; exact .same _
  case lapseExpiry q => cases hx; exact onPort_step rfl fun he => by subst he; exact .lapse _ (.inl rfl)
  case portReset q =>
    cases hx; unfold portResetAt; split
    · exact .same _
    · split
      · next hl => exact onPort_step rfl fun he => by subst he; exact .pin hl
      · next hl => exact onPort_step rfl fun he => by subst he; exact .portReset (by simpa using hl)
  case portResetRelease q => cases hx; exact onPort_step rfl fun he => by subst he; exact .portRelease
  case transactionBegin q =>
    cases hx; unfold beginTransaction; split
    · exact .same _
    · next hl =>
      rw [not_or] at hl
      exact onPort_step rfl fun he => by subst he; exact .begin (by simpa using hl.1)
  case transactionEnd q mosi => cases hx; exact onPort_step rfl fun he => by subst he; exact .finish mosi
  case requestCompletion q => cases hx; exact onPort_step rfl fun he => by subst he; exact .complete
  case sessionEndAtOutput q o =>
    cases hx; unfold sessionEndOutput; split
    · exact .same _
    · next run hr =>
      split
      · exact onPort_step ((endAtOutput_shared _ _ (startWork _)).port p) fun he => by
          subst he; exact .run _ _ _ hr rfl (.inl ⟨_, rfl⟩)
      · exact .same _
  case sessionEndAtAgenda q =>
    cases hx; unfold sessionEndAgenda; split
    · exact .same _
    · next run hr =>
      split
      · exact onPort_step ((endAtAgenda_shared _ (startWork _)).port p) fun he => by
          subst he; exact .run _ _ _ hr rfl (.inr (.inl rfl))
      · exact .same _
  case sessionEndAtTripGroup q g =>
    cases hx; unfold sessionEndGroup; split
    · exact .same _
    · next run hr =>
      split
      · exact onPort_step ((endAtGroup_shared _ _ (startWork _)).port p) fun he => by
          subst he; exact .run _ _ _ hr rfl (.inr (.inr (.inl ⟨_, rfl⟩)))
      · exact .same _
  case sessionEndAtQueue q =>
    cases hx; unfold sessionEndQueue; split
    · exact .same _
    · next run hr =>
      split
      · exact onPort_step rfl fun he => by subst he; exact .run _ _ _ hr rfl (.inr (.inr (.inr rfl)))
      · exact .same _
  case sessionEndFinish q =>
    cases hx; unfold sessionEndFinish; split
    · exact .same _
    · next run hr =>
      split
      · next hs => exact onPort_step rfl fun he => by subst he; exact .sessionEnd _ hr hs
      · exact .same _
  case recordArrival q k =>
    cases hx
    obtain h | ⟨_, _, _, _, h⟩ := recordArrives_cases q k s <;> rw [h] <;> exact .same _
  case prescalerAdvance => cases hx; split <;> exact .same _
  case openSession q =>
    cases hx
    refine takeRequest_induct (P := fun t => PortStep s p _ (t.port p)) (.same _) fun x hx => ?_
    have hd : (dropStaleEdges q s).port p = s.port p := by unfold dropStaleEdges; split <;> rfl
    rw [onPort_port]
    show PortStep s p _ (if p = q then putAnswer _ ((onPort q _ (onQueue q _ (dropStaleEdges q s))).port p) else
      (onPort q _ (onQueue q _ (dropStaleEdges q s))).port p)
    rw [onPort_port]
    have hd' : ∀ f, (onQueue q f (dropStaleEdges q s)).port p = s.port p := fun f => hd
    simp only [hd']
    by_cases he : p = q
    · subst he; simp only [if_true]; exact .openSession x _ hx
    · simp only [he, if_false]; exact .same _
  case closeSession q =>
    cases hx; split
    · next hw =>
      obtain ⟨f, hf⟩ := awaits_iff.1 hw
      exact onPort_step rfl fun he => by subst he; exact .close f hf
    · exact .same _
  case ping => cases hx; exact takeRequest_step rfl (by simp) (by simp)
  case status => cases hx; exact takeRequest_step rfl (by simp) (by simp)
  case setLapse q n =>
    cases hx
    refine takeRequest_induct (P := fun t => PortStep s p _ (t.port p)) (.same _) fun x hx => ?_
    rw [onPort_port]
    show PortStep s p _ (if p = q then putAnswer _ ((onPort q _ s).port p) else (onPort q _ s).port p)
    rw [onPort_port]
    by_cases he : p = q
    · subst he; simp only [if_true]; exact .setLapse n x _ hx
    · simp only [he, if_false]; exact .same _
  case readTime => cases hx; exact takeRequest_step rfl (by simp) (by simp)
  case setDivide => cases hx; exact takeRequest_step rfl (by simp) (by simp)
  case readInputs => cases hx; exact takeRequest_step rfl (by simp) (by simp)
  case setFilter => cases hx; exact takeRequest_step rfl (by simp) (by simp)
  case claim => cases hx; exact takeRequest_step ((claimAt_shared _ _ _ (startWork s)).port p) (by simp) (by simp)
  case withdraw => cases hx; exact takeRequest_step ((withdrawAt_shared _ _ (startWork s)).port p) (by simp) (by simp)
  case release => cases hx; exact takeRequest_step ((releaseAt_shared _ _ (startWork s)).port p) (by simp) (by simp)
  case writeOutput => cases hx; exact takeRequest_step ((writeOutputAt_shared _ _ _ (startWork s)).port p) (by simp) (by simp)
  case reclaim => cases hx; exact takeRequest_step ((reclaimAt_shared _ _ (startWork s)).port p) (by simp) (by simp)
  case setSafe => cases hx; exact takeRequest_step ((setSafeAt_shared _ _ _ (startWork s)).port p) (by simp) (by simp)
  case readOutputs => cases hx; exact takeRequest_step rfl (by simp) (by simp)
  case submit => cases hx; exact takeRequest_step ((submitAt_shared _ _ (startWork s)).port p) (by simp) (by simp)
  case query => cases hx; exact takeRequest_step (by rw [queryAt_st]; rfl) (by simp) (by simp)
  case list => cases hx; exact takeRequest_step rfl (by simp) (by simp)
  case setQuota => cases hx; exact takeRequest_step ((setQuotaAt_shared _ _ (startWork s)).port p) (by simp) (by simp)
  case cancel => cases hx; exact takeRequest_step ((cancelAt_shared _ _ (startWork s)).port p) (by simp) (by simp)
  case trip => cases hx; exact takeRequest_step ((tripAt_shared _ _ (startWork s)).port p) (by simp) (by simp)
  case ackTrip => cases hx; exact takeRequest_step ((ackTripAt_shared _ _ (startWork s)).port p) (by simp) (by simp)
  case clearTrip => cases hx; exact takeRequest_step ((clearTripAt_shared _ _ (startWork s)).port p) (by simp) (by simp)
  case setTripSource => cases hx; exact takeRequest_step ((setTripSourceAt_shared _ _ _ (startWork s)).port p) (by simp) (by simp)
  case setReleaseWindow =>
    cases hx; exact takeRequest_step ((setReleaseWindowAt_shared _ _ (startWork s)).port p) (by simp) (by simp)
  case subscribe => cases hx; exact takeRequest_step rfl (by simp) (by simp)
  case fetch => cases hx; exact takeRequest_step rfl (by simp) (by simp)
  case setQueue => cases hx; exact takeRequest_step rfl (by simp) (by simp)

end Sys2Proof.Machine
end

