-- ==== Sys2Proof/Tests/Slice0.lean ====
section
/-! SUPPORT. Small tests whose expected values are the spec's own, most of them from its worked sequences, and for each statement with
hypotheses a named state and operands that meet them. -/

namespace Sys2Proof.Tests

open Sys2Proof.Machine

set_option Elab.async false

/-! ### Ill-formed operands are refused (R61, R72, R186) -/

/-- A single SET on OUT1 at tick 5000, to be varied. -/
def plan : Plan :=
  { output := 1, action := .set, anchor := .absolute 5000, runs := .left 1, period := none, late := .drop, notify := .final, tag := 1 }

theorem test_plan_wellFormed : plan.wellFormed = true := by decide
theorem test_no_runs_refused : ({ plan with runs := .left 0 } : Plan).wellFormed = false := by decide
theorem test_period_without_repeat_refused : ({ plan with period := some 5 } : Plan).wellFormed = false := by decide
theorem test_repeat_without_period_refused : ({ plan with runs := .free } : Plan).wellFormed = false := by decide
theorem test_zero_period_refused : ({ plan with runs := .left 2, period := some 0 } : Plan).wellFormed = false := by decide
theorem test_zero_width_refused : ({ plan with action := .pulse 0 } : Plan).wellFormed = false := by decide
theorem test_width_of_period_refused :
    ({ plan with action := .pulse 50, runs := .left 3, period := some 50 } : Plan).wellFormed = false := by decide
theorem test_anchor_without_edge_refused : ({ plan with anchor := .input 2 .none 100 } : Plan).wellFormed = false := by decide
theorem test_operand_ranges :
    (Request.setFilter 0 3).wellFormed = false ∧ (Request.setFilter 1 3).wellFormed = true ∧
    (Request.list 96).wellFormed = false ∧ (Request.list 95).wellFormed = true ∧
    (Request.setQuota .A 97).wellFormed = false ∧ (Request.setQuota .A 96).wellFormed = true ∧
    (Request.fetch 0).wellFormed = false ∧ (Request.fetch 5).wellFormed = false ∧ (Request.fetch 4).wellFormed = true ∧
    (Request.setQueue .stop 0).wellFormed = false ∧ (Request.setQueue .stop 65).wellFormed = false ∧
    (Request.setQueue .stop 64).wellFormed = true := by decide
theorem test_commands_carry_the_check :
    (Instr.submit .A { plan with runs := .left 0 }).wellFormed = false ∧ (Instr.fetch .B 5).wellFormed = false ∧
    (Instr.tick 0).wellFormed = true := by decide

/-! ### Small states -/

/-- A record on its way that no trip event on an edge sent. -/
def msg (k : Kind) (t : Tick) : Msg := { kind := k, time := t }

/-- The TRIP record of group `g`'s trip event on an edge, by its place `i`. -/
def tripOn (e : Edge) (g : Group) (i : Place) : Msg := { kind := .trip g (.place i) 1, time := e.stamp, edge := some e }

/-- A request in flight with SEQ 1 that awaits its block. -/
def flight (r : Request) : Flight := { seq := 1, check := 0, stage := .awaiting r }

/-- `s` with request `r` of port `p` in flight in an OPEN session. -/
def seat (p : Port) (r : Request) (s : State) : State :=
  s.setPort p { s.port p with session := .isOpen, activity := .executing (flight r) }

theorem seated (p : Port) (r : Request) (s : State) : InFlight (seat p r s) p (flight r) r := by
  refine ⟨?_, rfl⟩
  simp only [seat, State.setPort_port_self]

/-- `s` in the step `x` of a session end of kind `k` of port `p`. -/
def ending (p : Port) (k : EndKind) (x : EndStep) (s : State) : State :=
  s.setPort p { s.port p with session := .isOpen, activity := .ending ⟨k, x, 0, 0, 0⟩ }

theorem is_ending (p : Port) (k : EndKind) (x : EndStep) (s : State) : Ending (ending p k x s) p ⟨k, x, 0, 0, 0⟩ := by
  show endRunOf ((ending p k x s).port p) = _
  simp only [ending, State.setPort_port_self]; rfl

/-- The state after one command. -/
def then' (c : Instr) (s : State) : State :=
  match exec c s with
  | .next t => t
  | .fault _ => s
  | .refused _ => s

/-- The result that a port's request has after one command. -/
def result (p : Port) (c : Instr) (s : State) : Option Answer :=
  match ((then' c s).port p).activity with
  | .executing f =>
    match f.stage with
    | .answered a => some a
    | .awaiting _ => none
    | .closing _ => none
  | .idle => none
  | .ending _ => none

/-- The part at a tick, with all three sessions OPEN. -/
def at' (t : Tick) : State :=
  { State.reset with
    timebase := { Timebase.reset with tick := t }
    ports := .fill { Controller.reset with session := .isOpen }
    queues := .fill { Queue.reset with intake := .accepting } }

/-- `s` with an output owned. -/
def owns (p : Port) (o : Output) (s : State) : State := s.setOutput o { s.output o with owner := some p }

/-- An agenda with entries put in their slots, armed and waiting as listed. -/
def agendaOf (es : List (SlotNo × Byte × Entry)) (armed waiting : List SlotNo) : Agenda :=
  { Agenda.reset with
    slots := es.foldl (fun t x => t.set x.1 { gen := x.2.1, entry := some x.2.2 }) Agenda.reset.slots
    armed := armed
    waiting := waiting
    live := .ofFn fun p => es.countP fun x => x.2.2.owner == p }

/-! ### Time (sections 1.8 and 1.9) -/

/-- Section 1.8 at step 4: the count stands at 49, the value 24 is pending. -/
def divideChange : State :=
  { at' 1000 with timebase := { count := 49, tick := 1000, divide := 49, pendingValue := 24, pendingMark := true } }

theorem test_divide_set :
    result .A (.setDivide .A 99) (seat .A (.setDivide 99)
      { at' 1000 with timebase := { count := 20, tick := 1000, divide := 49, pendingValue := 49, pendingMark := false } }) =
      some ⟨.ok, .time 1000 49 99 true⟩ := by decide +kernel

theorem test_rollover_applies_the_divide :
    (then' (.tick 0) divideChange).timebase =
      { count := 0, tick := 1001, divide := 24, pendingValue := 24, pendingMark := false } := by decide +kernel

theorem test_prescaler_counts :
    (then' .prescalerAdvance { divideChange with timebase := { divideChange.timebase with count := 48 } }).timebase.count = 49 ∧
    then' .prescalerAdvance divideChange = divideChange := by decide +kernel

/-- R1: a period below the divide value is no rollover, whatever the samples. -/
theorem test_no_rollover_below_the_divide_value :
    (let s := { divideChange with timebase := { divideChange.timebase with count := 48 } }
     then' (.tick 0xFFFF) s = s) := by decide +kernel

theorem test_positions :
    position 0xFFFFFFFFFD 5 = 8 ∧ position 4 5 = 1 ∧ position 5 5 = 0 ∧ position 6 5 = -1 ∧
    position 5 0x8000000006 = -(2 ^ 39 - 1) ∧ position 5 0x8000000005 = 2 ^ 39 := by decide

theorem test_read_time :
    result .C (.readTime .C) (seat .C .readTime (then' (.tick 0) divideChange)) = some ⟨.ok, .time 1001 24 24 false⟩ := by
  decide +kernel

/-! ### Lines (sections 2.9 and 2.10) -/

/-- The part at a tick with one settled line. -/
def withLine (t : Tick) (l : Line) (r : LineRec) : State := { at' t with lines := (at' t).lines.set l r }

/-- Section 2.9 after tick 206. -/
def bounced : State := withLine 206 4 { raw := true, qualified := false, stability := 3, filter := 3, settled := true }

theorem test_closure_qualifies :
    (then' (.tick 0x0010) bounced).line 4 = { raw := true, qualified := true, stability := 0, filter := 3, settled := true } ∧
    (then' (.tick 0x0010) bounced).published.agenda = [⟨4, .rise, 207⟩] := by decide +kernel

theorem test_bounce_clears_the_count :
    (then' (.tick 0) bounced).line 4 = { raw := false, qualified := false, stability := 0, filter := 3, settled := true } ∧
    (then' (.tick 0) bounced).published.agenda = [] := by decide +kernel

theorem test_filter_lowered_mid_count :
    (then' (.tick 0) (then' (.setFilter .A 0x0200 10) (seat .A (.setFilter 0x0200 10)
      (withLine 5049 9 { raw := false, qualified := true, stability := 50, filter := 200, settled := true })))).published.agenda =
      [⟨9, .fall, 5050⟩] := by decide +kernel

theorem test_read_inputs_masks :
    (result .A (.readInputs .A) (seat .A .readInputs
      (withLine 210 4 { raw := false, qualified := true, stability := 2, filter := 3, settled := true }))).map
        (fun a => a.body.bytes.take 11) = some [0, 0, 0, 0, 210, 0, 0x10, 0, 0, 0, 0x10] := by decide +kernel

/-! ### Outputs (sections 3.9 and 3.10) -/

/-- A's entry 12/4 of section 3.9. -/
def entry12 : Entry :=
  { owner := .A, plan := { plan with output := 3, anchor := .absolute 9000, tag := 300 }, runs := .left 1, fired := 0
    state := .armed .first 9000 9000 }

/-- C's entry 20/1 of section 3.9. -/
def entry20 : Entry :=
  { owner := .C, plan := { plan with output := 7, action := .clear, anchor := .entry ⟨12, 4⟩ 100, tag := 51 }, runs := .left 1
    fired := 0, state := .waiting }

/-- Section 3.9 before tick 8600. -/
def handOver : State :=
  ({ at' 8600 with agenda := agendaOf [(12, 4, entry12), (20, 1, entry20)] [12] [20] }.setOutput 3
    { owner := some .A, waiting := [.B, .C], level := false, safe := false, group := some .G0 }).setOutput 7
    { owner := some .C, waiting := [], level := false, safe := false, group := none }

theorem test_claim_waits_in_place_2 :
    result .C (.claim .C 3 true) (seat .C (.claim 3 true) ((at' 8520).setOutput 3
      { OutputRec.reset with owner := some .A, waiting := [.B] })) = some ⟨.queued, .claim (some .A) 2⟩ := by decide +kernel

theorem test_claim_without_wait :
    result .C (.claim .C 3 false) (seat .C (.claim 3 false) ((at' 8510).setOutput 3
      { OutputRec.reset with owner := some .A, waiting := [.B] })) = some ⟨.heldByOther, .claim (some .A) 0⟩ := by decide +kernel

theorem test_release_hands_over :
    result .A (.release .A 3) (seat .A (.release 3) handOver) = some ⟨.ok, .release (some .B) 1⟩ ∧
    (then' (.release .A 3) (seat .A (.release 3) handOver)).output 3 =
      { owner := some .B, waiting := [.C], level := false, safe := false, group := some .G0 } := by decide +kernel

theorem test_release_sends_the_records :
    (then' (.release .A 3) (seat .A (.release 3) handOver)).transit =
      { a := [[msg (.entryCancelled ⟨12, 4⟩ 300 .released) 8600]], b := [[msg (.claimGranted 3) 8600]],
        c := [[msg (.entryCancelled ⟨20, 1⟩ 51 .anchorLost) 8600]] } := by decide +kernel

theorem test_withdraw_twice :
    result .C (.withdraw .C 3) (seat .C (.withdraw 3) ((at' 8620).setOutput 3
      { OutputRec.reset with owner := some .B })) = some ⟨.wrongState, .withdraw (some .B) 0⟩ := by decide +kernel

/-- Section 3.10: OUT9 is forced by G1. -/
def tripped9 : State :=
  ((at' 20060).setOutput 9 { owner := some .C, waiting := [], level := false, safe := false, group := some .G1 }).setGroup .G1
    { GroupRec.reset with
      state := .tripped, count := 1, first := some ⟨.place 0, 20000⟩, latest := some ⟨.place 0, 20000⟩
      owed := ⟨false, true, false⟩ }

theorem test_write_of_a_forced_output :
    result .C (.writeOutput .C 9 true) (seat .C (.writeOutput 9 true) tripped9) = some ⟨.tripped, .level false⟩ := by
  decide +kernel

theorem test_reclaim :
    result .A (.reclaim .A 9) (seat .A (.reclaim 9) tripped9) = some ⟨.ok, .reclaim (some .C) (some .A)⟩ ∧
    (then' (.reclaim .A 9) (seat .A (.reclaim 9) tripped9)).transit.get .C = [[msg (.ownershipRevoked 9) 20060]] := by
  decide +kernel

theorem test_set_safe_while_tripped :
    result .A (.setSafe .A 9 true (some .G1)) (seat .A (.setSafe 9 true (some .G1)) tripped9) =
      some ⟨.wrongState, .safe false (some .G1)⟩ := by decide +kernel

/-! ### The agenda (sections 4.7, 5.6 and 5.7) -/

theorem test_submit_arms :
    result .A (.submit .A plan) (seat .A (.submit plan) (owns .A 1 (at' 4000))) =
      some ⟨.ok, .submitted 1 32 95 ⟨0, 0⟩ 4000 (.armed 5000)⟩ := by decide +kernel

theorem test_submit_late :
    result .A (.submit .A { plan with anchor := .absolute 4000 }) (seat .A (.submit { plan with anchor := .absolute 4000 })
      (owns .A 1 (at' 4070))) = some ⟨.late, .counts 0 32 96⟩ := by decide +kernel

theorem test_set_quota :
    result .A (.setQuota .A .C 1) (seat .A (.setQuota .C 1) (at' 4080)) =
      some ⟨.ok, .quotas ⟨32, 32, 1⟩ ⟨0, 0, 0⟩⟩ := by decide +kernel

/-- A's entry 2/1 of section 5.6. -/
def toggle2 : Entry :=
  { owner := .A, plan := { plan with output := 0, action := .toggle, anchor := .absolute 7150, notify := .never, tag := 9 }
    runs := .left 1, fired := 0, state := .armed .first 7150 7150 }

/-- B's pulse train 5/2 of section 5.6. -/
def train : Entry :=
  { owner := .B
    plan :=
      { output := 5, action := .pulse 20, anchor := .input 3 .rise 100, runs := .left 3, period := some 50, late := .run
        notify := .each, tag := 40 }
    runs := .left 3, fired := 0, state := .waiting }

/-- C's entry 6/0 of section 5.6. -/
def afterTrain : Entry :=
  { owner := .C, plan := { plan with output := 8, anchor := .entry ⟨5, 2⟩ 30, tag := 77 }, runs := .left 1, fired := 0
    state := .waiting }

/-- Section 5.6 when the edge of tick 7000 has been published. -/
def beforeEdge : State :=
  { at' 7000 with
    agenda := agendaOf [(2, 1, toggle2), (5, 2, train), (6, 0, afterTrain)] [2] [5, 6]
    published := { Published.reset with agenda := [⟨3, .rise, 7000⟩] } }

theorem test_edge_arms_the_train :
    (then' (.edgeAtAgenda ⟨3, .rise, 7000⟩) beforeEdge).agenda.armed = [5, 2] ∧
    (then' (.edgeAtAgenda ⟨3, .rise, 7000⟩) beforeEdge).agenda.waiting = [6] ∧
    dueOf (then' (.edgeAtAgenda ⟨3, .rise, 7000⟩) beforeEdge).agenda 5 = some 7100 := by decide +kernel

/-- Section 5.6 at a tick, with the train in the given state. -/
def trainAt (t : Tick) (e : Entry) : State :=
  (owns .B 5 { at' t with agenda := agendaOf [(2, 1, toggle2), (5, 2, e), (6, 0, afterTrain)] [5, 2] [6] }).setOutput 5
    { OutputRec.reset with owner := some .B, level := true }

theorem test_second_phase_ends_a_run :
    (then' .dueReached (trainAt 7120 { train with state := .armed .second 7120 7100 })).agenda.armed = [2, 5] ∧
    (then' .dueReached (trainAt 7120 { train with state := .armed .second 7120 7100 })).transit.get .B =
      [[msg (.entryFired ⟨5, 2⟩ 40 1 false) 7120]] := by decide +kernel

theorem test_completion_arms_the_dependent :
    (then' .dueReached { trainAt 7220 { train with state := .armed .second 7220 7200, runs := .left 1, fired := 2 } with
      agenda := agendaOf [(5, 2, { train with state := .armed .second 7220 7200, runs := .left 1, fired := 2 }), (6, 0, afterTrain)]
        [5] [6] }).agenda =
      { agendaOf [(6, 0, { afterTrain with state := .armed .first 7250 7250 })] [6] [] with
        slots := ((Table.fill { gen := 0, entry := none }).set 5 { gen := 3, entry := none }).set 6
          { gen := 0, entry := some { afterTrain with state := .armed .first 7250 7250 } } } := by decide +kernel

theorem test_cancel_mid_pulse :
    result .B (.cancel .B ⟨5, 2⟩) (seat .B (.cancel ⟨5, 2⟩)
      (trainAt 7210 { train with state := .armed .second 7220 7200, runs := .left 1, fired := 2 })) =
      some ⟨.ok, .cancelled 7210 (.armed .second 7220 7200) 2 1⟩ := by decide +kernel

/-- The late train of section 5.7. -/
def lateTrain : Plan :=
  { output := 2, action := .toggle, anchor := .absolute 9700, runs := .left 5, period := some 100, late := .run, notify := .each
    tag := 3 }

theorem test_late_train_catches_up :
    result .A (.submit .A lateTrain) (seat .A (.submit lateTrain) (owns .A 2 (at' 10000))) =
      some ⟨.ok, .submitted 1 32 95 ⟨0, 0⟩ 10000 (.armed 10100)⟩ ∧
    (then' (.submit .A lateTrain) (seat .A (.submit lateTrain) (owns .A 2 (at' 10000)))).transit.get .A =
      [[msg (.entryFired ⟨0, 0⟩ 3 1 true) 10000, msg (.entryFired ⟨0, 0⟩ 3 2 true) 10000,
        msg (.entryFired ⟨0, 0⟩ 3 3 true) 10000, msg (.entryFired ⟨0, 0⟩ 3 4 false) 10000]] := by decide +kernel

/-! ### Trips (section 6.10) -/

/-- Section 6.10 at a tick: the guard door IN7 and the stop button IN8 of G0, with its three members. -/
def guarded (t : Tick) (door : Bool) : State :=
  let s := { withLine t 7 { raw := door, qualified := door, stability := 0, filter := 0, settled := true } with
    agenda := agendaOf [(3, 0, { entry12 with plan := { plan with anchor := .absolute 30200, tag := 15 }, state := .armed .first 30200 30200 }),
      (9, 0, { entry20 with plan := { plan with output := 10, action := .clear, anchor := .entry ⟨3, 0⟩ 10, tag := 4 } })] [3] [9] }
  let s := ((s.setOutput 0 ⟨some .A, [], true, false, some .G0⟩).setOutput 1 ⟨some .A, [], false, false, some .G0⟩).setOutput 2
    ⟨some .B, [], false, true, some .G0⟩
  { s.setGroup .G0
      { GroupRec.reset with
        sources := ((Table.fill none).set 0 (some ⟨7, .low⟩)).set 1 (some ⟨8, .rise⟩), window := 500 } with
    supervisor := .C }

/-- The door's edge at tick 30000. -/
def doorOpens : State :=
  { guarded 30000 false with published := { Published.reset with groups := ⟨[⟨7, .fall, 30000⟩], []⟩ } }

theorem test_trip_forces_and_cancels :
    (then' (.edgeAtTripGroup .G0 ⟨7, .fall, 30000⟩) doorOpens).transit =
      { a := [[msg (.entryCancelled ⟨3, 0⟩ 15 .tripped) 30000, tripOn ⟨7, .fall, 30000⟩ .G0 0]]
        b := [[tripOn ⟨7, .fall, 30000⟩ .G0 0]]
        c := [[msg (.entryCancelled ⟨9, 0⟩ 4 .anchorLost) 30000, tripOn ⟨7, .fall, 30000⟩ .G0 0]] } ∧
    ((then' (.edgeAtTripGroup .G0 ⟨7, .fall, 30000⟩) doorOpens).group .G0).owed = ⟨true, true, false⟩ := by decide +kernel

theorem test_trip_levels :
    let t := then' (.edgeAtTripGroup .G0 ⟨7, .fall, 30000⟩) doorOpens
    (t.output 0).level = false ∧ (t.output 1).level = false ∧ (t.output 2).level = true := by decide +kernel

/-- Section 6.10 after the trip, at a tick, with the acknowledgment of A. -/
def trippedAt (t : Tick) (door : Bool) (x : GroupState) (deadline : Option Tick) : State :=
  let s := guarded t door
  s.setGroup .G0
    { s.group .G0 with
      state := x, count := 1, first := some ⟨.place 0, 30000⟩, latest := some ⟨.place 0, 30000⟩
      owed := ⟨true, true, false⟩, acked := ⟨true, false, false⟩, deadline := deadline }

theorem test_clear_with_the_door_open :
    (result .C (.clearTrip .C .G0 false) (seat .C (.clearTrip .G0 false) (trippedAt 30030 false .tripped none))).map
      Answer.status = some .conditionActive := by decide +kernel

theorem test_clear_enters_releasing :
    ((then' (.clearTrip .C .G0 false) (seat .C (.clearTrip .G0 false) (trippedAt 30450 true .tripped none))).group .G0).state =
      .releasing ∧
    ((then' (.clearTrip .C .G0 false) (seat .C (.clearTrip .G0 false) (trippedAt 30450 true .tripped none))).group .G0).deadline =
      some 30950 := by decide +kernel

theorem test_ack_of_a_port_not_owed :
    (result .C (.ackTrip .C .G0) (seat .C (.ackTrip .G0) (trippedAt 30025 false .tripped none))).map
      (fun a => a.body.bytes.take 1) = some [1] := by decide +kernel

theorem test_last_ack_clears :
    ((then' (.ackTrip .B .G0) (seat .B (.ackTrip .G0) (trippedAt 30700 true .releasing (some 31150)))).group .G0).state = .normal ∧
    (then' (.ackTrip .B .G0) (seat .B (.ackTrip .G0) (trippedAt 30700 true .releasing (some 31150)))).transit.get .A =
      [[msg (.tripCleared .G0) 30700]] := by decide +kernel

theorem test_release_window_expires :
    (then' (.releaseDeadlineReached .G0) (trippedAt 30950 true .releasing (some 30950))).transit =
      { a := [], b := [], c := [[msg (.releaseExpired .G0) 30950]] } := by decide +kernel

/-! ### Queues (sections 7.9 and 7.10) -/

/-- `n` INPUT_EDGE records from a number on. -/
def edges (n : Nat) (start : BitVec 16) : List Record :=
  (List.range n).map fun k => { kind := .inputEdge 12 .rise, seq := start + BitVec.ofNat 16 k, time := 0 }

/-- B's queue of section 7.9 before event 4, where a TRIP is on its way. -/
def stormy (m : QueueMode) (next : BitVec 16) : State :=
  ({ (at' 9).setQueue .B
      { Queue.reset with
        records := edges 56 100 ++ (List.range 8).map fun k => { kind := .trip .G1 (.place 0) 1, seq := 156 + BitVec.ofNat 16 k, time := 0 }
        intake := .accepting, mode := m, threshold := 8, nextSeq := next } with
    transit := ⟨[], [[msg (.trip .G1 (.place 0) 9) 9], [msg (.inputEdge 12 .fall) 9]], []⟩ })

theorem test_ring_displaces_the_oldest :
    let q := (then' (.recordArrival .B 0) (stormy .ring 164)).queue .B
    q.records.head?.map Record.seq = some 101 ∧ q.records.getLast?.map Record.seq = some 164 ∧ q.lost = 1 ∧ q.nextSeq = 165 := by
  decide +kernel

theorem test_stop_displaces_the_newest :
    let q := (then' (.recordArrival .B 0) (stormy .stop 164)).queue .B
    (q.records.map Record.seq).count 155 = 0 ∧ q.records.head?.map Record.seq = some 100 ∧ q.lost = 1 ∧ q.nextSeq = 165 := by
  decide +kernel

theorem test_fetch :
    (result .B (.fetch .B 4) (seat .B (.fetch 4) (stormy .stop 164))).map (fun a => a.body) =
      some (.fetched 0 (edges 4 100)) := by decide +kernel

/-- Section 7.10 at tick 1300: A has a one-shot RISE cell on IN2. -/
def oneShot : State :=
  { (at' 1300).setQueue .A
      { Queue.reset with
        intake := .accepting, threshold := 4, nextSeq := 30, row := (Table.fill Cell.off).set 2 { edge := .rise, oneShot := true } } with
    published := { Published.reset with queues := ⟨[⟨2, .rise, 1300⟩], [], []⟩ } }

theorem test_one_shot_edge :
    let q := (then' (.edgeAtQueue .A ⟨2, .rise, 1300⟩) oneShot).queue .A
    q.records = [⟨.inputEdge 2 .rise, 30, 1300⟩] ∧ q.row.get 2 = Cell.off ∧ q.attention = false := by decide +kernel

/-- R143: an edge that qualified while the port was CLOSED reaches no record after the OPEN, though the row then hears its line. -/
theorem test_edges_of_a_closed_port_stay_unheard :
    let s := (oneShot.setPort .A { Controller.reset with activity := .executing (flight .openSession) }).setQueue .A Queue.reset
    let t := then' (.openSession .A) s
    ((then' (.edgeAtQueue .A ⟨2, .rise, 1300⟩) (t.setQueue .A { t.queue .A with row := (oneShot.queue .A).row })).queue .A).records =
      [] ∧ (t.queue .A).intake = .accepting := by decide +kernel

/-- R151: a record on its way at the OPEN that arrives after it is admitted. -/
theorem test_record_on_its_way_is_admitted_after_open :
    let s := { (at' 9).setPort .A { Controller.reset with activity := .executing (flight .openSession) } with
      transit := ⟨[[msg (.tripCleared .G0) 8]], [], []⟩ }
    ((then' (.recordArrival .A 0) (then' (.openSession .A) (s.setQueue .A Queue.reset))).queue .A).records =
      [⟨.tripCleared .G0, 0, 8⟩] := by decide +kernel

/-- R131: B's batches of the two groups' trip events, that of G0 first, on these edges, and a third batch. -/
def twoTrips (e f : Edge) : State :=
  { at' 30000 with transit := ⟨[], [[tripOn e .G0 0], [tripOn f .G1 1], [msg .lapsed 30000]], []⟩ }

/-- One edge of tick 30000, and another of it. -/
def oneEdge : Edge := ⟨7, .fall, 30000⟩
def otherEdge : Edge := ⟨8, .fall, 30000⟩

/-- The kinds of the records in B's queue after G1's batch has been told to arrive, and then G0's. -/
def arrivals (e f : Edge) : List Kind :=
  ((then' (.recordArrival .B 0) (then' (.recordArrival .B 1) (twoTrips e f))).queue .B).records.map Record.kind

/-- R131 and R136: the records of one edge's two trip events keep their order, and those of two edges of one tick come in either. -/
theorem test_trip_records_keep_their_order :
    arrivals oneEdge oneEdge = [.trip .G0 (.place 0) 1] ∧
    arrivals otherEdge oneEdge = [.trip .G1 (.place 1) 1, .trip .G0 (.place 0) 1] := by decide +kernel

/-! ### Sessions (section 8.11) -/

/-- Section 8.11 at tick 51000: B's deadline is reached. -/
def overdue : State :=
  (at' 51000).setPort .B { Controller.reset with session := .isOpen, interval := 1000, deadline := some 51000 }

theorem test_lapse_begins :
    ((then' (.lapseExpiry .B) overdue).port .B).activity = .ending ⟨.lapse, .output 0, 0, 0, 0⟩ ∧
    ((then' (.lapseExpiry .B) overdue).port .B).deadline = none := by decide +kernel

/-- B's pulse 7/2 and C's dependent 11/0 of section 8.11. -/
def lapsing : State :=
  (ending .B .lapse (.output 4) { at' 51000 with
    agenda := agendaOf [(7, 2, { train with state := .armed .second 51050 51000, plan := { train.plan with output := 4 } }),
      (11, 0, { afterTrain with plan := { afterTrain.plan with output := 6, anchor := .entry ⟨7, 2⟩ 30 } })] [7] [11] }).setOutput 4
    { owner := some .B, waiting := [.C], level := true, safe := false, group := none }

theorem test_lapse_at_an_output :
    (then' (.sessionEndAtOutput .B 4) lapsing).transit =
      { a := [], b := [], c := [[msg (.entryCancelled ⟨11, 0⟩ 77 .anchorLost) 51000, msg (.claimGranted 4) 51000]] } ∧
    (then' (.sessionEndAtOutput .B 4) lapsing).output 4 =
      { owner := some .C, waiting := [], level := true, safe := false, group := none } := by decide +kernel

/-- R162: an expiry at an EXECUTING controller waits for the completion, which begins the lapse. -/
theorem test_lapse_waits_for_the_completion :
    let s := overdue.setPort .B { overdue.port .B with activity := .executing ⟨17, 0xC1, .answered ⟨.ok, .empty⟩⟩ }
    ((then' (.lapseExpiry .B) s).port .B).activity = (s.port .B).activity ∧
    ((then' (.requestCompletion .B) (then' (.lapseExpiry .B) s)).port .B).activity = .ending ⟨.lapse, .output 0, 0, 0, 0⟩ ∧
    ((then' (.requestCompletion .B) s).port .B).activity = .idle := by decide +kernel

theorem test_lapse_ends :
    ((then' (.sessionEndFinish .B) (ending .B .lapse .finish (at' 51000))).port .B).session = .lapsed ∧
    ((then' (.sessionEndFinish .B) (ending .B .lapse .finish (at' 51000))).port .B).activity = .idle := by decide +kernel

theorem test_return_from_a_lapse :
    result .B (.openSession .B) ((at' 51040).setPort .B
      { Controller.reset with session := .lapsed, interval := 1000, activity := .executing (flight .openSession) }) =
      some ⟨.ok, .opened 51040 .isOpen true false (some 52040)⟩ := by decide +kernel

/-! ### The link (sections 9.8, 10.1, 10.5; R167, R174) -/

theorem test_check_bytes : crc8 [1] = 7 ∧ crc8 [1, 7] = 0 := by decide +kernel

theorem test_fetch_frame :
    (Request.fetch 2).frame 21 = [0x05, 0x15, 0x39, 0x02, crc8 [0x05, 0x15, 0x39, 0x02]] ∧
    requestInRange .fetch [2] = some (.fetch 2) := by decide +kernel

theorem test_set_trip_source_operands :
    requestInRange .setTripSource [2, 3, 7, 2] = some (.setTripSource .G1 3 (some ⟨7, .low⟩)) ∧
    requestInRange .setTripSource [2, 3, 99, 0] = some (.setTripSource .G1 3 none) ∧
    requestInRange .setTripSource [0, 3, 7, 2] = none := by decide +kernel

theorem test_fetch_reply_bytes :
    (Body.fetched 0 [⟨.inputEdge 12 .rise, 0x0130, 0xC3500⟩, ⟨.trip .G1 (.place 2) 3, 0x0131, 0xC3500⟩]).bytes =
      [0x00, 0x00, 0x01, 0x01, 0x30, 0x00, 0x00, 0x0C, 0x35, 0x00, 0x0C, 0x01, 0, 0, 0, 0,
        0x13, 0x01, 0x31, 0x00, 0x00, 0x0C, 0x35, 0x00, 0x02, 0x12, 0x03, 0, 0, 0] := by decide +kernel

/-- Section 9.8 before transaction 2: FETCH 17 has been taken at the queue. -/
def fetching : State :=
  ((at' 9000).setPort .B
    { Controller.reset with
      session := .isOpen, interval := 2000, deadline := some 11000, last := some (16, 0x55)
      activity := .executing { seq := 17, check := 0xC1, stage := .answered ⟨.ok, .fetched 0 (edges 4 300)⟩ } }).setQueue .B
    { Queue.reset with intake := .accepting, records := edges 2 304, nextSeq := 306 }

theorem test_not_ready_header :
    (((then' (.transactionBegin .B) fetching).port .B).txn.map Txn.offered) =
      some [6, 17, 0xFE, 0x40, 2, crc8 [6, 17, 0xFE, 0x40, 2]] := by decide +kernel

theorem test_completion :
    let c := (then' (.requestCompletion .B) fetching).port .B
    c.activity = .idle ∧ c.last = some (17, 0xC1) ∧
    c.stored = { seq := 17, status := .ok, body := .fetched 0 (edges 4 300), queued := 2 } := by decide +kernel

/-- B is IDLE at a tick, with transaction `x` in progress. -/
def linked (t : Tick) (last : Byte × Byte) (x : Txn) : State :=
  (at' t).setPort .B
    { Controller.reset with
      session := .isOpen, interval := 2000, deadline := some 11000, last := some last, txn := some x
      stored := { seq := 17, status := .ok, body := .fetched 0 (edges 4 300), queued := 2 } }

theorem test_replay :
    let f := (Request.fetch 4).frame 17
    let c := (then' (.transactionEnd .B f) (linked 9020 (17, byteAt f 4) ⟨.judged, [], false⟩)).port .B
    c.activity = .idle ∧ c.deadline = some 11020 ∧ c.stored.seq = 17 := by decide +kernel

theorem test_bad_frame :
    let f := [4, 18, 3, crc8 [4, 18, 3] ^^^ 1]
    let c := (then' (.transactionEnd .B f) (linked 9030 (17, 0xC1) ⟨.judged, [], false⟩)).port .B
    c.linkErrors = 1 ∧ c.mark = true ∧ c.deadline = some 11000 := by decide +kernel

theorem test_straps :
    (then' (.deviceResetRelease true false) (then' .deviceReset State.reset)).supervisor = .C ∧
    (then' (.deviceResetRelease true true) (then' .deviceReset State.reset)).supervisor = .A := by decide +kernel

theorem test_table_words : decodeTableWord 8 0 = none ∧ State.reset.withFetchWord 8 0 = State.reset := by decide +kernel

/-! ### Witnesses: states and operands that meet the hypotheses of each statement, its clauses at the edges of their ranges -/

/-- RESET_N is low. -/
def low : State := then' .deviceReset State.reset

theorem witness_StepTakesTheFrontCommand :
    ({ State.reset with pending := [.prescalerAdvance, .dueReached] }).pending = .prescalerAdvance :: [.dueReached] ∧
    State.reset.pending = [] := by decide +kernel

theorem witness_StaleRequestChangesNothing :
    awaits State.reset .A .ping = false ∧ awaits (seat .A .ping (at' 5)) .A .status = false := by decide +kernel

theorem witness_SupervisorIsChosenAtTheRelease :
    low.resetLow = true ∧ State.reset.resetLow = false ∧
    (exec (.deviceResetRelease true false) low = .next (then' (.deviceResetRelease true false) low) ∧
      (then' (.deviceResetRelease true false) low).supervisor ≠ low.supervisor) ∧
    InFlight (seat .B .status (at' 5)) .B (flight .status) .status ∧
    InFlight (seat .A .openSession (at' 5)) .A (flight .openSession) .openSession :=
  ⟨by decide +kernel, by decide +kernel, ⟨rfl, by decide +kernel⟩, seated _ _ _, seated _ _ _⟩

theorem witness_PositionIsTheDistanceFromNow :
    position 0 (2 ^ 39) ≠ -(2 ^ 39 - 1) ∧ position 0 (2 ^ 39) = 2 ^ 39 ∧ position 0 (2 ^ 39 + 2) = -(2 ^ 39 - 2) ∧
    position 0 7 = position 0 7 := by decide

/-- The prescaler count one short of the divide value, and at it. -/
def counting (n : Byte) : State := { at' 1000 with timebase := { divideChange.timebase with count := n } }

theorem witness_PrescalerAndRolloverCountTime :
    low.resetLow = true ∧ ((counting 48).resetLow = false ∧ (counting 48).timebase.count < (counting 48).timebase.divide) ∧
    ((counting 49).resetLow = false ∧ (counting 49).timebase.divide ≤ (counting 49).timebase.count) ∧
    ((counting 50).timebase.divide ≤ (counting 50).timebase.count ∧ (low.timebase.divide ≤ low.timebase.count)) ∧
    ((at' 1000).resetLow = false ∧ (at' 1000).timebase.divide ≤ (at' 1000).timebase.count ∧ Settled (at' 1000)) :=
  ⟨by decide +kernel, by decide +kernel, by decide +kernel, by decide +kernel, rfl, by decide +kernel, rfl, rfl,
    (fun g _ h => by cases g <;> cases h), (fun p => by cases p <;> rfl)⟩

theorem witness_TickStepsEveryLine :
    (State.reset.resetLow = false ∧ State.reset.timebase.divide ≤ State.reset.timebase.count ∧
      (State.reset.line 15).settled = false) ∧
    (bounced.resetLow = false ∧ bounced.timebase.divide ≤ bounced.timebase.count) ∧
    ((bounced.line 4).settled = true ∧ (0x0000 : BitVec 16).getLsbD 4 = (bounced.line 4).qualified) ∧
    ((bounced.line 4).settled = true ∧ (0x0010 : BitVec 16).getLsbD 4 ≠ (bounced.line 4).qualified ∧
      (bounced.line 4).filter ≤ (bounced.line 4).stability) ∧
    (let s := withLine 205 4 { raw := true, qualified := false, stability := 2, filter := 3, settled := true }
     (s.line 4).settled = true ∧ (0x0010 : BitVec 16).getLsbD 4 ≠ (s.line 4).qualified ∧ (s.line 4).stability < (s.line 4).filter) := by
  decide +kernel

theorem witness_TickPublishesWhatQualified :
    bounced.resetLow = false ∧ bounced.timebase.divide ≤ bounced.timebase.count ∧ (bounced.line 4).settled = true ∧
    (State.reset.line 15).settled = false := by decide +kernel

theorem witness_FewSamplesPublishNoEdge :
    let r : LineRec := { raw := false, qualified := false, stability := 0, filter := 3, settled := true }
    r.settled = true ∧ r.stability = 0 ∧ [true, true].length < r.filter.toNat := by decide +kernel

theorem witness_SetDivideMeetsTheRollover :
    let s := seat .A (.setDivide 99) divideChange
    let u := then' (.setDivide .A 99) (then' (.tick 0) s)
    let x := { u with timebase := { u.timebase with count := u.timebase.divide } }
    (s.resetLow = false ∧ s.timebase.divide ≤ s.timebase.count ∧ InFlight s .A (flight (.setDivide 99)) (.setDivide 99)) ∧
    x.resetLow = false ∧ x.timebase = { u.timebase with count := u.timebase.divide } :=
  ⟨⟨by decide +kernel, by decide +kernel, seated _ _ _⟩, by decide +kernel, rfl⟩

/-- The agenda with A's entry 0/0, a SET on OUT1 due at 5000. -/
def armedOne : Agenda := acceptEntry 4000 .A plan 0 Agenda.reset

/-- The entry 0/0. -/
def entry0 : Entry := { owner := .A, plan := plan, runs := .left 1, fired := 0, state := .armed .first 5000 5000 }

/-- An entry of A that waits for a RISE on IN2. -/
def waitingPlan : Plan := { plan with anchor := .input 2 .rise 100, late := .run }

/-- The agenda with that entry in slot 0. -/
def waitingOne : Agenda := acceptEntry 4000 .A waitingPlan 0 Agenda.reset

theorem empty_agenda_ok : Agenda.reset.ok where
  armed i := by simp [Agenda.reset, Holds]
  waiting i := by simp [Agenda.reset, Holds]
  armedOnce := List.nodup_nil
  waitingOnce := List.nodup_nil
  live p := by simp [Agenda.reset, Holds]
  quotas := by decide
  anchored i e _ h := by simp [Agenda.reset] at h
  anchorLive i e _ _ h := by simp [Agenda.reset] at h
  anchorFirst := List.Pairwise.nil
  noSelf i h := by simp [Agenda.reset, dependents] at h

theorem armedOne_ok : armedOne.ok := acceptEntry_ok 4000 empty_agenda_ok (by simp [Agenda.reset]) rfl

theorem waitingOne_ok : waitingOne.ok := acceptEntry_ok 4000 empty_agenda_ok (by simp [Agenda.reset]) rfl

/-- The part at tick 4000 with entry 0/0, and A the owner of OUT1. -/
def withOne : State := owns .A 1 { at' 4000 with agenda := armedOne }

theorem withOne_entry : withOne.entry 0 = some entry0 ∧ (withOne.slot 0).gen = 0 ∧ (withOne.slot 0).gen ≠ 1 ∧ withOne.entry 95 = none ∧
    withOne.agenda.live.get .A = 1 := by decide +kernel

theorem witness_ReadingRequestsChangeNothing :
    InFlight (seat .A .ping (at' 5)) .A (flight .ping) .ping ∧ InFlight (seat .A .readTime (at' 5)) .A (flight .readTime) .readTime ∧
    InFlight (seat .A .status (at' 5)) .A (flight .status) .status ∧
    InFlight (seat .A .readInputs (at' 5)) .A (flight .readInputs) .readInputs ∧
    InFlight (seat .A .readOutputs (at' 5)) .A (flight .readOutputs) .readOutputs ∧
    (∀ h, InFlight (seat .B (.query h) withOne) .B (flight (.query h)) (.query h)) ∧
    (∀ h, (seat .B (.query h) withOne).entry 0 = some entry0 ∧ ((seat .B (.query h) withOne).slot 0).gen = 0 ∧
      ((seat .B (.query h) withOne).slot 0).gen ≠ 1 ∧ (seat .B (.query h) withOne).entry 95 = none) :=
  ⟨seated _ _ _, seated _ _ _, seated _ _ _, seated _ _ _, seated _ _ _, fun _ => seated _ _ _, fun _ =>
    ⟨withOne_entry.1, withOne_entry.2.1, withOne_entry.2.2.1, withOne_entry.2.2.2.1⟩⟩

theorem witness_ListWalksTheCallersOrder :
    (∀ k, InFlight (seat .A (.list k) withOne) .A (flight (.list k)) (.list k)) ∧ (seat .A (.list 0) withOne).agenda.ok ∧
    ((0 : Byte).toNat < (seat .A (.list 0) withOne).agenda.live.get .A) ∧
    (result .A (.list .A 0) (seat .A (.list 0) withOne)) = some ⟨.ok, .entries 4000 1 0 [⟨⟨0, 0⟩, entry0⟩]⟩ :=
  ⟨fun _ => seated _ _ _, armedOne_ok, by decide +kernel, by decide +kernel⟩

theorem witness_SettingRequestsWriteOneThing :
    (∀ r, InFlight (seat .A r (at' 5)) .A (flight r) r) ∧
    (∀ r, let quota := (seat .A r (at' 5)).agenda.quota.set .C (33 : Byte).toNat; 96 < quota.a + quota.b + quota.c) ∧
    (∀ r, let quota := (seat .A r (at' 5)).agenda.quota.set .C (32 : Byte).toNat; quota.a + quota.b + quota.c ≤ 96) :=
  ⟨fun _ => seated _ _ _, fun _ => by show 96 < 32 + 32 + 33; decide, fun _ => by show 32 + 32 + 32 ≤ 96; decide⟩

/-- Port B in a session, with an interval, and OPEN in flight. -/
def opening (x : Session) (interval : Count32) : State :=
  (at' 51040).setPort .B { Controller.reset with session := x, interval := interval, activity := .executing (flight .openSession) }

theorem witness_OpenBeginsTheSession :
    (∀ x n, InFlight (opening x n) .B (flight .openSession) .openSession ∧ ((opening x n).port .B).session = x ∧
      ((opening x n).port .B).interval = n) ∧ (1 : Count32) ≠ 0 :=
  ⟨fun _ _ => ⟨⟨rfl, rfl⟩, rfl, rfl⟩, by decide⟩

/-- Port A in the last step of a CLOSE, with a port reset held or not. -/
def closing (held : Bool) : State :=
  (at' 5).setPort .A
    { Controller.reset with
      session := .isOpen, resetHeld := held, activity := .executing ⟨9, 8, .closing ⟨.close, .finish, 1, 2, 3⟩⟩ }

/-- Port B in the last step of a session end, with a port reset held or not. -/
def finishing (k : EndKind) (held : Bool) : State :=
  (at' 5).setPort .B { Controller.reset with session := .isOpen, resetHeld := held, activity := .ending ⟨k, .finish, 0, 0, 0⟩ }

/-- B's deadline is reached while a request is in flight, and while a session end is in progress. -/
def overdueBusy (x : Activity) : State := overdue.setPort .B { overdue.port .B with activity := x }

theorem witness_SessionEndsBeginAndFinish :
    InFlight (seat .A .closeSession (at' 5)) .A (flight .closeSession) .closeSession ∧
    ((overdue.port .B).session = .isOpen ∧ (overdue.port .B).activity = .idle ∧ (overdue.port .B).deadline = some 51000 ∧
      reached overdue.now 51000 = true) ∧
    (∀ x, ((overdueBusy x).port .B).session = .isOpen ∧ ((overdueBusy x).port .B).activity = x ∧
      ((overdueBusy x).port .B).deadline = some 51000 ∧ reached (overdueBusy x).now 51000 = true) ∧
    (State.reset.port .B).session ≠ .isOpen ∧
    (∀ k held, ((finishing k held).port .B).activity = .ending ⟨k, .finish, 0, 0, 0⟩ ∧
      ((finishing k held).port .B).resetHeld = held) ∧
    (∀ held, ((closing held).port .A).activity = .executing ⟨9, 8, .closing ⟨.close, .finish, 1, 2, 3⟩⟩ ∧
      ((closing held).port .A).resetHeld = held) :=
  ⟨seated _ _ _, by decide +kernel, fun _ => ⟨rfl, rfl, rfl, by show reached 51000 51000 = true; decide⟩,
    by decide +kernel, fun _ _ => ⟨rfl, rfl⟩,
    fun _ => ⟨rfl, rfl⟩⟩

/-- B's queue with `n` system records and `k` general ones, in mode `m`. -/
def holding (n k : Nat) (m : QueueMode) : State :=
  (at' 9).setQueue .B
    { Queue.reset with
      records := (List.range n).map (fun i => { kind := .lapsed, seq := BitVec.ofNat 16 i, time := 0 }) ++ edges k 64
      intake := .accepting, mode := m, nextSeq := 200 }

theorem witness_SessionEndReachesTheQueueOnce :
    Ending (ending .B .close .queue (holding 64 0 .stop)) .B ⟨.close, .queue, 0, 0, 0⟩ ∧
    Ending (ending .B .lapse .queue (holding 64 0 .stop)) .B ⟨.lapse, .queue, 0, 0, 0⟩ ∧
    (((ending .B .lapse .queue (holding 64 0 .stop)).queue .B).intake = .accepting ∧
      ((ending .B .lapse .queue (holding 64 0 .stop)).queue .B).records.length = 64 ∧
      ((ending .B .lapse .queue (holding 64 0 .stop)).queue .B).records.all Record.isSystem = true ∧
      ((ending .B .lapse .queue (holding 64 0 .stop)).queue .B).mode = .stop) :=
  ⟨is_ending _ _ _ _, is_ending _ _ _ _, by decide +kernel⟩

theorem witness_SessionEndAtGroupOutcomes :
    (∀ s, Ending (ending .B .lapse (.group .G0) s) .B ⟨.lapse, .group .G0, 0, 0, 0⟩) ∧
    (let r := (ending .B .lapse (.group .G0) (trippedAt 30700 true .tripped none)).group .G0
     ¬(r.state = .releasing ∧ r.acked.set .B false = r.owed.set .B false)) ∧
    (let r := (ending .B .lapse (.group .G0) (trippedAt 30700 true .releasing none)).group .G0
     r.state = .releasing ∧ r.acked.set .B false = r.owed.set .B false) :=
  ⟨fun _ => is_ending _ _ _ _, by decide +kernel, by decide +kernel⟩

theorem lapsing_listed : Listed lapsing.agenda := by unfold Listed; decide +kernel

theorem witness_SessionEndAtOutputOutcomes :
    Ending lapsing .B ⟨.lapse, .output 4, 0, 0, 0⟩ ∧ (lapsing.output 4).owner = some .B ∧ Listed lapsing.agenda ∧
    Ending (ending .B .lapse (.output 11) handOver) .B ⟨.lapse, .output 11, 0, 0, 0⟩ ∧
    ((ending .B .lapse (.output 3) handOver).output 3).owner ≠ some .B :=
  ⟨by show endRunOf (lapsing.port .B) = _; decide +kernel, by decide +kernel, lapsing_listed, is_ending _ _ _ _, by decide +kernel⟩

theorem witness_SessionEndAtAgendaEmptiesThePort :
    Ending (ending .B .lapse .agenda lapsing) .B ⟨.lapse, .agenda, 0, 0, 0⟩ ∧
    Listed (ending .B .lapse .agenda lapsing).agenda := ⟨is_ending _ _ _ _, lapsing_listed⟩

/-- OUT3 with an owner and a waiting list. -/
def out3 (owner : Option Port) (waiting : List Port) (r : Request) : State :=
  seat .C r ((at' 8520).setOutput 3 { OutputRec.reset with owner := owner, waiting := waiting })

theorem witness_ClaimAndWithdrawOutcomes :
    (∀ o l r, InFlight (out3 o l r) .C (flight r) r) ∧
    (∀ r, ((out3 none [] r).output 3).owner = none ∧ Port.C ∉ ((out3 none [] r).output 3).waiting) ∧
    (∀ r, ((out3 (some .C) [.A] r).output 3).owner = some .C ∧ Port.C ∉ ((out3 (some .C) [.A] r).output 3).waiting) ∧
    (∀ r, ((out3 (some .A) [.B] r).output 3).owner = some .A ∧ Port.A ≠ .C ∧ Port.C ∉ ((out3 (some .A) [.B] r).output 3).waiting) ∧
    (∀ r, ((out3 (some .A) [.B, .C] r).output 3).owner = some .A ∧
      ((out3 (some .A) [.B, .C] r).output 3).waiting = [.B] ++ Port.C :: [] ∧ Port.C ∉ [Port.B] ∧ Port.C ∉ ([] : List Port)) :=
  ⟨fun _ _ _ => seated _ _ _, fun _ => ⟨rfl, by show Port.C ∉ []; decide⟩, fun _ => ⟨rfl, by show Port.C ∉ [Port.A]; decide⟩,
    fun _ => ⟨rfl, by decide, by show Port.C ∉ [Port.B]; decide⟩, fun _ => ⟨rfl, rfl, by decide, by decide⟩⟩

/-- The three requests at OUT9, which is forced by G1, at OUT1, which C owns, and at OUT0, which nobody owns. -/
def atOutputs (r : Request) : State := seat .C r (owns .C 1 tripped9)

theorem witness_WriteOutputAndSetSafeOutcomes :
    (∀ r, InFlight (atOutputs r) .C (flight r) r) ∧ (∀ r, ((atOutputs r).output 0).owner ≠ some .C) ∧
    (∀ r, ((atOutputs r).output 9).owner = some .C ∧ ((atOutputs r).output 9).group = some .G1 ∧
      ((atOutputs r).group .G1).state ≠ .normal) ∧
    (∀ r, ((atOutputs r).output 1).owner = some .C ∧ ∀ g, ((atOutputs r).output 1).group = some g →
      ((atOutputs r).group g).state = .normal) ∧
    (∀ r g, ((atOutputs r).output 1).group = some g ∨ some Group.G0 = some g → ((atOutputs r).group g).state = .normal) :=
  ⟨fun _ => seated _ _ _, fun _ => by show none ≠ _; decide, fun _ => ⟨rfl, rfl, by show GroupState.tripped ≠ _; decide⟩,
    fun _ => ⟨rfl, fun _ h => by cases h⟩, fun _ g h => by rcases h with h | h <;> cases h; rfl⟩

theorem handOver_listed : Listed handOver.agenda := by unfold Listed; decide +kernel

theorem witness_ReleaseHandsTheOutputOn :
    InFlight (seat .A (.release 3) handOver) .A (flight (.release 3)) (.release 3) ∧
    ((seat .A (.release 3) handOver).output 3).owner = some .A ∧ Listed (seat .A (.release 3) handOver).agenda ∧
    InFlight (seat .A (.release 7) handOver) .A (flight (.release 7)) (.release 7) ∧
    ((seat .A (.release 7) handOver).output 7).owner ≠ some .A :=
  ⟨seated _ _ _, by decide +kernel, handOver_listed, seated _ _ _, by decide +kernel⟩

theorem witness_ReclaimTakesTheOutput :
    (∀ o, InFlight (seat .A (.reclaim o) handOver) .A (flight (.reclaim o)) (.reclaim o)) ∧
    ((seat .A (.reclaim 0) handOver).output 0).owner = none ∧ ((seat .A (.reclaim 3) handOver).output 3).owner = some .A ∧
    (((seat .A (.reclaim 7) handOver).output 7).owner = some .C ∧ Port.C ≠ .A ∧ Listed (seat .A (.reclaim 7) handOver).agenda) :=
  ⟨fun _ => seated _ _ _, by decide +kernel, by decide +kernel, by decide +kernel, by decide, handOver_listed⟩

theorem witness_LevelActionsSetTheLevel :
    (applyLevel 1 .clear .first (startWork withOne)).st.output 1 = (startWork withOne).st.output 1 := by decide +kernel

/-! #### The agenda -/

/-- Every slot is taken, and A may take more. -/
def fullAgenda : Agenda :=
  { Agenda.reset with slots := .fill { gen := 0, entry := some { entry0 with owner := .B } }, live := ⟨31, 65, 0⟩ }

/-- Port `p`'s SUBMIT of `d` in flight. -/
def submitting (p : Port) (d : Plan) (s : State) : State := seat p (.submit d) s

/-- A plan on OUT1 that waits on entry 0/0. -/
def onEntry (gen : Byte) : Plan := { plan with anchor := .entry ⟨0, gen⟩ 10 }

/-- The part where A has as many entries as its quota, and where no slot is free. -/
def atQuota : State := owns .A 1 { at' 4000 with agenda := { armedOne with quota := ⟨1, 32, 32⟩ } }
def noSlot : State := owns .A 1 { at' 4000 with agenda := fullAgenda }

theorem withOne_free : withOne.entry 1 = none ∧ (∀ j : SlotNo, j < 1 → withOne.entry j ≠ none) ∧
    (withOne.output 1).owner = some .A ∧ forced withOne 1 = false ∧
    withOne.agenda.live.get .A < withOne.agenda.quota.get .A := by decide +kernel

theorem witness_SubmitChecksAndPlacesTheEntry :
    (∀ p d s, InFlight (submitting p d s) p (flight (.submit d)) (.submit d)) ∧
    ((submitting .A plan (at' 4000)).output 1).owner ≠ some .A ∧
    (((submitting .C { plan with output := 9 } tripped9).output 9).owner = some .C ∧
      forced (submitting .C { plan with output := 9 } tripped9) 9 = true) ∧
    (let s := submitting .A (onEntry 1) withOne
     (s.output 1).owner = some .A ∧ forced s 1 = false ∧ (liveEntry s.agenda ⟨0, 1⟩).isSome = false) ∧
    (let s := submitting .A (onEntry 0) atQuota
     (s.output 1).owner = some .A ∧ forced s 1 = false ∧ (liveEntry s.agenda ⟨0, 0⟩).isSome = true ∧
       s.agenda.quota.get .A ≤ s.agenda.live.get .A) ∧
    (let s := submitting .A plan noSlot
     (s.output 1).owner = some .A ∧ forced s 1 = false ∧ s.agenda.live.get .A < s.agenda.quota.get .A ∧ ∀ i, s.entry i ≠ none) ∧
    (let s := submitting .A { plan with anchor := .absolute 4000 } withOne
     reached s.now 4000 = true ∧ reached s.now 4001 = false ∧ (s.output 1).owner = some .A ∧ forced s 1 = false ∧
       s.agenda.live.get .A < s.agenda.quota.get .A ∧ s.entry 1 = none ∧ ∀ j : SlotNo, j < 1 → s.entry j ≠ none) :=
  ⟨fun _ _ _ => seated _ _ _, by decide +kernel, by decide +kernel, by decide +kernel, by decide +kernel, by decide +kernel,
    by decide +kernel⟩

theorem witness_SubmitAccepts :
    ∀ d, InFlight (submitting .A d withOne) .A (flight (.submit d)) (.submit d) ∧
      ((submitting .A d withOne).output 1).owner = some .A ∧ forced (submitting .A d withOne) 1 = false ∧
      (submitting .A d withOne).agenda.live.get .A < (submitting .A d withOne).agenda.quota.get .A ∧
      (submitting .A d withOne).agenda.ok ∧ (submitting .A d withOne).entry 1 = none ∧
      ∀ j : SlotNo, j < 1 → (submitting .A d withOne).entry j ≠ none := fun _ =>
  ⟨seated _ _ _, withOne_free.2.2.1, withOne_free.2.2.2.1, withOne_free.2.2.2.2, armedOne_ok, withOne_free.1, withOne_free.2.1⟩

theorem witness_SubmitFiresAtOnce :
    let d := { plan with anchor := .absolute 4000, late := .run }
    let s := seat .A (.submit d) withOne
    InFlight s .A (flight (.submit d)) (.submit d) ∧
    ((s.output d.output).owner = some .A ∧ forced s d.output = false ∧ s.agenda.live.get .A < s.agenda.quota.get .A) ∧
    s.agenda.ok ∧ (∀ j ∈ s.agenda.armed, 0 < slotPosition s.agenda s.now j) ∧ reached s.now 4000 = true ∧
    (s.entry 1 = none ∧ ∀ j : SlotNo, j < 1 → s.entry j ≠ none) :=
  ⟨seated _ _ _, by decide +kernel, armedOne_ok, by decide +kernel, by decide +kernel, by decide +kernel⟩

theorem witness_CancelTakesTheDependents :
    (∀ p h, InFlight (seat p (.cancel h) withOne) p (flight (.cancel h)) (.cancel h)) ∧ liveEntry withOne.agenda ⟨0, 1⟩ = none ∧
    (liveEntry withOne.agenda ⟨0, 0⟩ = some entry0 ∧ entry0.owner = .A ∧ entry0.owner ≠ .B) ∧ withOne.agenda.ok :=
  ⟨fun _ _ => seated _ _ _, by decide +kernel, by decide +kernel, armedOne_ok⟩

/-- An edge that arms the waiting entry, and one that does not. -/
def edgesComing : State :=
  { at' 4000 with agenda := waitingOne, published := { Published.reset with agenda := [⟨2, .rise, 4000⟩, ⟨3, .rise, 4000⟩] } }

theorem witness_EdgeArmsTheWaitingEntries :
    (⟨2, .rise, 4000⟩ ∈ edgesComing.published.agenda ∧ ⟨3, .rise, 4000⟩ ∈ edgesComing.published.agenda) ∧ edgesComing.agenda.ok ∧
    armedByEdge ⟨2, .rise, 4000⟩ edgesComing.agenda = [0] ∧ armedByEdge ⟨3, .rise, 4000⟩ edgesComing.agenda = [] ∧
    reachedHead 4000 (then' (.edgeAtAgenda ⟨2, .rise, 4000⟩) edgesComing).agenda = none :=
  ⟨by decide +kernel, waitingOne_ok, by decide +kernel, by decide +kernel, by decide +kernel⟩

theorem witness_FiringAdvancesTheEntry :
    (∃ e, (trainAt 7100 { train with state := .armed .first 7100 7100 }).entry 5 = some e ∧ e.state = .armed .first 7100 7100 ∧
      e.plan.action = .pulse 20) ∧
    (∃ e, (trainAt 7120 { train with state := .armed .second 7120 7100, runs := .left 2 }).entry 5 = some e ∧
      e.state = .armed .second 7120 7100 ∧ e.plan.action = .pulse 20 ∧ e.runs = .left 2 ∧ e.plan.period = some 50) ∧
    (withOne.entry 0 = some entry0 ∧ entry0.state = .armed .first 5000 5000 ∧ (∀ width, entry0.plan.action ≠ .pulse width) ∧
      ¬(entry0.runs = .free ∨ ∃ n, entry0.runs = .left n ∧ 1 < n) ∧ withOne.agenda.ok) :=
  ⟨⟨_, rfl, rfl, rfl⟩, ⟨_, rfl, rfl, rfl, rfl, rfl⟩, withOne_entry.1, rfl, (fun _ h => by cases h),
    (fun h => by rcases h with h | ⟨n, h, hn⟩ <;> cases h; revert hn; decide), armedOne_ok⟩

/-- Entry 0/0 at its due. -/
def dueOne : State := { withOne with timebase := { Timebase.reset with tick := 5000 } }

theorem entry0_moves : entry0.moves :=
  ⟨⟨(fun _ h => by cases h), (fun h => absurd h (by decide))⟩, rfl⟩

theorem dueOne_moves (i : SlotNo) (e : Entry) (h : dueOne.entry i = some e) : e.moves := by
  have hall : ∀ i, dueOne.entry i = none ∨ dueOne.entry i = some entry0 := by decide +kernel
  rcases hall i with h' | h' <;> rw [h'] at h <;> cases h
  exact entry0_moves

theorem witness_PassFiresEveryReachedDue :
    reachedHead State.reset.now State.reset.agenda = none ∧
    ((startWork dueOne).st.agenda.ok ∧ (∀ i e, (startWork dueOne).st.entry i = some e → e.moves) ∧
      reachedHead 5000 (startWork dueOne).st.agenda = some 0 ∧ ArmedSorted 5000 (startWork dueOne).st.agenda) :=
  ⟨rfl, armedOne_ok, dueOne_moves, by decide +kernel, List.pairwise_singleton _ _⟩

theorem witness_PlacementKeepsTheDueOrder :
    ({ entry0 with state := .armed .first 5000 5000 } : Entry).state = .armed .first 5000 5000 ∧ ArmedSorted 4000 armedOne ∧
    armedOne.armed = [0] := ⟨rfl, List.pairwise_singleton _ _, by decide +kernel⟩

/-! #### Trip groups -/

/-- G0 of section 6.10 with a second HIGH source behind a first, and changes to be taken. -/
def changes : State :=
  let s := guarded 30000 false
  { s.setGroup .G0 { s.group .G0 with sources := ((s.group .G0).sources.set 2 (some ⟨7, .high⟩)).set 3 (some ⟨7, .fall⟩) } with
    published := { Published.reset with groups := ⟨[⟨7, .fall, 30000⟩, ⟨7, .rise, 30000⟩, ⟨1, .rise, 30000⟩], []⟩
                                        settling := ⟨[⟨5, 30000⟩, ⟨7, 30000⟩], []⟩ } }

theorem witness_EdgesCauseFromTheLowestPlace :
    (⟨7, .fall, 30000⟩ ∈ changes.published.groups.get .G0 ∧ ⟨1, .rise, 30000⟩ ∈ changes.published.groups.get .G0) ∧
    (changes.group .G0).sources = ⟨[some ⟨7, .low⟩, some ⟨8, .rise⟩, some ⟨7, .high⟩, some ⟨7, .fall⟩], rfl⟩ ∧
    (changes.published.settling.get .G0 = [⟨5, 30000⟩] ++ ⟨7, 30000⟩ :: [] ∧ (5 : Line) ≠ 7 ∧
      changes.published.settling.get .G0 = [] ++ ⟨5, 30000⟩ :: [⟨7, 30000⟩]) := by decide +kernel

theorem witness_CausesTripAndRenewTheTrip :
    Listed (guarded 30000 false).agenda ∧ ((guarded 30000 false).group .G0).state = .normal ∧
    Listed (trippedAt 30600 true .releasing none).agenda ∧
    ((trippedAt 30600 true .releasing none).group .G0).state ≠ .normal ∧
    InFlight (seat .A (.trip .G1) (at' 5)) .A (flight (.trip .G1)) (.trip .G1) :=
  ⟨by unfold Listed; decide +kernel, by decide +kernel, by unfold Listed; decide +kernel, by decide +kernel, seated _ _ _⟩

theorem witness_ReleaseDeadlineFallsBack :
    (let s := trippedAt 30950 true .releasing (some 30950)
     (s.group .G0).state = .releasing ∧ (s.group .G0).deadline = some 30950 ∧ reached s.now 30950 = true) ∧
    (let s := trippedAt 30949 true .releasing (some 30950)
     (s.group .G0).state = .releasing ∧ deadlineReached s.now (s.group .G0).deadline = false) ∧
    (State.reset.group .G0).state ≠ .releasing := by decide +kernel

/-- `p`'s request `r` at G0 in a state of section 6.10. -/
def atGroup (p : Port) (r : Request) (x : GroupState) (door : Bool) : State := seat p r (trippedAt 30700 door x none)

theorem witness_AckTripOutcomes :
    (∀ p r x d, InFlight (atGroup p r x d) p (flight r) r) ∧
    (∀ p, ((atGroup p (.ackTrip .G0) .normal true).group .G0).state = .normal) ∧
    (let r := (atGroup .C (.ackTrip .G0) .tripped true).group .G0
     r.state ≠ .normal ∧ r.owed.get .C = false) ∧
    (let r := (atGroup .A (.ackTrip .G0) .releasing true).group .G0
     r.state ≠ .normal ∧ r.owed.get .A = true ∧ ¬(r.state = .releasing ∧ r.acked.set .A true = r.owed)) ∧
    (let r := (atGroup .B (.ackTrip .G0) .releasing true).group .G0
     r.state = .releasing ∧ r.owed.get .B = true ∧ r.acked.set .B true = r.owed) :=
  ⟨fun _ _ _ _ => seated _ _ _, fun _ => rfl, by decide +kernel, by decide +kernel, by decide +kernel⟩

/-- A level source of a group is active. -/
def HasActive (s : State) (g : Group) : Prop :=
  ∃ i line, ((s.group g).sources.get i = some ⟨line, .high⟩ ∧ (s.line line).qualified = true) ∨
    ((s.group g).sources.get i = some ⟨line, .low⟩ ∧ (s.line line).qualified = false)

theorem witness_ClearTripOutcomes :
    (∀ p r x d, InFlight (atGroup p r x d) p (flight r) r ∧ ((atGroup p r x d).group .G0).state = x) ∧
    (∀ p r x, HasActive (atGroup p r x false) .G0) ∧ (∀ p r x, ¬HasActive (atGroup p r x true) .G0) ∧
    (let r := (atGroup .C (.clearTrip .G0 false) .tripped true).group .G0
     r.acked ≠ r.owed ∧ r.acked.set .B true = r.owed) :=
  ⟨fun _ _ _ _ => ⟨seated _ _ _, rfl⟩, fun _ _ _ => ⟨0, 7, .inr ⟨rfl, rfl⟩⟩, fun p r x h => by
    have hs : ∀ i line, ((guarded 30700 true).group .G0).sources.get i = some ⟨line, .low⟩ →
        ((guarded 30700 true).line line).qualified ≠ false := by decide +kernel
    have hh : ∀ i line, ((guarded 30700 true).group .G0).sources.get i ≠ some ⟨line, .high⟩ := by decide +kernel
    obtain ⟨i, line, ⟨h1, _⟩ | ⟨h1, h2⟩⟩ := h
    · exact hh i line h1
    · exact hs i line h1 h2, by decide +kernel⟩

theorem witness_SetTripSourceOutcomes :
    (∀ r, InFlight (seat .C r (guarded 30000 true)) .C (flight r) r) ∧
    (∀ r, ∃ line, (some (⟨7, .high⟩ : Source) = some ⟨line, .high⟩ ∧ ((seat .C r (guarded 30000 true)).line line).qualified = true) ∨
      (some (⟨7, .high⟩ : Source) = some ⟨line, .low⟩ ∧ ((seat .C r (guarded 30000 true)).line line).qualified = false)) ∧
    (∀ r, ¬∃ line, (some (⟨7, .rise⟩ : Source) = some ⟨line, .high⟩ ∧ ((seat .C r (guarded 30000 true)).line line).qualified = true) ∨
      (some (⟨7, .rise⟩ : Source) = some ⟨line, .low⟩ ∧ ((seat .C r (guarded 30000 true)).line line).qualified = false)) :=
  ⟨fun _ => seated _ _ _, fun _ => ⟨7, .inl ⟨rfl, rfl⟩⟩, fun _ h => by
    obtain ⟨line, ⟨h, _⟩ | ⟨h, _⟩⟩ := h <;> cases h⟩

/-! #### Queues -/

/-- `holding`, with a record of each class on its way. -/
def coming (n k : Nat) (m : QueueMode) : State :=
  { holding n k m with transit := ⟨[], [[msg (.inputEdge 1 .rise) 9], [msg .lapsed 9, msg (.tripCleared .G0) 9]], []⟩ }

theorem witness_ArrivalsAreAdmittedOrOverflow :
    (∀ n k m, (coming n k m).transit.get .B = [] ++ (msg (.inputEdge 1 .rise) 9 :: []) :: [[msg .lapsed 9, msg (.tripCleared .G0) 9]] ∧
      (coming n k m).transit.get .B = [[msg (.inputEdge 1 .rise) 9]] ++ (msg .lapsed 9 :: [msg (.tripCleared .G0) 9]) :: []) ∧
    (State.reset.queue .B).intake = .shut ∧
    (∀ n k m, ((coming n k m).queue .B).intake = .accepting ∧ ((coming n k m).queue .B).mode = m) ∧
    ((holding 10 45 .stop).queue .B).records.length = 55 ∧ ((holding 10 46 .stop).queue .B).records.length = 56 ∧
    ((holding 20 43 .ring).queue .B).records.length = 63 ∧ ((holding 20 44 .ring).queue .B).records.length = 64 := by
  refine ⟨fun _ _ _ => ⟨rfl, rfl⟩, rfl, fun _ _ _ => ⟨rfl, rfl⟩, ?_⟩
  decide +kernel

/-- G1's batch waits behind G0's on the same edge; not behind one on another edge, on no edge, of G1 itself, or at the head. -/
theorem witness_BatchesWaitForTheOtherGroup :
    ((twoTrips oneEdge oneEdge).transit.get .B = [[tripOn oneEdge .G0 0]] ++ (tripOn oneEdge .G1 1 :: []) :: [[msg .lapsed 30000]] ∧
      Group.G0 ≠ Group.G1 ∧ (tripOn oneEdge .G0 0).edge = some oneEdge ∧ (tripOn oneEdge .G1 1).edge = some oneEdge) ∧
    batchWaits [[tripOn oneEdge .G0 0], [tripOn oneEdge .G1 1]] 1 = true ∧
    batchWaits [[tripOn otherEdge .G0 0], [tripOn oneEdge .G1 1]] 1 = false ∧
    batchWaits [[msg (.trip .G0 (.place 0) 1) 30000], [tripOn oneEdge .G1 1]] 1 = false ∧
    batchWaits [[tripOn oneEdge .G1 0], [tripOn oneEdge .G1 1]] 1 = false ∧
    batchWaits [[tripOn oneEdge .G0 0], [tripOn oneEdge .G1 1]] 0 = false :=
  ⟨⟨rfl, by decide, rfl, rfl⟩, by decide +kernel⟩

/-- The shapes of a full list that the overflow rules name. -/
theorem witness_FullLists :
    (∃ older x newer, ((holding 20 44 .stop).queue .B).records = older ++ x :: newer ∧ x.isGeneral = true ∧
      newer.all Record.isSystem = true) ∧
    (∃ older x newer, ((holding 20 44 .ring).queue .B).records = older ++ x :: newer ∧ x.isGeneral = true ∧
      older.all Record.isSystem = true) ∧
    ((holding 64 0 .stop).queue .B).records.all Record.isSystem = true ∧
    (∃ x newer, ((holding 64 0 .ring).queue .B).records = x :: newer) := by
  refine ⟨⟨((holding 20 44 .stop).queue .B).records.take 63, { kind := .inputEdge 12 .rise, seq := 107, time := 0 }, [], ?_, rfl, rfl⟩,
    ⟨((holding 20 44 .ring).queue .B).records.take 20, { kind := .inputEdge 12 .rise, seq := 64, time := 0 },
      ((holding 20 44 .ring).queue .B).records.drop 21, ?_, rfl, ?_⟩, ?_, ⟨_, _, rfl⟩⟩ <;> decide +kernel

theorem witness_EdgeReachesTheSubscribedQueue :
    ⟨2, .rise, 1300⟩ ∈ oneShot.published.queues.get .A ∧
    ((oneShot.queue .A).row.get 2 = { edge := .rise, oneShot := true } ∧ (oneShot.queue .A).row.get 3 = Cell.off) ∧
    (let s := then' (.subscribe .A 2 .both false) (seat .A (.subscribe 2 .both false) oneShot)
     ⟨2, .rise, 1300⟩ ∈ s.published.queues.get .A ∧ (s.queue .A).row.get 2 = { edge := .both, oneShot := false }) := by
  decide +kernel

theorem witness_FetchAndAttentionFollowTheList :
    (∀ n, InFlight (seat .B (.fetch n) (stormy .ring 164)) .B (flight (.fetch n)) (.fetch n)) ∧
    ((stormy .ring 164).queue .B).attention = true ∧
    (let q := (holding 20 44 .ring).queue .B
     q.intake = .accepting ∧ ¬q.records.length < 64 ∧ 0 < q.records.countP Record.isGeneral) ∧
    ((holding 63 0 .ring).queue .B).records.length < 64 :=
  ⟨fun _ => seated _ _ _, by decide +kernel, by decide +kernel, by decide +kernel⟩

/-! #### The link -/

theorem witness_TransactionBeginFixesMiso :
    low.resetLow = true ∧
    ((at' 5).resetLow = false ∧ ((at' 5).port .A).txn = none ∧ ((at' 5).port .A).prstLow = false ∧ ((at' 5).port .A).activity = .idle) ∧
    (((then' (.portReset .A) (at' 5)).port .A).prstLow = true ∧ ((then' (.portReset .A) (at' 5)).port .A).txn = none) ∧
    ((fetching.port .B).txn = none ∧ (fetching.port .B).activity =
      .executing { seq := 17, check := 0xC1, stage := .answered ⟨.ok, .fetched 0 (edges 4 300)⟩ }) ∧
    (((ending .A .lapse .agenda (at' 5)).port .A).txn = none ∧ ((ending .A .lapse .agenda (at' 5)).port .A).activity =
      .ending ⟨.lapse, .agenda, 0, 0, 0⟩) := by decide +kernel

theorem witness_FramesAreJudgedByLengthAndCheck :
    (3 : Byte) ≠ 0 ∧ (32 : Byte) ≠ 0 ∧ ([] : List Byte).length ≤ 28 ∧ (List.replicate 28 (0 : Byte)).length ≤ 28 ∧
    judge [3, 9, crc8 [3, 9]] ≠ .linkError ∧ judge [2, 9] = .linkError ∧ judge [33] = .linkError := by decide +kernel

/-- A new request on the link of an IDLE port B. -/
def arriving (mode : TxnMode) (marked : Bool) : State := linked 9020 (17, 0xC1) ⟨mode, [], marked⟩

theorem witness_TransactionEndTakesUpTheBytes :
    (∀ mode marked, ((arriving mode marked).port .B).txn = some ⟨mode, [], marked⟩ ∧
      ((arriving mode marked).port .B).activity = .idle ∧ ((arriving mode marked).port .B).last = some (17, 0xC1)) ∧
    judge [] = .poll ∧ judge [4, 18, 3, 0] = .linkError ∧
    judge [4, 18, 3, crc8 [4, 18, 3]] = .frame 18 (crc8 [4, 18, 3]) (some 3) [] ∧ some ((17 : Byte), (0xC1 : Byte)) ≠ some (18, crc8 [4, 18, 3]) :=
  ⟨fun _ _ => ⟨rfl, rfl, rfl⟩, by decide +kernel, by decide +kernel, by decide +kernel, by decide +kernel⟩

theorem witness_ReplayIsAnsweredFromTheStoredReply :
    let f := (Request.fetch 4).frame 17
    let s := linked 9020 (17, byteAt f 4) ⟨.judged, [], false⟩
    let x : Txn := ⟨.judged, [], false⟩
    ((s.port .B).txn = some x ∧ x.mode = .judged ∧ (s.port .B).activity = .idle ∧ (s.port .B).prstLow = false ∧ s.resetLow = false ∧
      judge f = .frame 17 (byteAt f 4) (some 0x39) [4] ∧ (17 : Byte) ≠ 0 ∧ (s.port .B).last = some (17, byteAt f 4)) ∧
    (judge [4, 0, 3, crc8 [4, 0, 3]] = .frame 0 (crc8 [4, 0, 3]) (some 3) []) ∧
    ((s.port .B).last ≠ some (17, byteAt ((Request.fetch 2).frame 17) 4)) ∧
    ((fetching.port .B).activity = .executing { seq := 17, check := 0xC1, stage := .answered ⟨.ok, .fetched 0 (edges 4 300)⟩ } ∧
      (fetching.port .B).resetHeld = false) := by decide +kernel

theorem witness_AcceptanceChecksInOrder :
    (∀ c : Code, c.byte ≠ 0x06) ∧ [1].length ≠ Code.ping.operandBytes ∧
    (([] : List Byte).length = Code.fetch.operandBytes - 1 ∧ [4].length = Code.fetch.operandBytes) ∧
    Code.fetch ∉ [Code.openSession, .status, .readTime] ∧ Code.ping ∉ [Code.openSession, .closeSession, .status, .readTime, .fetch] ∧
    Code.setDivide ∈ [Code.setDivide, .setFilter, .reclaim, .setSafe, .setQuota, .setTripSource, .setReleaseWindow, .clearTrip] ∧
    requestInRange .fetch [5] = none ∧ requestInRange .fetch [4] = some (.fetch 4) :=
  ⟨fun c => by cases c <;> decide, by decide, by decide, by decide, by decide, by decide, by decide +kernel, by decide +kernel⟩

/-- For each request: operand bytes at the ends of their ranges that go to its block, and the first ones that do not. -/
theorem witness_BadOperandBytesAreRefused :
    let answer := fun (c : Code) (ops : List Byte) => acceptance .isOpen true (some c.byte) ops
    let bad := fun c ops => answer c ops = .answered ⟨.badArgument, .empty⟩
    (bad .setFilter [0, 0, 9] ∧ answer .setFilter [0, 1, 9] = .awaiting (.setFilter 1 9)) ∧
    (bad .claim [12, 0] ∧ bad .claim [11, 2] ∧ answer .claim [11, 1] = .awaiting (.claim 11 true)) ∧
    (bad .setSafe [11, 1, 3] ∧ answer .setSafe [11, 1, 2] = .awaiting (.setSafe 11 true (some .G1))) ∧
    (bad .query [96, 0] ∧ answer .query [95, 9] = .awaiting (.query ⟨95, 9⟩)) ∧
    (bad .setQuota [2, 97] ∧ bad .setQuota [3, 96] ∧ answer .setQuota [2, 96] = .awaiting (.setQuota .C 96)) ∧
    (bad .trip [0] ∧ bad .trip [3] ∧ answer .trip [2] = .awaiting (.trip .G1)) ∧
    (bad .setTripSource [1, 3, 16, 4] ∧ bad .setTripSource [1, 4, 15, 4] ∧ bad .setTripSource [1, 3, 15, 5] ∧
      answer .setTripSource [1, 3, 16, 0] = .awaiting (.setTripSource .G0 3 none)) ∧
    (bad .subscribe [15, 4, 0] ∧ answer .subscribe [15, 3, 1] = .awaiting (.subscribe 15 .both true)) ∧
    (bad .fetch [0] ∧ bad .fetch [5] ∧ answer .fetch [1] = .awaiting (.fetch 1) ∧ answer .fetch [4] = .awaiting (.fetch 4)) ∧
    (bad .setQueue [1, 0] ∧ bad .setQueue [1, 65] ∧ answer .setQueue [1, 64] = .awaiting (.setQueue .ring 64)) := by
  decide +kernel

/-- SUBMIT's operand bytes: a width that is the period, and an unread width. -/
theorem witness_BadSubmitBytesAreRefused :
    let ops := fun (action width runs anchor line edge : Byte) =>
      [5, action, 0, 1, anchor, runs, 0, 2, 0, 0, 0, width, 0, 0, 0, 50, line, edge, 0, 0, 0, 100]
    let answer := fun o => acceptance .isOpen true (some Code.submit.byte) o
    (ops 3 20 3 1 3 1).length = Code.submit.operandBytes ∧
    answer (ops 3 50 3 1 3 1) = .answered ⟨.badArgument, .empty⟩ ∧ answer (ops 3 0 3 1 3 1) = .answered ⟨.badArgument, .empty⟩ ∧
    answer (ops 3 20 3 1 3 0) = .answered ⟨.badArgument, .empty⟩ ∧ answer (ops 3 20 3 1 16 1) = .answered ⟨.badArgument, .empty⟩ ∧
    (requestInRange .submit (ops 3 49 3 1 15 3)).isSome = true ∧ (requestInRange .submit (ops 0 0 3 1 15 3)).isSome = true ∧
    (requestInRange .submit (ops 3 50 0 1 15 3)).isSome = true := by decide +kernel

/-- B's request has its result; its deadline, an expiry held or not, and a port reset held or not. -/
def completing (deadline : Option Tick) (lapse held : Bool) (x : Session) : State :=
  (at' 9000).setPort .B
    { Controller.reset with
      session := x, interval := 2000, deadline := deadline, lapseHeld := lapse, resetHeld := held
      activity := .executing { seq := 17, check := 0xC1, stage := .answered ⟨.ok, .empty⟩ } }

theorem witness_CompletionStoresTheReply :
    (∀ d l h x, ((completing d l h x).port .B).activity = .executing { seq := 17, check := 0xC1, stage := .answered ⟨.ok, .empty⟩ } ∧
      ((completing d l h x).port .B).resetHeld = h ∧ ((completing d l h x).port .B).lapseHeld = l ∧
      ((completing d l h x).port .B).session = x ∧ ((completing d l h x).port .B).deadline = d ∧ (completing d l h x).now = 9000) ∧
    reached 9000 9000 = true ∧ reached 9000 9001 = false ∧
    (((seat .B .ping (at' 5)).port .B).activity = .executing (flight .ping) ∧ ∀ a, (flight .ping).stage ≠ .answered a) ∧
    (∀ f, ((at' 5).port .B).activity ≠ .executing f) :=
  ⟨fun _ _ _ _ => ⟨rfl, rfl, rfl, rfl, rfl, rfl⟩, by decide, by decide, ⟨by decide +kernel, fun _ h => by cases h⟩,
    fun _ h => by cases h⟩

theorem witness_PortResetOutcomes :
    ((at' 5).resetLow = false ∧ ((at' 5).port .A).prstLow = false ∧ ((at' 5).port .A).activity = .idle ∧
      ((at' 5).port .A).session ≠ .closed) ∧
    ((State.reset.port .A).activity = .idle ∧ (State.reset.port .A).session = .closed) ∧
    (fetching.resetLow = false ∧ (fetching.port .B).prstLow = false ∧ (fetching.port .B).activity ≠ .idle) ∧
    ((then' (.portReset .A) (at' 5)).port .A).prstLow = true ∧ (low.resetLow = true ∧ (low.port .A).prstLow = false) := by
  decide +kernel

theorem witness_SetLapseSetsTheDeadline :
    ∀ n, InFlight (seat .A (.setLapse n) (at' 5)) .A (flight (.setLapse n)) (.setLapse n) := fun _ => seated _ _ _

theorem witness_DeadlinesAreRestartedByTheseEvents :
    ∃ t, exec (.setLapse .A 1000) (seat .A (.setLapse 1000) (at' 5)) = .next t ∧ (t.port .A).deadline = some 1005 :=
  ⟨_, rfl, by decide +kernel⟩

theorem witness_CheckByteIsTheRemainder :
    (3 ≤ (3 : Byte).toNat ∧ (3 : Byte).toNat ≤ 32 ∧ [(9 : Byte)].length + 2 = (3 : Byte).toNat ∧ crc8 [3, 9] + 1 ≠ crc8 [3, 9]) ∧
    ((32 : Byte).toNat ≤ 32 ∧ (List.replicate 30 (0 : Byte)).length + 2 = (32 : Byte).toNat ∧
      crc8 (32 :: List.replicate 30 0) + 1 ≠ crc8 (32 :: List.replicate 30 0)) := by decide +kernel

theorem witness_RequestFrameRoundTrip :
    (Request.list 95).wellFormed = true ∧ (Request.submit lateTrain).wellFormed = true ∧
    (Request.submit { train.plan with runs := .free }).wellFormed = true ∧ (Request.setQueue .ring 64).wellFormed = true ∧
    (Request.setFilter 0xFFFF 255).wellFormed = true := by decide +kernel

/-! #### The invariants -/

/-- Entry 0/0 is due, and the pass is in front of the queue. -/
def running : State := { dueOne with pending := [.dueReached] }

theorem running_entry (i : SlotNo) (e : Entry) (h : running.entry i = some e) : i = 0 ∧ e = entry0 := by
  have hall : ∀ i, running.entry i = none ∨ (i = 0 ∧ running.entry i = some entry0) := by decide +kernel
  rcases hall i with h' | ⟨hi, h'⟩ <;> rw [h'] at h <;> cases h
  exact ⟨hi, rfl⟩

theorem witness_EveryStepKeepsTheAgenda :
    step running = .next (then' .dueReached dueOne) ∧ running.agenda.ok ∧ Timely running ∧
    ∀ p, (running.port p).ok running.supervisor p :=
  ⟨rfl, armedOne_ok,
    { moves := fun i e h => by rw [(running_entry i e h).2]; exact entry0_moves
      sorted := List.pairwise_singleton _ _
      edges := fun _ h => by cases h },
    fun p => by
      cases p <;>
        exact { activity := trivial, deadline := (fun h => by cases h), interval := (fun h => by cases h), held := (fun h => by cases h)
                lapse := (fun h => by cases h) }⟩

theorem running_protected : Protected running where
  listed := armedOne_ok.listed
  owned i e h := by rw [(running_entry i e h).2]; decide +kernel
  unforced i e h := by rw [(running_entry i e h).2]; decide +kernel
  safe := by decide +kernel

theorem running_holds (p : Port) : SessionHolds running p where
  closed h := by cases p <;> cases h
  notOpen h := by cases p <;> exact absurd rfl h
  ending run h := by cases p <;> cases h

theorem witness_EveryStepKeepsForcedOutputsSafe :
    Protected running ∧ step running = .next (then' .dueReached dueOne) := ⟨running_protected, rfl⟩

theorem witness_EveryStepKeepsTheControllers :
    (∀ p, (running.port p).ok running.supervisor p) ∧ HeldInReset running ∧ step running = .next (then' .dueReached dueOne) :=
  ⟨witness_EveryStepKeepsTheAgenda.2.2.2, (fun h => by cases h), rfl⟩

theorem witness_EveryStepKeepsLinesAndOutputRecords :
    step running = .next (then' .dueReached dueOne) ∧ (∀ l, (running.line l).ok) ∧ running.timebase.ok ∧
    (∀ o, (running.output o).ok) :=
  ⟨rfl, (by unfold LineRec.ok; decide +kernel), (by unfold Timebase.ok; decide +kernel), fun o => ⟨by revert o; decide +kernel,
    (by revert o; decide +kernel), (by revert o; decide +kernel)⟩⟩

theorem witness_EveryStepKeepsQueuesAndGroups :
    step running = .next (then' .dueReached dueOne) ∧ (∀ p, (running.queue p).ok) ∧ ∀ g, (running.group g).ok :=
  ⟨rfl, fun p => by cases p <;> exact ⟨by decide +kernel, by decide +kernel, fun _ => rfl, by decide +kernel⟩,
    fun g => by cases g <;> exact ⟨rfl, rfl, rfl, rfl⟩⟩

theorem witness_EveryStepKeepsSessionsToTheirBounds :
    (∀ p, SessionHolds running p) ∧ (∀ p, (running.port p).ok running.supervisor p) ∧ HeldInReset running ∧
    (∀ o, (running.output o).ok) ∧ Protected running ∧ step running = .next (then' .dueReached dueOne) :=
  ⟨running_holds, witness_EveryStepKeepsTheAgenda.2.2.2, (fun h => by cases h),
    witness_EveryStepKeepsLinesAndOutputRecords.2.2.2, running_protected, rfl⟩

end Sys2Proof.Tests
end

section
/-! The time base: what position is (R4), how it moves at a rollover, and SET_DIVIDE on either side of a rollover (R10, R11). -/

namespace Sys2Proof.Machine

/-! ### The position of a time (R4) -/

/-- The position is congruent to the distance from now. -/
theorem position_congruent (now t : Tick) : ∃ k : Int, (t.toNat : Int) - now.toNat = position now t + k * 2 ^ 40 := by
  have hn := now.isLt
  have ht := t.isLt
  unfold position
  rw [BitVec.toNat_sub]
  by_cases hle : now.toNat ≤ t.toNat
  · by_cases hfar : t.toNat - now.toNat ≤ 2 ^ 39
    · exact ⟨0, by dsimp only; split <;> omega⟩
    · exact ⟨1, by dsimp only; split <;> omega⟩
  · by_cases hfar : now.toNat - t.toNat < 2 ^ 39
    · exact ⟨0, by dsimp only; split <;> omega⟩
    · exact ⟨-1, by dsimp only; split <;> omega⟩

/-- The bounds leave one integer in each residue class modulo 2^40. -/
theorem position_unique {now t : Tick} {d : Int} (hlow : -(2 ^ 39 - 1) ≤ d) (hhigh : d ≤ 2 ^ 39)
    (hd : ∃ k : Int, (t.toNat : Int) - now.toNat = d + k * 2 ^ 40) : d = position now t := by
  obtain ⟨k, hk⟩ := hd
  obtain ⟨j, hj⟩ := position_congruent now t
  obtain ⟨hl, hh⟩ := position_bounds now t
  omega

/-- A time is determined by its position. -/
theorem position_injective {now t u : Tick} (h : position now t = position now u) : t = u := by
  obtain ⟨j, hj⟩ := position_congruent now t
  obtain ⟨k, hk⟩ := position_congruent now u
  have ht := t.isLt
  have hu := u.isLt
  exact BitVec.eq_of_toNat_eq (by omega)

/-- A reached time is one that lies less than 2^39 ticks back. -/
theorem reached_iff_distance (now t : Tick) : reached now t = true ↔ (now - t).toNat < 2 ^ 39 := by
  obtain ⟨k, hk⟩ := position_congruent now t
  obtain ⟨hl, hh⟩ := position_bounds now t
  have hn := now.isLt
  have ht := t.isLt
  rw [reached_iff, BitVec.toNat_sub]
  omega

/-- A rollover lowers every position by one, but for the lowest, which moves to the highest. -/
theorem position_tick_succ (now t : Tick) :
    position (now + 1) t = if position now t = -(2 ^ 39 - 1) then 2 ^ 39 else position now t - 1 := by
  obtain ⟨k, hk⟩ := position_congruent now t
  obtain ⟨hl, hh⟩ := position_bounds now t
  have hn := now.isLt
  have hwrap : ∃ w : Int, ((now + 1).toNat : Int) = now.toNat + 1 - w * 2 ^ 40 := by
    rw [BitVec.toNat_add, show (1 : Tick).toNat = 1 from rfl]
    exact ⟨((now.toNat + 1) / 2 ^ 40 : Nat), by omega⟩
  obtain ⟨w, hw⟩ := hwrap
  symm
  split
  · next hlow => exact position_unique (by omega) (by omega) ⟨k + w - 1, by omega⟩
  · next hlow => exact position_unique (by omega) (by omega) ⟨k + w, by omega⟩

/-- Two times of which neither stands at the lowest position keep their order at a rollover. -/
theorem position_tick_succ_lt_iff {now t u : Tick} (ht : position now t ≠ -(2 ^ 39 - 1)) (hu : position now u ≠ -(2 ^ 39 - 1)) :
    position (now + 1) t < position (now + 1) u ↔ position now t < position now u := by
  rw [position_tick_succ, position_tick_succ, if_neg ht, if_neg hu]
  omega

/-- Settles O6, from the residue class and the bounds of a position. -/
theorem positionIsTheDistanceFromNow : Obligations.PositionIsTheDistanceFromNow := by
  unfold Obligations.PositionIsTheDistanceFromNow
  refine ⟨fun now t => ?_, fun _ _ _ => position_injective, fun _ _ _ => position_tick_succ_lt_iff⟩
  obtain ⟨hlow, hhigh⟩ := position_bounds now t
  exact ⟨hlow, hhigh, position_congruent now t, fun _ => position_unique, reached_iff now t, reached_iff_distance now t,
    position_tick_succ now t⟩

/-! ### SET_DIVIDE and the rollover (R10, R11) -/

/-- SET_DIVIDE writes the pending value, sets the mark and answers with the timebase it leaves (R10). -/
theorem exec_setDivide {s : State} {p : Port} {f : Flight} {v : Byte} (h : InFlight s p f (.setDivide v)) :
    exec (.setDivide p v) s =
      .next ((s.setTimebase { s.timebase with pendingValue := v, pendingMark := true }).answered p f
        ⟨.ok, .time s.timebase.tick s.timebase.divide v true⟩) :=
  congrArg Host.Outcome.next (takeRequest_of_eq h rfl rfl)

@[simp] theorem State.answered_timebase (s : State) (p : Port) (f : Flight) (a : Answer) :
    (s.answered p f a).timebase = s.timebase := rfl

@[simp] theorem State.answered_resetLow (s : State) (p : Port) (f : Flight) (a : Answer) :
    (s.answered p f a).resetLow = s.resetLow := rfl

@[simp] theorem State.answered_activity_self (s : State) (p : Port) (f : Flight) (a : Answer) :
    ((s.answered p f a).port p).activity = .executing { f with stage := .answered a } := by
  simp [State.answered]

/-- A lapse expiry is held while a request is in flight (R162). -/
theorem expireLapse_executing {now : Tick} {c : Controller} {f : Flight} (h : c.activity = .executing f) :
    (expireLapse now c).activity = .executing f := by
  simp only [expireLapse, h]
  split
  · rfl
  · exact h

/-- A request in flight is still in flight after a rollover and the events that are taken before it. -/
theorem InFlight.rollover {s : State} {p : Port} {f : Flight} {r : Request} (h : InFlight s p f r) (samples : BitVec 16) :
    InFlight (rollover samples (takeOutstanding s)) p f r := by
  obtain ⟨hactivity, hstage⟩ := h
  refine ⟨?_, hstage⟩
  rw [rollover_port, takeOutstanding_port]
  exact expireLapse_executing hactivity

/-- At a rollover a pending divide value takes effect and the mark is cleared (R9). -/
theorem rollTimebase_pending {t : Timebase} (h : t.pendingMark = true) :
    rollTimebase t = { t with count := 0, tick := t.tick + 1, divide := t.pendingValue, pendingMark := false } := by
  simp only [rollTimebase, h, if_true]

/-- A tick at the divide value rolls the timebase over, whatever is taken before it (R1, R2, R9). -/
theorem exec_tick_timebase {s : State} (hreset : s.resetLow = false) (hcount : s.timebase.divide ≤ s.timebase.count)
    (samples : BitVec 16) : ∃ t, exec (.tick samples) s = .next t ∧ t.timebase = rollTimebase s.timebase :=
  ⟨_, exec_tick hreset hcount samples, rollover_timebase samples s⟩

/-- SET_DIVIDE first: the rollover makes the request's value the divide value. -/
theorem setDivide_then_tick {s : State} {p : Port} {f : Flight} {v : Byte} (samples : BitVec 16) (hreset : s.resetLow = false)
    (hcount : s.timebase.divide ≤ s.timebase.count) (hf : InFlight s p f (.setDivide v)) :
    ∃ t u, exec (.setDivide p v) s = .next t ∧ exec (.tick samples) t = .next u ∧
      (t.port p).activity = .executing { f with stage := .answered ⟨.ok, .time s.timebase.tick s.timebase.divide v true⟩ } ∧
      u.timebase = { count := 0, tick := s.timebase.tick + 1, divide := v, pendingValue := v, pendingMark := false } := by
  obtain ⟨u, hu, htime⟩ := exec_tick_timebase
    (s := (s.setTimebase { s.timebase with pendingValue := v, pendingMark := true }).answered p f
      ⟨.ok, .time s.timebase.tick s.timebase.divide v true⟩) hreset hcount samples
  exact ⟨_, u, exec_setDivide hf, hu, State.answered_activity_self _ _ _ _, htime.trans (rollTimebase_pending rfl)⟩

/-- The rollover first: it takes the earlier pending value, and SET_DIVIDE answers with the divide value it left and waits with the
mark set. -/
theorem tick_then_setDivide {s : State} {p : Port} {f : Flight} {v : Byte} (samples : BitVec 16) (hreset : s.resetLow = false)
    (hcount : s.timebase.divide ≤ s.timebase.count) (hf : InFlight s p f (.setDivide v)) :
    ∃ t u, exec (.tick samples) s = .next t ∧ exec (.setDivide p v) t = .next u ∧ t.timebase = rollTimebase s.timebase ∧
      (u.port p).activity =
        .executing { f with stage := .answered ⟨.ok, .time (s.timebase.tick + 1) t.timebase.divide v true⟩ } ∧
      u.timebase = { t.timebase with pendingValue := v, pendingMark := true } := by
  have htime := rollover_timebase samples s
  have htick : (rollover samples (takeOutstanding s)).timebase.tick = s.timebase.tick + 1 := congrArg Timebase.tick htime
  refine ⟨_, _, exec_tick hreset hcount samples, exec_setDivide (hf.rollover samples), htime, ?_, rfl⟩
  rw [State.answered_activity_self, htick]

/-- With the mark set, the rollover at which the count has reached the divide value takes the pending value. -/
theorem exec_tick_takes_pending {x : State} {t : Timebase} (samples : BitVec 16) (hreset : x.resetLow = false)
    (hx : x.timebase = { t with count := t.divide }) (hmark : t.pendingMark = true) :
    ∃ w, exec (.tick samples) x = .next w ∧ w.timebase.divide = t.pendingValue ∧ w.timebase.pendingMark = false := by
  obtain ⟨w, hw, htime⟩ := exec_tick_timebase hreset (by rw [hx]; exact BitVec.le_refl _) samples
  rw [rollTimebase_pending (by rw [hx]; exact hmark), hx] at htime
  exact ⟨w, hw, by rw [htime], by rw [htime]⟩

/-- Settles O11: each order runs two events, and the second order a further rollover. -/
theorem setDivideMeetsTheRollover : Obligations.SetDivideMeetsTheRollover := by
  unfold Obligations.SetDivideMeetsTheRollover
  intro s p f v samples hreset hcount hf
  refine ⟨setDivide_then_tick samples hreset hcount hf, ?_⟩
  obtain ⟨t, u, ht, hu, htime, hreply, hwaits⟩ := tick_then_setDivide samples hreset hcount hf
  refine ⟨t, u, ht, hu, by rw [htime]; rfl, hreply, by rw [hwaits], by rw [hwaits], fun x hxreset hx => ?_⟩
  obtain ⟨w, hw, hdivide, hmark⟩ := exec_tick_takes_pending samples hxreset hx (by rw [hwaits])
  exact ⟨w, hw, by rw [hdivide, hwaits], hmark⟩

end Sys2Proof.Machine
end

section
/-! A session end at the port's queue: what the command does at its step and at any other, and the queue it leaves (R150, R157). -/

namespace Sys2Proof.Machine

/-! ### The progress of a session end (R157) -/

/-- A port in a session end is, after its progress is replaced, in that session end at the new progress. -/
theorem endRunOf_setEndRun {c : Controller} {run : EndRun} (h : endRunOf c = some run) (run' : EndRun) :
    endRunOf (setEndRun run' c) = some run' := by
  cases hc : c.activity with
  | idle => simp [endRunOf, hc] at h
  | ending => simp [endRunOf, setEndRun, hc]
  | executing => simp [endRunOf, setEndRun, hc]

theorem Ending.withRun {s : State} {p : Port} {run : EndRun} (h : Ending s p run) (run' : EndRun) :
    Ending (s.withRun p run') p run' := by
  unfold Ending State.withRun
  rw [State.setPort_port_self]
  exact endRunOf_setEndRun h run'

theorem Ending.setQueue {s : State} {p : Port} {run : EndRun} (h : Ending s p run) (k : Port) (q : Queue) :
    Ending (s.setQueue k q) p run := h

@[simp] theorem State.withRun_queue (s : State) (p k : Port) (run : EndRun) : (s.withRun p run).queue k = s.queue k := rfl

/-! ### The queue a session end leaves (R150) -/

theorem endAtQueue_lapse (now : Tick) (q : Queue) : endAtQueue .lapse now q = arrive q { kind := .lapsed, time := now } := rfl

/-- CLOSE and port reset both flush. -/
theorem endAtQueue_flush {kind : EndKind} (h : kind ≠ .lapse) (now : Tick) (q : Queue) :
    endAtQueue kind now q = flushQueue q := by
  cases kind with
  | close => rfl
  | portReset => rfl
  | lapse => exact absurd rfl h

/-- A flushed queue holds no record and its threshold is 1, so its attention line is released (R148). -/
@[simp] theorem flushQueue_attention (q : Queue) : (flushQueue q).attention = false := rfl

/-- A full list of system records has room for no class, and mode STOP displaces none of them: whatever arrives is lost (R138). -/
theorem arrive_full_of_system {q : Queue} (m : Msg) (hi : q.intake = .accepting) (hlen : q.records.length = 64)
    (hsys : q.records.all Record.isSystem = true) (hm : q.mode = .stop) : arrive q m = countLoss q := by
  have hroom : hasRoom q m = false := by
    rw [← Bool.not_eq_true, hasRoom_iff]
    omega
  have hgeneral : q.records.any Record.isGeneral = false := (any_general_iff _).2 hsys
  rw [arrive_stop hi hroom hm]
  simp [stopOverflow, hgeneral]

/-! ### The command SESSION_END_AT_QUEUE (R157 step 5) -/

/-- At its step the session end reaches the queue, counts the records it held and goes on to the last step. -/
theorem exec_sessionEndAtQueue {s : State} {p : Port} {run : EndRun} (h : Ending s p run) (hs : run.step = .queue) :
    exec (.sessionEndAtQueue p) s = .next ((s.setQueue p (endAtQueue run.kind s.now (s.queue p))).withRun p
      { run with step := .finish, flushed := run.flushed + (s.queue p).records.length }) := by
  show Host.Outcome.next (sessionEndQueue p s) = _
  simp only [sessionEndQueue, show endRunOf (s.port p) = some run from h, if_pos hs]
  rfl

/-- At any other step the command changes nothing. -/
theorem exec_sessionEndAtQueue_otherStep {s : State} {p : Port} {run : EndRun} (h : Ending s p run) (hs : run.step ≠ .queue) :
    exec (.sessionEndAtQueue p) s = .next s := by
  show Host.Outcome.next (sessionEndQueue p s) = _
  simp only [sessionEndQueue, show endRunOf (s.port p) = some run from h, if_neg hs]

/-- The queue after the command is the one that the session end leaves. -/
theorem exec_sessionEndAtQueue_queue {s t : State} {p : Port} {run : EndRun} (h : Ending s p run) (hs : run.step = .queue)
    (ht : exec (.sessionEndAtQueue p) s = .next t) : t.queue p = endAtQueue run.kind s.now (s.queue p) := by
  rw [exec_sessionEndAtQueue h hs] at ht
  cases ht
  simp

/-- The command taken again changes nothing: the session end has gone on to its last step. -/
theorem exec_sessionEndAtQueue_again {s t : State} {p : Port} {run : EndRun} (h : Ending s p run) (hs : run.step = .queue)
    (ht : exec (.sessionEndAtQueue p) s = .next t) : exec (.sessionEndAtQueue p) t = .next t := by
  rw [exec_sessionEndAtQueue h hs] at ht
  cases ht
  exact exec_sessionEndAtQueue_otherStep ((h.setQueue _ _).withRun _) nofun

/-- Settles O17: CLOSE and port reset flush, a lapse is the arrival of a LAPSED record, and the last step shuts out a second time. -/
theorem sessionEndReachesTheQueueOnce : Obligations.SessionEndReachesTheQueueOnce := by
  unfold Obligations.SessionEndReachesTheQueueOnce
  intro s p run h hs
  have hexec := exec_sessionEndAtQueue h hs
  refine ⟨fun hkind => ?flush, fun hkind => ?lapse, fun t => exec_sessionEndAtQueue_again h hs⟩
  case flush =>
    have hqueue := endAtQueue_flush hkind s.now (s.queue p)
    rw [hqueue] at hexec
    refine ⟨hexec, fun t ht => ?_⟩
    rw [exec_sessionEndAtQueue_queue h hs ht, hqueue, flushQueue_attention]
  case lapse =>
    have hqueue : endAtQueue run.kind s.now (s.queue p) = arrive (s.queue p) { kind := .lapsed, time := s.now } := by
      rw [hkind, endAtQueue_lapse]
    rw [hqueue] at hexec
    refine ⟨hexec, fun t ht => ?_, fun hi hlen hsys hm t ht => ?_⟩
    · rw [exec_sessionEndAtQueue_queue h hs ht, hqueue]
      exact arrive_keeps _ _
    · rw [exec_sessionEndAtQueue_queue h hs ht, hqueue, arrive_full_of_system _ hi hlen hsys hm]
      exact ⟨rfl, rfl, rfl⟩

end Sys2Proof.Machine
end

section
/-! SET_LAPSE: the bytes of its operand read back (R184), its acceptance (R181, R185), and what it does at the controller (R161). -/

namespace Sys2Proof

/-! ### Numbers as bytes (R184) -/

/-- A last byte is the least significant one. -/
theorem beNat_concat (bs : List Byte) (b : Byte) : beNat (bs ++ [b]) = beNat bs * 256 + b.toNat :=
  List.foldl_concat _ 0 b bs

/-- The bytes of a number spell its residue: the number without the multiples of 256 that the length has no room for. -/
theorem beNat_beBytes (n x : Nat) : beNat (beBytes n x) = x % 256 ^ n := by
  induction n generalizing x with
  | zero => rw [pow_zero, Nat.mod_one]; rfl
  | succ n ih =>
    have hbyte : (BitVec.ofNat 8 x).toNat = x % 256 := BitVec.toNat_ofNat x 8
    rw [beBytes, beNat_concat, ih, hbyte, pow_succ', Nat.mod_mul]
    omega

@[simp] theorem length_beBytes (n x : Nat) : (beBytes n x).length = n := by
  induction n generalizing x with
  | zero => rfl
  | succ n ih => rw [beBytes, List.length_append, ih, List.length_singleton]

@[simp] theorem length_count32Bytes (x : Count32) : (count32Bytes x).length = 4 := length_beBytes 4 x.toNat

/-- Every count of ticks is read back from its four bytes. -/
theorem count32At_count32Bytes (x : Count32) : count32At (count32Bytes x) 0 = x := by
  have htake : ((count32Bytes x).drop 0).take 4 = count32Bytes x :=
    List.take_of_length_le (length_count32Bytes x).le
  have hvalue : beNat (count32Bytes x) = x.toNat :=
    (beNat_beBytes 4 x.toNat).trans (Nat.mod_eq_of_lt x.isLt)
  rw [count32At, htake, hvalue, BitVec.ofNat_toNat, BitVec.setWidth_eq]

/-- Every value of SET_LAPSE's operand is in range (R186). -/
theorem requestInRange_setLapse (n : Count32) : requestInRange .setLapse (count32Bytes n) = some (.setLapse n) := by
  have hread : requestOfBytes .setLapse (count32Bytes n) = some (.setLapse n) := by
    rw [requestOfBytes, count32At_count32Bytes]
  rw [requestInRange, hread]
  rfl

namespace Machine

/-! ### Acceptance of a request in OPEN (R181) -/

/-- In OPEN a request of the right length that is not reserved to the supervisor, and whose operands are in range, goes to its block
whatever the port (R153, R168, R181). -/
theorem checkRequest_open {c : Code} {ops : List Byte} {r : Request} (sup : Bool) (hlen : ops.length = c.operandBytes)
    (hfree : reserved c = false) (hrange : requestInRange c ops = some r) : checkRequest .isOpen sup c ops = .awaiting r := by
  simp [checkRequest, hlen, admitted, hfree, hrange]

theorem acceptance_setLapse (sup : Bool) (n : Count32) :
    acceptance .isOpen sup (some 0x05) (count32Bytes n) = .awaiting (.setLapse n) :=
  checkRequest_open (c := .setLapse) sup (length_count32Bytes n) rfl (requestInRange_setLapse n)

/-! ### SET_LAPSE at the controller (R161) -/

/-- SET_LAPSE replaces the controller by the one with its interval and deadline, and answers with both. -/
theorem exec_setLapse {s : State} {p : Port} {f : Flight} {n : Count32} (h : InFlight s p f (.setLapse n)) :
    exec (.setLapse p n) s =
      .next ((s.setPort p (lapseController s.now n (s.port p))).answered p f
        ⟨.ok, .lapseSet s.now n (lapseController s.now n (s.port p)).deadline⟩) := by
  have hactivity : ((s.setPort p (lapseController s.now n (s.port p))).port p).activity = (s.port p).activity := by
    rw [State.setPort_port_self]; rfl
  exact congrArg Host.Outcome.next (takeRequest_of_eq h rfl hactivity)

/-- Settles O50: the deadline of `lapseController` is the one the statement names. -/
theorem setLapseSetsTheDeadline : Obligations.SetLapseSetsTheDeadline := by
  unfold Obligations.SetLapseSetsTheDeadline
  exact ⟨fun _ _ _ _ h => exec_setLapse h, acceptance_setLapse⟩

end Machine
end Sys2Proof
end

section
/-! What every step keeps of the agenda: its good order (R64 to R70), and its order in time over firings, arming, SUBMIT and the
rollover (R22, R64, R91). -/

namespace Sys2Proof.Machine

-- Proofs in turn: a proof that waits for another one holds a thread, and the compile of the whole text has few.
set_option Elab.async false

/-! ### One step -/

/-- A step is a command taken from the queue, or nothing: what holds after every command, whatever waits in the queue, holds after
every step. -/
theorem step_of_exec {P Q : State → Prop} (hidle : ∀ s, P s → Q s) (hpending : ∀ s q, P s → P (s.setPending q))
    (hexec : ∀ c s t, P s → exec c s = .next t → Q t) {s t : State} (h : P s) (hstep : step s = .next t) : Q t := by
  unfold step at hstep
  split at hstep
  · cases hstep; exact hidle s h
  · exact hexec _ _ _ (hpending _ _ h) hstep

/-- What every command keeps, every step keeps. -/
theorem step_keeps {P : State → Prop} (hpending : ∀ s q, P s → P (s.setPending q))
    (hexec : ∀ c s t, P s → exec c s = .next t → P t) {s t : State} (h : P s) (hstep : step s = .next t) : P t :=
  step_of_exec (fun _ h => h) hpending hexec h hstep

/-! ### The agenda in good order -/

@[simp] theorem Agenda.reset_slot (i : SlotNo) : Agenda.reset.slots.get i = { gen := 0, entry := none } := Table.get_fill _ i

theorem not_holds_reset (f : Entry → Prop) (i : SlotNo) : ¬Holds Agenda.reset f i := by simp [Holds]

/-- An empty agenda is in good order. -/
theorem Agenda.reset_ok : Agenda.reset.ok where
  armed i := iff_of_false List.not_mem_nil (not_holds_reset _ i)
  waiting i := iff_of_false List.not_mem_nil (not_holds_reset _ i)
  armedOnce := List.nodup_nil
  waitingOnce := List.nodup_nil
  live p := by
    have hnone : {i | Holds Agenda.reset (fun e => e.owner = p) i} = ∅ := Set.eq_empty_of_forall_notMem (not_holds_reset _)
    rw [hnone, Set.ncard_empty]
    exact PerPort.get_fill 0 p
  quotas := by decide
  anchored i e due he := by simp at he
  anchorLive i e h n he := by simp at he
  anchorFirst := List.Pairwise.nil
  noSelf i hi := List.not_mem_nil (mem_dependents.1 hi).1

/-- Every event but SUBMIT keeps the agenda in good order. -/
theorem kept_agendaOk : Kept fun s => s.agenda.ok where
  port _ _ _ h := h
  queue _ _ _ _ h := h
  transit _ _ h := h
  published _ _ _ h := h
  event s _ hf h := (agendaOk_kept s.now).event hf h
  edge _ _ h := agendaEdge_keeps (fun _ => agendaOk_kept _) h

theorem releaseReset_agenda (sup1 sup0 : Bool) (s : State) : (releaseReset sup1 sup0 s).agenda = s.agenda := by
  unfold releaseReset; split <;> rfl

theorem submitAt_agendaOk (p : Port) (d : Plan) (w : Work) (h : w.st.agenda.ok) : (submitAt p d w).1.st.agenda.ok := by
  obtain heq | ⟨i, hfree, hanchor, _, _, heq⟩ := submitAt_cases p d w
  · rw [heq]; exact h
  · have haccept := acceptEntry_ok w.st.now (p := p) h hfree hanchor
    rw [heq]
    split
    · exact pass_ok _ _ haccept
    · exact haccept

theorem exec_agendaOk {s t : State} {c : Instr} (h : s.agenda.ok) (hx : exec c s = .next t) : t.agenda.ok :=
  kept_agendaOk.exec h hx
    (hreset := fun _ => Agenda.reset_ok)
    (hrelease := fun a b _ => (releaseReset_agenda a b s).symm ▸ h)
    (htick := fun samples _ hk => by rw [rollover_agenda]; exact hk)
    (htime := fun _ _ _ => h)
    (hlines := fun _ _ => h)
    (hsubmit := fun p d _ _ => submitAt_agendaOk p d (startWork s) h)

/-! ### The agenda in order of time at one tick -/

/-- An agenda in good order, whose entries move forward when they fire, and whose armed list stands in due order as seen from
`now`. -/
structure InTime (now : Tick) (a : Agenda) : Prop where
  ok : a.ok
  moves : ∀ i e, (a.slots.get i).entry = some e → e.moves
  sorted : ArmedSorted now a

theorem InTime.reset (now : Tick) : InTime now Agenda.reset := ⟨Agenda.reset_ok, fun _ _ h => by simp at h, List.Pairwise.nil⟩

theorem Freed.moves {a b : Agenda} {C : SlotNo → Prop} (h : Freed a b C) (hm : ∀ i e, (a.slots.get i).entry = some e → e.moves)
    (i : SlotNo) (e : Entry) (he : (b.slots.get i).entry = some e) : e.moves := by
  rw [h.kept i (h.live_not (by rw [he]; rfl))] at he
  exact hm i e he

/-- An entry placed in the armed list moves forward, and so do the others as before. -/
theorem placeArmed_moves {a : Agenda} (now : Tick) (i : SlotNo) {e : Entry} (he : e.moves)
    (hm : ∀ j x, j ≠ i → (a.slots.get j).entry = some x → x.moves) :
    ∀ j x, ((placeArmed a now i e).slots.get j).entry = some x → x.moves := by
  intro j x hx
  by_cases hj : j = i
  · subst hj; rw [placeArmed_get_self] at hx; cases hx; exact he
  · rw [placeArmed_get_ne _ _ hj] at hx; exact hm j x hj hx

theorem armAll_moves (now : Tick) : ∀ (js : List SlotNo) {a : Agenda}, (∀ i e, (a.slots.get i).entry = some e → e.moves) →
    ∀ i e, ((js.foldl (armFromAnchor now) a).slots.get i).entry = some e → e.moves
  | [], _, hm => hm
  | j :: js, a, hm => by
    rw [List.foldl_cons]
    refine armAll_moves now js ?_
    cases he : (a.slots.get j).entry with
    | none => simpa only [armFromAnchor, he] using hm
    | some e =>
      rw [armFromAnchor_some he]
      exact placeArmed_moves now j (moves_armed (hm j e he)) fun k x _ => hm k x

/-- The operations on the agenda keep it in order of time. -/
theorem inTime_kept (now : Tick) : AgendaKept now (InTime now) where
  freed _ _ _ hf h := ⟨(agendaOk_kept now).freed _ _ _ hf h.ok, hf.moves h.moves, hf.sorted h.sorted⟩
  quota _ _ hq h := ⟨(agendaOk_kept now).quota _ _ hq h.ok, h.moves, h.sorted⟩
  pass w h := ⟨pass_ok now w h.ok, pass_moves h.ok h.moves, pass_sorted h.ok h.sorted⟩
  arm js _ h := ⟨armAll_ok now js h.ok, armAll_moves now js h.moves, armAll_sorted js h.sorted⟩

/-! ### SUBMIT -/

/-- A plan in range measures its entry: the operand checks of R72 are what R61 asks. -/
theorem newEntry_measured {d : Plan} (h : d.wellFormed = true) (p : Port) (st : EntryState) :
    ({ newEntry p d with state := st } : Entry).measured := by
  simp only [Plan.wellFormed, Bool.and_eq_true] at h
  obtain ⟨⟨⟨⟨⟨_, hperiod⟩, hwidth⟩, hpositive⟩, hless⟩, _⟩ := h
  constructor
  · intro w (hw : d.action = .pulse w)
    simpa [hw] using hwidth
  · intro (hlast : Runs.isLast d.runs = false)
    have hrepeats : d.runs.repeats = true := by
      rcases (isLast_iff _).1 hlast with hr | ⟨n, hr, hn⟩
      · rw [hr]; rfl
      · rw [hr]
        have : n ≠ 1 := fun h => by rw [h] at hn; exact absurd hn (by decide)
        simpa [Runs.repeats] using this
    rw [hrepeats, beq_true, Option.isSome_iff_exists] at hperiod
    obtain ⟨q, hq⟩ := hperiod
    refine ⟨q, hq, by simpa [hq] using hpositive, fun w (hw : d.action = .pulse w) => ?_⟩
    simpa [hw, hq] using hless

/-- An accepted entry keeps the agenda in order of time. -/
theorem acceptEntry_inTime {now : Tick} (p : Port) {d : Plan} (i : SlotNo) {a : Agenda} (h : InTime now a)
    (hfree : (a.slots.get i).entry = none) (hanchor : anchorStale a d.anchor = false) (hd : d.wellFormed = true) :
    InTime now (acceptEntry now p d i a) := by
  have hput : ∀ j, j ≠ i → (putEntry a i (newEntry p d)).slots.get j = a.slots.get j := fun j hj => Table.get_set_ne _ hj _
  have hnot : ∀ j ∈ a.armed, j ≠ i := by
    rintro j hj rfl
    obtain ⟨e, _, _, _, he, _⟩ := h.ok.armed_live hj
    rw [hfree] at he; cases he
  have hsorted : ArmedSorted now (putEntry a i (newEntry p d)) :=
    h.sorted.imp_of_mem fun {x y} hx hy hxy => by
      rwa [slotPosition_congr (hput x (hnot x hx)), slotPosition_congr (hput y (hnot y hy))]
  have hothers : ∀ j x, j ≠ i → ((putEntry a i (newEntry p d)).slots.get j).entry = some x → x.moves :=
    fun j x hj hx => h.moves j x (by rwa [hput j hj] at hx)
  have hwaiting : ∀ j x, ((putEntry a i (newEntry p d)).slots.get j).entry = some x → x.moves := by
    intro j x hx
    by_cases hj : j = i
    · subst hj
      rw [putEntry_slots, Table.get_set_self] at hx
      cases hx
      exact ⟨newEntry_measured hd p .waiting, trivial⟩
    · exact hothers j x hj hx
  have hok := acceptEntry_ok now (p := p) h.ok hfree hanchor
  unfold acceptEntry at hok ⊢
  cases hk : d.anchor with
  | absolute due =>
    simp only [hk] at hok ⊢
    exact ⟨hok, placeArmed_moves now i ⟨newEntry_measured hd p _, rfl⟩ hothers, placeArmed_sorted i _ hsorted⟩
  | input => simp only [hk] at hok ⊢; exact ⟨hok, hwaiting, hsorted⟩
  | entry => simp only [hk] at hok ⊢; exact ⟨hok, hwaiting, hsorted⟩

theorem submitAt_inTime (p : Port) {d : Plan} (w : Work) (h : InTime w.st.now w.st.agenda) (hd : d.wellFormed = true) :
    InTime w.st.now (submitAt p d w).1.st.agenda := by
  obtain heq | ⟨i, hfree, hanchor, _, _, heq⟩ := submitAt_cases p d w
  · rw [heq]; exact h
  · have haccept := acceptEntry_inTime p i h hfree hanchor hd
    rw [heq]
    split
    · exact (inTime_kept _).pass (onAgenda _ w) haccept
    · exact haccept

/-! ### The agenda in order of time over the ticks -/

/-- The agenda in good order and in order of time, with no stale edge to be taken. -/
def TimelyOk (s : State) : Prop := InTime s.now s.agenda ∧ ∀ e ∈ s.published.agenda, e.stamp = s.now

theorem timelyOk_iff {s : State} : TimelyOk s ↔ s.agenda.ok ∧ Timely s :=
  ⟨fun ⟨⟨hok, hmoves, hsorted⟩, hedges⟩ => ⟨hok, hmoves, hsorted, hedges⟩,
    fun ⟨hok, hmoves, hsorted, hedges⟩ => ⟨⟨hok, hmoves, hsorted⟩, hedges⟩⟩

/-- Every event but SUBMIT keeps the agenda in order of time. -/
theorem kept_timelyOk : Kept TimelyOk where
  port _ _ _ h := h
  queue _ _ _ _ h := h
  transit _ _ h := h
  published _ _ hx h := ⟨h.1, fun e he => h.2 e (hx e he)⟩
  event s f hf h := by
    have hshared := hf.shared (startWork s)
    refine ⟨?_, ?_⟩
    · rw [hshared.now]; exact (inTime_kept s.now).event hf h.1
    · rw [hshared.published, hshared.now]; exact h.2
  edge s e h := by
    refine ⟨?_, ?_⟩
    · rw [(agendaEdge_sameTick e s).now]
      exact agendaEdge_keeps (fun he => h.2 e he ▸ inTime_kept _) h.1
    · rw [(agendaEdge_sameTick e s).now, agendaEdge_published]
      exact fun x hx => h.2 x (List.mem_of_mem_erase hx)

theorem foldl_agenda {α : Type} {f : State → α → State} (h : ∀ s a, (f s a).agenda = s.agenda) (l : List α) (s : State) :
    (l.foldl f s).agenda = s.agenda :=
  Kept.foldl (P := fun x => x.agenda = s.agenda) (fun x a hx => (h x a).trans hx) l s rfl

theorem releaseExpiry_agenda (g : Group) (s : State) : (releaseExpiry g s).agenda = s.agenda := by
  show (releaseExpiryEvent g (startWork s)).st.agenda = s.agenda
  unfold releaseExpiryEvent
  simp only
  repeat' split
  all_goals rfl

/-- Deadlines are taken after the agenda's own events, and do not reach it. -/
theorem takeLapses_takeExpiries_agenda (s : State) : (takeLapses (takeExpiries s)).agenda = s.agenda := by
  unfold takeLapses takeExpiries
  rw [foldl_agenda (f := fun x p => lapseAt p x) fun _ _ => rfl, foldl_agenda fun s g => releaseExpiry_agenda g s]

/-- What the agenda and the groups have still to take before the firing pass keeps what every event keeps. -/
theorem Kept.takeChanges {P : State → Prop} (k : Kept P) {s : State} (h : P s) :
    P (takeSettling (takeGroupEdges (takeAgendaEdges (takeQueueEdges s)))) := by
  unfold takeSettling takeGroupEdges takeAgendaEdges takeQueueEdges
  refine Kept.foldl (fun _ g hs => Kept.foldl (fun _ c hs => k.groupSettling g _ hs) _ _ hs) _ _ ?_
  refine Kept.foldl (fun _ g hs => Kept.foldl (fun _ e hs => k.groupEdge g e hs) _ _ hs) _ _ ?_
  refine Kept.foldl (fun _ e hs => k.edge _ e hs) _ _ ?_
  exact Kept.foldl (fun _ p hs => Kept.foldl (fun _ e hs => k.queueEdge p e hs) _ _ hs) _ _ h

/-- No event reaches the time. -/
theorem kept_now (now : Tick) : Kept fun s => s.now = now where
  port _ _ _ h := h
  queue _ _ _ _ h := h
  transit _ _ h := h
  published _ _ _ h := h
  event s _ hf h := ((hf.shared (startWork s)).now).trans h
  edge s e h := (agendaEdge_sameTick e s).now.trans h

theorem duePass_noneReached {s : State} (h : TimelyOk s) : reachedHead s.now (duePass s).agenda = none :=
  pass_ends (w := startWork s) h.1.ok h.1.moves

/-- A firing pass is the last event before the rollover that reaches the agenda, so no due in the armed list is then reached. -/
theorem takeOutstanding_noneReached {s : State} (h : TimelyOk s) : reachedHead s.now (takeOutstanding s).agenda = none := by
  have hnow := (kept_now s.now).takeChanges (s := s) rfl
  have hnone := duePass_noneReached (kept_timelyOk.takeChanges h)
  unfold takeOutstanding
  rw [takeLapses_takeExpiries_agenda, ← hnow]
  exact hnone

/-- A rollover keeps the due order of an armed list with no reached due: every position is lowered by one. -/
theorem ArmedSorted.tick_succ {now : Tick} {a : Agenda} (ha : a.ok) (h : ArmedSorted now a) (hn : reachedHead now a = none) :
    ArmedSorted (now + 1) a := by
  have hlowered : ∀ i ∈ a.armed, slotPosition a (now + 1) i = slotPosition a now i - 1 := by
    intro i hi
    obtain ⟨e, ph, due, start, he, hs⟩ := ha.armed_live hi
    have hd : dueOf a i = some due := dueOf_some.2 ⟨e, ph, start, he, hs⟩
    have hpos := (reached_false_iff _ _).1 (none_reached ha h hn hi hd)
    simp only [slotPosition, hd]
    rw [position_tick_succ, if_neg (by omega)]
  exact h.imp_of_mem fun {x y} hx hy hxy => by rw [hlowered x hx, hlowered y hy]; omega

theorem mem_newEdges_stamp {samples : BitVec 16} {now : Tick} {lines : Table 16 LineRec} {e : Edge}
    (h : e ∈ newEdges samples now lines) : e.stamp = now := by
  simp only [newEdges, List.mem_filterMap, Option.map_eq_some_iff] at h
  obtain ⟨_, _, _, _, rfl⟩ := h
  rfl

/-- The rollover, with nothing of the old tick still to be taken, keeps the agenda in order of time. -/
theorem rollover_timelyOk {s : State} (samples : BitVec 16) (h : TimelyOk s) (hn : reachedHead s.now s.agenda = none)
    (hp : s.published.agenda = []) : TimelyOk (rollover samples s) := by
  refine ⟨⟨h.1.ok, h.1.moves, h.1.sorted.tick_succ h.1.ok hn⟩, fun e he => ?_⟩
  change e ∈ s.published.agenda ++ newEdges samples (s.now + 1) s.lines at he
  rw [hp, List.nil_append] at he
  exact mem_newEdges_stamp he

/-- A request in flight at a controller in good order is in range (R181). -/
theorem InFlight.wellFormed {s : State} {p : Port} {f : Flight} {r : Request} (h : InFlight s p f r)
    (hok : (s.port p).ok s.supervisor p) : r.wellFormed = true := by
  have hactivity := hok.activity
  rw [h.1] at hactivity
  change f.stage.ok _ _ _ at hactivity
  rw [h.2] at hactivity
  exact hactivity.1

theorem exec_timelyOk {s t : State} {c : Instr} (h : TimelyOk s) (hports : ∀ p, (s.port p).ok s.supervisor p)
    (hx : exec c s = .next t) : TimelyOk t := by
  refine kept_timelyOk.exec h hx (hreset := fun _ => ⟨InTime.reset _, fun e he => absurd he List.not_mem_nil⟩)
    (hrelease := fun a b _ => ?release)
    (htick := fun samples _ hk => rollover_timelyOk samples hk ?tick (congrArg Published.agenda (takeOutstanding_published s)))
    (htime := fun t ht _ => ?time) (hlines := fun _ _ => h) (hsubmit := fun p d f hf => ?submit)
  case tick => rw [(takeOutstanding_sameTick s).now]; exact takeOutstanding_noneReached h
  case release => unfold releaseReset; split <;> exact h
  case time =>
    show InTime t.tick s.agenda ∧ ∀ e ∈ s.published.agenda, e.stamp = t.tick
    rw [ht]; exact h
  case submit =>
    have hshared := submitAt_shared p d (startWork s)
    refine ⟨?_, ?_⟩
    · rw [hshared.now]; exact submitAt_inTime p (startWork s) h.1 (hf.wellFormed (hports p))
    · rw [hshared.published, hshared.now]; exact h.2

/-- Settles O56: every command keeps good order, and order of time where the controllers are in good order. -/
theorem everyStepKeepsTheAgenda : Obligations.EveryStepKeepsTheAgenda := by
  unfold Obligations.EveryStepKeepsTheAgenda
  intro s t h hstep
  refine ⟨step_keeps (P := fun x => x.agenda.ok) (fun _ _ h => h) (fun _ _ _ h hx => exec_agendaOk h hx) h hstep,
    fun htimely hports => ?_⟩
  have hok : TimelyOk t := step_of_exec (P := fun x => TimelyOk x ∧ ∀ p, (x.port p).ok x.supervisor p) (fun _ h => h.1)
    (fun _ _ h => h) (fun _ _ _ h hx => exec_timelyOk h.1 h.2 hx) ⟨timelyOk_iff.2 ⟨h, htimely⟩, hports⟩ hstep
  exact (timelyOk_iff.1 hok).2

end Sys2Proof.Machine
end

section
/-! What the events on outputs, agenda and groups can do to these three parts, said once: each is a chain of the steps below, and a
property of the state that every step keeps is kept by every event. -/

namespace Sys2Proof.Machine

set_option Elab.async false

/-! ### The steps -/

/-- The agenda `a` is what a cancellation leaves at `s`, and, if every live entry was listed, it has no entry of output `o`'s owner
on `o` (R40 step 1). -/
def Unused (s : State) (o : Output) (a : Agenda) : Prop :=
  Thinner s.agenda a ∧
    (Listed s.agenda → ∀ i e, (a.slots.get i).entry = some e → e.plan.output = o → (s.output o).owner ≠ some e.owner)

/-- The state of a trip event on cause `c` at group `g`, with the agenda `a` that its cancellations leave (R113). -/
def State.tripped (s : State) (g : Group) (c : Cause) (a : Agenda) : State :=
  ((s.setGroup g { tripRecord c (s.group g) with owed := owedSet s.outputs g, acked := portSetEmpty }).setOutputs
    (forceMembers g s.outputs)).setAgenda a

/-- What one step of an event does to outputs, agenda and groups. The ports in `takes` are those that may take an output or a place in
its waiting list for themselves. -/
inductive SharedStep (takes : Port → Prop) (s : State) : State → Prop
  | thin {a} (h : Thinner s.agenda a) : SharedStep takes s (s.setAgenda a)
  | level (o l) (h : forced s o = false ∨ ∃ i e, s.entry i = some e ∧ e.plan.output = o) :
      SharedStep takes s (s.setOutput o { s.output o with level := l })
  | claim {p} (o wait) (h : takes p) : SharedStep takes s (s.setOutput o (claimRecord p wait (s.output o)).1)
  | leave (p o) : SharedStep takes s (s.setOutput o (leaveList p (s.output o)))
  | handOn {o a} (hu : Unused s o a) : SharedStep takes s ((s.setAgenda a).setOutput o
      { s.output o with owner := (s.output o).waiting.head?, waiting := (s.output o).waiting.tail })
  | reclaim {p o a} (h : takes p) (hu : Unused s o a) :
      SharedStep takes s ((s.setAgenda a).setOutput o (reclaimRecord p (s.output o)))
  | safe {o g} (l) (h : membershipFree s (s.output o).group = true) (hg : membershipFree s g = true) :
      SharedStep takes s (s.setOutput o { s.output o with safe := l, group := g })
  | trip {g a} (c) (hn : (s.group g).state = .normal) (h : Thinner s.agenda a)
      (hgone : Listed s.agenda → ∀ i e, (a.slots.get i).entry = some e → isMember s.outputs g e.plan.output = false) :
      SharedStep takes s (s.tripped g c a)
  | further {g} (c) (hn : (s.group g).state ≠ .normal) : SharedStep takes s (s.setGroup g
      { furtherRecord c (s.group g) with owed := owedSet s.outputs g, acked := portSetEmpty })
  | source (g i src) : SharedStep takes s (s.setGroup g { s.group g with sources := (s.group g).sources.set i src })
  | window (g n) : SharedStep takes s (s.setGroup g { s.group g with window := n })
  | ack {p g} (hn : (s.group g).state ≠ .normal) (ho : (s.group g).owed.get p = true)
      (hr : ¬((s.group g).state = .releasing ∧ portSetAdd (s.group g).acked p = (s.group g).owed)) :
      SharedStep takes s (s.setGroup g { s.group g with acked := portSetAdd (s.group g).acked p })
  | normal (g) : SharedStep takes s (s.setGroup g (normalRecord (s.group g)))
  | releasing {g} (now) (ht : (s.group g).state = .tripped) (ha : (s.group g).acked ≠ (s.group g).owed) :
      SharedStep takes s (s.setGroup g (releasingRecord now (s.group g)))
  | expired {g} (hr : (s.group g).state = .releasing) : SharedStep takes s (s.setGroup g (expiredRecord (s.group g)))
  | leaveGroup {p g}
      (hr : ¬((s.group g).state = .releasing ∧ portSetRemove (s.group g).acked p = portSetRemove (s.group g).owed p)) :
      SharedStep takes s (s.setGroup g
        { s.group g with owed := portSetRemove (s.group g).owed p, acked := portSetRemove (s.group g).acked p })

/-- A chain of such steps. -/
def SharedSteps (takes : Port → Prop) : State → State → Prop := Relation.ReflTransGen (SharedStep takes)

variable {takes : Port → Prop}

theorem SharedStep.steps {s t : State} (h : SharedStep takes s t) : SharedSteps takes s t := .single h

theorem SharedSteps.refl {s : State} : SharedSteps takes s s := Relation.ReflTransGen.refl

theorem SharedSteps.trans {s t u : State} (h : SharedSteps takes s t) (k : SharedSteps takes t u) : SharedSteps takes s u :=
  Relation.ReflTransGen.trans h k

/-- What every step keeps, a chain keeps. -/
theorem SharedSteps.keep {P : State → Prop} (hP : ∀ {s t}, SharedStep takes s t → P s → P t) {s t : State}
    (h : SharedSteps takes s t) (hs : P s) : P t := by
  induction h with
  | refl => exact hs
  | tail _ hstep ih => exact hP hstep ih

/-! ### Firing and cancelling -/

/-- A firing sets one level and leaves a thinner agenda. -/
theorem fire_steps (now : Tick) (i : SlotNo) (w : Work) : SharedSteps takes w.st (fire now i w).st := by
  cases he : w.st.entry i with
  | none => simp only [fire, he]; exact .refl
  | some e =>
    cases hs : e.state with
    | waiting => simp only [fire, he, hs]; exact .refl
    | armed ph due start =>
      have hthin := fire_thinner now i w
      rw [fire_some he hs] at hthin ⊢
      rw [advanceEntry_st, applyLevel_st]
      exact (SharedStep.level e.plan.output _ (.inr ⟨i, e, he, rfl⟩)).steps.trans
        (SharedStep.thin (s := w.st.setOutput e.plan.output _) hthin).steps

theorem pass_steps (now : Tick) (w : Work) : SharedSteps takes w.st (pass now w).st :=
  pass_induct (P := fun x => SharedSteps takes w.st x.st) now (fun x i hx _ => hx.trans (fire_steps now i x)) w .refl

theorem cancelOwned_unused (r : Option Reason) (m : Option Port) (n : Tick) {o : Output} {p : Port} {w : Work}
    (hp : (w.st.output o).owner = some p) : Unused w.st o (cancelOwned r m n o p w).1.st.agenda := by
  refine ⟨cancelTargets_thinner r m n _ w, fun hl i e he ho howner => ?_⟩
  have hgone : (e.owner == p && e.plan.output == o) = false := cancelTargets_gone r m n _ w hl i e he
  rw [hp, Option.some.injEq] at howner
  simp [howner, ho] at hgone

/-- The end of an ownership: the owner's entries on the output are cancelled, and the head waiter takes it over. -/
theorem handOn_cancelOwned_steps (r : Option Reason) (m : Option Port) (n now : Tick) {o : Output} {p : Port} {w : Work}
    (hp : (w.st.output o).owner = some p) : SharedSteps takes w.st (handOn now o (cancelOwned r m n o p w).1).st := by
  have hst : (cancelOwned r m n o p w).1.st = w.st.setAgenda (cancelOwned r m n o p w).1.st.agenda := cancelTargets_st _ _ _ _ _
  have hunused := cancelOwned_unused r m n hp
  rw [handOn_st, hst]
  exact (SharedStep.handOn hunused).steps

/-! ### Causes and the entry into NORMAL -/

theorem takeCause_steps (g : Group) (c : Cause) (edge : Option Edge) (w : Work) :
    SharedSteps takes w.st (takeCause g c edge w).st := by
  have hfurther : (w.st.group g).state ≠ .normal → SharedSteps takes w.st (furtherCause g c w).st := by
    intro hn
    rw [furtherCause_st]
    exact (SharedStep.further c hn).steps
  unfold takeCause
  cases hn : (w.st.group g).state with
  | normal =>
    show SharedSteps takes w.st (tripEvent g c edge w).st
    rw [tripEvent_st]
    exact (SharedStep.trip c hn
      (cancelTargets_thinner _ _ _ (fun e => isMember w.st.outputs g e.plan.output) { w with st := trippedState g c w.st })
      fun hl i e he => cancelTargets_gone _ _ _ _ { w with st := trippedState g c w.st } hl i e he).steps
  | tripped => exact hfurther (by rw [hn]; decide)
  | releasing => exact hfurther (by rw [hn]; decide)

theorem enterNormal_steps (now : Tick) (g : Group) (w : Work) : SharedSteps takes w.st (enterNormal now g w).st := by
  rw [enterNormal_st]
  exact (SharedStep.normal g).steps

/-- A group whose acknowledged set was changed, and which enters NORMAL, does so whatever the change was. -/
theorem enterNormal_setGroup_steps (now : Tick) (g : Group) (s : State) {r : GroupRec} {w : Work} (hw : w.st = s.setGroup g r)
    (hr : normalRecord r = normalRecord (s.group g)) : SharedSteps takes s (enterNormal now g w).st := by
  rw [enterNormal_st, hw, State.setGroup_group_self, State.setGroup_setGroup, hr]
  exact (SharedStep.normal g).steps

/-! ### The requests -/

theorem claimAt_steps {p : Port} (o : Output) (wait : Bool) (h : takes p) (w : Work) :
    SharedSteps takes w.st (claimAt p o wait w).1.st := (SharedStep.claim o wait h).steps

theorem withdrawAt_steps (p : Port) (o : Output) (w : Work) : SharedSteps takes w.st (withdrawAt p o w).1.st := by
  unfold withdrawAt
  simp only
  split
  · exact (SharedStep.leave p o).steps
  · exact .refl

theorem releaseAt_steps (p : Port) (o : Output) (w : Work) : SharedSteps takes w.st (releaseAt p o w).1.st := by
  unfold releaseAt
  simp only
  split
  · next hp => exact handOn_cancelOwned_steps _ _ _ _ hp
  · exact .refl

theorem writeOutputAt_steps (p : Port) (o : Output) (level : Bool) (w : Work) :
    SharedSteps takes w.st (writeOutputAt p o level w).1.st := by
  unfold writeOutputAt
  simp only
  split
  · exact .refl
  · split
    · exact .refl
    · next hf => exact (SharedStep.level o level (.inl (by simpa using hf))).steps

theorem reclaimAt_steps {p : Port} (o : Output) (h : takes p) (w : Work) : SharedSteps takes w.st (reclaimAt p o w).1.st := by
  unfold reclaimAt
  simp only
  split
  · next hnone =>
    have hclaim : (claimRecord p false (w.st.output o)).1 = { w.st.output o with owner := some p } := by
      simp only [claimRecord, hnone]
    have hstep := SharedStep.claim (s := w.st) o false h
    rw [hclaim] at hstep
    exact hstep.steps
  · next q hq =>
    split
    · exact .refl
    · have hst : (cancelOwned (some .reclaimed) none w.st.now o q w).1.st =
          w.st.setAgenda (cancelOwned (some .reclaimed) none w.st.now o q w).1.st.agenda := cancelTargets_st _ _ _ _ _
      have hunused := cancelOwned_unused (some .reclaimed) none w.st.now hq
      show SharedSteps takes w.st (onOutput o (reclaimRecord p) (cancelOwned (some .reclaimed) none w.st.now o q w).1.st)
      rw [hst]
      exact (SharedStep.reclaim h hunused).steps

theorem setSafeAt_steps (o : Output) (safe : Bool) (g : Option Group) (w : Work) :
    SharedSteps takes w.st (setSafeAt o safe g w).1.st := by
  unfold setSafeAt
  simp only
  split
  · next hfree =>
    rw [Bool.and_eq_true] at hfree
    exact (SharedStep.safe safe hfree.1 hfree.2).steps
  · exact .refl

theorem Thinner.of_slots {a b : Agenda} (hslots : b.slots = a.slots) (harmed : b.armed = a.armed) (hwaiting : b.waiting = a.waiting) :
    Thinner a b where
  listed h i hi := by rw [harmed, hwaiting]; exact h i (by rwa [hslots] at hi)
  stood i e he := ⟨e, by rwa [hslots] at he, rfl, rfl⟩

theorem setQuotaAt_steps (q : Port) (n : Byte) (w : Work) : SharedSteps takes w.st (setQuotaAt q n w).1.st := by
  unfold setQuotaAt
  simp only
  split
  · exact .refl
  · have hthin : Thinner w.st.agenda { w.st.agenda with quota := w.st.agenda.quota.set q n.toNat } :=
      Thinner.of_slots rfl rfl rfl
    exact (SharedStep.thin hthin).steps

theorem cancelAt_steps (p : Port) (h : Handle) (w : Work) : SharedSteps takes w.st (cancelAt p h w).1.st := by
  unfold cancelAt
  cases hl : liveEntry w.st.agenda h with
  | none => exact .refl
  | some e =>
    simp only
    split
    · have hfreed := (cancelTree_spec (w := w) (reason := none) (muted := none) (now := w.st.now) (i := h.slot)
        (by rw [(liveEntry_some.1 hl).2]; rfl)).1
      rw [cancelTree_st] at hfreed ⊢
      exact (SharedStep.thin hfreed.thinner).steps
    · exact .refl

theorem ackTripAt_steps (p : Port) (g : Group) (w : Work) : SharedSteps takes w.st (ackTripAt p g w).1.st := by
  unfold ackTripAt
  simp only
  split
  · exact .refl
  · next hn =>
    split
    · next ho =>
      show SharedSteps takes w.st (acknowledge p g w).st
      simp only [acknowledge, onState_st, onGroup, State.setGroup_group_self]
      split
      · exact enterNormal_setGroup_steps _ g w.st rfl rfl
      · next hr => exact (SharedStep.ack hn ho hr).steps
    · exact .refl

theorem clearTripAt_steps (g : Group) (force : Bool) (w : Work) : SharedSteps takes w.st (clearTripAt g force w).1.st := by
  unfold clearTripAt
  cases hs : (w.st.group g).state with
  | normal => simp only [hs]; exact .refl
  | tripped =>
    simp only [hs]
    split
    · exact .refl
    · split
      · exact enterNormal_steps _ _ _
      · next ha =>
        rw [not_or] at ha
        exact (SharedStep.releasing _ hs ha.2).steps
  | releasing =>
    simp only [hs]
    split
    · exact enterNormal_steps _ _ _
    · exact .refl

theorem setTripSourceAt_steps (g : Group) (i : Place) (src : Option Source) (w : Work) :
    SharedSteps takes w.st (setTripSourceAt g i src w).1.st := by
  have hsource := (SharedStep.source (takes := takes) (s := w.st) g i src).steps
  unfold setTripSourceAt
  simp only
  split
  · exact hsource.trans (takeCause_steps g _ _ (onState (onGroup g fun r => { r with sources := r.sources.set i src }) w))
  · exact hsource

/-! ### Session ends, edges and deadlines -/

theorem endAtOutput_steps (p : Port) (o : Output) (w : Work) : SharedSteps takes w.st (endAtOutput p o w).st := by
  unfold endAtOutput
  split
  · next hp => exact handOn_cancelOwned_steps _ _ _ _ hp
  · exact (SharedStep.leave p o).steps

theorem endAtAgenda_steps (p : Port) (w : Work) : SharedSteps takes w.st (endAtAgenda p w).st := by
  have hthin := cancelTargets_thinner none (some p) w.st.now (fun e => e.owner == p) w
  unfold endAtAgenda
  rw [cancelTargets_st]
  exact (SharedStep.thin hthin).steps

theorem endAtGroup_steps (p : Port) (g : Group) (w : Work) : SharedSteps takes w.st (endAtGroup p g w).st := by
  simp only [endAtGroup, onState_st, onGroup, State.setGroup_group_self]
  split
  · exact enterNormal_setGroup_steps _ g w.st rfl rfl
  · next hr => exact (SharedStep.leaveGroup hr).steps

theorem causeFrom_steps (g : Group) (t : Tick) (edge : Option Edge) (f : Source → Bool) (w : Work) :
    SharedSteps takes w.st (causeFrom g t edge f w).st := by
  unfold causeFrom
  split
  · exact takeCause_steps _ _ _ _
  · exact .refl

theorem releaseExpiryEvent_steps (g : Group) (w : Work) : SharedSteps takes w.st (releaseExpiryEvent g w).st := by
  unfold releaseExpiryEvent
  simp only
  split
  · next hr _ =>
    split
    · have hstep := (SharedStep.expired (takes := takes) hr).steps
      split <;> exact hstep
    · exact .refl
  · exact .refl

theorem edgeAtAgendaEvent_steps (e : Edge) (w : Work) : SharedSteps takes w.st (edgeAtAgendaEvent e w).st := by
  have harm : SharedSteps takes w.st
      (onAgenda (fun a => (armedByEdge e w.st.agenda).foldl (armFromAnchor e.stamp) a) w).st :=
    (SharedStep.thin (armAll_thinner _ _ _)).steps
  unfold edgeAtAgendaEvent
  simp only
  split
  · exact harm
  · exact harm.trans (pass_steps _ _)

/-- Every event on outputs, agenda and groups is a chain of steps; CLAIM and RECLAIM are those in which a port takes an output. -/
theorem SharedEvent.steps {s : State} {f : Work → Work} (h : SharedEvent s f) :
    SharedSteps (fun _ => True) s (f (startWork s)).st := by
  have hst : s = (startWork s).st := rfl
  generalize startWork s = w at *
  subst hst
  cases h with
  | claim => exact claimAt_steps _ _ trivial w
  | withdraw => exact withdrawAt_steps _ _ w
  | release => exact releaseAt_steps _ _ w
  | writeOutput => exact writeOutputAt_steps _ _ _ w
  | reclaim => exact reclaimAt_steps _ trivial w
  | setSafe => exact setSafeAt_steps _ _ _ w
  | setQuota => exact setQuotaAt_steps _ _ w
  | cancel => exact cancelAt_steps _ _ w
  | trip => exact takeCause_steps _ _ _ w
  | ackTrip => exact ackTripAt_steps _ _ w
  | clearTrip => exact clearTripAt_steps _ _ w
  | setTripSource => exact setTripSourceAt_steps _ _ _ w
  | setReleaseWindow => exact (SharedStep.window _ _).steps
  | outputEnd => exact endAtOutput_steps _ _ w
  | agendaEnd => exact endAtAgenda_steps _ w
  | groupEnd => exact endAtGroup_steps _ _ w
  | due => exact pass_steps _ w
  | cause => exact causeFrom_steps _ _ _ _ w
  | expiry => exact releaseExpiryEvent_steps _ w

theorem agendaEdge_steps {s : State} {e : Edge} (h : e ∈ s.published.agenda) :
    ∃ u, SharedSteps takes (s.setPublished { s.published with agenda := s.published.agenda.erase e }) u ∧
      ∃ tr, agendaEdge e s = u.setTransit tr := by
  unfold agendaEdge
  rw [if_pos h]
  exact ⟨_, edgeAtAgendaEvent_steps e (startWork _), _, rfl⟩

/-- What every step of an event keeps, whatever the other blocks hold, every event but SUBMIT keeps. -/
theorem Kept.of_steps {P : State → Prop} (hport : ∀ s p c, P s → P (s.setPort p c))
    (hqueue : ∀ s p q, QueueStep (s.queue p) q → P s → P (s.setQueue p q)) (htransit : ∀ s t, P s → P (s.setTransit t))
    (hpublished : ∀ s x, P s → P (s.setPublished x))
    (hstep : ∀ {s t}, SharedStep (fun _ => True) s t → P s → P t) : Kept P where
  port := hport
  queue := hqueue
  transit := htransit
  published s x _ h := hpublished s x h
  event _ _ hf h := hf.steps.keep hstep h
  edge s e h := by
    by_cases he : e ∈ s.published.agenda
    · obtain ⟨u, hsteps, tr, heq⟩ := agendaEdge_steps (takes := fun _ => True) he
      rw [heq]
      exact htransit _ _ (hsteps.keep hstep (hpublished _ _ h))
    · simpa only [agendaEdge, if_neg he] using h

end Sys2Proof.Machine
end

section
/-! What every step keeps of the outputs: forced outputs stand at their safe levels, and live entries on outputs their owners own (R34,
R40). -/

namespace Sys2Proof.Machine

set_option Elab.async false

/-! ### Forced outputs (R34) -/

theorem recordForced_iff {groups : PerGroup GroupRec} {r : OutputRec} :
    recordForced groups r = true ↔ ∃ g, r.group = some g ∧ (groups.get g).state.forces = true := by
  unfold recordForced
  cases r.group <;> simp

theorem GroupState.forces_iff {x : GroupState} : x.forces = true ↔ x ≠ .normal := by
  cases x <;> simp [GroupState.forces]

/-- Where every group that forces now forced before, a record is forced now only if it was before. -/
theorem recordForced_mono {groups groups' : PerGroup GroupRec} {r : OutputRec}
    (h : ∀ g, (groups'.get g).state.forces = true → (groups.get g).state.forces = true) (hr : recordForced groups' r = true) :
    recordForced groups r = true := by
  obtain ⟨g, hg, hf⟩ := recordForced_iff.1 hr
  exact recordForced_iff.2 ⟨g, hg, h g hf⟩

/-- A membership that SET_SAFE may write, and one that it may replace, forces nothing. -/
theorem membershipFree_unforced {s : State} {r : OutputRec} (h : membershipFree s r.group = true) :
    recordForced s.groups r = false := by
  unfold recordForced
  unfold membershipFree at h
  cases hg : r.group with
  | none => rfl
  | some g => rw [hg] at h; simp only [Bool.not_eq_true'] at h; exact h

/-! ### The protective state -/

/-- Thinning the agenda keeps the protective state. -/
theorem Protected.setAgenda {s : State} (h : Protected s) {a : Agenda} (ht : Thinner s.agenda a) : Protected (s.setAgenda a) where
  listed := ht.listed h.listed
  owned i e he := by
    obtain ⟨x, hx, howner, hplan⟩ := ht.stood i e he
    rw [howner, hplan]; exact h.owned i x hx
  unforced i e he := by
    obtain ⟨x, hx, _, hplan⟩ := ht.stood i e he
    rw [hplan]; exact h.unforced i x hx
  safe := h.safe

/-- One output record replaced: it keeps the protective state if the record stands at its safe level where it is forced, and, where a
live entry stands on it, keeps its owner and is not forced. -/
theorem Protected.setOutput {s : State} (h : Protected s) {o : Output} {r : OutputRec}
    (hsafe : recordForced s.groups r = true → r.level = r.safe)
    (hused : ∀ i e, s.entry i = some e → e.plan.output = o → r.owner = some e.owner ∧ recordForced s.groups r = false) :
    Protected (s.setOutput o r) where
  listed := h.listed
  owned i e he := by
    rw [State.setOutput_output]
    split
    · next ho => exact (hused i e he ho).1
    · exact h.owned i e he
  unforced i e he := by
    show recordForced s.groups ((s.setOutput o r).output e.plan.output) = false
    rw [State.setOutput_output]
    split
    · next ho => exact (hused i e he ho).2
    · exact h.unforced i e he
  safe k hk := by
    change recordForced s.groups ((s.setOutput o r).output k) = true at hk
    rw [State.setOutput_output] at hk ⊢
    by_cases hko : k = o
    · rw [if_pos hko] at hk ⊢; exact hsafe hk
    · rw [if_neg hko] at hk ⊢; exact h.safe k hk

/-- A record that keeps its owner, its membership and its levels is as protected as before. -/
theorem Protected.setOutput_waiting {s : State} (h : Protected s) {o : Output} {r : OutputRec}
    (howner : ∀ i e, s.entry i = some e → e.plan.output = o → r.owner = some e.owner)
    (hgroup : r.group = (s.output o).group) (hlevel : r.level = (s.output o).level) (hsafe : r.safe = (s.output o).safe) :
    Protected (s.setOutput o r) := by
  have hforced : recordForced s.groups r = forced s o := by unfold forced recordForced; rw [hgroup]
  refine h.setOutput (fun hf => ?_) fun i e he ho => ⟨howner i e he ho, ?_⟩
  · rw [hlevel, hsafe]; exact h.safe o (hforced ▸ hf)
  · rw [hforced, ← ho]; exact h.unforced i e he

/-- A group record replaced by one that forces only if the old one did keeps the protective state. -/
theorem Protected.setGroup {s : State} (h : Protected s) {g : Group} {r : GroupRec}
    (hr : r.state.forces = true → (s.group g).state.forces = true) : Protected (s.setGroup g r) := by
  have hmono : ∀ o, forced (s.setGroup g r) o = true → forced s o = true := fun o => recordForced_mono fun k hk => by
    change ((s.setGroup g r).group k).state.forces = true at hk
    rw [State.setGroup_group] at hk
    split at hk
    · next hkg => rw [hkg]; exact hr hk
    · exact hk
  refine ⟨h.listed, h.owned, fun i e he => ?_, fun o ho => h.safe o (hmono o ho)⟩
  rw [← Bool.not_eq_true]
  exact fun hf => absurd (hmono _ hf) (by rw [h.unforced i e he]; decide)

/-- An ownership handed on once the owner's entries on the output are cancelled keeps the protective state, whoever is the new owner. -/
theorem Protected.endOwnership {s : State} (h : Protected s) {o : Output} {a : Agenda} (hu : Unused s o a) {r : OutputRec}
    (hgroup : r.group = (s.output o).group) (hlevel : r.level = (s.output o).level) (hsafe : r.safe = (s.output o).safe) :
    Protected ((s.setAgenda a).setOutput o r) := by
  refine (h.setAgenda hu.1).setOutput_waiting (fun i e he ho => ?_) hgroup hlevel hsafe
  obtain ⟨x, hx, howner, hplan⟩ := hu.1.stood i e he
  have := h.owned i x hx
  rw [← howner, ← hplan, ho] at this
  exact absurd this (hu.2 h.listed i e he ho)

/-- The trip event: the members stand at their safe levels, and no live entry is left on them (R113). -/
theorem Protected.tripped {s : State} (h : Protected s) {g : Group} {a : Agenda} (c : Cause) (ht : Thinner s.agenda a)
    (hgone : ∀ i e, (a.slots.get i).entry = some e → isMember s.outputs g e.plan.output = false) :
    Protected (s.tripped g c a) := by
  have houtput : ∀ o, (s.tripped g c a).output o =
      if (s.output o).group = some g then { s.output o with level := (s.output o).safe } else s.output o :=
    fun o => forceMembers_get g s.outputs o
  have hothers : ∀ o, (s.output o).group ≠ some g → forced (s.tripped g c a) o = forced s o := by
    intro o ho
    unfold forced recordForced
    rw [houtput, if_neg ho]
    cases hk : (s.output o).group with
    | none => rfl
    | some k =>
      have hkg : k ≠ g := fun hkg => ho (hkg ▸ hk)
      exact congrArg (fun r : GroupRec => r.state.forces) (PerGroup.get_set_ne s.groups hkg _)
  refine ⟨ht.listed h.listed, fun i e he => ?_, fun i e he => ?_, fun o ho => ?_⟩
  · obtain ⟨x, hx, howner, hplan⟩ := ht.stood i e he
    have howned := h.owned i x hx
    rw [houtput, howner, hplan]
    split <;> exact howned
  · obtain ⟨x, hx, _, hplan⟩ := ht.stood i e he
    rw [hothers, hplan]
    · exact h.unforced i x hx
    · intro hm
      have := hgone i e he
      simp only [isMember, beq_eq_false_iff_ne] at this
      exact this hm
  · by_cases hm : (s.output o).group = some g
    · rw [houtput, if_pos hm]
    · rw [hothers o hm] at ho
      rw [houtput, if_neg hm]
      exact h.safe o ho

theorem claimRecord_eq (p : Port) (wait : Bool) (r : OutputRec) : (claimRecord p wait r).1 = r ∨
    (r.owner = none ∧ (claimRecord p wait r).1 = { r with owner := some p }) ∨
    (∃ q, r.owner = some q ∧ q ≠ p ∧ p ∉ r.waiting ∧ (claimRecord p wait r).1 = { r with waiting := r.waiting ++ [p] }) := by
  unfold claimRecord
  cases hr : r.owner with
  | none => exact .inr (.inl ⟨rfl, rfl⟩)
  | some q =>
    simp only
    split
    · exact .inl rfl
    · next hq =>
      split
      · split
        · exact .inl rfl
        · next hw => exact .inr (.inr ⟨q, rfl, hq, hw, rfl⟩)
      · exact .inl rfl

/-- Every step of an event keeps the protective state. -/
theorem SharedStep.protected {takes : Port → Prop} {s t : State} (hstep : SharedStep takes s t) (h : Protected s) : Protected t := by
  cases hstep with
  | thin ht => exact h.setAgenda ht
  | level o l hl =>
    have hfree : forced s o = false := hl.elim id fun ⟨i, e, he, ho⟩ => ho ▸ h.unforced i e he
    refine h.setOutput (fun hf => ?_) fun i e he ho => ⟨ho ▸ h.owned i e he, hfree⟩
    exact absurd (hfree.symm.trans hf) (by decide)
  | @claim p o wait _ =>
    have howned : ∀ i e, s.entry i = some e → e.plan.output = o → (s.output o).owner = some e.owner :=
      fun i e he ho => ho ▸ h.owned i e he
    rcases claimRecord_eq p wait (s.output o) with heq | ⟨hnone, heq⟩ | ⟨q, _, _, _, heq⟩ <;> rw [heq]
    · rw [State.setOutput_same]; exact h
    · refine h.setOutput_waiting (fun i e he ho => ?_) rfl rfl rfl
      exact absurd (hnone.symm.trans (howned i e he ho)) (by simp)
    · exact h.setOutput_waiting howned rfl rfl rfl
  | leave p o => exact h.setOutput_waiting (fun i e he ho => ho ▸ h.owned i e he) rfl rfl rfl
  | handOn hu => exact h.endOwnership hu rfl rfl rfl
  | reclaim _ hu => exact h.endOwnership hu rfl rfl rfl
  | @safe o g l hold hnew =>
    have hfree : recordForced s.groups { s.output o with safe := l, group := g } = false := membershipFree_unforced hnew
    refine h.setOutput (fun hf => ?_) fun i e he ho => ⟨ho ▸ h.owned i e he, hfree⟩
    exact absurd (hfree.symm.trans hf) (by decide)
  | trip c _ ht hgone => exact h.tripped c ht (hgone h.listed)
  | further c hn => exact h.setGroup fun _ => GroupState.forces_iff.2 hn
  | source => exact h.setGroup id
  | window => exact h.setGroup id
  | ack => exact h.setGroup id
  | normal => exact h.setGroup fun hf => absurd rfl (GroupState.forces_iff.1 hf)
  | releasing _ ht => exact h.setGroup fun _ => by rw [ht]; rfl
  | expired hr => exact h.setGroup fun _ => by rw [hr]; rfl
  | leaveGroup => exact h.setGroup id

/-! ### A new entry (R75) -/

theorem acceptEntry_get_ne (now : Tick) (p : Port) (d : Plan) {i j : SlotNo} (a : Agenda) (h : j ≠ i) :
    (acceptEntry now p d i a).slots.get j = a.slots.get j := by
  have hput : (putEntry a i (newEntry p d)).slots.get j = a.slots.get j := Table.get_set_ne _ h _
  unfold acceptEntry
  cases d.anchor with
  | absolute => exact (placeArmed_get_ne _ _ h _).trans hput
  | input => exact hput
  | entry => exact hput

/-- The new entry is the caller's, with the plan it was submitted with. -/
theorem acceptEntry_entry_self (now : Tick) (p : Port) (d : Plan) (i : SlotNo) (a : Agenda) :
    ∃ st, ((acceptEntry now p d i a).slots.get i).entry = some { newEntry p d with state := st } := by
  have hput : ((putEntry a i (newEntry p d)).slots.get i).entry = some (newEntry p d) :=
    congrArg Slot.entry (Table.get_set_self _ _ _)
  unfold acceptEntry
  cases d.anchor with
  | absolute due => exact ⟨_, congrArg Slot.entry (placeArmed_get_self _ _ _ _)⟩
  | input => exact ⟨_, hput⟩
  | entry => exact ⟨_, hput⟩

theorem acceptEntry_listed (now : Tick) (p : Port) (d : Plan) (i : SlotNo) {a : Agenda} (h : Listed a) :
    Listed (acceptEntry now p d i a) := by
  have hin : ∀ j, (j = i ∨ j ∈ a.armed ∨ j ∈ a.waiting) →
      j ∈ (acceptEntry now p d i a).armed ∨ j ∈ (acceptEntry now p d i a).waiting := by
    intro j hj
    unfold acceptEntry
    cases d.anchor with
    | absolute due =>
      simp only [mem_placeArmed_armed, placeArmed_waiting, putEntry_armed, putEntry_waiting, List.mem_filter,
        decide_eq_true_eq]
      tauto
    | input =>
      simp only [putEntry_armed, putEntry_waiting, List.mem_append, List.mem_singleton]
      tauto
    | entry =>
      simp only [putEntry_armed, putEntry_waiting, List.mem_append, List.mem_singleton]
      tauto
  intro j hj
  by_cases hji : j = i
  · exact hin j (.inl hji)
  · rw [acceptEntry_get_ne now p d a hji] at hj
    exact hin j (.inr (h j hj))

/-- SUBMIT accepts an entry on an output that its caller owns and that is not forced (R73). -/
theorem submitAt_protected (p : Port) (d : Plan) (w : Work) (h : Protected w.st) : Protected (submitAt p d w).1.st := by
  obtain heq | ⟨i, hfree, _, howner, hforced, heq⟩ := submitAt_cases p d w
  · rw [heq]; exact h
  have haccept : Protected (w.st.setAgenda (acceptEntry w.st.now p d i w.st.agenda)) := by
    have hstood : ∀ j e, ((acceptEntry w.st.now p d i w.st.agenda).slots.get j).entry = some e →
        (e.owner = p ∧ e.plan = d) ∨ w.st.entry j = some e := by
      intro j e he
      by_cases hj : j = i
      · subst hj
        obtain ⟨st, hst⟩ := acceptEntry_entry_self w.st.now p d j w.st.agenda
        rw [hst] at he; cases he; exact .inl ⟨rfl, rfl⟩
      · rw [acceptEntry_get_ne _ _ _ _ hj] at he; exact .inr he
    refine ⟨acceptEntry_listed _ _ _ _ h.listed, fun j e he => ?_, fun j e he => ?_, h.safe⟩
    · obtain ⟨ho, hp⟩ | hold := hstood j e he
      · rw [ho, hp]; exact howner
      · exact h.owned j e hold
    · obtain ⟨_, hp⟩ | hold := hstood j e he
      · rw [hp]; exact hforced
      · exact h.unforced j e hold
  rw [heq]
  split
  · exact (pass_steps (takes := fun _ => True) _ (onAgenda (acceptEntry w.st.now p d i) w)).keep SharedStep.protected haccept
  · exact haccept

/-! ### Every step keeps the protective state -/

theorem Protected.congr {s t : State} (h : Protected s) (ho : t.outputs = s.outputs) (ha : t.agenda = s.agenda)
    (hg : t.groups = s.groups) : Protected t := by
  have hout : ∀ o, t.output o = s.output o := fun o => congrArg (fun x => x.get o) ho
  have hentry : ∀ i, t.entry i = s.entry i := fun i => congrArg (fun x : Agenda => (x.slots.get i).entry) ha
  have hforced : ∀ o, forced t o = forced s o := fun o => by unfold forced; rw [hg, hout]
  exact ⟨ha ▸ h.listed, fun i e he => hout _ ▸ h.owned i e (hentry i ▸ he),
    fun i e he => hforced _ ▸ h.unforced i e (hentry i ▸ he), fun o hf => hout o ▸ h.safe o (hforced o ▸ hf)⟩

theorem kept_protected : Kept Protected :=
  .of_steps (fun _ _ _ h => h.congr rfl rfl rfl) (fun _ _ _ _ h => h.congr rfl rfl rfl) (fun _ _ h => h.congr rfl rfl rfl)
    (fun _ _ h => h.congr rfl rfl rfl) SharedStep.protected

/-- In device reset nothing is live and nothing is forced. -/
theorem heldInReset_protected (s : State) : Protected (heldInReset s) := by
  have hentry : ∀ i, (heldInReset s).entry i = none := fun i => congrArg Slot.entry (Agenda.reset_slot i)
  have hforced : ∀ o, forced (heldInReset s) o = false := fun o => by
    have : (heldInReset s).output o = OutputRec.reset := Table.get_fill _ o
    unfold forced
    rw [this]
    rfl
  refine ⟨fun i hi => ?_, fun i e he => ?_, fun i e he => ?_, fun o ho => ?_⟩
  · exact absurd (congrArg Option.isSome (hentry i)) (by rw [show ((heldInReset s).entry i).isSome = true from hi]; decide)
  · rw [hentry] at he; cases he
  · rw [hentry] at he; cases he
  · rw [hforced] at ho; cases ho

theorem exec_protected {s t : State} {c : Instr} (h : Protected s) (hx : exec c s = .next t) : Protected t := by
  refine kept_protected.exec h hx (hreset := fun _ => heldInReset_protected s) (hrelease := fun a b _ => ?release)
    (htick := fun _ _ hk => hk.congr (rollover_outputs _ _) (rollover_agenda _ _) (rollover_groups _ _))
    (htime := fun _ _ _ => h.congr rfl rfl rfl) (hlines := fun _ _ => h.congr rfl rfl rfl)
    (hsubmit := fun p d _ _ => submitAt_protected p d (startWork s) h)
  case release =>
    unfold releaseReset
    split
    · exact h.congr rfl rfl rfl
    · exact h

/-- Settles O57, from what each step of an event keeps. -/
theorem everyStepKeepsForcedOutputsSafe : Obligations.EveryStepKeepsForcedOutputsSafe := by
  unfold Obligations.EveryStepKeepsForcedOutputsSafe
  intro s t h hstep
  exact step_keeps (fun _ _ h => h.congr rfl rfl rfl) (fun _ _ _ h hx => exec_protected h hx) h hstep

end Sys2Proof.Machine
end

section
/-! What every step keeps in good order: the line records (R19, R20), the prescaler count (R1), the output records (R33), the queues
(R133, R137) and the groups (R108, R121, R124). -/

namespace Sys2Proof.Machine

set_option Elab.async false

/-! ### Line records (R17 to R20, R27) -/

theorem LineRec.reset_ok : LineRec.reset.ok := ⟨rfl, rfl, rfl⟩

theorem byte_toNat_add_one {x y : Byte} (h : x.toNat < y.toNat) : (x + 1).toNat = x.toNat + 1 := by
  have hy := y.isLt
  rw [BitVec.toNat_add, show (1 : Byte).toNat = 1 from rfl, Nat.mod_eq_of_lt (by omega)]

/-- A sample that differs from the qualified level qualifies the change when the count has reached the filter length. -/
theorem qualifies_of_ne {x : Bool} {r : LineRec} (h : x ≠ r.qualified) :
    qualifies x r = decide (r.filter.toNat ≤ r.stability.toNat) := by
  simp [qualifies, h]

/-- A tick keeps a line record in good order: the count reads 0 exactly where the sample agrees. -/
theorem stepLine_ok (x : Bool) {r : LineRec} (h : r.ok) : (stepLine x r).ok := by
  unfold stepLine
  cases hs : r.settled with
  | false =>
    simp only [LineRec.ok, hs] at h
    obtain ⟨_, _, hcount⟩ := h
    simp [LineRec.ok, settleLine, hcount]
  | true =>
    simp only [if_true, filterStep]
    split
    · next hx => simp [LineRec.ok, hs, hx]
    · next hx =>
      split
      · simp [LineRec.ok, hs]
      · next hq =>
        rw [qualifies_of_ne hx, decide_eq_true_eq, not_le] at hq
        have hne : r.stability + 1 ≠ 0 := fun h0 => by
          have := byte_toNat_add_one hq
          rw [h0] at this
          exact absurd this (by simp)
        simp only [LineRec.ok, hs, if_true]
        exact iff_of_true hx hne

/-- A filter length written leaves a line record in the order it was in. -/
theorem writeFilters_ok (ls : BitVec 16) (n : Byte) {t : Table 16 LineRec} (h : ∀ l, (t.get l).ok) (l : Line) :
    ((writeFilters ls n t).get l).ok := by
  unfold writeFilters
  rw [Table.get_ofFn]
  simp only
  split
  · exact h l
  · exact h l

/-! ### Output records (R32, R33) -/

theorem OutputRec.reset_ok : OutputRec.reset.ok := ⟨List.nodup_nil, fun _ _ => List.not_mem_nil, fun _ => rfl⟩

/-- A level, a safe level and a membership are not among what R33 speaks of. -/
theorem OutputRec.ok.congr {r r' : OutputRec} (h : r.ok) (ho : r'.owner = r.owner) (hw : r'.waiting = r.waiting) : r'.ok := by
  unfold OutputRec.ok
  rw [ho, hw]
  exact h

theorem leaveList_ok {r : OutputRec} (p : Port) (h : r.ok) : (leaveList p r).ok := by
  obtain ⟨honce, howner, hnone⟩ := h
  exact ⟨honce.filter _, fun q hq hm => howner q hq (List.mem_of_mem_filter hm), fun hn => by simp [leaveList, hnone hn]⟩

/-- The head waiter takes the output over. -/
theorem handOn_ok {r : OutputRec} (h : r.ok) : ({ r with owner := r.waiting.head?, waiting := r.waiting.tail } : OutputRec).ok := by
  obtain ⟨honce, _, _⟩ := h
  cases hw : r.waiting with
  | nil => exact ⟨List.nodup_nil, fun _ hq => by simp at hq, fun _ => rfl⟩
  | cons q qs =>
    rw [hw, List.nodup_cons] at honce
    exact ⟨honce.2, fun k hk hm => by cases hk; exact honce.1 hm, fun hn => by simp at hn⟩

theorem claimRecord_ok {r : OutputRec} (p : Port) (wait : Bool) (h : r.ok) : (claimRecord p wait r).1.ok := by
  obtain ⟨honce, howner, hnone⟩ := h
  rcases claimRecord_eq p wait r with heq | ⟨hfree, heq⟩ | ⟨q, hq, hqp, hw, heq⟩ <;> rw [heq]
  · exact ⟨honce, howner, hnone⟩
  · refine ⟨honce, fun k _ => ?_, fun hn => by simp at hn⟩
    simp only [hnone hfree]
    exact List.not_mem_nil
  · refine ⟨honce.append (List.nodup_singleton p) (by simpa using hw), fun k hk => ?_, fun hn => ?_⟩
    · rw [List.mem_append, List.mem_singleton, not_or]
      refine ⟨howner k hk, fun hkp => hqp ?_⟩
      rw [hkp] at hk
      exact Option.some.inj (hq.symm.trans hk)
    · exact absurd (hq.symm.trans hn) (by simp)

/-- The supervisor takes the output ahead of the waiters, of whom it is then none. -/
theorem reclaimRecord_ok {r : OutputRec} (p : Port) (h : r.ok) : (reclaimRecord p r).ok := by
  obtain ⟨honce, _, _⟩ := h
  refine ⟨honce.filter _, fun q hq hm => ?_, fun hn => by simp [reclaimRecord] at hn⟩
  cases hq
  simpa using List.of_mem_filter hm

/-- What a step leaves of one output's owner and waiting list, where output `k` was replaced by `r`. -/
theorem outputs_ok_setOutput {s : State} {k : Output} {r : OutputRec} (h : ∀ o, (s.output o).ok) (hr : r.ok) (o : Output) :
    ((s.setOutput k r).output o).ok := by
  rw [State.setOutput_output]
  split
  · exact hr
  · exact h o

/-- Every step of an event keeps the output records in good order. -/
theorem SharedStep.outputs_ok {takes : Port → Prop} {s t : State} (hstep : SharedStep takes s t) (h : ∀ o, (s.output o).ok) :
    ∀ o, (t.output o).ok := by
  cases hstep with
  | thin => exact h
  | level o => exact outputs_ok_setOutput h ((h o).congr rfl rfl)
  | claim o wait => exact outputs_ok_setOutput h (claimRecord_ok _ wait (h o))
  | leave p o => exact outputs_ok_setOutput h (leaveList_ok p (h o))
  | @handOn o a => exact outputs_ok_setOutput (s := s.setAgenda a) h (handOn_ok (h o))
  | @reclaim p o a => exact outputs_ok_setOutput (s := s.setAgenda a) h (reclaimRecord_ok p (h o))
  | @safe o => exact outputs_ok_setOutput h ((h o).congr rfl rfl)
  | @trip g a =>
    intro o
    have hget := forceMembers_get g s.outputs o
    change ((forceMembers g s.outputs).get o).ok
    rw [hget]
    split
    · exact (h o).congr rfl rfl
    · exact h o
  | _ => exact h

/-- SUBMIT reaches the agenda alone but for a firing pass. -/
theorem submitAt_keeps {P : State → Prop} (hP : ∀ {s t}, SharedStep (fun _ => True) s t → P s → P t)
    (hagenda : ∀ s a, P s → P (s.setAgenda a)) (p : Port) (d : Plan) {w : Work} (h : P w.st) : P (submitAt p d w).1.st := by
  obtain heq | ⟨i, _, _, _, _, heq⟩ := submitAt_cases p d w
  · rw [heq]; exact h
  · rw [heq]
    split
    · exact (pass_steps _ (onAgenda (acceptEntry w.st.now p d i) w)).keep hP (hagenda _ _ h)
    · exact hagenda _ _ h

theorem kept_outputsOk : Kept fun s => ∀ o, (s.output o).ok :=
  .of_steps (fun _ _ _ h => h) (fun _ _ _ _ h => h) (fun _ _ h => h) (fun _ _ h => h) SharedStep.outputs_ok

theorem exec_outputsOk {s t : State} {c : Instr} (h : ∀ o, (s.output o).ok) (hx : exec c s = .next t) : ∀ o, (t.output o).ok := by
  refine kept_outputsOk.exec h hx (hreset := fun _ o => ?reset) (hrelease := fun a b _ => ?release) (htick := fun _ _ hk => ?tick)
    (htime := fun _ _ _ => h) (hlines := fun _ _ => h)
    (hsubmit := fun p d _ _ => submitAt_keeps SharedStep.outputs_ok (fun _ _ h => h) p d (w := startWork s) h)
  case reset =>
    rw [show (heldInReset s).output o = OutputRec.reset from Table.get_fill _ o]
    exact OutputRec.reset_ok
  case release => unfold releaseReset; split <;> exact h
  case tick => simpa only [rollover_output] using hk

/-! ### Groups (R108 to R126) -/

theorem GroupRec.reset_ok : GroupRec.reset.ok := ⟨rfl, rfl, rfl, rfl⟩

theorem satInc_ne_zero {x : Byte} (h : x ≠ 0) : satInc x ≠ 0 := by
  have hlt := x.isLt
  have hpos : x.toNat ≠ 0 := fun h0 => h (BitVec.eq_of_toNat_eq h0)
  rw [satInc_byte]
  split
  · decide
  · next hx =>
    have hle : x.toNat < (255 : Byte).toNat := by
      have : x.toNat ≠ 255 := fun h255 => hx (BitVec.eq_of_toNat_eq h255)
      rw [show (255 : Byte).toNat = 255 from rfl]
      omega
    intro h0
    have := byte_toNat_add_one hle
    rw [h0] at this
    exact absurd this (by simp)

theorem portSetEmpty_get (p : Port) : portSetEmpty.get p = false := PerPort.get_fill false p

theorem PortSet.within_empty (t : PortSet) : PortSet.within portSetEmpty t := fun p hp => by
  rw [portSetEmpty_get] at hp; cases hp

theorem PortSet.within_add {t u : PortSet} {p : Port} (h : PortSet.within t u) (hp : u.get p = true) :
    PortSet.within (portSetAdd t p) u := by
  intro q hq
  by_cases hqp : q = p
  · rw [hqp]; exact hp
  · rw [portSetAdd, PerPort.get_set_ne _ hqp] at hq; exact h q hq

theorem PortSet.within_remove {t u : PortSet} (p : Port) (h : PortSet.within t u) :
    PortSet.within (portSetRemove t p) (portSetRemove u p) := by
  intro q hq
  by_cases hqp : q = p
  · rw [hqp, portSetRemove, PerPort.get_set_self] at hq; cases hq
  · rw [portSetRemove, PerPort.get_set_ne _ hqp] at hq ⊢; exact h q hq

theorem portSetRemove_empty (p : Port) : portSetRemove portSetEmpty p = portSetEmpty := by
  ext q
  rw [portSetRemove, PerPort.get_set]
  split
  · exact (portSetEmpty_get q).symm
  · rfl

theorem GroupRec.ok_normal {r : GroupRec} (h : r.state = .normal) : r.ok ↔
    r.count = 0 ∧ r.owed = portSetEmpty ∧ r.acked = portSetEmpty ∧ r.deadline = none := by
  unfold GroupRec.ok; rw [h]

theorem GroupRec.ok_tripped {r : GroupRec} (h : r.state = .tripped) : r.ok ↔
    r.count ≠ 0 ∧ r.first.isSome ∧ r.latest.isSome ∧ r.deadline = none ∧ PortSet.within r.acked r.owed := by
  unfold GroupRec.ok; rw [h]

theorem GroupRec.ok_releasing {r : GroupRec} (h : r.state = .releasing) : r.ok ↔
    r.count ≠ 0 ∧ r.first.isSome ∧ r.latest.isSome ∧ PortSet.within r.acked r.owed ∧ r.acked ≠ r.owed := by
  unfold GroupRec.ok; rw [h]

/-- Out of NORMAL something is counted and both causes are known. -/
theorem GroupRec.ok.counted {r : GroupRec} (h : r.ok) (hn : r.state ≠ .normal) :
    r.count ≠ 0 ∧ r.first.isSome ∧ r.latest.isSome ∧ PortSet.within r.acked r.owed := by
  cases hs : r.state with
  | normal => exact absurd hs hn
  | tripped =>
    obtain ⟨hcount, hfirst, hlatest, _, hwithin⟩ := (GroupRec.ok_tripped hs).1 h
    exact ⟨hcount, hfirst, hlatest, hwithin⟩
  | releasing =>
    obtain ⟨hcount, hfirst, hlatest, hwithin, _⟩ := (GroupRec.ok_releasing hs).1 h
    exact ⟨hcount, hfirst, hlatest, hwithin⟩

theorem normalRecord_ok (r : GroupRec) : (normalRecord r).ok := ⟨rfl, rfl, rfl, rfl⟩

/-- A trip event leaves a group in good order (R113). -/
theorem tripRecord_ok (c : Cause) (r : GroupRec) (owed : PortSet) :
    ({ tripRecord c r with owed := owed, acked := portSetEmpty } : GroupRec).ok :=
  (GroupRec.ok_tripped rfl).2 ⟨show (1 : Byte) ≠ 0 by decide, rfl, rfl, rfl, PortSet.within_empty _⟩

/-- So does a further cause (R116, R117). -/
theorem furtherRecord_ok (c : Cause) {r : GroupRec} (owed : PortSet) (h : r.ok) (hn : r.state ≠ .normal) :
    ({ furtherRecord c r with owed := owed, acked := portSetEmpty } : GroupRec).ok := by
  obtain ⟨hcount, hfirst, _, _⟩ := h.counted hn
  exact (GroupRec.ok_tripped rfl).2 ⟨satInc_ne_zero hcount, hfirst, rfl, rfl, PortSet.within_empty _⟩

/-- An acknowledgment of an owed port that does not complete the set (R118). -/
theorem acked_ok {r : GroupRec} {p : Port} (h : r.ok) (hn : r.state ≠ .normal) (ho : r.owed.get p = true)
    (hr : ¬(r.state = .releasing ∧ portSetAdd r.acked p = r.owed)) :
    ({ r with acked := portSetAdd r.acked p } : GroupRec).ok := by
  cases hs : r.state with
  | normal => exact absurd hs hn
  | tripped =>
    obtain ⟨hcount, hfirst, hlatest, hdeadline, hwithin⟩ := (GroupRec.ok_tripped hs).1 h
    exact (GroupRec.ok_tripped rfl).2 ⟨hcount, hfirst, hlatest, hdeadline, PortSet.within_add hwithin ho⟩
  | releasing =>
    obtain ⟨hcount, hfirst, hlatest, hwithin, _⟩ := (GroupRec.ok_releasing hs).1 h
    exact (GroupRec.ok_releasing rfl).2 ⟨hcount, hfirst, hlatest, PortSet.within_add hwithin ho, fun heq => hr ⟨hs, heq⟩⟩

/-- The entry into RELEASING, where an acknowledgment is missing (R120, R121). -/
theorem releasingRecord_ok (now : Tick) {r : GroupRec} (h : r.ok) (ht : r.state = .tripped) (ha : r.acked ≠ r.owed) :
    (releasingRecord now r).ok := by
  obtain ⟨hcount, hfirst, hlatest, _, hwithin⟩ := (GroupRec.ok_tripped ht).1 h
  exact (GroupRec.ok_releasing rfl).2 ⟨hcount, hfirst, hlatest, hwithin, ha⟩

/-- A release deadline that expired (R122). -/
theorem expiredRecord_ok {r : GroupRec} (h : r.ok) (hr : r.state = .releasing) : (expiredRecord r).ok := by
  obtain ⟨hcount, hfirst, hlatest, hwithin, _⟩ := (GroupRec.ok_releasing hr).1 h
  exact (GroupRec.ok_tripped rfl).2 ⟨hcount, hfirst, hlatest, rfl, hwithin⟩

/-- A port that leaves both sets, where an acknowledgment is then still missing in RELEASING (R126). -/
theorem leaveGroup_ok {r : GroupRec} {p : Port} (h : r.ok)
    (hr : ¬(r.state = .releasing ∧ portSetRemove r.acked p = portSetRemove r.owed p)) :
    ({ r with owed := portSetRemove r.owed p, acked := portSetRemove r.acked p } : GroupRec).ok := by
  cases hs : r.state with
  | normal =>
    obtain ⟨hcount, howed, hacked, hdeadline⟩ := (GroupRec.ok_normal hs).1 h
    refine (GroupRec.ok_normal rfl).2 ⟨hcount, ?_, ?_, hdeadline⟩
    · simp only [howed]; exact portSetRemove_empty p
    · simp only [hacked]; exact portSetRemove_empty p
  | tripped =>
    obtain ⟨hcount, hfirst, hlatest, hdeadline, hwithin⟩ := (GroupRec.ok_tripped hs).1 h
    exact (GroupRec.ok_tripped rfl).2 ⟨hcount, hfirst, hlatest, hdeadline, PortSet.within_remove p hwithin⟩
  | releasing =>
    obtain ⟨hcount, hfirst, hlatest, hwithin, _⟩ := (GroupRec.ok_releasing hs).1 h
    exact (GroupRec.ok_releasing rfl).2 ⟨hcount, hfirst, hlatest, PortSet.within_remove p hwithin, fun heq => hr ⟨hs, heq⟩⟩

theorem groups_ok_setGroup {s : State} {k : Group} {r : GroupRec} (h : ∀ g, (s.group g).ok) (hr : r.ok) (g : Group) :
    ((s.setGroup k r).group g).ok := by
  rw [State.setGroup_group]
  split
  · exact hr
  · exact h g

/-- Every step of an event keeps the groups in good order. -/
theorem SharedStep.groups_ok {takes : Port → Prop} {s t : State} (hstep : SharedStep takes s t) (h : ∀ g, (s.group g).ok) :
    ∀ g, (t.group g).ok := by
  cases hstep with
  | @trip g _ c => exact groups_ok_setGroup h (tripRecord_ok c (s.group g) (owedSet s.outputs g))
  | @further g c hn => exact groups_ok_setGroup h (furtherRecord_ok c _ (h g) hn)
  | source g => exact groups_ok_setGroup h (h g)
  | window g => exact groups_ok_setGroup h (h g)
  | @ack _ g hn ho hr => exact groups_ok_setGroup h (acked_ok (h g) hn ho hr)
  | normal g => exact groups_ok_setGroup h (normalRecord_ok _)
  | @releasing g now ht ha => exact groups_ok_setGroup h (releasingRecord_ok now (h g) ht ha)
  | @expired g hr => exact groups_ok_setGroup h (expiredRecord_ok (h g) hr)
  | @leaveGroup _ g hr => exact groups_ok_setGroup h (leaveGroup_ok (h g) hr)
  | _ => exact h

theorem kept_groupsOk : Kept fun s => ∀ g, (s.group g).ok :=
  .of_steps (fun _ _ _ h => h) (fun _ _ _ _ h => h) (fun _ _ h => h) (fun _ _ h => h) SharedStep.groups_ok

theorem exec_groupsOk {s t : State} {c : Instr} (h : ∀ g, (s.group g).ok) (hx : exec c s = .next t) : ∀ g, (t.group g).ok := by
  refine kept_groupsOk.exec h hx (hreset := fun _ g => ?reset) (hrelease := fun a b _ => ?release) (htick := fun _ _ hk => ?tick)
    (htime := fun _ _ _ => h) (hlines := fun _ _ => h)
    (hsubmit := fun p d _ _ => submitAt_keeps SharedStep.groups_ok (fun _ _ h => h) p d (w := startWork s) h)
  case reset =>
    rw [show (heldInReset s).group g = GroupRec.reset from PerGroup.get_fill _ g]
    exact GroupRec.reset_ok
  case release => unfold releaseReset; split <;> exact h
  case tick => simpa only [rollover_group] using hk

/-! ### Queues (R132 to R150) -/

theorem Queue.reset_row (l : Line) : Queue.reset.row.get l = Cell.off := Table.get_fill _ l

theorem Queue.reset_ok : Queue.reset.ok :=
  ⟨Nat.zero_le _, Nat.zero_le _, fun _ => rfl, fun l _ => by rw [Queue.reset_row]; rfl⟩

/-- A cell written keeps a queue in good order if it is not one-shot where it accepts nothing. -/
theorem Queue.ok.setCell {q : Queue} (h : q.ok) (l : Line) {x : Cell} (hx : x.edge = .none → x.oneShot = false) :
    ({ q with row := q.row.set l x } : Queue).ok := by
  obtain ⟨hlength, hgeneral, hshut, hrow⟩ := h
  refine ⟨hlength, hgeneral, hshut, fun k => ?_⟩
  simp only [Table.get_set]
  split
  · exact hx
  · exact hrow k

theorem edgeAtQueueEvent_ok (e : Edge) {q : Queue} (h : q.ok) : (edgeAtQueueEvent e q).ok := by
  have harrive := arrive_ok { kind := .inputEdge e.line e.dir, time := e.stamp } h
  unfold edgeAtQueueEvent
  simp only
  split
  · split
    · exact harrive.setCell e.line fun _ => rfl
    · exact harrive
  · exact h

theorem flushQueue_ok (q : Queue) : (flushQueue q).ok := Queue.reset_ok

/-- Everything an event may leave of a queue is in good order. -/
theorem QueueStep.ok {q q' : Queue} (hstep : QueueStep q q') (h : q.ok) : q'.ok := by
  obtain ⟨hlength, hgeneral, hshut, hrow⟩ := id h
  cases hstep with
  | arrive m => exact arrive_ok m h
  | edge e => exact edgeAtQueueEvent_ok e h
  | subscribe l e one => exact h.setCell l fun he => by simp only [cellOf] at he ⊢; rw [he]; exact Bool.and_false one
  | fetch n =>
    refine ⟨?_, ?_, fun hi => ?_, hrow⟩
    · simp only [List.length_drop]; omega
    · exact ((List.drop_sublist n _).countP_le).trans hgeneral
    · simp only [hshut hi, List.drop_nil]
  | setting m n => exact ⟨hlength, hgeneral, hshut, hrow⟩
  | accept => exact ⟨hlength, hgeneral, fun hi => by simp at hi, hrow⟩
  | sessionEnd kind now =>
    by_cases hk : kind = .lapse
    · rw [hk]; exact arrive_ok _ h
    · rw [endAtQueue_flush hk]; exact flushQueue_ok q

theorem SharedStep.queues {takes : Port → Prop} {s t : State} (h : SharedStep takes s t) : t.queues = s.queues := by
  cases h <;> rfl

theorem kept_queuesOk : Kept fun s => ∀ p, (s.queue p).ok := by
  refine .of_steps (fun _ _ _ h => h) (fun s p q hq h k => ?_) (fun _ _ h => h) (fun _ _ h => h) fun {s t} hstep h k => ?_
  · rw [State.setQueue_queue]
    split
    · exact hq.ok (h p)
    · exact h k
  · rw [State.queue, hstep.queues]; exact h k

theorem exec_queuesOk {s t : State} {c : Instr} (h : ∀ p, (s.queue p).ok) (hx : exec c s = .next t) : ∀ p, (t.queue p).ok := by
  refine kept_queuesOk.exec h hx (hreset := fun _ p => ?reset) (hrelease := fun a b _ => ?release) (htick := fun _ _ hk => ?tick)
    (htime := fun _ _ _ => h) (hlines := fun _ _ => h) (hsubmit := fun p d _ _ k => ?submit)
  case reset =>
    rw [show (heldInReset s).queue p = Queue.reset from PerPort.get_fill _ p]
    exact Queue.reset_ok
  case release => unfold releaseReset; split <;> exact h
  case tick => simpa only [rollover_queue] using hk
  case submit => rw [(submitAt_shared p d (startWork s)).queue]; exact h k

/-- Settles O55: what an event may leave of a queue, and what its steps leave of a group, is in good order. -/
theorem everyStepKeepsQueuesAndGroups : Obligations.EveryStepKeepsQueuesAndGroups := by
  unfold Obligations.EveryStepKeepsQueuesAndGroups
  intro s t hstep
  exact ⟨fun h => step_keeps (P := fun s => ∀ p, (s.queue p).ok) (fun _ _ h => h) (fun _ _ _ h hx => exec_queuesOk h hx) h hstep,
    fun h => step_keeps (P := fun s => ∀ g, (s.group g).ok) (fun _ _ h => h) (fun _ _ _ h hx => exec_groupsOk h hx) h hstep⟩

/-! ### Lines and the prescaler (R1, R17 to R20) -/

theorem Timebase.reset_ok : Timebase.reset.ok := BitVec.le_refl _

/-- No event but those of time and SET_FILTER reaches the lines. -/
theorem SharedStep.lines {takes : Port → Prop} {s t : State} (h : SharedStep takes s t) : t.lines = s.lines := by
  cases h <;> rfl

theorem SharedStep.timebase {takes : Port → Prop} {s t : State} (h : SharedStep takes s t) : t.timebase = s.timebase := by
  cases h <;> rfl

theorem kept_linesOk : Kept fun s => ∀ l, (s.line l).ok :=
  .of_steps (fun _ _ _ h => h) (fun _ _ _ _ h => h) (fun _ _ h => h) (fun _ _ h => h) fun {s t} hstep h l => by
    rw [State.line, hstep.lines]; exact h l

theorem exec_linesOk {s t : State} {c : Instr} (h : ∀ l, (s.line l).ok) (hx : exec c s = .next t) : ∀ l, (t.line l).ok := by
  refine kept_linesOk.exec h hx (hreset := fun _ l => ?reset) (hrelease := fun a b _ => ?release) (htick := fun samples _ _ l => ?tick)
    (htime := fun _ _ _ => h) (hlines := fun ls n l => writeFilters_ok ls n h l) (hsubmit := fun p d _ _ l => ?submit)
  case reset =>
    rw [show (heldInReset s).line l = LineRec.reset from Table.get_fill _ l]
    exact LineRec.reset_ok
  case release => unfold releaseReset; split <;> exact h
  case tick =>
    rw [State.line, rollover_lines, stepLines, Table.get_ofFn]
    exact stepLine_ok _ (h l)
  case submit => rw [(submitAt_shared p d (startWork s)).line]; exact h l

theorem kept_timebaseOk : Kept fun s => s.timebase.ok :=
  .of_steps (fun _ _ _ h => h) (fun _ _ _ _ h => h) (fun _ _ h => h) (fun _ _ h => h) fun hstep h => by
    rw [hstep.timebase]; exact h

theorem exec_timebaseOk {s t : State} {c : Instr} (h : s.timebase.ok) (hx : exec c s = .next t) : t.timebase.ok := by
  refine kept_timebaseOk.exec h hx (hreset := fun _ => Timebase.reset_ok) (hrelease := fun a b _ => ?release)
    (htick := fun samples _ _ => ?tick) (htime := fun _ _ ht => ht h) (hlines := fun _ _ => h) (hsubmit := fun p d _ _ => ?submit)
  case release => unfold releaseReset; split <;> exact h
  case tick => rw [rollover_timebase]; exact Nat.zero_le _
  case submit => rw [(submitAt_shared p d (startWork s)).timebase]; exact h

/-- Settles O54: a tick, SET_FILTER and each step of an event keep the three. -/
theorem everyStepKeepsLinesAndOutputRecords : Obligations.EveryStepKeepsLinesAndOutputRecords := by
  unfold Obligations.EveryStepKeepsLinesAndOutputRecords
  intro s t hstep
  exact ⟨fun h => step_keeps (P := fun s => ∀ l, (s.line l).ok) (fun _ _ h => h) (fun _ _ _ h hx => exec_linesOk h hx) h hstep,
    fun h => step_keeps (P := fun s => s.timebase.ok) (fun _ _ h => h) (fun _ _ _ h hx => exec_timebaseOk h hx) h hstep,
    fun h => step_keeps (P := fun s => ∀ o, (s.output o).ok) (fun _ _ h => h) (fun _ _ _ h hx => exec_outputsOk h hx) h hstep⟩

end Sys2Proof.Machine
end

section
/-! The block and its queue of commands, what a request command does where its request is not in flight, device reset, and the role
that the straps choose (R16, R154, R167). -/

namespace Sys2Proof.Machine

set_option Elab.async false

/-! ### The queue of commands -/

/-- Settles O1: the two cases of `step`. -/
theorem stepTakesTheFrontCommand : Obligations.StepTakesTheFrontCommand := by
  unfold Obligations.StepTakesTheFrontCommand
  refine ⟨fun s c cs h => ?_, fun s h => ?_⟩
  · simp only [step, h]
  · simp only [step, h]

/-! ### A request command (R154) -/

/-- Every request but CLOSE is one event at its block; CLOSE stays in flight through its steps. -/
theorem exec_command {r : Request} (hr : r ≠ .closeSession) (p : Port) :
    ∃ f, ∀ s, exec (r.command p) s = .next (takeRequest p r f s) := by
  cases r with
  | closeSession => exact absurd rfl hr
  | _ => exact ⟨_, fun _ => rfl⟩

/-- A request command whose request is not in flight changes nothing. -/
theorem exec_command_stale {s : State} {p : Port} {r : Request} (h : awaits s p r = false) : exec (r.command p) s = .next s := by
  by_cases hr : r = .closeSession
  · subst hr
    show Host.Outcome.next (if awaits s p .closeSession then onPort p startClose s else s) = _
    rw [if_neg (by rw [h]; decide)]
  · obtain ⟨f, hf⟩ := exec_command hr p
    rw [hf, takeRequest_stale h]

/-- Settles O3. -/
theorem staleRequestChangesNothing : Obligations.StaleRequestChangesNothing := by
  unfold Obligations.StaleRequestChangesNothing
  exact fun _ _ _ h => exec_command_stale h

/-! ### The role, the reset pin and the queue of commands -/

theorem SharedStep.role {takes : Port → Prop} {s t : State} (h : SharedStep takes s t) : roleOf t = roleOf s := by
  cases h <;> rfl

theorem kept_role (x : List Instr × Bool × Port) : Kept fun s => roleOf s = x :=
  .of_steps (fun _ _ _ h => h) (fun _ _ _ _ h => h) (fun _ _ h => h) (fun _ _ h => h) fun hstep h => hstep.role.trans h

theorem rollover_role (samples : BitVec 16) (s : State) : roleOf (rollover samples s) = roleOf s := rfl

/-- No command but those of RESET_N writes the queue of commands, the reset pin or the role. -/
theorem exec_role {c : Instr} {s t : State} (hx : exec c s = .next t) (hreset : c ≠ .deviceReset)
    (hrelease : ∀ sup1 sup0, c ≠ .deviceResetRelease sup1 sup0) : roleOf t = roleOf s :=
  (kept_role (roleOf s)).exec rfl hx (hreset := fun h => absurd h hreset) (hrelease := fun a b h => absurd h (hrelease a b))
    (htick := fun samples _ hk => (rollover_role samples _).trans hk) (htime := fun _ _ _ => rfl) (hlines := fun _ _ => rfl)
    (hsubmit := fun p d _ _ => (submitAt_shared p d (startWork s)).sameTick.role)

/-- Every command answers a next state. -/
theorem exec_next (c : Instr) (s : State) : ∃ t, exec c s = .next t := by
  cases c <;> exact ⟨_, rfl⟩

/-- Settles O2: RESET_N's commands keep the queue of commands by their own equations, every other by what no block writes. -/
theorem everyCommandCompletes : Obligations.EveryCommandCompletes := by
  unfold Obligations.EveryCommandCompletes
  intro c s
  obtain ⟨t, ht⟩ := exec_next c s
  refine ⟨t, ht, ?_⟩
  by_cases hreset : c = .deviceReset
  · subst hreset; cases ht; rfl
  by_cases hrelease : ∃ sup1 sup0, c = .deviceResetRelease sup1 sup0
  · obtain ⟨sup1, sup0, rfl⟩ := hrelease
    cases ht
    unfold releaseReset
    split <;> rfl
  · exact congrArg Prod.fst (exec_role ht hreset fun a b h => hrelease ⟨a, b, h⟩)

/-! ### Device reset (R16) -/

/-- Settles O4: the reset values, block by block. -/
theorem deviceResetSetsEveryBlock : Obligations.DeviceResetSetsEveryBlock := by
  unfold Obligations.DeviceResetSetsEveryBlock
  intro s
  exact ⟨heldInReset s, rfl, rfl, rfl, rfl, rfl, Table.get_fill _, rfl, Table.get_fill _, Table.get_fill _, rfl, rfl,
    fun p => ⟨PerPort.get_fill _ p, PerPort.get_fill _ p⟩, PerGroup.get_fill _, PerPort.get_fill _, PerPort.get_fill _,
    PerPort.get_ofFn _⟩

/-! ### The role (R167) -/

theorem exec_release {s : State} (h : s.resetLow = true) (sup1 sup0 : Bool) : exec (.deviceResetRelease sup1 sup0) s =
    .next { s with resetLow := false, supervisor := strapsSupervisor sup1 sup0 } := by
  show Host.Outcome.next (releaseReset sup1 sup0 s) = _
  rw [releaseReset, if_pos h]

theorem exec_release_high {s : State} (h : s.resetLow = false) (sup1 sup0 : Bool) :
    exec (.deviceResetRelease sup1 sup0) s = .next s := by
  show Host.Outcome.next (releaseReset sup1 sup0 s) = _
  rw [releaseReset, if_neg (by rw [h]; decide)]

/-- STATUS reads, and its answer shows the role. -/
theorem exec_status {s : State} {p : Port} {f : Flight} (h : InFlight s p f .status) :
    exec (.status p) s = .next (s.answered p f ⟨.ok, .status (statusView s p)⟩) :=
  congrArg Host.Outcome.next (takeRequest_reading h rfl)

theorem restartDeadline_eq (now : Tick) (c : Controller) : restartDeadline now c = { c with
    deadline := if c.session = .isOpen ∧ c.interval ≠ 0 then some (after now c.interval) else c.deadline } := by
  unfold restartDeadline
  split <;> rfl

theorem openController_activity (now : Tick) (c : Controller) : (openController now c).activity = c.activity := by
  unfold openController
  cases c.session with
  | lapsed => simp only [restartDeadline_eq]
  | _ => rfl

/-- OPEN at its controller and queue, with the answer read after it (R156). -/
theorem exec_openSession {s : State} {p : Port} {f : Flight} (h : InFlight s p f .openSession) :
    exec (.openSession p) s = .next (((((dropStaleEdges p s).setQueue p
      { (dropStaleEdges p s).queue p with intake := .accepting }).setPort p (openController s.now (s.port p))).answered p f
        ⟨.ok, .opened s.now .isOpen ((s.port p).session == .lapsed) (s.supervisor == p)
          (openController s.now (s.port p)).deadline⟩)) := by
  have hport : (dropStaleEdges p s).port p = s.port p := by unfold dropStaleEdges; split <;> rfl
  have hst : (openAt p (startWork s)).1.st = ((dropStaleEdges p s).setQueue p
      { (dropStaleEdges p s).queue p with intake := .accepting }).setPort p (openController s.now (s.port p)) := by
    rw [← hport]; rfl
  have hactivity : ((openAt p (startWork s)).1.st.port p).activity = (s.port p).activity := by
    rw [hst, State.setPort_port_self, openController_activity]
  have hanswer : (openAt p (startWork s)).2 = ⟨.ok, .opened s.now .isOpen ((s.port p).session == .lapsed) (s.supervisor == p)
      (openController s.now (s.port p)).deadline⟩ := by
    have : (openAt p (startWork s)).2 = ⟨.ok, .opened s.now .isOpen ((s.port p).session == .lapsed) (s.supervisor == p)
      ((openAt p (startWork s)).1.st.port p).deadline⟩ := rfl
    rw [this, hst, State.setPort_port_self]
  show Host.Outcome.next (takeRequest p .openSession (openAt p) s) = _
  rw [takeRequest_silent h rfl hactivity, hst, hanswer]

/-- Settles O5: the four codes of the straps, the role among what no other command writes, and its two reports. -/
theorem supervisorIsChosenAtTheRelease : Obligations.SupervisorIsChosenAtTheRelease := by
  unfold Obligations.SupervisorIsChosenAtTheRelease
  refine ⟨fun s h => ⟨exec_release h _ _, exec_release h _ _, exec_release h _ _, exec_release h _ _⟩,
    fun s sup1 sup0 h => exec_release_high h sup1 sup0, fun c s t hx hne => ?chosen,
    fun s p f h => ⟨_, statusView s p, exec_status h, rfl, rfl⟩, fun s p f h => ?opened⟩
  case chosen =>
    by_cases hreset : c = .deviceReset
    · subst hreset; cases hx; exact absurd rfl hne
    by_cases hrelease : ∃ sup1 sup0, c = .deviceResetRelease sup1 sup0
    · refine ⟨?_, hrelease⟩
      obtain ⟨sup1, sup0, rfl⟩ := hrelease
      rw [← Bool.not_eq_false]
      intro hlow
      rw [exec_release_high hlow] at hx
      cases hx
      exact hne rfl
    · exact absurd (congrArg (fun x => x.2.2) (exec_role hx hreset fun a b h => hrelease ⟨a, b, h⟩)) hne
  case opened => exact ⟨_, _, _, _, _, exec_openSession h, State.answered_activity_self _ _ _ _⟩

end Sys2Proof.Machine
end

section
/-! What every step keeps of the controllers: their good order (R152 to R164), and every block at its reset values while RESET_N is low
(R16). -/

namespace Sys2Proof.Machine

set_option Elab.async false

/-! ### A controller that is IDLE (R152) -/

/-- An IDLE controller in good order, but for a port reset that may be held to this moment. -/
structure Controller.atRest (c : Controller) : Prop where
  idle : c.activity = .idle
  deadline : c.deadline.isSome → c.session = .isOpen ∧ c.interval ≠ 0
  interval : c.session = .closed → c.interval = 0
  lapse : c.lapseHeld = false

variable {supervisor p : Port} {c : Controller}

theorem endRunOf_idle (h : c.activity = .idle) : endRunOf c = none := by
  unfold endRunOf; rw [h]

theorem Controller.atRest.ok (h : c.atRest) (hr : c.resetHeld = false) : c.ok supervisor p where
  activity := by rw [h.idle]; trivial
  deadline hd := ⟨(h.deadline hd).1, (h.deadline hd).2, endRunOf_idle h.idle⟩
  interval := h.interval
  held hh := by rw [hr] at hh; cases hh
  lapse hl := by rw [h.lapse] at hl; cases hl

theorem Controller.ok.atRest (h : c.ok supervisor p) (hi : c.activity = .idle) : c.atRest where
  idle := hi
  deadline hd := ⟨(h.deadline hd).1, (h.deadline hd).2.1⟩
  interval := h.interval
  lapse := by
    rw [← Bool.not_eq_true]
    intro hl
    obtain ⟨f, hf⟩ := h.lapse hl
    rw [hi] at hf
    cases hf

/-- An IDLE controller takes the marks and the pins as they come. -/
theorem Controller.atRest.congr (h : c.atRest) {c' : Controller} (ha : c'.activity = c.activity) (hd : c'.deadline = c.deadline)
    (hs : c'.session = c.session) (hi : c'.interval = c.interval) (hl : c'.lapseHeld = c.lapseHeld) : c'.atRest where
  idle := ha.trans h.idle
  deadline := by rw [hd, hs, hi]; exact h.deadline
  interval := by rw [hs, hi]; exact h.interval
  lapse := hl.trans h.lapse

theorem Controller.reset_ok : Controller.reset.ok supervisor p :=
  Controller.atRest.ok ⟨rfl, nofun, fun _ => rfl, rfl⟩ rfl

/-! ### What is held to an IDLE moment (R162, R164) -/

/-- A session end begins: no deadline stands in it, and nothing is held to it. -/
theorem ending_ok {run : EndRun} (hactivity : c.activity = .ending run)
    (hrun : (run.kind = .lapse ∧ c.session = .isOpen) ∨ (run.kind = .portReset ∧ c.session ≠ .closed))
    (hdeadline : c.deadline = none) (hinterval : c.session = .closed → c.interval = 0) (hlapse : c.lapseHeld = false) :
    c.ok supervisor p where
  activity := by rw [hactivity]; exact hrun
  deadline hd := by rw [hdeadline] at hd; cases hd
  interval := hinterval
  held _ hi := by rw [hactivity] at hi; cases hi
  lapse hl := by rw [hlapse] at hl; cases hl

/-- A port reset taken with no session to end. -/
theorem takePortReset_closed (h : c.session = .closed) : takePortReset c = { c with
    stored := Reply.cleared, last := none, linkErrors := 0, mark := false, resetHeld := false, activity := .idle } := by
  unfold takePortReset
  rw [h]

/-- A port reset taken in a session begins its end. -/
theorem takePortReset_session (h : c.session ≠ .closed) : takePortReset c = { c with
    stored := Reply.cleared, last := none, linkErrors := 0, mark := false, resetHeld := false, deadline := none,
    activity := .ending (firstStep .portReset) } := by
  unfold takePortReset
  cases hs : c.session with
  | closed => exact absurd hs h
  | isOpen => rfl
  | lapsed => rfl

theorem takePortReset_ok (h : c.atRest) : (takePortReset c).ok supervisor p := by
  by_cases hs : c.session = .closed
  · rw [takePortReset_closed hs]
    exact Controller.atRest.ok (h.congr h.idle.symm rfl rfl rfl rfl) rfl
  · rw [takePortReset_session hs]
    exact ending_ok rfl (.inr ⟨rfl, hs⟩) rfl h.interval h.lapse

theorem beginLapse_ok (h : c.atRest) (hs : c.session = .isOpen) : (beginLapse c).ok supervisor p :=
  ending_ok rfl (.inl ⟨rfl, hs⟩) rfl h.interval h.lapse

theorem takeHeld_ok (now : Tick) (lapse : Bool) (h : c.atRest) : (takeHeld now lapse c).ok supervisor p := by
  unfold takeHeld
  split
  · exact takePortReset_ok h
  · next hr =>
    split
    · next hl => exact beginLapse_ok h hl.2.1
    · exact h.ok (by simpa using hr)

/-- A controller that completes its request is IDLE in good order, whatever its deadline. -/
theorem completeRequest_ok (now : Tick) (queued : Nat) (f : Flight) (a : Answer)
    (hdeadline : c.deadline.isSome → c.session = .isOpen ∧ c.interval ≠ 0) (hinterval : c.session = .closed → c.interval = 0) :
    (completeRequest now queued f a c).ok supervisor p :=
  takeHeld_ok _ _ ⟨rfl, hdeadline, hinterval, rfl⟩

/-! ### A busy controller -/

/-- What a request in flight or a session end goes on to: the deadline stands unless a session end begins. -/
theorem Controller.ok.withActivity (h : c.ok supervisor p) {x : Activity} (hx : x.ok supervisor p c.session) (hbusy : x ≠ .idle)
    (hend : c.deadline.isSome → endRunOf { c with activity := x } = none)
    (hlapse : c.lapseHeld = true → ∃ f, x = .executing f) : ({ c with activity := x } : Controller).ok supervisor p where
  activity := hx
  deadline hd := ⟨(h.deadline hd).1, (h.deadline hd).2.1, hend hd⟩
  interval := h.interval
  held _ := hbusy
  lapse := hlapse

theorem putAnswer_ok (a : Answer) (h : c.ok supervisor p) : (putAnswer a c).ok supervisor p := by
  unfold putAnswer
  cases hx : c.activity with
  | executing f => exact h.withActivity trivial (by simp) (fun _ => rfl) fun _ => ⟨_, rfl⟩
  | idle => exact h
  | ending => exact h

/-- In a session end no deadline stands. -/
theorem Controller.ok.deadline_none (h : c.ok supervisor p) {run : EndRun} (hr : endRunOf c = some run) : c.deadline = none := by
  rw [← Option.not_isSome_iff_eq_none]
  intro hd
  rw [(h.deadline hd).2.2] at hr
  cases hr

/-- The kind of a session end fits the activity that it runs in. -/
theorem Activity.ok_setRun {session : Session} {run run' : EndRun} (hk : run'.kind = run.kind) :
    (Activity.ending run).ok supervisor p session → (Activity.ending run').ok supervisor p session := by
  unfold Activity.ok
  simp only
  rw [hk]
  exact id

theorem setEndRun_ok (h : c.ok supervisor p) {run run' : EndRun} (hr : endRunOf c = some run) (hk : run'.kind = run.kind) :
    (setEndRun run' c).ok supervisor p := by
  have hnone := h.deadline_none hr
  have hactivity := h.activity
  unfold setEndRun
  cases hx : c.activity with
  | idle => exact h
  | ending run0 =>
    simp only [endRunOf, hx, Option.some.injEq] at hr
    subst hr
    rw [hx] at hactivity
    refine h.withActivity (Activity.ok_setRun hk hactivity) (by simp) (fun hd => by rw [hnone] at hd; cases hd) fun hl => ?_
    obtain ⟨f, hf⟩ := h.lapse hl
    rw [hx] at hf
    cases hf
  | executing f =>
    have hstage : f.stage = .closing run := by
      cases hs : f.stage <;> simp [endRunOf, hx, hs] at hr
      rw [hr]
    rw [hx] at hactivity
    change f.stage.ok supervisor p c.session at hactivity
    rw [hstage] at hactivity
    refine h.withActivity ?_ (by simp) (fun hd => by rw [hnone] at hd; cases hd) fun _ => ⟨_, rfl⟩
    exact ⟨hk.trans hactivity.1, hactivity.2⟩

/-! ### The acceptance checks put requests in flight that their session admits (R181) -/

theorem requestOfBytes_code {k : Code} {bs : List Byte} {r : Request} (h : requestOfBytes k bs = some r) : r.code = k := by
  cases k <;> simp only [requestOfBytes, Option.some.injEq, Option.map_eq_some_iff, Option.bind_eq_some_iff] at h
  all_goals
    obtain ⟨_, _, _, _, _, _, rfl⟩ := h
    rfl

theorem requestInRange_some {k : Code} {bs : List Byte} {r : Request} (h : requestInRange k bs = some r) :
    r.code = k ∧ r.wellFormed = true := by
  unfold requestInRange at h
  rw [Option.filter_eq_some_iff] at h
  exact ⟨requestOfBytes_code h.1, h.2⟩

theorem acceptance_ok (session : Session) (code : Option Byte) (ops : List Byte) :
    (acceptance session (supervisor == p) code ops).ok supervisor p session := by
  unfold acceptance
  cases code.bind codeOfByte with
  | none => trivial
  | some k =>
    simp only [checkRequest]
    split
    · trivial
    · split
      · trivial
      · next hadmit =>
        split
        · trivial
        · next hrole =>
          cases hr : requestInRange k ops with
          | none => trivial
          | some r =>
            obtain ⟨hcode, hwf⟩ := requestInRange_some hr
            refine ⟨hwf, by rw [hcode]; simpa using hadmit, fun hres => ?_⟩
            rw [hcode] at hres
            simpa [hres] using hrole

/-! ### A controller's own operations -/

theorem restartDeadline_ok (now : Tick) (h : c.ok supervisor p) (hi : c.activity = .idle) : (restartDeadline now c).atRest := by
  unfold restartDeadline
  split
  · next hs => exact { idle := hi, deadline := fun _ => hs, interval := h.interval, lapse := (h.atRest hi).lapse }
  · exact h.atRest hi

/-- A new request is admitted at an IDLE controller. -/
theorem admitRequest_ok (now : Tick) (seq check : Byte) (code : Option Byte) (ops : List Byte) (h : c.ok supervisor p)
    (hi : c.activity = .idle) : (admitRequest now (supervisor == p) seq check code ops c).ok supervisor p := by
  have hrest := restartDeadline_ok now h hi
  have hsession : (restartDeadline now c).session = c.session := by rw [restartDeadline_eq]
  have hok : (acceptance c.session (supervisor == p) code ops).ok supervisor p (restartDeadline now c).session := by
    rw [hsession]; exact acceptance_ok _ _ _
  refine ⟨hok, fun hd => ⟨(hrest.deadline hd).1, (hrest.deadline hd).2, ?_⟩, hrest.interval, fun _ => nofun, fun _ => ⟨_, rfl⟩⟩
  have hstage : ∀ run, acceptance c.session (supervisor == p) code ops ≠ .closing run := by
    intro run
    unfold acceptance
    split
    · nofun
    · simp only [checkRequest]
      repeat' split
      all_goals nofun
  unfold admitRequest endRunOf
  simp only
  split
  · rfl
  · next run hrun => exact absurd hrun (hstage run)
  · rfl

/-- The marks, counts, pins and transactions of the link are not among what R152 speaks of. -/
theorem Controller.ok.congr (h : c.ok supervisor p) {c' : Controller} (ha : c'.activity = c.activity) (hd : c'.deadline = c.deadline)
    (hs : c'.session = c.session) (hi : c'.interval = c.interval) (hr : c'.resetHeld = c.resetHeld)
    (hl : c'.lapseHeld = c.lapseHeld) : c'.ok supervisor p where
  activity := by rw [ha, hs]; exact h.activity
  deadline := by
    have : endRunOf c' = endRunOf c := by unfold endRunOf; rw [ha]
    rw [hd, hs, hi, this]; exact h.deadline
  interval := by rw [hs, hi]; exact h.interval
  held := by rw [hr, ha]; exact h.held
  lapse := by rw [hl, ha]; exact h.lapse

theorem clearMark_eq (t : Txn) (n : Nat) (c : Controller) :
    clearMark t n c = { c with mark := if t.marked ∧ 4 ≤ n then false else c.mark } := by
  unfold clearMark
  split <;> rfl

theorem takeFrame_ok (now : Tick) (mosi : List Byte) (h : c.ok supervisor p) (hi : c.activity = .idle) :
    (takeFrame now (supervisor == p) mosi c).ok supervisor p := by
  have hheld : c.resetHeld = false := by
    rw [← Bool.not_eq_true]
    exact fun hr => h.held hr hi
  unfold takeFrame
  split
  · exact h
  · exact h.congr rfl rfl rfl rfl rfl rfl
  · split
    · refine (restartDeadline_ok now h hi).ok ?_
      rw [restartDeadline_eq]
      exact hheld
    · exact admitRequest_ok _ _ _ _ _ h hi

theorem endTransaction_ok (now : Tick) (mosi : List Byte) (h : c.ok supervisor p) :
    (endTransaction now (supervisor == p) mosi c).ok supervisor p := by
  unfold endTransaction
  split
  · exact h
  · next t _ =>
    have htxn : ({ c with txn := none } : Controller).ok supervisor p := h.congr rfl rfl rfl rfl rfl rfl
    have hmark : (clearMark t mosi.length { c with txn := none }).ok supervisor p := by
      rw [clearMark_eq]; exact htxn.congr rfl rfl rfl rfl rfl rfl
    simp only
    split
    · exact htxn
    · exact hmark
    · split
      · next hi => exact takeFrame_ok _ _ hmark (by rw [clearMark_eq]; exact hi)
      · exact hmark

/-- A lapse expiry (R162). -/
theorem expireLapse_ok (now : Tick) (h : c.ok supervisor p) : (expireLapse now c).ok supervisor p := by
  unfold expireLapse
  split
  · next hs =>
    split
    · next hi => exact beginLapse_ok (h.atRest hi) hs.1
    · next f hf => exact ⟨h.activity, h.deadline, h.interval, h.held, fun _ => ⟨f, hf⟩⟩
    · exact h
  · exact h

/-- The assertion of PRST_N (R164). -/
theorem assertPortReset_ok (h : c.ok supervisor p) : (assertPortReset c).ok supervisor p := by
  have hbusy : c.activity ≠ .idle →
      ({ c with prstLow := true, txn := c.txn.map abandonTxn, resetHeld := true } : Controller).ok supervisor p :=
    fun hb => ⟨h.activity, h.deadline, h.interval, fun _ => hb, h.lapse⟩
  unfold assertPortReset
  split
  · next hi => exact takePortReset_ok ((h.atRest hi).congr rfl rfl rfl rfl rfl)
  · next f hf => exact hbusy (by rw [hf]; nofun)
  · next run hr => exact hbusy (by rw [hr]; nofun)

theorem completeAt_ok (now : Tick) (queued : Nat) (h : c.ok supervisor p) : (completeAt now queued c).ok supervisor p := by
  unfold completeAt
  split
  · exact h
  · exact h
  · split
    · exact completeRequest_ok _ _ _ _ (fun hd => ⟨(h.deadline hd).1, (h.deadline hd).2.1⟩) h.interval
    · exact h
    · exact h

/-- The last step of a session end (R157 step 6). -/
theorem finishController_ok (now : Tick) (queued : Nat) (h : c.ok supervisor p) {run : EndRun} (hr : endRunOf c = some run) :
    (finishController now queued run c).ok supervisor p := by
  have hdeadline : (endSession run.kind c).deadline = none := by
    have := h.deadline_none hr
    unfold endSession
    split <;> exact this
  have hinterval : (endSession run.kind c).session = .closed → (endSession run.kind c).interval = 0 := by
    unfold endSession
    split
    · exact fun hc => by cases hc
    · exact fun _ => rfl
    · exact fun _ => rfl
  have hlapse : (endSession run.kind c).lapseHeld = c.lapseHeld := by
    unfold endSession
    split <;> rfl
  unfold finishController
  split
  · exact h
  · next run' he =>
    refine takeHeld_ok _ _ ⟨rfl, fun hd => ?_, hinterval, ?_⟩
    · rw [hdeadline] at hd; cases hd
    · rw [hlapse, ← Bool.not_eq_true]
      intro hl
      obtain ⟨f, hf⟩ := h.lapse hl
      rw [he] at hf
      cases hf
  · exact completeRequest_ok _ _ _ _ (fun hd => by rw [hdeadline] at hd; cases hd) hinterval

/-- A request that awaits its block is in range, admitted, and the supervisor's if it is reserved (R181). -/
theorem Controller.ok.awaiting (h : c.ok supervisor p) {f : Flight} {r : Request} (hf : c.activity = .executing f)
    (hs : f.stage = .awaiting r) :
    r.wellFormed = true ∧ admitted c.session r.code = true ∧ (reserved r.code = true → supervisor = p) := by
  have hactivity := h.activity
  rw [hf] at hactivity
  change f.stage.ok _ _ _ at hactivity
  rwa [hs] at hactivity

theorem endRunOf_awaiting {f : Flight} {r : Request} (hf : c.activity = .executing f) (hs : f.stage = .awaiting r) :
    endRunOf c = none := by
  simp only [endRunOf, hf, hs]

/-- CLOSE begins its steps (R157 step 1). -/
theorem startClose_ok (h : c.ok supervisor p) {f : Flight} (hf : c.activity = .executing f)
    (hs : f.stage = .awaiting .closeSession) : (startClose c).ok supervisor p := by
  obtain ⟨_, hadmit, _⟩ := h.awaiting hf hs
  have hopen : c.session ≠ .closed := fun hc => by rw [hc] at hadmit; cases hadmit
  unfold startClose setEndRun
  simp only [hf]
  exact ⟨⟨rfl, hopen⟩, nofun, h.interval, fun _ => nofun, fun _ => ⟨_, rfl⟩⟩

/-- OPEN makes the session OPEN; from LAPSED the deadline stands only with an interval (R156). -/
theorem openController_ok (now : Tick) (h : c.ok supervisor p) {f : Flight} (hf : c.activity = .executing f)
    (hs : f.stage = .awaiting .openSession) : (openController now c).ok supervisor p := by
  obtain ⟨hwf, _, hrole⟩ := h.awaiting hf hs
  have hrun := endRunOf_awaiting hf hs
  have hnone : c.session ≠ .isOpen → c.deadline = none := fun hc => by
    rw [← Option.not_isSome_iff_eq_none]
    exact fun hd => hc (h.deadline hd).1
  have hactivity : c.activity.ok supervisor p .isOpen := by
    rw [hf]
    change f.stage.ok _ _ _
    rw [hs]
    exact ⟨hwf, rfl, hrole⟩
  unfold openController
  split
  · next hc =>
    exact ⟨hactivity, fun hd => (by rw [hnone (by rw [hc]; nofun)] at hd; cases hd), nofun, h.held,
      h.lapse⟩
  · next hc =>
    rw [restartDeadline_eq]
    refine ⟨hactivity, fun hd => ?_, nofun, h.held, h.lapse⟩
    by_cases hi : c.interval = 0
    · simp [hi, hnone (by rw [hc]; nofun)] at hd
    · exact ⟨rfl, hi, hrun⟩
  · exact h

/-- SET_LAPSE is admitted in OPEN alone (R153, R161). -/
theorem lapseController_ok (now : Tick) (n : Count32) (h : c.ok supervisor p) {f : Flight} (hf : c.activity = .executing f)
    (hs : f.stage = .awaiting (.setLapse n)) : (lapseController now n c).ok supervisor p := by
  obtain ⟨_, hadmit, _⟩ := h.awaiting hf hs
  have hopen : c.session = .isOpen := by
    cases hc : c.session with
    | isOpen => rfl
    | closed => rw [hc] at hadmit; cases hadmit
    | lapsed => rw [hc] at hadmit; cases hadmit
  refine ⟨h.activity, fun hd => ⟨hopen, fun hn => ?_, endRunOf_awaiting hf hs⟩, fun hc => ?_, h.held, h.lapse⟩
  · have hn' : n = 0 := hn
    simp [lapseController, hn'] at hd
  · exact absurd (hopen.symm.trans hc) nofun

/-- Everything a command may leave of a controller is in good order. -/
theorem PortStep.ok {s : State} {x : Instr} {c' : Controller} (hstep : PortStep s p x c') (h : (s.port p).ok s.supervisor p) :
    c'.ok s.supervisor p := by
  cases hstep with
  | same => exact h
  | reset => exact Controller.reset_ok.congr rfl rfl rfl rfl rfl rfl
  | lapse => exact expireLapse_ok _ h
  | pin => exact h.congr rfl rfl rfl rfl rfl rfl
  | portReset => exact assertPortReset_ok h
  | portRelease => exact h.congr rfl rfl rfl rfl rfl rfl
  | begin => exact h.congr rfl rfl rfl rfl rfl rfl
  | finish mosi => exact endTransaction_ok _ _ h
  | complete => exact completeAt_ok _ _ h
  | run _ _ _ hr hk => exact setEndRun_ok h hr hk
  | sessionEnd _ hr => exact finishController_ok _ _ h hr
  | openSession f a hf => exact putAnswer_ok a (openController_ok _ h hf.1 hf.2)
  | close f hf => exact startClose_ok h hf.1 hf.2
  | setLapse n f a hf => exact putAnswer_ok a (lapseController_ok _ _ h hf.1 hf.2)
  | answer _ _ _ a => exact putAnswer_ok a h

/-! ### While RESET_N is low (R16) -/

/-- What holds of the blocks while RESET_N is low. -/
theorem HeldInReset.controller {s : State} (h : HeldInReset s) (hlow : s.resetLow = true) (p : Port) :
    s.port p = { Controller.reset with prstLow := (s.port p).prstLow } := by
  obtain ⟨_, _, _, _, _, _, _, _, hports⟩ := h hlow
  exact hports p

theorem HeldInReset.activity {s : State} (h : HeldInReset s) (hlow : s.resetLow = true) (p : Port) :
    (s.port p).activity = .idle := by rw [h.controller hlow p]; rfl

theorem HeldInReset.session {s : State} (h : HeldInReset s) (hlow : s.resetLow = true) (p : Port) :
    (s.port p).session = .closed := by rw [h.controller hlow p]; rfl

theorem HeldInReset.txn {s : State} (h : HeldInReset s) (hlow : s.resetLow = true) (p : Port) : (s.port p).txn = none := by
  rw [h.controller hlow p]; rfl

theorem HeldInReset.published {s : State} (h : HeldInReset s) (hlow : s.resetLow = true) : s.published = Published.reset := by
  obtain ⟨_, _, hpub, _⟩ := h hlow
  exact hpub

theorem HeldInReset.agenda {s : State} (h : HeldInReset s) (hlow : s.resetLow = true) : s.agenda = Agenda.reset := by
  obtain ⟨_, _, _, _, hagenda, _⟩ := h hlow
  exact hagenda

theorem HeldInReset.group {s : State} (h : HeldInReset s) (hlow : s.resetLow = true) (g : Group) : s.group g = GroupRec.reset := by
  obtain ⟨_, _, _, _, _, hgroups, _⟩ := h hlow
  rw [State.group, hgroups, PerGroup.get_fill]

theorem HeldInReset.transit {s : State} (h : HeldInReset s) (hlow : s.resetLow = true) (p : Port) : s.transit.get p = [] := by
  obtain ⟨_, _, _, _, _, _, _, htransit, _⟩ := h hlow
  rw [htransit, PerPort.get_fill]

/-- While RESET_N is low no request is in flight. -/
theorem HeldInReset.awaits {s : State} (h : HeldInReset s) (hlow : s.resetLow = true) (p : Port) (r : Request) :
    awaits s p r = false := by
  simp only [Machine.awaits, h.activity hlow p]

theorem HeldInReset.setPin {s : State} (h : HeldInReset s) (p : Port) (low : Bool) :
    HeldInReset (s.setPort p { s.port p with prstLow := low }) := by
  intro hlow
  obtain ⟨htime, hlines, hpub, houts, hagenda, hgroups, hqueues, htransit, hports⟩ := h hlow
  refine ⟨htime, hlines, hpub, houts, hagenda, hgroups, hqueues, htransit, fun k => ?_⟩
  rw [State.setPort_port]
  split
  · have := hports p
    generalize s.port p = c at this ⊢
    rw [this]
  · exact hports k

/-- A command that changes one controller changes nothing where the controller is left as it was. -/
theorem onPort_same {s : State} {p : Port} {f : Controller → Controller} (h : f (s.port p) = s.port p) : onPort p f s = s := by
  rw [onPort, h, State.setPort_same]

/-- While RESET_N is low a command changes one PRST_N pin or nothing, but for RESET_N's own. -/
theorem exec_heldInReset {s t : State} (h : HeldInReset s) (hlow : s.resetLow = true) {c : Instr} (hx : exec c s = .next t)
    (hreset : c ≠ .deviceReset) (hrelease : ∀ sup1 sup0, c ≠ .deviceResetRelease sup1 sup0) :
    t = s ∨ ∃ p low, t = s.setPort p { s.port p with prstLow := low } := by
  have hrequest : ∀ p (r : Request), c = r.command p → t = s := by
    rintro p r rfl
    rw [exec_command_stale (h.awaits hlow p r)] at hx
    cases hx; rfl
  have hnoEnd : ∀ p, endRunOf (s.port p) = none := fun p => endRunOf_idle (h.activity hlow p)
  have hpub := h.published hlow
  cases c
  case deviceReset => exact absurd rfl hreset
  case deviceResetRelease a b => exact absurd rfl (hrelease a b)
  case tick => cases hx; exact .inl (by simp only [tickAll, hlow, true_or, if_true])
  case edgeAtQueue p e =>
    cases hx
    have : e ∉ s.published.queues.get p := by simp [hpub, Published.reset]
    exact .inl (by simp only [queueEdge, if_neg this])
  case edgeAtAgenda e =>
    cases hx
    have : e ∉ s.published.agenda := by simp [hpub, Published.reset]
    exact .inl (by simp only [agendaEdge, if_neg this])
  case edgeAtTripGroup g e =>
    cases hx
    have : e ∉ s.published.groups.get g := by simp [hpub, Published.reset]
    exact .inl (by simp only [groupEdge, if_neg this])
  case settlingChange g l =>
    cases hx
    have : s.published.settling.get g = [] := by simp [hpub, Published.reset]
    exact .inl (by simp only [groupSettling, this, List.find?_nil])
  case dueReached =>
    cases hx
    have : reachedHead s.now s.agenda = none := by rw [h.agenda hlow]; rfl
    exact .inl (by rw [duePass, runEvent, pass_none this, finishWork_startWork])
  case releaseDeadlineReached g =>
    cases hx
    refine .inl ?_
    have : releaseExpiryEvent g (startWork s) = startWork s := by
      simp only [releaseExpiryEvent, startWork_st, h.group hlow g, GroupRec.reset]
    rw [releaseExpiry, runEvent, this, finishWork_startWork]
  case lapseExpiry p =>
    cases hx
    exact .inl (onPort_same (by rw [expireLapse, if_neg (by rw [h.session hlow p]; nofun)]))
  case portReset p =>
    cases hx
    unfold portResetAt
    split
    · exact .inl rfl
    · exact .inr ⟨p, true, rfl⟩
  case portResetRelease p => cases hx; exact .inr ⟨p, false, rfl⟩
  case transactionBegin p => cases hx; exact .inl (by rw [beginTransaction, if_pos (.inl hlow)])
  case transactionEnd p mosi => cases hx; exact .inl (onPort_same (by simp only [endTransaction, h.txn hlow p]))
  case requestCompletion p => cases hx; exact .inl (onPort_same (by simp only [completeAt, h.activity hlow p]))
  case sessionEndAtOutput p o => cases hx; exact .inl (by simp only [sessionEndOutput, hnoEnd p])
  case sessionEndAtAgenda p => cases hx; exact .inl (by simp only [sessionEndAgenda, hnoEnd p])
  case sessionEndAtTripGroup p g => cases hx; exact .inl (by simp only [sessionEndGroup, hnoEnd p])
  case sessionEndAtQueue p => cases hx; exact .inl (by simp only [sessionEndQueue, hnoEnd p])
  case sessionEndFinish p => cases hx; exact .inl (by simp only [sessionEndFinish, hnoEnd p])
  case recordArrival p k =>
    cases hx
    obtain he | ⟨m, bs, _, htake, _⟩ := recordArrives_cases p k s
    · exact .inl he
    · rw [h.transit hlow p] at htake; cases htake
  case prescalerAdvance => cases hx; exact .inl (by rw [if_pos hlow])
  case openSession p => exact .inl (hrequest p .openSession rfl)
  case closeSession p => exact .inl (hrequest p .closeSession rfl)
  case ping p => exact .inl (hrequest p .ping rfl)
  case status p => exact .inl (hrequest p .status rfl)
  case setLapse p n => exact .inl (hrequest p (.setLapse n) rfl)
  case readTime p => exact .inl (hrequest p .readTime rfl)
  case setDivide p v => exact .inl (hrequest p (.setDivide v) rfl)
  case readInputs p => exact .inl (hrequest p .readInputs rfl)
  case setFilter p ls n => exact .inl (hrequest p (.setFilter ls n) rfl)
  case claim p o w => exact .inl (hrequest p (.claim o w) rfl)
  case withdraw p o => exact .inl (hrequest p (.withdraw o) rfl)
  case release p o => exact .inl (hrequest p (.release o) rfl)
  case writeOutput p o l => exact .inl (hrequest p (.writeOutput o l) rfl)
  case reclaim p o => exact .inl (hrequest p (.reclaim o) rfl)
  case setSafe p o l g => exact .inl (hrequest p (.setSafe o l g) rfl)
  case readOutputs p => exact .inl (hrequest p .readOutputs rfl)
  case submit p d => exact .inl (hrequest p (.submit d) rfl)
  case query p hd => exact .inl (hrequest p (.query hd) rfl)
  case list p k => exact .inl (hrequest p (.list k) rfl)
  case setQuota p q n => exact .inl (hrequest p (.setQuota q n) rfl)
  case cancel p hd => exact .inl (hrequest p (.cancel hd) rfl)
  case trip p g => exact .inl (hrequest p (.trip g) rfl)
  case ackTrip p g => exact .inl (hrequest p (.ackTrip g) rfl)
  case clearTrip p g f => exact .inl (hrequest p (.clearTrip g f) rfl)
  case setTripSource p g i c => exact .inl (hrequest p (.setTripSource g i c) rfl)
  case setReleaseWindow p g n => exact .inl (hrequest p (.setReleaseWindow g n) rfl)
  case subscribe p l e f => exact .inl (hrequest p (.subscribe l e f) rfl)
  case fetch p n => exact .inl (hrequest p (.fetch n) rfl)
  case setQueue p m n => exact .inl (hrequest p (.setQueue m n) rfl)

theorem heldInReset_heldInReset (s : State) : HeldInReset (heldInReset s) := by
  refine fun _ => ⟨rfl, rfl, rfl, rfl, rfl, rfl, rfl, rfl, fun p => ?_⟩
  have : (heldInReset s).port p = resetController (s.port p) := PerPort.get_ofFn _ p
  rw [this]
  rfl

theorem resetLow_of_role {s t : State} (h : roleOf t = roleOf s) : t.resetLow = s.resetLow := congrArg (fun x => x.2.1) h

theorem supervisor_of_role {s t : State} (h : roleOf t = roleOf s) : t.supervisor = s.supervisor := congrArg (fun x => x.2.2) h

theorem exec_keepsHeldInReset {s t : State} {c : Instr} (h : HeldInReset s) (hx : exec c s = .next t) : HeldInReset t := by
  by_cases hreset : c = .deviceReset
  · subst hreset; cases hx; exact heldInReset_heldInReset s
  by_cases hrelease : ∃ sup1 sup0, c = .deviceResetRelease sup1 sup0
  · obtain ⟨sup1, sup0, rfl⟩ := hrelease
    cases hlow : s.resetLow with
    | true => rw [exec_release hlow] at hx; cases hx; exact nofun
    | false => rw [exec_release_high hlow] at hx; cases hx; exact h
  · have hne : ∀ sup1 sup0, c ≠ .deviceResetRelease sup1 sup0 := fun a b he => hrelease ⟨a, b, he⟩
    intro hlow
    rw [resetLow_of_role (exec_role hx hreset hne)] at hlow
    obtain rfl | ⟨p, low, rfl⟩ := exec_heldInReset h hlow hx hreset hne
    · exact h hlow
    · exact h.setPin p low hlow

/-- The role changes only at the release of RESET_N, where every controller is at its reset values. -/
theorem exec_portsOk {s t : State} {c : Instr} (h : ∀ p, (s.port p).ok s.supervisor p) (hreset : HeldInReset s)
    (hx : exec c s = .next t) (p : Port) : (t.port p).ok t.supervisor p := by
  by_cases hrelease : ∃ sup1 sup0, c = .deviceResetRelease sup1 sup0
  · obtain ⟨sup1, sup0, rfl⟩ := hrelease
    cases hlow : s.resetLow with
    | true =>
      rw [exec_release hlow] at hx
      cases hx
      show (s.port p).ok _ p
      rw [hreset.controller hlow p]
      exact Controller.reset_ok.congr rfl rfl rfl rfl rfl rfl
    | false => rw [exec_release_high hlow] at hx; cases hx; exact h p
  · have hsup : t.supervisor = s.supervisor := by
      by_cases hc : c = .deviceReset
      · subst hc; cases hx; rfl
      · exact supervisor_of_role (exec_role hx hc fun a b he => hrelease ⟨a, b, he⟩)
    rw [hsup]
    exact (exec_port p hx).ok (h p)

/-- Settles O58: what a command may leave of a controller, and what it can do while RESET_N is low. -/
theorem everyStepKeepsTheControllers : Obligations.EveryStepKeepsTheControllers := by
  unfold Obligations.EveryStepKeepsTheControllers
  intro s t hports hreset hstep
  exact step_keeps (P := fun x => (∀ p, (x.port p).ok x.supervisor p) ∧ HeldInReset x) (fun _ _ h => h)
    (fun _ _ _ h hx => ⟨exec_portsOk h.1 h.2 hx, exec_keepsHeldInReset h.2 hx⟩) ⟨hports, hreset⟩ hstep

end Sys2Proof.Machine
end

section
/-! What every step keeps of the sessions (R153, R157): what a session end has taken back from a port stays with the part until the
port's session is OPEN again, for only a port in OPEN, outside a session end, has a request in flight that takes anything. -/

namespace Sys2Proof.Machine

set_option Elab.async false

variable {p : Port} {s t : State}

/-! ### What is taken back stays taken back -/

/-- The requests by which a port takes an output, an entry or a subscription for itself. -/
def requestTakes (r : Request) : Bool :=
  match r with
  | .claim _ _ => true
  | .reclaim _ => true
  | .submit _ => true
  | .subscribe _ _ _ => true
  | _ => false

/-- What a session end takes back, block by block: each block's part stays taken back where the outputs' part does. -/
theorem TakenBack.mono {kind : EndKind} {x : EndStep} (h : TakenBack s p kind x) (ho : ∀ o, OffOutput s p o → OffOutput t p o)
    (he : NoEntry s p → NoEntry t p) (hg : ∀ g, (∀ o, OffOutput s p o) → OffGroup s p g → OffGroup t p g)
    (hq : Flushed s p → Flushed t p) : TakenBack t p kind x := by
  cases x with
  | output k => exact fun o hk => ho o (h o hk)
  | agenda => exact fun o => ho o (h o)
  | group g =>
    cases g with
    | G0 => exact ⟨fun o => ho o (h.1 o), he h.2⟩
    | G1 =>
      obtain ⟨houtputs, hentries, hgroup⟩ := h
      exact ⟨fun o => ho o (houtputs o), he hentries, hg _ houtputs hgroup⟩
  | queue =>
    obtain ⟨houtputs, hentries, hgroup0, hgroup1⟩ := h
    exact ⟨fun o => ho o (houtputs o), he hentries, hg _ houtputs hgroup0, hg _ houtputs hgroup1⟩
  | finish =>
    obtain ⟨houtputs, hentries, hgroup0, hgroup1, hqueue⟩ := h
    exact ⟨fun o => ho o (houtputs o), he hentries, hg _ houtputs hgroup0, hg _ houtputs hgroup1, fun hk => hq (hqueue hk)⟩

theorem TakenBack.congr {kind : EndKind} {x : EndStep} (h : TakenBack s p kind x) (ho : t.outputs = s.outputs)
    (ha : t.agenda = s.agenda) (hg : t.groups = s.groups) (hq : t.queues = s.queues) : TakenBack t p kind x := by
  have houtput : ∀ o, t.output o = s.output o := fun o => congrArg (fun x => x.get o) ho
  have hentry : ∀ i, t.entry i = s.entry i := fun i => congrArg (fun x : Agenda => (x.slots.get i).entry) ha
  have hgroup : ∀ g, t.group g = s.group g := fun g => congrArg (fun x => x.get g) hg
  have hqueue : t.queue p = s.queue p := congrArg (fun x => x.get p) hq
  refine h.mono (fun o => ?_) (fun hn i => ?_) (fun g _ => ?_) ?_
  · unfold OffOutput; rw [houtput]; exact id
  · rw [hentry]; exact hn i
  · unfold OffGroup; rw [hgroup]; exact id
  · unfold Flushed; rw [hqueue]; exact id

/-! ### Steps of outputs, agenda and groups in which the port takes nothing -/

theorem offOutput_setOutput {k o : Output} {r : OutputRec} (hr : OffOutput s p k → r.owner ≠ some p ∧ p ∉ r.waiting)
    (h : OffOutput s p o) : OffOutput (s.setOutput k r) p o := by
  unfold OffOutput
  rw [State.setOutput_output]
  split
  · next hk => exact hr (hk ▸ h)
  · exact h

theorem SharedStep.offOutput (hstep : SharedStep (· ≠ p) s t) (o : Output) (h : OffOutput s p o) : OffOutput t p o := by
  cases hstep with
  | level => exact offOutput_setOutput id h
  | @claim q k wait hq =>
    refine offOutput_setOutput (fun hk => ?_) h
    rcases claimRecord_eq q wait (s.output k) with heq | ⟨_, heq⟩ | ⟨_, _, _, _, heq⟩ <;> rw [heq]
    · exact hk
    · exact ⟨by simpa using hq, hk.2⟩
    · refine ⟨hk.1, ?_⟩
      rw [List.mem_append, List.mem_singleton, not_or]
      exact ⟨hk.2, fun hqp => hq hqp.symm⟩
  | leave q k => exact offOutput_setOutput (fun hk => ⟨hk.1, fun hm => hk.2 (List.mem_filter.1 hm).1⟩) h
  | handOn =>
    refine offOutput_setOutput (s := s.setAgenda _) (fun hk => ⟨fun hm => hk.2 ?_, fun hm => hk.2 (List.mem_of_mem_tail hm)⟩) h
    exact List.mem_of_mem_head? hm
  | @reclaim q k a hq =>
    refine offOutput_setOutput (s := s.setAgenda _) (fun hk => ⟨by simpa [reclaimRecord] using hq, fun hm => hk.2 ?_⟩) h
    exact (List.mem_filter.1 hm).1
  | safe => exact offOutput_setOutput id h
  | @trip g =>
    have hget := forceMembers_get g s.outputs o
    change ((forceMembers g s.outputs).get o).owner ≠ _ ∧ _ ∉ ((forceMembers g s.outputs).get o).waiting
    rw [hget]
    split <;> exact h
  | _ => exact h

theorem NoEntry.thinner {a : Agenda} (h : NoEntry s p) (ht : Thinner s.agenda a) : NoEntry (s.setAgenda a) p := fun i e he => by
  obtain ⟨x, hx, howner, _⟩ := ht.stood i e he
  rw [howner]
  exact h i x hx

theorem SharedStep.noEntry {takes : Port → Prop} (hstep : SharedStep takes s t) (h : NoEntry s p) : NoEntry t p := by
  cases hstep with
  | thin ht => exact h.thinner ht
  | handOn hu => exact h.thinner hu.1
  | reclaim _ hu => exact h.thinner hu.1
  | trip _ _ ht => exact h.thinner ht
  | _ => exact h

/-- A port that owns no output is owed in no set formed from the output table (R114). -/
theorem owedSet_get_off (h : ∀ o, OffOutput s p o) (g : Group) : (owedSet s.outputs g).get p = false := by
  have hnot : ∀ o : Output, (s.outputs.get o).owner ≠ some p := fun o => (h o).1
  simp [owedSet, ownsMember, PerPort.get_ofFn, hnot]

theorem offGroup_setGroup {g k : Group} {r : GroupRec} (hr : OffGroup s p g → r.owed.get p = false ∧ r.acked.get p = false)
    (h : OffGroup s p k) : OffGroup (s.setGroup g r) p k := by
  unfold OffGroup
  rw [State.setGroup_group]
  split
  · next hk => exact hr (hk ▸ h)
  · exact h

theorem SharedStep.offGroup {takes : Port → Prop} (hstep : SharedStep takes s t) (g : Group) (ho : ∀ o, OffOutput s p o)
    (h : OffGroup s p g) : OffGroup t p g := by
  have hformed : ∀ k, (owedSet s.outputs k).get p = false ∧ portSetEmpty.get p = false :=
    fun k => ⟨owedSet_get_off ho k, portSetEmpty_get p⟩
  cases hstep with
  | @trip k => exact offGroup_setGroup (fun _ => hformed k) h
  | @further k => exact offGroup_setGroup (fun _ => hformed k) h
  | source => exact offGroup_setGroup id h
  | window => exact offGroup_setGroup id h
  | @ack q k _ howed =>
    refine offGroup_setGroup (fun hk => ⟨hk.1, ?_⟩) h
    have hqp : p ≠ q := fun hqp => by rw [hqp] at hk; exact absurd (hk.1.symm.trans howed) (by decide)
    exact (PerPort.get_set_ne _ hqp _).trans hk.2
  | normal => exact offGroup_setGroup (fun _ => ⟨portSetEmpty_get p, portSetEmpty_get p⟩) h
  | releasing => exact offGroup_setGroup id h
  | expired => exact offGroup_setGroup id h
  | @leaveGroup q k =>
    refine offGroup_setGroup (fun hk => ?_) h
    simp only [portSetRemove, PerPort.get_set]
    split
    · exact ⟨rfl, rfl⟩
    · exact hk
  | _ => exact h

variable {kind : EndKind} {x : EndStep}

theorem SharedStep.takenBack (hstep : SharedStep (· ≠ p) s t) (h : TakenBack s p kind x) : TakenBack t p kind x :=
  h.mono hstep.offOutput hstep.noEntry hstep.offGroup fun hq => by
    have hqueues : t.queue p = s.queue p := congrFun (congrArg PerPort.get hstep.queues) p
    unfold Flushed
    rw [hqueues]
    exact hq

theorem TakenBack.steps (hsteps : SharedSteps (· ≠ p) s t) (h : TakenBack s p kind x) : TakenBack t p kind x :=
  hsteps.keep (P := fun u => TakenBack u p kind x) SharedStep.takenBack h

theorem TakenBack.setPort (q : Port) (c : Controller) (h : TakenBack s p kind x) : TakenBack (s.setPort q c) p kind x :=
  h.congr rfl rfl rfl rfl

/-- An event in which the port takes nothing. -/
theorem TakenBack.run {f : Work → Work} (hf : SharedSteps (· ≠ p) s (f (startWork s)).st) (h : TakenBack s p kind x) :
    TakenBack (runEvent f s) p kind x :=
  (h.steps hf).congr rfl rfl rfl rfl

/-- SUBMIT by another port (R75). -/
theorem submitAt_takenBack {q : Port} (hq : q ≠ p) (d : Plan) (h : TakenBack s p kind x) :
    TakenBack (submitAt q d (startWork s)).1.st p kind x := by
  obtain heq | ⟨i, _, _, _, _, heq⟩ := submitAt_cases q d (startWork s)
  · rw [heq]; exact h
  have haccept : TakenBack (s.setAgenda (acceptEntry s.now q d i s.agenda)) p kind x := by
    refine h.mono (fun _ => id) (fun hn j e he => ?_) (fun _ _ => id) id
    by_cases hj : j = i
    · subst hj
      obtain ⟨st, hst⟩ := acceptEntry_entry_self s.now q d j s.agenda
      have hentry : some e = some { newEntry q d with state := st } := he.symm.trans hst
      rw [Option.some.inj hentry]
      exact hq
    · exact hn j e ((congrArg Slot.entry (acceptEntry_get_ne s.now q d s.agenda hj)).symm.trans he)
  rw [heq]
  split
  · exact haccept.steps (pass_steps _ (onAgenda (acceptEntry s.now q d i) (startWork s)))
  · exact haccept

/-! ### Queues -/

theorem TakenBack.setQueue {q : Port} {c : Queue} (h : TakenBack s p kind x)
    (hc : q = p → Flushed s p → c.records = [] ∧ c.intake = .shut ∧ ∀ l, c.row.get l = Cell.off) :
    TakenBack (s.setQueue q c) p kind x := by
  refine h.mono (fun _ => id) id (fun _ _ => id) fun hf => ?_
  unfold Flushed
  rw [State.setQueue_queue]
  split
  · next hq => exact hc hq.symm hf
  · exact hf

theorem TakenBack.arrive {q : Port} (m : Msg) (h : TakenBack s p kind x) :
    TakenBack (s.setQueue q (Machine.arrive (s.queue q) m)) p kind x :=
  h.setQueue fun hq hf => by subst hq; rw [arrive_shut m hf.2.1]; exact hf

/-- An unsubscribed queue takes no edge. -/
theorem edgeAtQueueEvent_off (e : Edge) {q : Queue} (h : q.row.get e.line = Cell.off) : edgeAtQueueEvent e q = q := by
  unfold edgeAtQueueEvent
  simp only [h]
  rfl

theorem endAtQueue_flushed (now : Tick) {q : Queue} (hs : q.intake = .shut)
    (h : q.records = [] ∧ q.intake = .shut ∧ ∀ l, q.row.get l = Cell.off) :
    (endAtQueue kind now q).records = [] ∧ (endAtQueue kind now q).intake = .shut ∧
      ∀ l, (endAtQueue kind now q).row.get l = Cell.off := by
  cases kind with
  | lapse => rw [endAtQueue, arrive_shut _ hs]; exact h
  | close => exact ⟨rfl, rfl, Queue.reset_row⟩
  | portReset => exact ⟨rfl, rfl, Queue.reset_row⟩

/-! ### The events taken before a rollover -/

theorem TakenBack.queueEdge (q : Port) (e : Edge) (h : TakenBack s p kind x) : TakenBack (Machine.queueEdge q e s) p kind x := by
  unfold Machine.queueEdge
  split
  · refine TakenBack.setQueue (s := s.setPublished _) (h.congr rfl rfl rfl rfl) fun hq hf => ?_
    subst hq
    have hrow : ((s.setPublished _).queue q).row.get e.line = Cell.off := hf.2.2 e.line
    rw [edgeAtQueueEvent_off e hrow]
    exact hf
  · exact h

theorem TakenBack.agendaEdge (e : Edge) (h : TakenBack s p kind x) : TakenBack (Machine.agendaEdge e s) p kind x := by
  unfold Machine.agendaEdge
  split
  · exact TakenBack.run (edgeAtAgendaEvent_steps e (startWork _)) (h.congr rfl rfl rfl rfl)
  · exact h

theorem TakenBack.groupEdge (g : Group) (e : Edge) (h : TakenBack s p kind x) : TakenBack (Machine.groupEdge g e s) p kind x := by
  unfold Machine.groupEdge
  split
  · exact TakenBack.run (causeFrom_steps _ _ _ _ (startWork _)) (h.congr rfl rfl rfl rfl)
  · exact h

theorem TakenBack.groupSettling (g : Group) (l : Line) (h : TakenBack s p kind x) :
    TakenBack (Machine.groupSettling g l s) p kind x := by
  unfold Machine.groupSettling
  split
  · exact TakenBack.run (causeFrom_steps _ _ _ _ (startWork _)) (h.congr rfl rfl rfl rfl)
  · exact h

theorem TakenBack.expiry (g : Group) (h : TakenBack s p kind x) : TakenBack (releaseExpiry g s) p kind x :=
  h.run (releaseExpiryEvent_steps g (startWork s))

theorem TakenBack.duePass (h : TakenBack s p kind x) : TakenBack (Machine.duePass s) p kind x :=
  h.run (pass_steps s.now (startWork s))

theorem TakenBack.takeOutstanding (h : TakenBack s p kind x) : TakenBack (Machine.takeOutstanding s) p kind x := by
  unfold Machine.takeOutstanding takeLapses takeExpiries takeSettling takeGroupEdges takeAgendaEdges takeQueueEdges
  have keep {α : Type} {f : State → α → State} (hf : ∀ s a, TakenBack s p kind x → TakenBack (f s a) p kind x) (l : List α)
      (s : State) (hs : TakenBack s p kind x) : TakenBack (l.foldl f s) p kind x :=
    Kept.foldl (P := fun u => TakenBack u p kind x) hf l s hs
  refine keep (fun s q hs => hs.setPort q _) _ _ ?_
  refine keep (fun s g hs => hs.expiry g) _ _ ?_
  refine TakenBack.duePass ?_
  refine keep (fun s g hs => keep (fun s c hs => hs.groupSettling g _) _ _ hs) _ _ ?_
  refine keep (fun s g hs => keep (fun s e hs => hs.groupEdge g e) _ _ hs) _ _ ?_
  refine keep (fun s e hs => hs.agendaEdge e) _ _ ?_
  exact keep (fun s q hs => keep (fun s e hs => hs.queueEdge q e) _ _ hs) _ _ h

/-! ### Every command -/

/-- In device reset every port holds nothing. -/
theorem heldInReset_takenBack (s : State) (p : Port) (kind : EndKind) (x : EndStep) : TakenBack (heldInReset s) p kind x := by
  have houtput : ∀ o, OffOutput (heldInReset s) p o := fun o => by
    have : (heldInReset s).output o = OutputRec.reset := Table.get_fill _ o
    unfold OffOutput
    rw [this]
    exact ⟨nofun, List.not_mem_nil⟩
  have hentry : NoEntry (heldInReset s) p := fun i e he =>
    absurd ((congrArg Slot.entry (Agenda.reset_slot i)).symm.trans he) nofun
  have hgroup : ∀ g, OffGroup (heldInReset s) p g := fun g => by
    have : (heldInReset s).group g = GroupRec.reset := PerGroup.get_fill _ g
    unfold OffGroup
    rw [this]
    exact ⟨portSetEmpty_get p, portSetEmpty_get p⟩
  have hqueue : Flushed (heldInReset s) p := by
    have : (heldInReset s).queue p = Queue.reset := PerPort.get_fill _ p
    unfold Flushed
    rw [this]
    exact ⟨rfl, rfl, Queue.reset_row⟩
  cases x with
  | output k => exact fun o _ => houtput o
  | agenda => exact houtput
  | group g => cases g <;> simp [TakenBack, houtput, hentry, hgroup]
  | queue => exact ⟨houtput, hentry, hgroup _, hgroup _⟩
  | finish => exact ⟨houtput, hentry, hgroup _, hgroup _, fun _ => hqueue⟩

theorem TakenBack.request {q : Port} {r : Request} {f : Work → Work × Answer} (h : TakenBack s p kind x)
    (hf : ∀ y, InFlight s q y r → TakenBack (f (startWork s)).1.st p kind x) : TakenBack (takeRequest q r f s) p kind x :=
  takeRequest_induct (P := fun u => TakenBack u p kind x) h fun y hy => (hf y hy).congr rfl rfl rfl rfl

/-- A request that takes what it asks for is not of a port with no such request in flight. -/
theorem ne_of_takes {q : Port} {r : Request} {y : Flight} (hno : ∀ y r, InFlight s p y r → requestTakes r = false) (hy : InFlight s q y r)
    (hr : requestTakes r = true) : q ≠ p := by
  rintro rfl
  exact absurd ((hno y r hy).symm.trans hr) (by decide)

/-- What is taken back stays taken back through every command, but for OPEN, while the port has no request in flight that takes. -/
theorem exec_takenBack {c : Instr} (hx : exec c s = .next t) (hno : ∀ y r, InFlight s p y r → requestTakes r = false)
    (hopen : c ≠ .openSession p) (h : TakenBack s p kind x) : TakenBack t p kind x := by
  cases c <;> simp only [Machine.exec] at hx
  case deviceReset => cases hx; exact heldInReset_takenBack s p kind x
  case deviceResetRelease a b => cases hx; unfold releaseReset; split <;> exact h.congr rfl rfl rfl rfl
  case tick samples =>
    cases hx
    unfold tickAll
    split
    · exact h
    · exact h.takeOutstanding.congr (rollover_outputs _ _) (rollover_agenda _ _) (rollover_groups _ _) (rollover_queues _ _)
  case edgeAtQueue => cases hx; exact h.queueEdge _ _
  case edgeAtAgenda => cases hx; exact h.agendaEdge _
  case edgeAtTripGroup => cases hx; exact h.groupEdge _ _
  case settlingChange => cases hx; exact h.groupSettling _ _
  case dueReached => cases hx; exact h.run (pass_steps _ (startWork s))
  case releaseDeadlineReached => cases hx; exact h.expiry _
  case lapseExpiry => cases hx; exact h.congr rfl rfl rfl rfl
  case portReset => cases hx; unfold portResetAt; (repeat' split) <;> exact h.congr rfl rfl rfl rfl
  case portResetRelease => cases hx; exact h.congr rfl rfl rfl rfl
  case transactionBegin => cases hx; unfold beginTransaction; split <;> exact h.congr rfl rfl rfl rfl
  case transactionEnd => cases hx; exact h.congr rfl rfl rfl rfl
  case requestCompletion => cases hx; exact h.congr rfl rfl rfl rfl
  case sessionEndAtOutput q o =>
    cases hx
    unfold sessionEndOutput
    repeat' split
    · exact h
    · exact (h.run (endAtOutput_steps q o (startWork s))).congr rfl rfl rfl rfl
    · exact h
  case sessionEndAtAgenda q =>
    cases hx
    unfold sessionEndAgenda
    repeat' split
    · exact h
    · exact (h.run (endAtAgenda_steps q (startWork s))).congr rfl rfl rfl rfl
    · exact h
  case sessionEndAtTripGroup q g =>
    cases hx
    unfold sessionEndGroup
    repeat' split
    · exact h
    · exact (h.run (endAtGroup_steps q g (startWork s))).congr rfl rfl rfl rfl
    · exact h
  case sessionEndAtQueue q =>
    cases hx
    unfold sessionEndQueue
    repeat' split
    · exact h
    · refine TakenBack.congr (h.setQueue (q := q) fun hq hf => ?_) rfl rfl rfl rfl
      subst hq
      exact endAtQueue_flushed s.now hf.2.1 hf
    · exact h
  case sessionEndFinish => cases hx; unfold sessionEndFinish; (repeat' split) <;> exact h.congr rfl rfl rfl rfl
  case recordArrival q n =>
    cases hx
    obtain he | ⟨_, _, _, _, he⟩ := recordArrives_cases q n s <;> rw [he]
    · exact h
    · exact TakenBack.arrive (s := s.setTransit _) _ (h.congr rfl rfl rfl rfl)
  case prescalerAdvance => cases hx; split <;> exact h.congr rfl rfl rfl rfl
  case openSession q =>
    cases hx
    refine h.request fun _ _ => TakenBack.congr (TakenBack.setQueue (s := dropStaleEdges q s) (q := q) (c := _) ?_
      fun hq _ => absurd (congrArg Instr.openSession hq) hopen) rfl rfl rfl rfl
    unfold dropStaleEdges
    split <;> exact h.congr rfl rfl rfl rfl
  case closeSession => cases hx; split <;> exact h.congr rfl rfl rfl rfl
  case ping => cases hx; exact h.request fun _ _ => h
  case status => cases hx; exact h.request fun _ _ => h
  case setLapse => cases hx; exact h.request fun _ _ => h.congr rfl rfl rfl rfl
  case readTime => cases hx; exact h.request fun _ _ => h
  case setDivide => cases hx; exact h.request fun _ _ => h.congr rfl rfl rfl rfl
  case readInputs => cases hx; exact h.request fun _ _ => h
  case setFilter => cases hx; exact h.request fun _ _ => h.congr rfl rfl rfl rfl
  case claim q o wait =>
    cases hx
    exact h.request fun y hy => h.steps (claimAt_steps (takes := (· ≠ p)) o wait (ne_of_takes hno hy rfl) (startWork s))
  case withdraw => cases hx; exact h.request fun _ _ => h.steps (withdrawAt_steps _ _ (startWork s))
  case release => cases hx; exact h.request fun _ _ => h.steps (releaseAt_steps _ _ (startWork s))
  case writeOutput => cases hx; exact h.request fun _ _ => h.steps (writeOutputAt_steps _ _ _ (startWork s))
  case reclaim q o =>
    cases hx
    exact h.request fun y hy => h.steps (reclaimAt_steps (takes := (· ≠ p)) o (ne_of_takes hno hy rfl) (startWork s))
  case setSafe => cases hx; exact h.request fun _ _ => h.steps (setSafeAt_steps _ _ _ (startWork s))
  case readOutputs => cases hx; exact h.request fun _ _ => h
  case submit q d => cases hx; exact h.request fun y hy => submitAt_takenBack (ne_of_takes hno hy rfl) d h
  case query => cases hx; exact h.request fun _ _ => by rw [queryAt_st]; exact h
  case list => cases hx; exact h.request fun _ _ => h
  case setQuota => cases hx; exact h.request fun _ _ => h.steps (setQuotaAt_steps _ _ (startWork s))
  case cancel => cases hx; exact h.request fun _ _ => h.steps (cancelAt_steps _ _ (startWork s))
  case trip => cases hx; exact h.request fun _ _ => h.steps (takeCause_steps _ _ _ (startWork s))
  case ackTrip => cases hx; exact h.request fun _ _ => h.steps (ackTripAt_steps _ _ (startWork s))
  case clearTrip => cases hx; exact h.request fun _ _ => h.steps (clearTripAt_steps _ _ (startWork s))
  case setTripSource => cases hx; exact h.request fun _ _ => h.steps (setTripSourceAt_steps _ _ _ (startWork s))
  case setReleaseWindow => cases hx; exact h.request fun _ _ => h.steps (SharedStep.window _ _).steps
  case subscribe q l e one =>
    cases hx
    exact h.request fun y hy => h.setQueue (q := q) fun hq _ => absurd hq (ne_of_takes hno hy rfl)
  case fetch q n =>
    cases hx
    refine h.request fun _ _ => h.setQueue (q := q) fun hq hf => ?_
    subst hq
    exact ⟨by simp [hf.1], hf.2⟩
  case setQueue q m n =>
    cases hx
    exact h.request fun _ _ => h.setQueue (q := q) fun hq hf => by subst hq; exact hf

end Sys2Proof.Machine
end

section
/-! O59: every step keeps each port within what its session allows (R153, R157). A controller either goes on as it was, begins a
session end, which has taken nothing yet, becomes OPEN, or is carried past a step of its session end by the block that takes the
port's things back. -/

namespace Sys2Proof.Machine

set_option Elab.async false

variable {p : Port} {s t : State} {c c' : Controller}

/-! ### What a command does to the session end in progress -/

/-- No session end is in progress, or one has just begun. -/
def AtStart (run : Option EndRun) : Prop := run = none ∨ ∃ kind, run = some (firstStep kind)

/-- The session and the session end of a controller go on as they were, or a session end leaves or begins, or the session becomes
OPEN. -/
def GoesOn (c c' : Controller) : Prop :=
  (c'.session = c.session ∧ (endRunOf c' = endRunOf c ∨ AtStart (endRunOf c'))) ∨ (c'.session = .isOpen ∧ endRunOf c' = none)

theorem GoesOn.same (hs : c'.session = c.session) (ha : c'.activity = c.activity) : GoesOn c c' :=
  .inl ⟨hs, .inl (by unfold endRunOf; rw [ha])⟩

theorem GoesOn.start (hs : c'.session = c.session) (h : AtStart (endRunOf c')) : GoesOn c c' := .inl ⟨hs, .inr h⟩

theorem endRunOf_ending {run : EndRun} (h : c.activity = .ending run) : endRunOf c = some run := by
  unfold endRunOf; rw [h]

theorem takePortReset_start (c : Controller) :
    (takePortReset c).session = c.session ∧ AtStart (endRunOf (takePortReset c)) := by
  by_cases hs : c.session = .closed
  · rw [takePortReset_closed hs]; exact ⟨rfl, .inl rfl⟩
  · rw [takePortReset_session hs]; exact ⟨rfl, .inr ⟨_, rfl⟩⟩

theorem takeHeld_start (now : Tick) (lapse : Bool) (h : c.activity = .idle) :
    (takeHeld now lapse c).session = c.session ∧ AtStart (endRunOf (takeHeld now lapse c)) := by
  unfold takeHeld
  split
  · exact takePortReset_start c
  · split
    · exact ⟨rfl, .inr ⟨_, rfl⟩⟩
    · exact ⟨rfl, .inl (endRunOf_idle h)⟩

theorem completeRequest_start (now : Tick) (queued : Nat) (f : Flight) (a : Answer) (c : Controller) :
    (completeRequest now queued f a c).session = c.session ∧ AtStart (endRunOf (completeRequest now queued f a c)) :=
  takeHeld_start _ _ rfl

theorem putAnswer_goesOn (a : Answer) (c : Controller) : GoesOn c (putAnswer a c) := by
  unfold putAnswer
  split
  · exact .start rfl (.inl rfl)
  · exact .same rfl rfl
  · exact .same rfl rfl

theorem expireLapse_goesOn (now : Tick) (c : Controller) : GoesOn c (expireLapse now c) := by
  unfold expireLapse
  split
  · split
    · exact .start rfl (.inr ⟨_, rfl⟩)
    · exact .same rfl rfl
    · exact .same rfl rfl
  · exact .same rfl rfl

theorem assertPortReset_goesOn (c : Controller) : GoesOn c (assertPortReset c) := by
  unfold assertPortReset
  split
  · obtain ⟨hsession, hrun⟩ := takePortReset_start { c with prstLow := true, txn := c.txn.map abandonTxn }
    exact .start hsession hrun
  · exact .same rfl rfl
  · exact .same rfl rfl

theorem acceptance_not_closing (session : Session) (isSupervisor : Bool) (code : Option Byte) (ops : List Byte) (run : EndRun) :
    acceptance session isSupervisor code ops ≠ .closing run := by
  unfold acceptance
  split
  · nofun
  · simp only [checkRequest]
    repeat' split
    all_goals nofun

theorem takeFrame_goesOn (now : Tick) (isSupervisor : Bool) (mosi : List Byte) (c : Controller) :
    GoesOn c (takeFrame now isSupervisor mosi c) := by
  unfold takeFrame
  split
  · exact .same rfl rfl
  · exact .same rfl rfl
  · next seq check code ops _ =>
    split
    · exact .same (by rw [restartDeadline_eq]) (by rw [restartDeadline_eq])
    · refine .start (by simp only [admitRequest, restartDeadline_eq]) (.inl ?_)
      unfold admitRequest endRunOf
      simp only
      split
      · rfl
      · next hrun => exact absurd hrun (acceptance_not_closing _ _ _ _ _)
      · rfl

theorem GoesOn.after (h : GoesOn c c') {b : Controller} (hs : c.session = b.session) (ha : c.activity = b.activity) :
    GoesOn b c' := by
  have hrun : endRunOf c = endRunOf b := by unfold endRunOf; rw [ha]
  unfold GoesOn at h ⊢
  rwa [hs, hrun] at h

theorem endTransaction_goesOn (now : Tick) (isSupervisor : Bool) (mosi : List Byte) (c : Controller) :
    GoesOn c (endTransaction now isSupervisor mosi c) := by
  unfold endTransaction
  split
  · exact .same rfl rfl
  · next txn _ =>
    have hclear : GoesOn c (clearMark txn mosi.length { c with txn := none }) := by rw [clearMark_eq]; exact .same rfl rfl
    simp only
    split
    · exact .same rfl rfl
    · exact hclear
    · split
      · exact (takeFrame_goesOn _ _ _ _).after (by rw [clearMark_eq]) (by rw [clearMark_eq])
      · exact hclear

theorem completeAt_goesOn (now : Tick) (queued : Nat) (c : Controller) : GoesOn c (completeAt now queued c) := by
  unfold completeAt
  split
  · exact .same rfl rfl
  · exact .same rfl rfl
  · split
    · obtain ⟨hsession, hrun⟩ := completeRequest_start now queued _ _ c
      exact .start hsession hrun
    · exact .same rfl rfl
    · exact .same rfl rfl

theorem openController_session (now : Tick) (c : Controller) : (openController now c).session = .isOpen := by
  unfold openController
  split
  · rfl
  · rw [restartDeadline_eq]
  · assumption

theorem putAnswer_executing {f : Flight} (a : Answer) (h : c.activity = .executing f) :
    putAnswer a c = { c with activity := .executing { f with stage := .answered a } } := by
  unfold putAnswer; rw [h]

/-- The commands that carry port `p` past a step of its session end. -/
def EndsAt (p : Port) (x : Instr) : Prop :=
  (∃ o, x = .sessionEndAtOutput p o) ∨ x = .sessionEndAtAgenda p ∨ (∃ g, x = .sessionEndAtTripGroup p g) ∨
    x = .sessionEndAtQueue p ∨ x = .sessionEndFinish p

/-- Every other command but DEVICE_RESET lets a session end go on, leave or begin. -/
theorem PortStep.goesOn {x : Instr} (hstep : PortStep s p x c') (hreset : x ≠ .deviceReset) (hend : ¬EndsAt p x) :
    GoesOn (s.port p) c' := by
  cases hstep with
  | same => exact .same rfl rfl
  | reset => exact absurd rfl hreset
  | lapse => exact expireLapse_goesOn _ _
  | pin => exact .same rfl rfl
  | portReset => exact assertPortReset_goesOn _
  | portRelease => exact .same rfl rfl
  | begin => exact .same rfl rfl
  | finish mosi => exact endTransaction_goesOn _ _ _ _
  | complete => exact completeAt_goesOn _ _ _
  | run _ _ _ _ _ hc =>
    refine absurd ?_ hend
    rcases hc with ho | ha | hg | hq
    · exact .inl ho
    · exact .inr (.inl ha)
    · exact .inr (.inr (.inl hg))
    · exact .inr (.inr (.inr (.inl hq)))
  | sessionEnd => exact absurd (.inr (.inr (.inr (.inr rfl)))) hend
  | openSession f a hf =>
    rw [putAnswer_executing a ((openController_activity _ _).trans hf.1)]
    exact .inr ⟨openController_session _ _, rfl⟩
  | close f hf =>
    refine .start ?_ (.inr ⟨.close, ?_⟩) <;> simp only [startClose, setEndRun, hf.1, endRunOf]
  | setLapse n f a hf =>
    rw [putAnswer_executing a (show (lapseController _ _ _).activity = _ from hf.1)]
    exact .start rfl (.inl rfl)
  | answer _ _ _ a => exact putAnswer_goesOn a _

/-! ### What a session allows -/

theorem takenBack_start (s : State) (p : Port) (kind : EndKind) : TakenBack s p (firstStep kind).kind (firstStep kind).step :=
  fun _ h => absurd h (Fin.not_lt_zero _)

theorem TakenBack.finish_mono {k k' : EndKind} (h : TakenBack s p k .finish) (hk : k' ≠ .lapse → Flushed s p) :
    TakenBack s p k' .finish := by
  obtain ⟨ho, he, h0, h1, _⟩ := h
  exact ⟨ho, he, h0, h1, hk⟩

/-- A port holds no more than its session allows, in terms of what session ends take back. -/
theorem sessionHolds_iff : SessionHolds s p ↔ ((s.port p).session = .closed → TakenBack s p .close .finish) ∧
    ((s.port p).session ≠ .isOpen → TakenBack s p .lapse .finish) ∧ ∀ run, Ending s p run → TakenBack s p run.kind run.step := by
  constructor
  · intro h
    have hout : (s.port p).session ≠ .isOpen → TakenBack s p .lapse .finish := fun hn => by
      obtain ⟨ho, he, h0, h1⟩ := h.notOpen hn
      exact ⟨ho, he, h0, h1, fun hk => absurd rfl hk⟩
    exact ⟨fun hc => (hout (by rw [hc]; nofun)).finish_mono fun _ => h.closed hc, hout, h.ending⟩
  · rintro ⟨hclosed, hout, hending⟩
    refine ⟨fun hc => ?_, fun hn => ?_, hending⟩
    · obtain ⟨_, _, _, _, hq⟩ := hclosed hc
      exact hq nofun
    · obtain ⟨ho, he, h0, h1, _⟩ := hout hn
      exact ⟨ho, he, h0, h1⟩

/-- A port in OPEN, with no session end or one that has just begun, may hold what it likes. -/
theorem sessionHolds_of_open (hs : (t.port p).session = .isOpen) (hrun : AtStart (endRunOf (t.port p))) : SessionHolds t p := by
  refine ⟨fun hc => ?_, fun hn => absurd hs hn, fun run hr => ?_⟩
  · rw [hs] at hc; cases hc
  · obtain hnone | ⟨kind, hsome⟩ := hrun
    · exact absurd (hnone.symm.trans hr) nofun
    · have heq : some run = some (firstStep kind) := hr.symm.trans hsome
      rw [Option.some.inj heq]
      exact takenBack_start t p kind

theorem SessionHolds.goesOn (h : SessionHolds s p) (hgoes : GoesOn (s.port p) (t.port p))
    (hkeep : ¬((s.port p).session = .isOpen ∧ endRunOf (s.port p) = none) → ∀ kind x, TakenBack s p kind x → TakenBack t p kind x) :
    SessionHolds t p := by
  obtain ⟨hclosed, hout, hending⟩ := sessionHolds_iff.1 h
  obtain ⟨hs, hrun⟩ | ⟨hs, hrun⟩ := hgoes
  · by_cases hfree : (s.port p).session = .isOpen ∧ endRunOf (s.port p) = none
    · refine sessionHolds_of_open (hs.trans hfree.1) ?_
      obtain heq | hstart := hrun
      · exact .inl (heq.trans hfree.2)
      · exact hstart
    · refine sessionHolds_iff.2 ⟨fun hc => hkeep hfree _ _ (hclosed (hs ▸ hc)), fun hn => hkeep hfree _ _ (hout (hs ▸ hn)), ?_⟩
      intro run hr
      obtain heq | hnone | ⟨kind, hsome⟩ := hrun
      · exact hkeep hfree _ _ (hending run (heq.symm.trans hr))
      · exact absurd (hnone.symm.trans hr) nofun
      · have heq : some run = some (firstStep kind) := hr.symm.trans hsome
        rw [Option.some.inj heq]
        exact takenBack_start t p kind
  · exact sessionHolds_of_open hs (.inl hrun)

/-! ### The steps of a session end -/

theorem setEndRun_session (run : EndRun) (c : Controller) : (setEndRun run c).session = c.session := by
  unfold setEndRun; split <;> rfl

/-- A session end past one step: what was taken back stays so, and this step's part is taken back too. -/
theorem SessionHolds.advance (h : SessionHolds s p) {run run' : EndRun} (hrun : endRunOf (s.port p) = some run)
    (ht : t.port p = setEndRun run' (s.port p)) (hkeep : ∀ kind x, TakenBack s p kind x → TakenBack t p kind x)
    (hnew : TakenBack t p run'.kind run'.step) : SessionHolds t p := by
  obtain ⟨hclosed, hout, _⟩ := sessionHolds_iff.1 h
  have hs : (t.port p).session = (s.port p).session := by rw [ht, setEndRun_session]
  refine sessionHolds_iff.2 ⟨fun hc => hkeep _ _ (hclosed (hs ▸ hc)), fun hn => hkeep _ _ (hout (hs ▸ hn)), fun r hr => ?_⟩
  have heq : some r = some run' := hr.symm.trans (by rw [ht]; exact endRunOf_setEndRun hrun run')
  rw [Option.some.inj heq]
  exact hnew

/-- The last step of a session end leaves LAPSED or CLOSED (R157 step 6). -/
theorem finishController_start (now : Tick) (queued : Nat) {run : EndRun} (h : endRunOf c = some run) :
    (finishController now queued run c).session = (if run.kind = .lapse then .lapsed else .closed) ∧
      AtStart (endRunOf (finishController now queued run c)) := by
  have hsession : (endSession run.kind c).session = if run.kind = .lapse then .lapsed else .closed := by
    unfold endSession
    cases run.kind <;> rfl
  unfold finishController
  cases ha : c.activity with
  | idle => rw [endRunOf_idle ha] at h; cases h
  | ending run' =>
    obtain ⟨hs, hrun⟩ := takeHeld_start now false (c := { endSession run.kind c with activity := .idle }) rfl
    exact ⟨hs.trans hsession, hrun⟩
  | executing f =>
    obtain ⟨hs, hrun⟩ := completeRequest_start now queued f (closeAnswer now run) (endSession run.kind c)
    exact ⟨hs.trans hsession, hrun⟩

/-- At an output the port's ownership ends, or it leaves the list (R157 step 2). -/
theorem endAtOutput_off (o : Output) {w : Work} (hok : (w.st.output o).ok) : OffOutput (endAtOutput p o w).st p o := by
  unfold endAtOutput
  split
  · next howner =>
    have hst : (cancelOwned none (some p) w.st.now o p w).1.st.output o = w.st.output o := by
      rw [cancelOwned, cancelTargets_st]
      rfl
    have hnot : p ∉ (w.st.output o).waiting := hok.2.1 p howner
    unfold OffOutput
    rw [handOn_st, State.setOutput_output_self, hst]
    exact ⟨fun hp => hnot (List.mem_of_mem_head? hp), fun hp => hnot (List.mem_of_mem_tail hp)⟩
  · next howner =>
    unfold OffOutput
    rw [onState_st, onOutput, State.setOutput_output_self]
    refine ⟨howner, fun hp => ?_⟩
    simpa using (List.mem_filter.1 hp).2

/-- At the agenda the port's entries are cancelled (R157 step 3). -/
theorem endAtAgenda_noEntry {w : Work} (hl : Listed w.st.agenda) : NoEntry (endAtAgenda p w).st p := fun i e he => by
  have hgone : (e.owner == p) = false := cancelTargets_gone none (some p) w.st.now (fun e => e.owner == p) w hl i e he
  simpa using hgone

/-- At a group the port leaves both sets (R157 step 4). -/
theorem endAtGroup_off (g : Group) (w : Work) : OffGroup (endAtGroup p g w).st p g := by
  unfold endAtGroup OffGroup
  simp only
  split
  · rw [enterNormal_st, State.setGroup_group_self]
    exact ⟨portSetEmpty_get p, portSetEmpty_get p⟩
  · rw [onState_st, onGroup, State.setGroup_group_self]
    exact ⟨PerPort.get_set_self _ _ _, PerPort.get_set_self _ _ _⟩

theorem takenBack_stepAfterOutput {kind : EndKind} {o : Output} (h : TakenBack s p kind (.output o)) (ho : OffOutput s p o) :
    TakenBack s p kind (stepAfterOutput o) := by
  have hupto : ∀ k : Output, k.val ≤ o.val → OffOutput s p k := fun k hk => by
    obtain hlt | heq := Nat.lt_or_eq_of_le hk
    · exact h k hlt
    · rw [Fin.ext heq]; exact ho
  unfold stepAfterOutput
  split
  · exact fun k hk => hupto k (Nat.le_of_lt_succ hk)
  · exact fun k => hupto k (by omega)

theorem takenBack_stepAfterGroup {kind : EndKind} {g : Group} (h : TakenBack s p kind (.group g)) (hg : OffGroup s p g) :
    TakenBack s p kind (stepAfterGroup g) := by
  cases g with
  | G0 => obtain ⟨ho, he⟩ := h; exact ⟨ho, he, hg⟩
  | G1 => obtain ⟨ho, he, h0⟩ := h; exact ⟨ho, he, h0, hg⟩

theorem takenBack_agenda_group {kind : EndKind} (h : TakenBack s p kind .agenda) (he : NoEntry s p) :
    TakenBack s p kind (.group .G0) := ⟨h, he⟩

theorem takenBack_queue_finish {kind : EndKind} (h : TakenBack s p kind .queue) (hq : kind ≠ .lapse → Flushed s p) :
    TakenBack s p kind .finish := by
  obtain ⟨ho, he, h0, h1⟩ := h
  exact ⟨ho, he, h0, h1, hq⟩

section steps

variable {run : EndRun} (h : SessionHolds s p) (hrun : endRunOf (s.port p) = some run)

include h hrun

theorem sessionEndOutput_holds (o : Output) (hok : (s.output o).ok)
    (hkeep : ∀ kind y, TakenBack s p kind y → TakenBack (sessionEndOutput p o s) p kind y) :
    SessionHolds (sessionEndOutput p o s) p := by
  have hport : (runEvent (endAtOutput p o) s).port p = s.port p := (endAtOutput_shared p o (startWork s)).port p
  have hend := h.ending run hrun
  simp only [sessionEndOutput, hrun] at hkeep ⊢
  split
  · next hstep =>
    rw [if_pos hstep] at hkeep
    rw [hstep] at hend
    exact h.advance hrun (by rw [onPort_port, if_pos rfl, hport]) hkeep
      (takenBack_stepAfterOutput (hkeep _ _ hend) (endAtOutput_off o (w := startWork s) hok))
  · exact h

theorem sessionEndAgenda_holds (hl : Listed s.agenda)
    (hkeep : ∀ kind y, TakenBack s p kind y → TakenBack (sessionEndAgenda p s) p kind y) :
    SessionHolds (sessionEndAgenda p s) p := by
  have hport : (runEvent (endAtAgenda p) s).port p = s.port p := (endAtAgenda_shared p (startWork s)).port p
  have hend := h.ending run hrun
  simp only [sessionEndAgenda, hrun] at hkeep ⊢
  split
  · next hstep =>
    rw [if_pos hstep] at hkeep
    rw [hstep] at hend
    exact h.advance hrun (by rw [onPort_port, if_pos rfl, hport]) hkeep
      (takenBack_agenda_group (hkeep _ _ hend) (endAtAgenda_noEntry (w := startWork s) hl))
  · exact h

theorem sessionEndGroup_holds (g : Group)
    (hkeep : ∀ kind y, TakenBack s p kind y → TakenBack (sessionEndGroup p g s) p kind y) :
    SessionHolds (sessionEndGroup p g s) p := by
  have hport : (runEvent (endAtGroup p g) s).port p = s.port p := (endAtGroup_shared p g (startWork s)).port p
  have hend := h.ending run hrun
  simp only [sessionEndGroup, hrun] at hkeep ⊢
  split
  · next hstep =>
    rw [if_pos hstep] at hkeep
    rw [hstep] at hend
    exact h.advance hrun (by rw [onPort_port, if_pos rfl, hport]) hkeep
      (takenBack_stepAfterGroup (hkeep _ _ hend) (endAtGroup_off g (startWork s)))
  · exact h

theorem sessionEndQueue_holds (hkeep : ∀ kind y, TakenBack s p kind y → TakenBack (sessionEndQueue p s) p kind y) :
    SessionHolds (sessionEndQueue p s) p := by
  have hend := h.ending run hrun
  simp only [sessionEndQueue, hrun] at hkeep ⊢
  split
  · next hstep =>
    rw [if_pos hstep] at hkeep
    rw [hstep] at hend
    refine h.advance hrun (by rw [onPort_port, if_pos rfl]; rfl) hkeep (takenBack_queue_finish (hkeep _ _ hend) fun hk => ?_)
    have hqueue : ∀ f, (onPort p f (onQueue p (endAtQueue run.kind s.now) s)).queue p = endAtQueue run.kind s.now (s.queue p) :=
      fun _ => PerPort.get_set_self _ _ _
    unfold Flushed
    rw [hqueue]
    cases hkind : run.kind with
    | lapse => exact absurd hkind hk
    | close => exact ⟨rfl, rfl, Queue.reset_row⟩
    | portReset => exact ⟨rfl, rfl, Queue.reset_row⟩
  · exact h

theorem sessionEndFinish_holds (hkeep : ∀ kind y, TakenBack s p kind y → TakenBack (sessionEndFinish p s) p kind y) :
    SessionHolds (sessionEndFinish p s) p := by
  have hend := h.ending run hrun
  obtain ⟨hs, hstart⟩ := finishController_start s.now (s.queue p).records.length hrun
  simp only [sessionEndFinish, hrun] at hkeep ⊢
  split
  · next hstep =>
    rw [if_pos hstep] at hkeep
    rw [hstep] at hend
    have hdone := hkeep _ _ hend
    have hport : ∀ f, (onPort p f s).port p = f (s.port p) := fun f => by rw [onPort_port, if_pos rfl]
    refine sessionHolds_iff.2 ⟨fun hc => ?_, fun _ => hdone.finish_mono fun hk => absurd rfl hk, fun run' hr => ?_⟩
    · rw [hport, hs] at hc
      have hkind : run.kind ≠ .lapse := fun hk => by rw [if_pos hk] at hc; cases hc
      exact hdone.finish_mono fun _ => hdone.2.2.2.2 hkind
    · unfold Ending at hr
      rw [hport] at hr
      obtain hnone | ⟨kind, hsome⟩ := hstart
      · exact absurd (hnone.symm.trans hr) nofun
      · have heq : some run' = some (firstStep kind) := hr.symm.trans hsome
        rw [Option.some.inj heq]
        exact takenBack_start _ p kind
  · exact h

end steps

/-- With no session end in progress there is no step of one. -/
theorem exec_endsAt_none {x : Instr} (hends : EndsAt p x) (hrun : endRunOf (s.port p) = none) : exec x s = .next s := by
  rcases hends with ⟨o, rfl⟩ | rfl | ⟨g, rfl⟩ | rfl | rfl <;> simp only [exec]
  · show Host.Outcome.next (sessionEndOutput p o s) = _
    simp only [sessionEndOutput, hrun]
  · show Host.Outcome.next (sessionEndAgenda p s) = _
    simp only [sessionEndAgenda, hrun]
  · show Host.Outcome.next (sessionEndGroup p g s) = _
    simp only [sessionEndGroup, hrun]
  · show Host.Outcome.next (sessionEndQueue p s) = _
    simp only [sessionEndQueue, hrun]
  · show Host.Outcome.next (sessionEndFinish p s) = _
    simp only [sessionEndFinish, hrun]

/-- A port's session end at its next step. -/
theorem endsAt_sessionHolds {x : Instr} (h : SessionHolds s p) (hok : ∀ o, (s.output o).ok) (hl : Listed s.agenda)
    (hends : EndsAt p x) {run : EndRun} (hrun : endRunOf (s.port p) = some run) (hx : exec x s = .next t)
    (hkeep : ∀ kind y, TakenBack s p kind y → TakenBack t p kind y) : SessionHolds t p := by
  rcases hends with ⟨o, rfl⟩ | rfl | ⟨g, rfl⟩ | rfl | rfl <;> simp only [exec] at hx <;> cases hx
  · exact sessionEndOutput_holds h hrun o (hok o) hkeep
  · exact sessionEndAgenda_holds h hrun hl hkeep
  · exact sessionEndGroup_holds h hrun g hkeep
  · exact sessionEndQueue_holds h hrun hkeep
  · exact sessionEndFinish_holds h hrun hkeep

/-! ### Every step -/

/-- Out of OPEN no request is admitted that takes anything, but for OPEN itself (R153). -/
theorem takes_not_admitted {session : Session} {r : Request} (hs : session ≠ .isOpen) (h : admitted session r.code = true) :
    requestTakes r = false := by
  cases session with
  | isOpen => exact absurd rfl hs
  | closed => cases r <;> cases h <;> rfl
  | lapsed => cases r <;> cases h <;> rfl

theorem exec_sessionHolds {x : Instr} (h : SessionHolds s p) (hport : (s.port p).ok s.supervisor p) (hok : ∀ o, (s.output o).ok)
    (hl : Listed s.agenda) (hx : exec x s = .next t) : SessionHolds t p := by
  have hkeep : ¬((s.port p).session = .isOpen ∧ endRunOf (s.port p) = none) → x ≠ .openSession p →
      ∀ kind y, TakenBack s p kind y → TakenBack t p kind y := by
    intro hfree hopen kind y hy
    refine exec_takenBack hx (fun f r hf => ?_) hopen hy
    obtain ⟨_, hadmit, _⟩ := hport.awaiting hf.1 hf.2
    exact takes_not_admitted (fun hs => hfree ⟨hs, endRunOf_awaiting hf.1 hf.2⟩) hadmit
  by_cases hreset : x = .deviceReset
  · subst hreset
    simp only [exec] at hx
    cases hx
    have hnone : endRunOf ((heldInReset s).port p) = none := by
      simp only [heldInReset, State.port, PerPort.get_ofFn]; rfl
    exact sessionHolds_iff.2 ⟨fun _ => heldInReset_takenBack _ _ _ _, fun _ => heldInReset_takenBack _ _ _ _,
      fun run hr => absurd (hnone.symm.trans hr) nofun⟩
  by_cases hends : EndsAt p x
  · cases hrun : endRunOf (s.port p) with
    | none =>
      rw [exec_endsAt_none hends hrun] at hx
      cases hx
      exact h
    | some run =>
      refine endsAt_sessionHolds h hok hl hends hrun hx (hkeep (fun hfree => absurd (hrun.symm.trans hfree.2) nofun) ?_)
      rintro rfl
      rcases hends with ⟨_, h0⟩ | h0 | ⟨_, h0⟩ | h0 | h0 <;> cases h0
  by_cases hopen : x = .openSession p
  · subst hopen
    cases hw : awaits s p .openSession with
    | false =>
      have hst : exec (Request.openSession.command p) s = .next s := exec_command_stale hw
      have : t = s := by
        have := hst.symm.trans hx
        cases this
        rfl
      rw [this]
      exact h
    | true =>
      obtain ⟨f, hf⟩ := awaits_iff.1 hw
      rw [exec_openSession hf] at hx
      cases hx
      refine sessionHolds_of_open ?_ (.inl ?_) <;> simp [openController_session, State.answered, endRunOf]
  · exact h.goesOn ((exec_port p hx).goesOn hreset hends) fun hfree => hkeep hfree hopen

/-- Settles O59: a session end takes back, output by output and block by block, what its port holds, and until the session is OPEN
again the port has no request in flight that could take anything. -/
theorem everyStepKeepsSessionsToTheirBounds : Obligations.EveryStepKeepsSessionsToTheirBounds := by
  intro s t h hports _ hok hprotected hstep p
  refine step_of_exec
    (P := fun u => SessionHolds u p ∧ (u.port p).ok u.supervisor p ∧ (∀ o, (u.output o).ok) ∧ Listed u.agenda)
    (fun _ hu => hu.1) (fun _ _ hu => ?_) (fun _ _ _ hu hx => ?_) ⟨h p, hports p, hok, hprotected.listed⟩ hstep
  · exact ⟨⟨hu.1.closed, hu.1.notOpen, hu.1.ending⟩, hu.2⟩
  · obtain ⟨hholds, hport, houtputs, hlisted⟩ := hu
    exact exec_sessionHolds hholds hport houtputs hlisted hx

end Sys2Proof.Machine
end

section
/-! O60: the state right after reset meets every invariant (sections 1.7 to 8.1). -/

namespace Sys2Proof.Machine

set_option Elab.async false

@[simp] theorem State.reset_line (l : Line) : State.reset.line l = LineRec.reset := Table.get_fill _ l
@[simp] theorem State.reset_output (o : Output) : State.reset.output o = OutputRec.reset := Table.get_fill _ o
@[simp] theorem State.reset_group (g : Group) : State.reset.group g = GroupRec.reset := PerGroup.get_fill _ g
@[simp] theorem State.reset_queue (p : Port) : State.reset.queue p = Queue.reset := PerPort.get_fill _ p
@[simp] theorem State.reset_port (p : Port) : State.reset.port p = Controller.reset := PerPort.get_fill _ p

theorem reset_protected : Protected State.reset :=
  (heldInReset_protected State.reset).congr rfl rfl rfl

theorem reset_sessionHolds (p : Port) : SessionHolds State.reset p := by
  have htaken : ∀ kind x, TakenBack State.reset p kind x := fun kind x =>
    (heldInReset_takenBack State.reset p kind x).congr rfl rfl rfl rfl
  have hnone : endRunOf (State.reset.port p) = none := by rw [State.reset_port]; rfl
  exact sessionHolds_iff.2 ⟨fun _ => htaken _ _, fun _ => htaken _ _, fun run hr => absurd (hnone.symm.trans hr) nofun⟩

theorem reset_settled : Settled State.reset where
  published := rfl
  due := rfl
  release g t hr := by rw [State.reset_group] at hr; cases hr
  lapse p := by rw [State.reset_port]; rfl

/-- Settles O60. -/
theorem resetIsInGoodOrder : Obligations.ResetIsInGoodOrder := by
  unfold Obligations.ResetIsInGoodOrder
  have htimely : TimelyOk State.reset := ⟨InTime.reset _, nofun⟩
  refine ⟨fun l => ?line, Timebase.reset_ok, fun o => ?output, fun p => ?queue, fun g => ?group, Agenda.reset_ok,
    (timelyOk_iff.1 htimely).2, reset_protected, fun p => ?port, nofun, reset_sessionHolds, reset_settled⟩
  case line => rw [State.reset_line]; exact LineRec.reset_ok
  case output => rw [State.reset_output]; exact OutputRec.reset_ok
  case queue => rw [State.reset_queue]; exact Queue.reset_ok
  case group => rw [State.reset_group]; exact GroupRec.reset_ok
  case port => rw [State.reset_port]; exact Controller.reset_ok

end Sys2Proof.Machine
end

section
/-! O7 to O10: the prescaler and the rollover (R1, R2, R9, R16), the settling and the filter of the lines (R18 to R20), and the changes
that a tick publishes (R19, R22). -/

namespace Sys2Proof.Machine

set_option Elab.async false

/-! ### The prescaler and the rollover (R1, R2, R9) -/

/-- While RESET_N is low there is no tick (R16). -/
theorem exec_tick_low {s : State} (h : s.resetLow = true) (samples : BitVec 16) : exec (.tick samples) s = .next s := by
  show Host.Outcome.next (tickAll samples s) = _
  rw [tickAll, if_pos (.inl h)]

theorem exec_prescalerAdvance {s : State} (h : s.resetLow = false) :
    exec .prescalerAdvance s = .next (s.setTimebase (advancePrescaler s.timebase)) := by
  show Host.Outcome.next (if s.resetLow then s else s.setTimebase (advancePrescaler s.timebase)) = _
  rw [h]
  rfl

/-- Settles O7. -/
theorem prescalerAndRolloverCountTime : Obligations.PrescalerAndRolloverCountTime := by
  unfold Obligations.PrescalerAndRolloverCountTime
  refine ⟨fun s h => ?low, fun s h hlt => ?below, fun s h hle => ?done, fun s samples h => exec_tick_low h samples,
    fun s samples hlt => exec_tick_below hlt samples, fun s samples h hle => ?rollover, fun s samples h hle hsettled => ?settled⟩
  case low =>
    show Host.Outcome.next (if s.resetLow then s else s.setTimebase (advancePrescaler s.timebase)) = _
    rw [if_pos h]
  case below => rw [exec_prescalerAdvance h, advancePrescaler, if_pos hlt]
  case done => rw [exec_prescalerAdvance h, advancePrescaler, if_neg (BitVec.not_lt.2 hle)]; rfl
  case rollover => exact ⟨_, exec_tick h hle samples, rollover_timebase samples s⟩
  case settled =>
    rw [exec_tick h hle, takeOutstanding_settled hsettled]
    exact ⟨_, _, _, rfl⟩

/-! ### The lines (R18 to R20) -/

theorem stepLine_unsettled (x : Bool) {r : LineRec} (h : r.settled = false) :
    stepLine x r = { r with raw := x, qualified := x, settled := true } := by
  unfold stepLine
  rw [h]
  rfl

theorem stepLine_agrees {x : Bool} {r : LineRec} (h : r.settled = true) (hx : x = r.qualified) :
    stepLine x r = { r with raw := x, stability := 0 } := by
  unfold stepLine filterStep
  rw [if_pos h, if_pos hx]

/-- A differing sample short of F + 1 counts. -/
theorem stepLine_counts {x : Bool} {r : LineRec} (h : r.settled = true) (hx : x ≠ r.qualified) (hc : r.stability < r.filter) :
    stepLine x r = { r with raw := x, stability := r.stability + 1 } := by
  have hq : qualifies x r = false := by
    rw [qualifies_of_ne hx, decide_eq_false_iff_not, not_le]
    exact hc
  unfold stepLine filterStep
  rw [if_pos h, if_neg hx, if_neg (by rw [hq]; decide)]

/-- The differing sample that makes F + 1 qualifies the change. -/
theorem stepLine_qualifies {x : Bool} {r : LineRec} (h : r.settled = true) (hx : x ≠ r.qualified) (hc : r.filter ≤ r.stability) :
    stepLine x r = { r with raw := x, qualified := x, stability := 0 } := by
  have hq : qualifies x r = true := by
    rw [qualifies_of_ne hx, decide_eq_true_eq]
    exact hc
  unfold stepLine filterStep
  rw [if_pos h, if_neg hx, if_pos hq]

theorem stepLine_keeps (x : Bool) (r : LineRec) :
    (stepLine x r).raw = x ∧ (stepLine x r).settled = true ∧ (stepLine x r).filter = r.filter := by
  cases hs : r.settled with
  | false => rw [stepLine_unsettled x hs]; exact ⟨rfl, rfl, rfl⟩
  | true =>
    unfold stepLine filterStep
    rw [if_pos hs]
    split
    · exact ⟨rfl, hs, rfl⟩
    · split <;> exact ⟨rfl, hs, rfl⟩

/-- A tick steps each line by its own sample. -/
theorem tick_line (samples : BitVec 16) (s : State) (l : Line) :
    (rollover samples (takeOutstanding s)).line l = stepLine (samples.getLsbD l.val) (s.line l) := by
  unfold State.line
  rw [rollover_lines]
  exact Table.get_ofFn _ l

/-- Settles O8. -/
theorem tickStepsEveryLine : Obligations.TickStepsEveryLine := by
  unfold Obligations.TickStepsEveryLine
  intro s samples h hle
  refine ⟨_, exec_tick h hle samples, fun l => ?_⟩
  rw [tick_line]
  obtain ⟨hraw, hsettled, hfilter⟩ := stepLine_keeps (samples.getLsbD l.val) (s.line l)
  refine ⟨hraw, hsettled, hfilter, fun hs => ?_, fun hs hx => ?_, fun hs hx => ⟨fun hc => ?_, fun hc => ?_⟩⟩
  · rw [stepLine_unsettled _ hs]; exact ⟨rfl, rfl⟩
  · rw [stepLine_agrees hs hx]; exact ⟨rfl, rfl⟩
  · rw [stepLine_counts hs hx hc]; exact ⟨rfl, rfl⟩
  · rw [stepLine_qualifies hs hx hc]; exact ⟨rfl, rfl⟩

/-! ### What a tick publishes (R19, R22) -/

/-- An edge is published where a settled line's qualified level changes, in the direction of the new level. -/
theorem lineEdge_iff {x : Bool} {r : LineRec} {d : Dir} : lineEdge x r = some d ↔
    r.settled = true ∧ (stepLine x r).qualified ≠ r.qualified ∧ dirLevel d = (stepLine x r).qualified := by
  cases hs : r.settled with
  | false => simp [lineEdge, hs]
  | true =>
    by_cases hx : x = r.qualified
    · have hnot : qualifies x r = false := by simp [qualifies, hx]
      simp [lineEdge, hs, hnot, stepLine_agrees hs hx]
    · by_cases hc : r.stability < r.filter
      · have hnot : qualifies x r = false := by
          rw [qualifies_of_ne hx, decide_eq_false_iff_not, not_le]
          exact hc
        simp [lineEdge, hs, hnot, stepLine_counts hs hx hc]
      · have hyes : qualifies x r = true := by
          rw [qualifies_of_ne hx, decide_eq_true_eq]
          exact BitVec.not_lt.1 hc
        simp only [lineEdge, hs, hyes, stepLine_qualifies hs hx (BitVec.not_lt.1 hc), ne_eq, hx, not_false_eq_true, true_and]
        cases x <;> cases d <;> simp [dirLevel]

theorem settlesHigh_iff {x : Bool} {r : LineRec} :
    settlesHigh x r = true ↔ r.settled = false ∧ (stepLine x r).qualified = true := by
  unfold settlesHigh
  cases hs : r.settled with
  | false => simp [stepLine_unsettled x hs]
  | true => simp

theorem mem_newEdges {samples : BitVec 16} {now : Tick} {lines : Table 16 LineRec} {e : Edge} : e ∈ newEdges samples now lines ↔
    e.stamp = now ∧ lineEdge (sampleOf samples e.line) (lines.get e.line) = some e.dir := by
  simp only [newEdges, List.mem_filterMap, List.mem_finRange, true_and, Option.map_eq_some_iff]
  constructor
  · rintro ⟨l, d, hd, rfl⟩; exact ⟨rfl, hd⟩
  · rintro ⟨hstamp, hd⟩; exact ⟨e.line, e.dir, hd, by rw [← hstamp]⟩

theorem mem_newSettling {samples : BitVec 16} {now : Tick} {lines : Table 16 LineRec} {x : Settling} :
    x ∈ newSettling samples now lines ↔ x.stamp = now ∧ settlesHigh (sampleOf samples x.line) (lines.get x.line) = true := by
  simp only [newSettling, List.mem_map, List.mem_filter, List.mem_finRange, true_and]
  constructor
  · rintro ⟨l, hl, rfl⟩; exact ⟨rfl, hl⟩
  · rintro ⟨hstamp, hl⟩; exact ⟨x.line, hl, by rw [← hstamp]⟩

/-- Each line publishes one edge at most. -/
theorem newEdges_lines (samples : BitVec 16) (now : Tick) (lines : Table 16 LineRec) :
    ((newEdges samples now lines).map Edge.line).Nodup := by
  have hlines : (newEdges samples now lines).map Edge.line =
      (List.finRange 16).filter fun l => (lineEdge (sampleOf samples l) (lines.get l)).isSome := by
    unfold newEdges
    induction List.finRange 16 with
    | nil => rfl
    | cons l ls ih => cases hl : lineEdge (sampleOf samples l) (lines.get l) <;> simp [hl, ih]
  rw [hlines]
  exact (List.nodup_finRange 16).filter _

theorem newSettling_lines (samples : BitVec 16) (now : Tick) (lines : Table 16 LineRec) :
    ((newSettling samples now lines).map Settling.line).Nodup := by
  unfold newSettling
  rw [List.map_map, show Settling.line ∘ (fun l : Line => ({ line := l, stamp := now } : Settling)) = id from rfl, List.map_id]
  exact (List.nodup_finRange 16).filter _

/-- Settles O9. -/
theorem tickPublishesWhatQualified : Obligations.TickPublishesWhatQualified := by
  unfold Obligations.TickPublishesWhatQualified
  intro s samples h hle
  refine ⟨_, newEdges samples (s.now + 1) s.lines, newSettling samples (s.now + 1) s.lines, exec_tick h hle samples,
    rollover_published samples s, newEdges_lines _ _ _, newSettling_lines _ _ _, fun e => ?_, fun x => ?_⟩
  · rw [mem_newEdges, tick_line]
    exact and_congr_right fun _ => lineEdge_iff
  · rw [mem_newSettling, tick_line]
    exact and_congr_right fun _ => settlesHigh_iff

/-! ### The filter length bounds what a line can do (R21) -/

/-- A sample raises the count by one at most, and short of F + 1 keeps the qualified level. -/
theorem stepLine_short {x : Bool} {r : LineRec} (h : r.settled = true) (hc : r.stability.toNat < r.filter.toNat) :
    (stepLine x r).settled = true ∧ (stepLine x r).qualified = r.qualified ∧ (stepLine x r).filter = r.filter ∧
      (stepLine x r).stability.toNat ≤ r.stability.toNat + 1 ∧ lineEdge x r = none := by
  by_cases hx : x = r.qualified
  · rw [stepLine_agrees h hx]
    exact ⟨h, rfl, rfl, Nat.zero_le _, by simp [lineEdge, qualifies, hx]⟩
  · rw [stepLine_counts h hx hc]
    refine ⟨h, rfl, rfl, (byte_toNat_add_one hc).le, ?_⟩
    simp [lineEdge, qualifies_of_ne hx, hc]

/-- `n` samples, no more than F, keep the qualified level and leave a count of `n` at most. -/
theorem foldl_stepLine_short (xs : List Bool) {r : LineRec} (h : r.settled = true) (h0 : r.stability = 0)
    (hn : xs.length ≤ r.filter.toNat) :
    (xs.foldl (fun q y => stepLine y q) r).settled = true ∧ (xs.foldl (fun q y => stepLine y q) r).qualified = r.qualified ∧
      (xs.foldl (fun q y => stepLine y q) r).filter = r.filter ∧
      (xs.foldl (fun q y => stepLine y q) r).stability.toNat ≤ xs.length := by
  induction xs using List.reverseRecOn with
  | nil => exact ⟨h, rfl, rfl, by rw [List.foldl_nil, h0]; rfl⟩
  | append_singleton xs x ih =>
    rw [List.length_append, List.length_singleton] at hn
    obtain ⟨hs, hq, hf, hc⟩ := ih (by omega)
    obtain ⟨hs', hq', hf', hc', _⟩ := stepLine_short (x := x) hs (by rw [hf]; omega)
    rw [List.foldl_append, List.foldl_cons, List.foldl_nil, List.length_append, List.length_singleton]
    exact ⟨hs', hq'.trans hq, hf'.trans hf, by omega⟩

/-- Settles O10, by induction on the samples before the last. -/
theorem fewSamplesPublishNoEdge : Obligations.FewSamplesPublishNoEdge := by
  unfold Obligations.FewSamplesPublishNoEdge
  intro r xs x hs h0 hlen
  obtain ⟨hsettled, hq, hf, hc⟩ := foldl_stepLine_short xs hs h0 hlen.le
  obtain ⟨_, hq', hf', _, hedge⟩ := stepLine_short (x := x) hsettled (by rw [hf]; omega)
  exact ⟨hedge, hq'.trans hq, hf'.trans hf⟩

end Sys2Proof.Machine
end

section
/-! O12, O13 and O14: the requests that read (sections 1.5, 2.6, 3.7, 4.6, 8.9), LIST (sections 4.6, 10.4), and the requests that write
one setting (sections 1.4, 2.7, 4.4, 6.8, 7.4, 7.6). -/

namespace Sys2Proof.Machine

set_option Elab.async false

variable {s : State} {p : Port} {f : Flight}

/-! ### Requests that read -/

theorem exec_ping (h : InFlight s p f .ping) :
    exec (.ping p) s = .next (s.answered p f ⟨.ok, .pinged s.now (s.port p).deadline⟩) :=
  congrArg Host.Outcome.next (takeRequest_reading h rfl)

theorem exec_readTime (h : InFlight s p f .readTime) : exec (.readTime p) s = .next (s.answered p f
    ⟨.ok, .time s.timebase.tick s.timebase.divide s.timebase.pendingValue s.timebase.pendingMark⟩) :=
  congrArg Host.Outcome.next (takeRequest_reading h rfl)

theorem exec_readInputs (h : InFlight s p f .readInputs) :
    exec (.readInputs p) s = .next (s.answered p f ⟨.ok, .inputs s.now (lineViews s.lines)⟩) :=
  congrArg Host.Outcome.next (takeRequest_reading h rfl)

theorem exec_readOutputs (h : InFlight s p f .readOutputs) :
    exec (.readOutputs p) s = .next (s.answered p f ⟨.ok, .outputs s.now (outputViews s)⟩) :=
  congrArg Host.Outcome.next (takeRequest_reading h rfl)

/-- An output is forced while its group is out of NORMAL (R34). -/
theorem forced_iff {o : Output} : forced s o = true ↔ ∃ g, (s.output o).group = some g ∧ (s.group g).state ≠ .normal := by
  unfold forced
  rw [recordForced_iff]
  exact exists_congr fun g => and_congr_right fun _ => GroupState.forces_iff

theorem exec_query_live {h : Handle} {e : Entry} (hf : InFlight s p f (.query h)) (he : s.entry h.slot = some e)
    (hg : (s.slot h.slot).gen = h.gen) : exec (.query p h) s = .next (s.answered p f ⟨.ok, .entry s.now ⟨h, e⟩⟩) := by
  have hlive : liveEntry s.agenda h = some e := liveEntry_some.2 ⟨hg, he⟩
  refine congrArg Host.Outcome.next (takeRequest_reading hf ?_)
  simp only [queryAt, startWork_st, hlive]
  rfl

theorem exec_query_stale {h : Handle} (hf : InFlight s p f (.query h)) (hs : s.entry h.slot = none ∨ (s.slot h.slot).gen ≠ h.gen) :
    exec (.query p h) s = .next (s.answered p f ⟨.badHandle, .empty⟩) := by
  have hstale : liveEntry s.agenda h = none := by
    rw [Option.eq_none_iff_forall_ne_some]
    intro e he
    obtain ⟨hg, hentry⟩ := liveEntry_some.1 he
    obtain hnone | hgen := hs
    · exact absurd (hnone.symm.trans hentry) nofun
    · exact hgen hg
  refine congrArg Host.Outcome.next (takeRequest_reading hf ?_)
  simp only [queryAt, startWork_st, hstale]
  rfl

/-- Settles O12. -/
theorem readingRequestsChangeNothing : Obligations.ReadingRequestsChangeNothing := by
  unfold Obligations.ReadingRequestsChangeNothing
  intro s p f
  refine ⟨exec_ping, exec_readTime, fun h => ?status, fun h => ?inputs, fun h => ?outputs, fun h hf =>
    ⟨fun e => exec_query_live hf, exec_query_stale hf⟩⟩
  case status =>
    refine ⟨_, exec_status h, rfl, rfl, rfl, rfl, rfl, rfl, rfl, rfl, rfl, rfl, fun o => ?_, fun g => ?_⟩
    · simp only [statusView, Table.get_ofFn, beq_iff_eq]
    · simp only [statusView, obligation, PerGroup.get_ofFn, and_self]
  case inputs =>
    refine ⟨_, exec_readInputs h, fun l => ?_⟩
    simp only [lineViews, Table.get_ofFn, bne_iff_ne]
    exact ⟨rfl, rfl, Iff.rfl, rfl⟩
  case outputs =>
    refine ⟨_, exec_readOutputs h, fun o => ?_⟩
    simp only [outputViews, Table.get_ofFn, forced_iff, and_self]

/-! ### LIST (R80, R189) -/

theorem exec_list {k : Byte} (h : InFlight s p f (.list k)) : exec (.list p k) s = .next (s.answered p f
    ⟨.ok, .entries s.now (s.agenda.live.get p) k (summariesThatFit 3 Config.listRoom
      (((agendaOrder s.agenda fun e => e.owner == p).drop k.toNat).filterMap (summaryAt s.agenda)))⟩) :=
  congrArg Host.Outcome.next (takeRequest_reading h rfl)

/-- The entries of a combined order are live, so each has its summary. -/
theorem filterMap_summaryAt {a : Agenda} : ∀ {l : List SlotNo}, (∀ i ∈ l, (a.slots.get i).entry.isSome) →
    (l.filterMap (summaryAt a)).map (fun v => v.handle.slot) = l
  | [], _ => rfl
  | i :: l, h => by
    obtain ⟨e, he⟩ := Option.isSome_iff_exists.1 (h i List.mem_cons_self)
    have hi : summaryAt a i = some { handle := handleOf a i, entry := e } := by rw [summaryAt, he]; rfl
    rw [List.filterMap_cons_some hi, List.map_cons, filterMap_summaryAt fun j hj => h j (List.mem_cons_of_mem i hj)]
    rfl

theorem mem_filterMap_summaryAt {a : Agenda} {l : List SlotNo} {v : Summary} (h : v ∈ l.filterMap (summaryAt a)) :
    v.handle.slot ∈ l ∧ (a.slots.get v.handle.slot).entry = some v.entry ∧ v.handle = handleOf a v.handle.slot := by
  obtain ⟨i, hi, hv⟩ := List.mem_filterMap.1 h
  obtain ⟨e, he, rfl⟩ := Option.map_eq_some_iff.1 hv
  exact ⟨hi, he, rfl⟩

/-- What a reply shows of a list of summaries: at most `n` from its head, within the room, ending before `n` only at the end of the
list or at a summary that does not fit. -/
theorem summariesThatFit_spec : ∀ (n room : Nat) (vs : List Summary), ∃ more, vs = summariesThatFit n room vs ++ more ∧
    (summariesThatFit n room vs).length ≤ n ∧ (((summariesThatFit n room vs).map Summary.bytes).flatten).length ≤ room ∧
    ((summariesThatFit n room vs).length < n → more = [] ∨ ∃ v rest, more = v :: rest ∧
      room < (((summariesThatFit n room vs).map Summary.bytes).flatten).length + v.bytes.length)
  | 0, room, vs => ⟨vs, rfl, le_rfl, Nat.zero_le _, fun h => absurd h (Nat.lt_irrefl 0)⟩
  | n + 1, room, [] => ⟨[], rfl, Nat.zero_le _, Nat.zero_le _, fun _ => .inl rfl⟩
  | n + 1, room, v :: vs => by
    by_cases hv : v.bytes.length ≤ room
    · obtain ⟨more, hmore, hn, hroom, hstop⟩ := summariesThatFit_spec n (room - v.bytes.length) vs
      have heq : summariesThatFit (n + 1) room (v :: vs) = v :: summariesThatFit n (room - v.bytes.length) vs := if_pos hv
      rw [heq]
      refine ⟨more, by rw [List.cons_append, ← hmore], Nat.succ_le_succ hn, ?_, fun hlt => ?_⟩
      · rw [List.map_cons, List.flatten_cons, List.length_append]; omega
      · obtain hnil | ⟨x, rest, hx, hfull⟩ := hstop (Nat.lt_of_succ_lt_succ hlt)
        · exact .inl hnil
        · refine .inr ⟨x, rest, hx, ?_⟩
          rw [List.map_cons, List.flatten_cons, List.length_append]
          omega
    · have heq : summariesThatFit (n + 1) room (v :: vs) = [] := if_neg hv
      rw [heq]
      exact ⟨v :: vs, rfl, Nat.zero_le _, Nat.zero_le _, fun _ => .inr ⟨v, vs, rfl, by simpa using hv⟩⟩

theorem anchorPart_length (x : Anchor) : (anchorPart x).length ≤ 6 := by
  cases x <;> simp [anchorPart, tickBytes, count32Bytes]

/-- A summary alone always fits: nine bytes, and four fields of ten bytes at most (R189). -/
theorem summary_bytes_le (v : Summary) : v.bytes.length ≤ 50 := by
  have hfixed : (summaryFixed v).length = 9 := by simp [summaryFixed, word16Bytes]
  have hoptional : (summaryOptional v).length ≤ 4 + 4 + 6 + 10 := by
    unfold summaryOptional
    simp only [List.length_append]
    refine Nat.add_le_add (Nat.add_le_add (Nat.add_le_add ?_ ?_) (anchorPart_length _)) ?_
    · split <;> simp
    · split <;> simp
    · split <;> simp [tickBytes]
  rw [Summary.bytes, List.length_append]
  omega

/-- In good order a port's combined order has as many entries as its live count (R69). -/
theorem agendaOrder_length {a : Agenda} (h : a.ok) (p : Port) :
    a.live.get p = (agendaOrder a fun e => e.owner == p).length := by
  have hnodup : (agendaOrder a fun e => e.owner == p).Nodup := (lists_nodup h).filter _
  have hset : {i | Holds a (fun e => e.owner = p) i} = ((agendaOrder a fun e => e.owner == p).toFinset : Set SlotNo) := by
    ext i
    refine Iff.trans ?_ (List.mem_toFinset.trans (agendaOrder_targets h.listed _ i)).symm
    simp only [beq_iff_eq]
    exact Iff.rfl
  rw [h.live, hset, Set.ncard_coe_finset, List.toFinset_card_of_nodup hnodup]

/-- Settles O13. -/
theorem listWalksTheCallersOrder : Obligations.ListWalksTheCallersOrder := by
  unfold Obligations.ListWalksTheCallersOrder
  intro s p f k h hok
  have hmine : ∀ i ∈ (agendaOrder s.agenda fun e => e.owner == p).drop k.toNat,
      ∃ e, s.entry i = some e ∧ e.owner = p := fun i hi => by
    obtain ⟨e, he, howner⟩ := (agendaOrder_targets hok.listed _ i).1 (List.mem_of_mem_drop hi)
    exact ⟨e, he, by simpa using howner⟩
  have hlive : ∀ i ∈ (agendaOrder s.agenda fun e => e.owner == p).drop k.toNat, (s.agenda.slots.get i).entry.isSome := fun i hi => by
    obtain ⟨e, he, _⟩ := hmine i hi
    exact Option.isSome_iff_exists.2 ⟨e, he⟩
  have hslots := filterMap_summaryAt hlive
  have hlength := agendaOrder_length hok p
  have hexec := exec_list h
  generalize hsummaries : ((agendaOrder s.agenda fun e => e.owner == p).drop k.toNat).filterMap (summaryAt s.agenda) = vs at hexec hslots
  obtain ⟨more, hmore, hthree, hroom, hstop⟩ := summariesThatFit_spec 3 Config.listRoom vs
  have hmem : ∀ v ∈ vs, s.entry v.handle.slot = some v.entry ∧ v.entry.owner = p ∧ v.handle = handleOf s.agenda v.handle.slot := by
    intro v hv
    rw [← hsummaries] at hv
    obtain ⟨hi, he, hhandle⟩ := mem_filterMap_summaryAt hv
    obtain ⟨e, he', howner⟩ := hmine _ hi
    have heq : some e = some v.entry := he'.symm.trans he
    exact ⟨he, by rw [← Option.some.inj heq]; exact howner, hhandle⟩
  refine ⟨summariesThatFit 3 Config.listRoom vs, more.map fun v => v.handle.slot, hexec, hlength, ?_, fun v hv => ?_, hthree, hroom,
    fun hk => ?_, fun hlt => ?_⟩
  · rw [← List.map_append, ← hmore, hslots]
  · obtain ⟨he, howner, hhandle⟩ := hmem v (by rw [hmore]; exact List.mem_append_left _ hv)
    exact ⟨he, howner, congrArg Handle.gen hhandle⟩
  · intro hnil
    have hvs : vs ≠ [] := fun hvs => by
      have hzero := congrArg List.length hslots
      rw [hvs, List.length_drop, ← hlength] at hzero
      exact absurd hzero (by simp only [List.map_nil, List.length_nil]; omega)
    rw [hnil] at hstop hmore
    obtain hend | ⟨v, _, _, hfull⟩ := hstop (by decide)
    · exact hvs (by rw [hmore, hend]; rfl)
    · have := summary_bytes_le v
      simp only [List.map_nil, List.flatten_nil, List.length_nil, Config.listRoom] at hfull
      omega
  · obtain hend | ⟨v, others, hv, hfull⟩ := hstop hlt
    · exact .inl (by rw [hend]; rfl)
    · obtain ⟨he, _, hhandle⟩ := hmem v (by rw [hmore, hv]; exact List.mem_append_right _ List.mem_cons_self)
      refine .inr ⟨v.handle.slot, v.entry, others.map fun v => v.handle.slot, by rw [hv]; rfl, he, ?_⟩
      have hsummary : (⟨handleOf s.agenda v.handle.slot, v.entry⟩ : Summary) = v := by rw [← hhandle]
      rw [hsummary]
      exact hfull

/-! ### Requests that write one setting -/

theorem exec_setFilter {lines : BitVec 16} {n : Byte} (h : InFlight s p f (.setFilter lines n)) :
    exec (.setFilter p lines n) s = .next ((s.setLines (writeFilters lines n s.lines)).answered p f
      ⟨.ok, .inputs s.now (lineViews (writeFilters lines n s.lines))⟩) :=
  congrArg Host.Outcome.next (takeRequest_of_eq h rfl rfl)

/-- Settles O14. -/
theorem settingRequestsWriteOneThing : Obligations.SettingRequestsWriteOneThing := by
  unfold Obligations.SettingRequestsWriteOneThing
  intro s p f
  refine ⟨fun v h => exec_setDivide h, fun lines n h => ?filter, fun q n h => ?quota, fun g n h => ?window,
    fun l e one h => ?subscribe, fun m n h => congrArg Host.Outcome.next (takeRequest_of_eq h rfl rfl)⟩
  case filter =>
    refine ⟨_, _, exec_setFilter h, fun l => ?_⟩
    have hget : (writeFilters lines n s.lines).get l =
        if lines.getLsbD l.val then { s.line l with filter := n } else s.line l := by
      simp only [writeFilters, Table.get_ofFn]; rfl
    refine ⟨hget, ?_⟩
    simp only [lineViews, Table.get_ofFn, hget]
    split <;> rfl
  case quota =>
    refine ⟨fun hsum => congrArg Host.Outcome.next (takeRequest_reading h ?_),
      fun hsum => congrArg Host.Outcome.next (takeRequest_of_eq h ?_ rfl)⟩
    · exact if_pos hsum
    · exact if_neg (not_lt.2 hsum)
  case window => exact congrArg Host.Outcome.next (takeRequest_of_eq h rfl rfl)
  case subscribe =>
    refine congrArg Host.Outcome.next (takeRequest_of_eq h ?_ rfl)
    have hcell : cellOf e one = { edge := e, oneShot := if e = .none then false else one } := by
      cases e <;> simp [cellOf]
    simp only [subscribeAt, hcell]
    rfl

end Sys2Proof.Machine
end

section
/-! O21, O22 and O25: CLAIM, WITHDRAW, WRITE_OUTPUT and SET_SAFE (sections 3.3, 3.5, 3.6), and the level actions (section 3.2). -/

namespace Sys2Proof.Machine

set_option Elab.async false

variable {s : State} {p : Port} {o : Output} {f : Flight}

/-! ### CLAIM and WITHDRAW (R37, R38) -/

theorem exec_claim {wait : Bool} (h : InFlight s p f (.claim o wait)) : exec (.claim p o wait) s = .next
    ((s.setOutput o (claimRecord p wait (s.output o)).1).answered p f (claimRecord p wait (s.output o)).2) :=
  congrArg Host.Outcome.next (takeRequest_of_eq h rfl rfl)

/-- The same, with the record and the answer of the case at hand. -/
theorem exec_claim_of {wait : Bool} {r : OutputRec} {a : Answer} (h : InFlight s p f (.claim o wait))
    (hr : claimRecord p wait (s.output o) = (r, a)) :
    exec (.claim p o wait) s = .next ((s.setOutput o r).answered p f a) := by
  rw [exec_claim h, hr]

theorem placeIn_of_notMem {l : List Port} (h : p ∉ l) : placeIn l p = 0 := if_neg h

theorem placeIn_split {ahead behind : List Port} (h : p ∉ ahead) : placeIn (ahead ++ p :: behind) p = ahead.length + 1 := by
  rw [placeIn, if_pos (List.mem_append_right _ List.mem_cons_self), List.idxOf_append_of_notMem h, List.idxOf_cons_self]

variable {wait : Bool} {r : OutputRec}

theorem claimRecord_unowned (h : r.owner = none) :
    claimRecord p wait r = ({ r with owner := some p }, ⟨.ok, .claim (some p) (placeIn r.waiting p)⟩) := by
  simp only [claimRecord, h]; rfl

theorem claimRecord_own (h : r.owner = some p) : claimRecord p wait r = (r, ⟨.ok, .claim (some p) (placeIn r.waiting p)⟩) := by
  simp only [claimRecord, h, if_true, claimAnswer]; rfl

/-- A caller that finds another owner and need not be entered in the list. -/
theorem claimRecord_held {q : Port} (h : r.owner = some q) (hq : q ≠ p) (hw : wait = true → p ∈ r.waiting) :
    claimRecord p wait r = (r, ⟨if wait then .queued else .heldByOther, .claim (some q) (placeIn r.waiting p)⟩) := by
  cases wait with
  | false => simp only [claimRecord, h, if_neg hq, claimAnswer]; rfl
  | true => simp only [claimRecord, h, if_neg hq, claimAnswer, if_true, if_pos (hw rfl)]; rfl

theorem claimRecord_waits {q : Port} (h : r.owner = some q) (hq : q ≠ p) (hp : p ∉ r.waiting) :
    claimRecord p true r = ({ r with waiting := r.waiting ++ [p] }, ⟨.queued, .claim (some q) (r.waiting.length + 1)⟩) := by
  simp only [claimRecord, h, if_neg hq, claimAnswer, if_true, if_neg hp, placeIn_split hp]; rfl

theorem exec_withdraw_waiting (h : InFlight s p f (.withdraw o)) (hp : p ∈ (s.output o).waiting) :
    exec (.withdraw p o) s = .next ((s.setOutput o (leaveList p (s.output o))).answered p f
      ⟨.ok, .withdraw (s.output o).owner (leaveList p (s.output o)).waiting.length⟩) :=
  congrArg Host.Outcome.next (takeRequest_of_eq h (if_pos hp) rfl)

theorem exec_withdraw_notWaiting (h : InFlight s p f (.withdraw o)) (hp : p ∉ (s.output o).waiting) :
    exec (.withdraw p o) s = .next (s.answered p f ⟨.wrongState, .withdraw (s.output o).owner (s.output o).waiting.length⟩) :=
  congrArg Host.Outcome.next (takeRequest_reading h (if_neg hp))

/-- A port that stands once in a list leaves the rest as it is. -/
theorem leaveList_split {ahead behind : List Port} (h : r.waiting = ahead ++ p :: behind) (ha : p ∉ ahead) (hb : p ∉ behind) :
    leaveList p r = { r with waiting := ahead ++ behind } := by
  have hkeep : ∀ {l : List Port}, p ∉ l → l.filter (· ≠ p) = l := fun {l} hl => List.filter_eq_self.2 fun q hq => by
    simpa using fun hqp : q = p => hl (hqp ▸ hq)
  unfold leaveList
  rw [h, List.filter_append, List.filter_cons_of_neg (by simp), hkeep ha, hkeep hb]

/-- Settles O21. -/
theorem claimAndWithdrawOutcomes : Obligations.ClaimAndWithdrawOutcomes := by
  unfold Obligations.ClaimAndWithdrawOutcomes
  refine ⟨fun s p o wait f h => ⟨fun hnone hp => ?unowned, fun hown hp => ?own, fun q hq hne hp hw => ?held,
    fun q hq hne hp hw => ?waits, fun q ahead behind hq hne hlist ha => ?already⟩,
    fun s p o f h => ⟨fun ahead behind hlist ha hb => ?leaves, exec_withdraw_notWaiting h⟩⟩
  case unowned => rw [exec_claim_of h (claimRecord_unowned hnone), placeIn_of_notMem hp]
  case own => rw [exec_claim_of h (claimRecord_own hown), placeIn_of_notMem hp, State.setOutput_same]
  case held =>
    subst hw
    rw [exec_claim_of h (claimRecord_held hq hne nofun), placeIn_of_notMem hp, State.setOutput_same]
    rfl
  case waits =>
    subst hw
    rw [exec_claim_of h (claimRecord_waits hq hne hp)]
  case already =>
    have hp : p ∈ (s.output o).waiting := by rw [hlist]; exact List.mem_append_right _ List.mem_cons_self
    rw [exec_claim_of h (claimRecord_held hq hne fun _ => hp), hlist, placeIn_split ha, State.setOutput_same]
  case leaves =>
    have hp : p ∈ (s.output o).waiting := by rw [hlist]; exact List.mem_append_right _ List.mem_cons_self
    rw [exec_withdraw_waiting h hp, leaveList_split hlist ha hb, List.length_append]

/-! ### WRITE_OUTPUT and SET_SAFE (R46, R47) -/

theorem forced_eq_false (h : ∀ g, (s.output o).group = some g → (s.group g).state = .normal) : forced s o = false := by
  rw [← Bool.not_eq_true, forced_iff]
  rintro ⟨g, hg, hn⟩
  exact hn (h g hg)

theorem exec_writeOutput_notOwner {level : Bool} (h : InFlight s p f (.writeOutput o level)) (hn : (s.output o).owner ≠ some p) :
    exec (.writeOutput p o level) s = .next (s.answered p f ⟨.notOwner, .level (s.output o).level⟩) :=
  congrArg Host.Outcome.next (takeRequest_reading h (if_pos hn))

theorem exec_writeOutput_forced {level : Bool} (h : InFlight s p f (.writeOutput o level)) (ho : (s.output o).owner = some p)
    (hf : forced s o = true) : exec (.writeOutput p o level) s = .next (s.answered p f ⟨.tripped, .level (s.output o).level⟩) :=
  congrArg Host.Outcome.next (takeRequest_reading h ((if_neg (not_not.2 ho)).trans (if_pos hf)))

theorem exec_writeOutput {level : Bool} (h : InFlight s p f (.writeOutput o level)) (ho : (s.output o).owner = some p)
    (hf : forced s o = false) : exec (.writeOutput p o level) s =
      .next ((s.setOutput o { s.output o with level := level }).answered p f ⟨.ok, .level level⟩) :=
  congrArg Host.Outcome.next (takeRequest_of_eq h ((if_neg (not_not.2 ho)).trans (if_neg (ne_true_of_eq_false hf))) rfl)

theorem membershipFree_iff {x : Option Group} : membershipFree s x = true ↔ ∀ g, x = some g → (s.group g).state = .normal := by
  cases x with
  | none => simp [membershipFree]
  | some g =>
    have hforces : ∀ y : GroupState, (!y.forces) = true ↔ y = .normal := fun y => by cases y <;> simp [GroupState.forces]
    simp only [membershipFree, hforces, Option.some.injEq, forall_eq']

/-- Settles O22. -/
theorem writeOutputAndSetSafeOutcomes : Obligations.WriteOutputAndSetSafeOutcomes := by
  unfold Obligations.WriteOutputAndSetSafeOutcomes
  refine ⟨fun s p o level f h => ⟨exec_writeOutput_notOwner h,
      fun g ho hg hn => exec_writeOutput_forced h ho (forced_iff.2 ⟨g, hg, hn⟩),
    fun ho hn => exec_writeOutput h ho (forced_eq_false hn)⟩, fun s p o safe group f h => ⟨?refused, fun hn => ?written⟩⟩
  case refused =>
    rintro ⟨g, hg, hn⟩
    refine congrArg Host.Outcome.next (takeRequest_reading h (if_neg ?_))
    simp only [startWork_st, Bool.and_eq_true, membershipFree_iff, not_and_or]
    exact hg.imp (fun hg hfree => hn (hfree g hg)) fun hg hfree => hn (hfree g hg)
  case written =>
    refine congrArg Host.Outcome.next (takeRequest_of_eq h (if_pos ?_) rfl)
    simp only [startWork_st, Bool.and_eq_true, membershipFree_iff]
    exact ⟨fun g hg => hn g (.inl hg), fun g hg => hn g (.inr hg)⟩

/-! ### Level actions (R35) -/

/-- Settles O25. -/
theorem levelActionsSetTheLevel : Obligations.LevelActionsSetTheLevel := by
  unfold Obligations.LevelActionsSetTheLevel
  intro w o action phase
  refine ⟨?_, fun hsame => ?_⟩
  · cases action with
    | pulse n => cases phase <;> rfl
    | _ => rfl
  · have hrecord : (applyLevel o action phase w).st = w.st.setOutput o ((applyLevel o action phase w).st.output o) := by
      rw [applyLevel_st, State.setOutput_output_self]
    rw [hsame, State.setOutput_same] at hrecord
    calc applyLevel o action phase w = { w with st := (applyLevel o action phase w).st } := rfl
      _ = w := by rw [hrecord]

end Sys2Proof.Machine
end

section
/-! O18, O33 and O35 to O38: the trip unit's own events and requests (sections 6.2, 6.5 to 6.8), and a session end at a group
(section 6.7). -/

namespace Sys2Proof.Machine

set_option Elab.async false

variable {s : State} {p : Port} {g : Group} {f : Flight}

/-! ### Which place an edge or a settling change comes to (R111) -/

theorem matchesEdge_iff {e : Edge} {src : Source} : matchesEdge e src = true ↔ ∃ c, src = ⟨e.line, c⟩ ∧
    ((e.dir = .rise ∧ (c = .rise ∨ c = .high)) ∨ (e.dir = .fall ∧ (c = .fall ∨ c = .low))) := by
  obtain ⟨line, cond⟩ := src
  simp only [matchesEdge, Bool.and_eq_true, beq_iff_eq, Source.mk.injEq]
  cases cond <;> cases e.dir <;> simp

theorem matchesSettling_iff {line : Line} {src : Source} : matchesSettling line src = true ↔ src = ⟨line, .high⟩ := by
  obtain ⟨l, cond⟩ := src
  simp only [matchesSettling, Bool.and_eq_true, beq_iff_eq, Source.mk.injEq]

/-- A place of the group holds a source with the property. -/
def PlaceMatches (r : GroupRec) (h : Source → Bool) (i : Place) : Prop := ∃ src, r.sources.get i = some src ∧ h src = true

theorem placeMatches_iff {r : GroupRec} {h : Source → Bool} {i : Place} :
    PlaceMatches r h i ↔ (match r.sources.get i with | some src => h src | none => false) = true := by
  unfold PlaceMatches
  cases r.sources.get i <;> simp

theorem lowestMatch_some {r : GroupRec} {h : Source → Bool} {i : Place} (hi : PlaceMatches r h i)
    (hlow : ∀ j, j < i → ¬PlaceMatches r h j) : lowestMatch r h = some i := by
  unfold lowestMatch
  rw [find_finRange_some]
  exact ⟨placeMatches_iff.1 hi, fun j hj hm => hlow j hj (placeMatches_iff.2 hm)⟩

theorem lowestMatch_none {r : GroupRec} {h : Source → Bool} (hnone : ∀ i, ¬PlaceMatches r h i) : lowestMatch r h = none := by
  unfold lowestMatch
  rw [List.find?_eq_none]
  exact fun i _ hm => hnone i (placeMatches_iff.2 hm)

/-- With a matching place the lowest of them is the cause, and with none the event does nothing. -/
theorem runEvent_causeFrom {t : Tick} {edge : Option Edge} {h : Source → Bool} {hit : Place → Prop}
    (hhit : ∀ i, PlaceMatches (s.group g) h i ↔ hit i) :
    ((∀ i, ¬hit i) → runEvent (causeFrom g t edge h) s = s) ∧
    ∀ i, hit i → (∀ j, j < i → ¬hit j) →
      runEvent (causeFrom g t edge h) s = runEvent (takeCause g ⟨.place i, t⟩ edge) s := by
  simp only [← hhit]
  refine ⟨fun hnone => ?_, fun i hi hlow => ?_⟩
  · simp only [runEvent, causeFrom, startWork_st, lowestMatch_none hnone, finishWork_startWork]
  · simp only [runEvent, causeFrom, startWork_st, lowestMatch_some hi hlow]

/-- Settles O33. -/
theorem edgesCauseFromTheLowestPlace : Obligations.EdgesCauseFromTheLowestPlace := by
  unfold Obligations.EdgesCauseFromTheLowestPlace
  refine ⟨fun s g e he => ?_, fun s g x ahead behind hx hahead => ?_⟩
  · have hexec : exec (.edgeAtTripGroup g e) s = .next (runEvent (causeFrom g e.stamp (some e) (matchesEdge e))
        (s.setPublished { s.published with groups := s.published.groups.set g ((s.published.groups.get g).erase e) })) :=
      congrArg Host.Outcome.next (if_pos he)
    rw [hexec]
    have hhit := fun i => (exists_congr fun src => and_congr_right fun _ => matchesEdge_iff (e := e) (src := src) :
      PlaceMatches (s.group g) (matchesEdge e) i ↔ _)
    obtain ⟨hnone, hsome⟩ := runEvent_causeFrom (g := g) (t := e.stamp) (edge := some e)
      (s := s.setPublished { s.published with groups := s.published.groups.set g ((s.published.groups.get g).erase e) })
      (h := matchesEdge e) (hit := fun i => ∃ c, (s.group g).sources.get i = some ⟨e.line, c⟩ ∧
        ((e.dir = .rise ∧ (c = .rise ∨ c = .high)) ∨ (e.dir = .fall ∧ (c = .fall ∨ c = .low))))
      (fun i => (hhit i).trans (by
        constructor
        · rintro ⟨_, hsrc, c, rfl, hc⟩; exact ⟨c, hsrc, hc⟩
        · rintro ⟨c, hsrc, hc⟩; exact ⟨_, hsrc, c, rfl, hc⟩))
    exact ⟨fun h => congrArg _ (hnone h), fun i hi hlow => congrArg _ (hsome i hi hlow)⟩
  · have hfind : (s.published.settling.get g).find? (fun y => y.line == x.line) = some x := by
      rw [hx, List.find?_append, List.find?_eq_none.2 fun y hy => by simpa using hahead y hy, Option.none_or,
        List.find?_cons_of_pos (by simp)]
    have herase : (s.published.settling.get g).erase x = ahead ++ behind := by
      rw [hx, List.erase_append_right _ fun hmem => hahead x hmem rfl, List.erase_cons_head]
    have hexec : exec (.settlingChange g x.line) s = .next (runEvent (causeFrom g x.stamp none (matchesSettling x.line))
        (s.setPublished { s.published with settling := s.published.settling.set g (ahead ++ behind) })) := by
      show Host.Outcome.next (groupSettling g x.line s) = _
      simp only [groupSettling, hfind, herase]
    rw [hexec]
    obtain ⟨hnone, hsome⟩ := runEvent_causeFrom (g := g) (t := x.stamp) (edge := none)
      (s := s.setPublished { s.published with settling := s.published.settling.set g (ahead ++ behind) })
      (h := matchesSettling x.line) (hit := fun i => (s.group g).sources.get i = some ⟨x.line, .high⟩)
      (fun i => by
        constructor
        · rintro ⟨src, hsrc, hm⟩; rw [matchesSettling_iff.1 hm] at hsrc; exact hsrc
        · intro hsrc; exact ⟨_, hsrc, matchesSettling_iff.2 rfl⟩)
    exact ⟨fun h => congrArg _ (hnone h), fun i hi hlow => congrArg _ (hsome i hi hlow)⟩

/-! ### The release deadline (R122) -/

/-- Settles O35. -/
theorem releaseDeadlineFallsBack : Obligations.ReleaseDeadlineFallsBack := by
  unfold Obligations.ReleaseDeadlineFallsBack
  intro s g
  refine ⟨fun d hs hd hr => ?_, fun hnot => ?_⟩
  · show Host.Outcome.next (runEvent (releaseExpiryEvent g) s) = _
    have hevent : releaseExpiryEvent g (startWork s) =
        if (s.port s.supervisor).session.hears then
          send s.supervisor (.releaseExpired g) d (onState (onGroup g expiredRecord) (startWork s))
        else onState (onGroup g expiredRecord) (startWork s) := by
      simp only [releaseExpiryEvent, startWork_st, hs, hd, hr, if_true]
      rfl
    rw [runEvent, hevent]
    by_cases hc : (s.port s.supervisor).session = .closed
    · rw [if_pos hc, hc, if_neg (by decide), finishWork_silent rfl, addBatch_nil, PerPort.set_get]
      rfl
    · rw [if_neg hc, if_pos ((hears_iff _).2 hc), finishWork_one (p := s.supervisor) (m := { kind := .releaseExpired g, time := d }) rfl]
      rfl
  · show Host.Outcome.next (runEvent (releaseExpiryEvent g) s) = _
    have hevent : releaseExpiryEvent g (startWork s) = startWork s := by
      simp only [releaseExpiryEvent, startWork_st]
      split
      · next d hs hd =>
        obtain hs' | hd' := hnot
        · exact absurd hs hs'
        · rw [hd] at hd'
          exact if_neg (ne_true_of_eq_false hd')
      · rfl
    rw [runEvent, hevent, finishWork_startWork]

/-! ### The entry into NORMAL (R124) -/

/-- The records in transit when a group has entered NORMAL. -/
def State.clearedTransit (s : State) (now : Tick) (g : Group) : PerPort (List (List Msg)) :=
  .ofFn fun q => addBatch (s.transit.get q)
    (if (s.port q).session = .closed then [] else [{ kind := .tripCleared g, time := now }])

theorem clearedTransit_get (now : Tick) (q : Port) : (s.clearedTransit now g).get q = addBatch (s.transit.get q)
    (if (s.port q).session = .closed then [] else [{ kind := .tripCleared g, time := now }]) := PerPort.get_ofFn _ q

/-- A group whose sets an event has changed first enters NORMAL all the same. -/
theorem finish_enterNormal_setGroup (now : Tick) (r : GroupRec) (hr : normalRecord r = normalRecord (s.group g)) :
    finishWork (enterNormal now g (startWork (s.setGroup g r))) =
      (s.setGroup g (normalRecord (s.group g))).setTransit (s.clearedTransit now g) := by
  rw [finish_enterNormal, State.setGroup_group_self, State.setGroup_setGroup, hr]
  rfl

/-! ### ACK_TRIP (R118) -/

/-- ACK_TRIP answers with the group as its event leaves it. -/
theorem exec_ackTrip {x : Status} {flag : Bool} {w : Work} (h : InFlight s p f (.ackTrip g))
    (hw : ackTripAt p g (startWork s) = ackAnswer x flag g w) (hport : w.st.port p = s.port p) : exec (.ackTrip p g) s =
      .next ((finishWork w).answered p f ⟨x, .acked flag (groupView (finishWork w) g)⟩) := by
  refine congrArg Host.Outcome.next ((takeRequest_eq h ?_).trans ?_)
  · rw [hw]; exact congrArg Controller.activity hport
  · rw [hw]; rfl

/-- Settles O36. -/
theorem ackTripOutcomes : Obligations.AckTripOutcomes := by
  unfold Obligations.AckTripOutcomes
  intro s p g f h
  have hack : (s.group g).state ≠ .normal → (s.group g).owed.get p = true →
      ackTripAt p g (startWork s) = ackAnswer .ok false g (acknowledge p g (startWork s)) :=
    fun hn ho => (if_neg hn).trans (if_pos ho)
  refine ⟨fun hn => ?normal, fun hn ho => ?notOwed, fun hn ho hr => ?owed, fun hr ho hall => ?last⟩
  case normal =>
    have hexec := exec_ackTrip h (if_pos hn) rfl
    rwa [finishWork_startWork] at hexec
  case notOwed =>
    have hexec := exec_ackTrip h ((if_neg hn).trans (if_neg (ne_true_of_eq_false ho))) rfl
    rwa [finishWork_startWork] at hexec
  case owed =>
    have hwork : acknowledge p g (startWork s) =
        startWork (s.setGroup g { s.group g with acked := (s.group g).acked.set p true }) := by
      unfold acknowledge
      refine if_neg ?_
      rw [onState_st, onGroup, State.setGroup_group_self]
      exact hr
    have hexec := exec_ackTrip h (hack hn ho) (congrArg (fun w : Work => w.st.port p) hwork)
    rwa [hwork, finishWork_startWork] at hexec
  case last =>
    have hwork : acknowledge p g (startWork s) =
        enterNormal s.now g (startWork (s.setGroup g { s.group g with acked := (s.group g).acked.set p true })) := by
      unfold acknowledge
      refine if_pos ?_
      rw [onState_st, onGroup, State.setGroup_group_self]
      exact ⟨hr, hall⟩
    have hexec := exec_ackTrip h (hack (by rw [hr]; nofun) ho) ((acknowledge_shared p g (startWork s)).port p)
    rw [hwork, finish_enterNormal_setGroup] at hexec
    · exact ⟨_, hexec, clearedTransit_get s.now⟩
    · rfl

/-! ### Requests that answer with the group (R130) -/

/-- A request answers with the group as its event leaves it. -/
theorem takeRequest_groupAnswer {r : Request} {h : Work → Work × Answer} {x : Status} {w : Work} (hf : InFlight s p f r)
    (hw : h (startWork s) = groupAnswer x g w) (hport : w.st.port p = s.port p) :
    takeRequest p r h s = (finishWork w).answered p f ⟨x, .group (groupView (finishWork w) g)⟩ := by
  refine (takeRequest_eq hf ?_).trans ?_
  · rw [hw]; exact congrArg Controller.activity hport
  · rw [hw]; rfl

theorem placeActive_iff {lines : Table 16 LineRec} {src : Option Source} : placeActive lines src = true ↔
    ∃ line, (src = some ⟨line, .high⟩ ∧ (lines.get line).qualified = true) ∨
      (src = some ⟨line, .low⟩ ∧ (lines.get line).qualified = false) := by
  cases src with
  | none => simp [placeActive]
  | some src =>
    obtain ⟨line, cond⟩ := src
    cases cond <;> simp [placeActive, sourceActive]

theorem anyActive_iff {lines : Table 16 LineRec} {r : GroupRec} : anyActive lines r = true ↔
    ∃ i line, (r.sources.get i = some ⟨line, .high⟩ ∧ (lines.get line).qualified = true) ∨
      (r.sources.get i = some ⟨line, .low⟩ ∧ (lines.get line).qualified = false) := by
  simp only [anyActive, List.any_eq_true, List.mem_finRange, true_and, placeActive_iff]

theorem exec_clearTrip {force : Bool} {x : Status} {w : Work} (h : InFlight s p f (.clearTrip g force))
    (hw : clearTripAt g force (startWork s) = groupAnswer x g w) (hport : w.st.port p = s.port p) :
    exec (.clearTrip p g force) s = .next ((finishWork w).answered p f ⟨x, .group (groupView (finishWork w) g)⟩) :=
  congrArg Host.Outcome.next (takeRequest_groupAnswer h hw hport)

theorem clearTripAt_normal {force : Bool} (hs : (s.group g).state = .normal) :
    clearTripAt g force (startWork s) = groupAnswer .wrongState g (startWork s) := by
  simp only [clearTripAt, startWork_st, hs]

theorem clearTripAt_tripped {force : Bool} (hs : (s.group g).state = .tripped) : clearTripAt g force (startWork s) =
    if anyActive s.lines (s.group g) then groupAnswer .conditionActive g (startWork s)
    else if force = true ∨ (s.group g).acked = (s.group g).owed then groupAnswer .ok g (enterNormal s.now g (startWork s))
    else groupAnswer .ok g (startWork (s.setGroup g (releasingRecord s.now (s.group g)))) := by
  simp only [clearTripAt, startWork_st, hs]; rfl

theorem clearTripAt_releasing {force : Bool} (hs : (s.group g).state = .releasing) : clearTripAt g force (startWork s) =
    if force then groupAnswer .ok g (enterNormal s.now g (startWork s)) else groupAnswer .wrongState g (startWork s) := by
  simp only [clearTripAt, startWork_st, hs]

/-- Settles O37. -/
theorem clearTripOutcomes : Obligations.ClearTripOutcomes := by
  unfold Obligations.ClearTripOutcomes
  intro s p g force f h
  have hcleared : clearTripAt g force (startWork s) = groupAnswer .ok g (enterNormal s.now g (startWork s)) →
      ∃ tr, exec (.clearTrip p g force) s = .next (((s.setGroup g (normalRecord (s.group g))).setTransit tr).answered p f
        ⟨.ok, .group (groupView ((s.setGroup g (normalRecord (s.group g))).setTransit tr) g)⟩) ∧
        ∀ q, tr.get q = addBatch (s.transit.get q)
          (if (s.port q).session = .closed then [] else [{ kind := .tripCleared g, time := s.now }]) := fun hw => by
    have hexec := exec_clearTrip h hw ((enterNormal_shared s.now g (startWork s)).port p)
    rw [finish_enterNormal] at hexec
    exact ⟨_, hexec, clearedTransit_get s.now⟩
  have hstays : ∀ {x}, clearTripAt g force (startWork s) = groupAnswer x g (startWork s) →
      exec (.clearTrip p g force) s = .next (s.answered p f ⟨x, .group (groupView s g)⟩) := fun hw => by
    have hexec := exec_clearTrip h hw rfl
    rwa [finishWork_startWork] at hexec
  refine ⟨fun hs => hstays (clearTripAt_normal hs), fun hs ha => ?active, fun hs ha hf => ?clears, fun hs ha hf hacked => ?releasing,
    fun hs hf => ?forced, fun hs hf => ?refused⟩
  case active => exact hstays (by rw [clearTripAt_tripped hs, if_pos (anyActive_iff.2 ha)])
  case clears =>
    exact hcleared (by rw [clearTripAt_tripped hs, if_neg fun hact => ha (anyActive_iff.1 hact), if_pos hf])
  case releasing =>
    have hnot : ¬(force = true ∨ (s.group g).acked = (s.group g).owed) := by
      rw [hf]
      exact fun hor => hor.elim nofun hacked
    have hexec := exec_clearTrip h
      (by rw [clearTripAt_tripped hs, if_neg fun hact => ha (anyActive_iff.1 hact), if_neg hnot]) rfl
    rwa [finishWork_startWork] at hexec
  case forced => exact hcleared (by rw [clearTripAt_releasing hs, if_pos hf])
  case refused => exact hstays (by rw [clearTripAt_releasing hs, if_neg (ne_true_of_eq_false hf)])

/-! ### SET_TRIP_SOURCE (R128) -/

theorem setTripSourceAt_eq {i : Place} {src : Option Source} : setTripSourceAt g i src (startWork s) =
    if placeActive s.lines src then groupAnswer .ok g (takeCause g ⟨.place i, s.now⟩ none
      (startWork (s.setGroup g { s.group g with sources := (s.group g).sources.set i src })))
    else groupAnswer .ok g (startWork (s.setGroup g { s.group g with sources := (s.group g).sources.set i src })) := rfl

/-- Settles O38. -/
theorem setTripSourceOutcomes : Obligations.SetTripSourceOutcomes := by
  unfold Obligations.SetTripSourceOutcomes
  intro s p g i src f h
  refine ⟨fun hidle => ?_, fun hactive => ?_⟩
  · have hexec := takeRequest_groupAnswer h
      ((setTripSourceAt_eq (g := g) (i := i)).trans (if_neg fun hact => hidle (placeActive_iff.1 hact))) rfl
    rw [finishWork_startWork] at hexec
    exact congrArg Host.Outcome.next hexec
  · exact congrArg Host.Outcome.next (takeRequest_groupAnswer h
      ((setTripSourceAt_eq (g := g) (i := i)).trans (if_pos (placeActive_iff.2 hactive)))
      ((takeCause_shared g ⟨.place i, s.now⟩ none (startWork (s.setGroup g _))).port p))

/-! ### A session end at a group (R126) -/

/-- Settles O18. -/
theorem sessionEndAtGroupOutcomes : Obligations.SessionEndAtGroupOutcomes := by
  unfold Obligations.SessionEndAtGroupOutcomes
  intro s p g run hrun hstep
  have hnext : stepAfterGroup g = if g = .G0 then .group .G1 else .queue := by cases g <;> rfl
  have hexec : exec (.sessionEndAtTripGroup p g) s = .next (onPort p
      (setEndRun { run with step := if g = .G0 then .group .G1 else .queue }) (runEvent (endAtGroup p g) s)) := by
    show Host.Outcome.next (sessionEndGroup p g s) = _
    have hend : endRunOf (s.port p) = some run := hrun
    simp only [sessionEndGroup, hend, if_pos hstep, hnext]
  have hevent : endAtGroup p g (startWork s) =
      if (s.group g).state = .releasing ∧ (s.group g).acked.set p false = (s.group g).owed.set p false then
        enterNormal s.now g (startWork (s.setGroup g { s.group g with
          owed := (s.group g).owed.set p false, acked := (s.group g).acked.set p false }))
      else startWork (s.setGroup g { s.group g with
        owed := (s.group g).owed.set p false, acked := (s.group g).acked.set p false }) := by
    unfold endAtGroup
    simp only [onState_st, onGroup, startWork_st, State.setGroup_group_self]
    rfl
  rw [hexec, runEvent, hevent]
  refine ⟨fun hnot => ?_, fun hr ha => ⟨_, ?_, clearedTransit_get (g := g) s.now⟩⟩
  · rw [if_neg hnot, finishWork_startWork]
    rfl
  · have hall : (s.group g).state = .releasing ∧ (s.group g).acked.set p false = (s.group g).owed.set p false := ⟨hr, ha⟩
    rw [if_pos hall, finish_enterNormal_setGroup] <;> rfl

end Sys2Proof.Machine
end

section
/-! O19, O20, O23, O24, O28 and O34: the events that cancel entries, with the records that they send (sections 3.4, 5.4, 6.2 to 6.4,
8.5). -/

namespace Sys2Proof.Machine

set_option Elab.async false

variable {s : State} {p : Port} {o : Output} {f : Flight}

/-! ### Cancelling the entries with a property -/

/-- The entries with a property are cancelled in agenda order: they and what waits on them are freed, and each port gets its records
behind what was sent before. -/
theorem cancelOrdered_spec {reason : Option Reason} {muted : Option Port} {now : Tick} {w : Work} {h : Entry → Bool}
    {F : Entry → Prop} (hl : Listed w.st.agenda) (hF : ∀ e, h e = true ↔ F e) :
    Freed w.st.agenda (cancelTargets reason muted now (agendaOrder w.st.agenda h) w).1.st.agenda
      (Falls w.st.agenda (Holds w.st.agenda F)) ∧
    ∀ q, ∃ ms, CancelRecords w.st.agenda (Holds w.st.agenda F) reason muted now q ms ∧
      batchFor q (cancelTargets reason muted now (agendaOrder w.st.agenda h) w).1.sent = batchFor q w.sent ++ ms := by
  have hmem : ∀ i, i ∈ agendaOrder w.st.agenda h ↔ Holds w.st.agenda F i := fun i => by
    rw [agendaOrder_targets hl]
    simp only [Holds, hF]
  refine cancelTargets_spec hmem fun i hi => ?_
  obtain ⟨e, he, _⟩ := (hmem i).1 hi
  exact Option.isSome_iff_exists.2 ⟨e, he⟩

/-- The state that the end of port `p`'s ownership of output `o` leaves, where the agenda becomes `a` (R40). -/
def State.handedOn (s : State) (o : Output) (a : Agenda) : State :=
  (s.setAgenda a).setOutput o { s.output o with owner := (s.output o).waiting.head?, waiting := (s.output o).waiting.tail }

/-- The end of an ownership (R40): what it leaves, which entries it frees, and what it sends. -/
theorem handOn_cancelOwned {reason : Option Reason} {muted : Option Port} (now : Tick) (hl : Listed s.agenda) :
    ∃ a tr, finishWork (handOn now o (cancelOwned reason muted now o p (startWork s)).1) = (s.handedOn o a).setTransit tr ∧
      (cancelOwned reason muted now o p (startWork s)).1.st = s.setAgenda a ∧
      Freed s.agenda a (Falls s.agenda (Holds s.agenda fun e => e.owner = p ∧ e.plan.output = o)) ∧
      ∀ q, ∃ ms, CancelRecords s.agenda (Holds s.agenda fun e => e.owner = p ∧ e.plan.output = o) reason muted now q ms ∧
        batchFor q (cancelOwned reason muted now o p (startWork s)).1.sent = ms ∧
        tr.get q = addBatch (s.transit.get q)
          (ms ++ if (s.output o).waiting.head? = some q then [{ kind := .claimGranted o, time := now }] else []) := by
  obtain ⟨hfreed, hsent⟩ := cancelOrdered_spec (reason := reason) (muted := muted) (now := now) (w := startWork s)
    (h := fun e => e.owner == p && e.plan.output == o) (F := fun e => e.owner = p ∧ e.plan.output = o) hl
    fun e => by simp only [Bool.and_eq_true, beq_iff_eq]
  have hst := cancelTargets_st reason muted now (agendaOrder s.agenda fun e => e.owner == p && e.plan.output == o) (startWork s)
  refine ⟨_, _, finishWork_of_st ?_, hst, hfreed, fun q => ?_⟩
  · rw [handOn_st, cancelOwned, startWork_st, hst]
    rfl
  · obtain ⟨ms, hrecords, hbatch⟩ := hsent q
    have hout : (cancelOwned reason muted now o p (startWork s)).1.st.output o = s.output o :=
      (congrArg (fun u : State => u.output o) hst).trans rfl
    refine ⟨ms, hrecords, hbatch, ?_⟩
    rw [PerPort.get_ofFn, handOn_sent, hout]
    exact congrArg (fun b => addBatch _ (b ++ _)) hbatch

/-! ### RELEASE (R41) -/

/-- A cancellation with reason RELEASED counts as the reply of RELEASE counts. -/
theorem countP_released (ms : List Msg) :
    ms.countP (hasReason .released) = ms.countP fun m => match m.kind with | .entryCancelled _ _ .released => true | _ => false := by
  refine List.countP_congr fun m _ => ?_
  unfold hasReason
  cases m.kind with
  | entryCancelled h tag r => cases r <;> simp
  | _ => rfl

/-- Settles O23. -/
theorem releaseHandsTheOutputOn : Obligations.ReleaseHandsTheOutputOn := by
  unfold Obligations.ReleaseHandsTheOutputOn
  intro s p o f h
  refine ⟨fun hn => congrArg Host.Outcome.next (takeRequest_reading h (if_neg hn)), fun ho hl => ?_⟩
  obtain ⟨a, tr, hdone, hst, hfreed, hrecords⟩ := handOn_cancelOwned (reason := some .released) (muted := none) (p := p) (o := o) s.now hl
  have hat : releaseAt p o (startWork s) = (handOn s.now o (cancelOwned (some .released) none s.now o p (startWork s)).1,
      answer .ok (.release ((handOn s.now o (cancelOwned (some .released) none s.now o p (startWork s)).1).st.output o).owner
        (cancelOwned (some .released) none s.now o p (startWork s)).2)) := if_pos ho
  refine ⟨a, tr, (cancelOwned (some .released) none s.now o p (startWork s)).2, ?_, hfreed, fun q => ?_⟩
  · show Host.Outcome.next (takeRequest p (.release o) (releaseAt p o) s) = _
    rw [takeRequest_eq h (by rw [(releaseAt_shared p o (startWork s)).port]; rfl), hat, hdone, handOn_st, State.setOutput_output_self,
      hst]
    rfl
  · obtain ⟨ms, hms, hbatch, htr⟩ := hrecords q
    refine ⟨ms, hms, htr, fun hq => ?_⟩
    have hcount := cancelTargets_count (r := .released) (by decide) s.now p (w := startWork s)
      (l := agendaOrder s.agenda fun e => e.owner == p && e.plan.output == o) fun i hi e he => by
        obtain ⟨e', he', hmine⟩ := (mem_agendaOrder.1 hi).2
        rw [Option.some.inj (he.symm.trans he')]
        simp only [Bool.and_eq_true, beq_iff_eq] at hmine
        exact hmine.1
    rw [startWork_sent, batchFor_nil, List.countP_nil, Nat.zero_add] at hcount
    subst hq
    exact (hcount.symm.trans (congrArg (List.countP (hasReason .released)) hbatch)).trans (countP_released ms)

/-! ### RECLAIM (R42) -/

/-- RECLAIM from another owner. -/
theorem exec_reclaim_other {q : Port} (h : InFlight s p f (.reclaim o)) (hq : (s.output o).owner = some q) (hqp : q ≠ p)
    (hl : Listed s.agenda) : ∃ a tr, exec (.reclaim p o) s = .next ((((s.setAgenda a).setOutput o
        { s.output o with owner := some p, waiting := (s.output o).waiting.filter (· ≠ p) }).setTransit tr).answered p f
          ⟨.ok, .reclaim (some q) (some p)⟩) ∧
      Freed s.agenda a (Falls s.agenda (Holds s.agenda fun e => e.owner = q ∧ e.plan.output = o)) ∧
      ∀ k, ∃ ms, CancelRecords s.agenda (Holds s.agenda fun e => e.owner = q ∧ e.plan.output = o) (some .reclaimed) none s.now k ms ∧
        tr.get k = addBatch (s.transit.get k) (ms ++ if k = q then [{ kind := .ownershipRevoked o, time := s.now }] else []) := by
  obtain ⟨hfreed, hsent⟩ := cancelOrdered_spec (reason := some .reclaimed) (muted := none) (now := s.now) (w := startWork s)
    (h := fun e => e.owner == q && e.plan.output == o) (F := fun e => e.owner = q ∧ e.plan.output = o) hl
    fun e => by simp only [Bool.and_eq_true, beq_iff_eq]
  have hst := cancelTargets_st (some .reclaimed) none s.now (agendaOrder s.agenda fun e => e.owner == q && e.plan.output == o)
    (startWork s)
  have hat : reclaimAt p o (startWork s) = (onState (onOutput o (reclaimRecord p)) (send q (.ownershipRevoked o) s.now
      (cancelOwned (some .reclaimed) none s.now o q (startWork s)).1), answer .ok (.reclaim (some q) (some p))) := by
    simp only [reclaimAt, startWork_st, hq, if_neg hqp]
  refine ⟨_, .ofFn fun k => addBatch (s.transit.get k) (batchFor k (send q (.ownershipRevoked o) s.now
    (cancelOwned (some .reclaimed) none s.now o q (startWork s)).1).sent), ?_, hfreed, fun k => ?_⟩
  rotate_left
  · obtain ⟨ms, hrecords, hbatch⟩ := hsent k
    refine ⟨ms, hrecords, ?_⟩
    rw [PerPort.get_ofFn, send_sent, batchFor_append, batchFor_one]
    have hflip : (if q = k then [({ kind := .ownershipRevoked o, time := s.now } : Msg)] else []) =
        if k = q then [{ kind := .ownershipRevoked o, time := s.now }] else [] := by simp only [eq_comm]
    rw [hflip]
    exact congrArg (fun b => addBatch _ (b ++ _)) hbatch
  · show Host.Outcome.next (takeRequest p (.reclaim o) (reclaimAt p o) s) = _
    rw [takeRequest_eq h (by rw [(reclaimAt_shared p o (startWork s)).port]; rfl), hat]
    refine congrArg Host.Outcome.next (congrArg (fun u : State => u.answered p f _) ((finishWork_of_st ?_).trans rfl))
    show onOutput o (reclaimRecord p) (cancelOwned (some .reclaimed) none s.now o q (startWork s)).1.st = _
    rw [cancelOwned, startWork_st, hst]
    rfl

/-- Settles O24. -/
theorem reclaimTakesTheOutput : Obligations.ReclaimTakesTheOutput := by
  unfold Obligations.ReclaimTakesTheOutput
  intro s p o f h
  refine ⟨fun hnone => congrArg Host.Outcome.next (takeRequest_of_eq h ?_ rfl),
    fun hown => congrArg Host.Outcome.next (takeRequest_reading h ?_), fun q hq hqp hl => exec_reclaim_other h hq hqp hl⟩
  · simp only [reclaimAt, startWork_st, hnone]
    rfl
  · simp only [reclaimAt, startWork_st, hown, if_true]
    rfl

/-! ### A session end at an output and at the agenda (R157 steps 2 and 3) -/

theorem exec_sessionEndAtOutput {run : EndRun} (hrun : Ending s p run) (hstep : run.step = .output o) :
    exec (.sessionEndAtOutput p o) s = .next (onPort p (setEndRun (runPastOutput p o s (runEvent (endAtOutput p o) s) run))
      (runEvent (endAtOutput p o) s)) := by
  have hend : endRunOf (s.port p) = some run := hrun
  show Host.Outcome.next (sessionEndOutput p o s) = _
  simp only [sessionEndOutput, hend, if_pos hstep]

/-- Settles O19. -/
theorem sessionEndAtOutputOutcomes : Obligations.SessionEndAtOutputOutcomes := by
  unfold Obligations.SessionEndAtOutputOutcomes
  intro s p o run hrun hstep
  rw [exec_sessionEndAtOutput hrun hstep]
  refine ⟨fun hn => ?_, fun ho hl => ?_⟩
  · have hevent : runEvent (endAtOutput p o) s = s.setOutput o (leaveList p (s.output o)) := by
      rw [runEvent, endAtOutput, startWork_st, if_neg hn]
      exact finishWork_silent rfl
    rw [hevent, runPastOutput, if_neg hn, State.setOutput_agenda, Nat.sub_self]
    rfl
  · obtain ⟨a, tr, hdone, _, hfreed, hrecords⟩ := handOn_cancelOwned (reason := none) (muted := some p) (p := p) (o := o) s.now hl
    have hevent : runEvent (endAtOutput p o) s = (s.handedOn o a).setTransit tr := by
      rw [runEvent, endAtOutput, startWork_st, if_pos ho, hdone]
    refine ⟨a, tr, ?_, hfreed, fun q => ?_⟩
    · rw [hevent, runPastOutput, if_pos ho]
      rfl
    · obtain ⟨ms, hms, _, htr⟩ := hrecords q
      exact ⟨ms, hms, htr⟩

/-- Settles O20. -/
theorem sessionEndAtAgendaEmptiesThePort : Obligations.SessionEndAtAgendaEmptiesThePort := by
  unfold Obligations.SessionEndAtAgendaEmptiesThePort
  intro s p run hrun hstep hl
  obtain ⟨hfreed, hsent⟩ := cancelOrdered_spec (reason := none) (muted := some p) (now := s.now) (w := startWork s)
    (h := fun e => e.owner == p) (F := fun e => e.owner = p) hl fun e => by simp only [beq_iff_eq]
  have hst := cancelTargets_st none (some p) s.now (agendaOrder s.agenda fun e => e.owner == p) (startWork s)
  have hevent := finishWork_of_st (w := endAtAgenda p (startWork s)) hst
  have hend : endRunOf (s.port p) = some run := hrun
  refine ⟨_, .ofFn fun q => addBatch (s.transit.get q) (batchFor q (endAtAgenda p (startWork s)).sent), ?_, hfreed,
    fun i e he => ?_, fun q => ?_⟩
  rotate_left
  · exact endAtAgenda_noEntry (w := startWork s) hl i e he
  · obtain ⟨ms, hms, hbatch⟩ := hsent q
    refine ⟨ms, hms, ?_⟩
    rw [PerPort.get_ofFn]
    exact congrArg (addBatch _) hbatch
  · show Host.Outcome.next (sessionEndAgenda p s) = _
    simp only [sessionEndAgenda, hend, if_pos hstep, runEvent, hevent]
    rfl

/-! ### CANCEL (R103) -/

/-- Settles O28. -/
theorem cancelTakesTheDependents : Obligations.CancelTakesTheDependents := by
  unfold Obligations.CancelTakesTheDependents
  intro s p h f hf
  refine ⟨fun hstale => congrArg Host.Outcome.next (takeRequest_reading hf ?_), fun e he => ⟨fun hn => ?_, fun ho => ?_⟩⟩
  · simp only [cancelAt, startWork_st, hstale]
    rfl
  · refine congrArg Host.Outcome.next (takeRequest_reading hf ?_)
    simp only [cancelAt, startWork_st, he, if_neg hn]
    rfl
  · have hlive : (s.agenda.slots.get h.slot).entry.isSome := Option.isSome_iff_exists.2 ⟨e, (liveEntry_some.1 he).2⟩
    obtain ⟨hfreed, hsent⟩ := cancelTree_spec (w := startWork s) (reason := none) (muted := none) (now := s.now) hlive
    have hat : cancelAt p h (startWork s) = (cancelTree none none s.now h.slot (startWork s),
        answer .ok (.cancelled s.now e.state e.fired ((cascade Config.slots s.agenda h.slot).length - 1))) := by
      simp only [cancelAt, startWork_st, he, if_pos ho]
    have hst : (cancelTree none none s.now h.slot (startWork s)).st =
        s.setAgenda (cancelTree none none s.now h.slot (startWork s)).st.agenda := by
      conv_lhs => rw [cancelTree_st]
      rw [cancelTree_st]
      rfl
    refine ⟨_, .ofFn fun q => addBatch (s.transit.get q) (batchFor q (cancelTree none none s.now h.slot (startWork s)).sent),
      (cascade Config.slots s.agenda h.slot).length - 1, ?_, hfreed, fun q => ?_, fun hok => ?_⟩
    · show Host.Outcome.next (takeRequest p (.cancel h) (cancelAt p h) s) = _
      rw [takeRequest_eq hf (by rw [(cancelAt_shared p h (startWork s)).port]; rfl), hat]
      exact congrArg Host.Outcome.next (congrArg (fun u : State => u.answered p f _) (finishWork_of_st hst))
    · obtain ⟨ms, hms, hbatch⟩ := hsent q
      refine ⟨ms, hms, ?_⟩
      rw [PerPort.get_ofFn]
      exact congrArg (addBatch _) hbatch
    · have hpos : 0 < (cascade Config.slots s.agenda h.slot).length := List.length_pos_of_mem (cascade_self _ _ _)
      rw [← cascade_length hok h.slot]
      omega

/-! ### Causes (R113, R114, R116, R117) -/

theorem takeCause_normal {g : Group} {c : Cause} {edge : Option Edge} {w : Work} (h : (w.st.group g).state = .normal) :
    takeCause g c edge w = tripEvent g c edge w := by
  simp only [takeCause, h]

theorem takeCause_further {g : Group} {c : Cause} {edge : Option Edge} {w : Work} (h : (w.st.group g).state ≠ .normal) :
    takeCause g c edge w = furtherCause g c w := by
  unfold takeCause
  cases hs : (w.st.group g).state with
  | normal => exact absurd hs h
  | tripped => rfl
  | releasing => rfl

/-- What a trip event sends (R113): the cancellation records, and the TRIP record behind them to every port that hears. -/
theorem tripEvent_sent (g : Group) (c : Cause) (edge : Option Edge) (w : Work) (q : Port) :
    batchFor q (tripEvent g c edge w).sent = batchFor q (tripCancelled g c w).1.sent ++
      if (w.st.port q).session = .closed then [] else [{ kind := .trip g c.by' 1, time := c.tick, edge }] := by
  have hport : (onState (formOwed g) (tripCancelled g c w).1).st.port q = w.st.port q :=
    (onGroup_shared g _ _).port q |>.trans ((cancelTargets_shared _ _ _ _ _).port q)
  rw [tripEvent_eq, sendToHearing_sent, hport, onState_sent]

/-- A trip event (R113). -/
theorem runEvent_tripEvent {g : Group} {c : Cause} {edge : Option Edge} (hl : Listed s.agenda) : ∃ a tr,
    runEvent (tripEvent g c edge) s = (s.tripped g c a).setTransit tr ∧
    Freed s.agenda a (Falls s.agenda (Holds s.agenda fun e => (s.output e.plan.output).group = some g)) ∧
    ∀ q, ∃ ms, CancelRecords s.agenda (Holds s.agenda fun e => (s.output e.plan.output).group = some g) (some .tripped) none c.tick q ms ∧
      tr.get q = addBatch (s.transit.get q)
        (ms ++ if (s.port q).session = .closed then [] else [{ kind := .trip g c.by' 1, time := c.tick, edge }]) := by
  obtain ⟨hfreed, hsent⟩ := cancelOrdered_spec (reason := some .tripped) (muted := none) (now := c.tick)
    (w := { startWork s with st := trippedState g c s }) (h := fun e => isMember s.outputs g e.plan.output)
    (F := fun e => (s.output e.plan.output).group = some g) hl fun e => beq_iff_eq
  refine ⟨_, _, finishWork_of_st (tripEvent_st g c edge (startWork s)), hfreed, fun q => ?_⟩
  obtain ⟨ms, hms, hbatch⟩ := hsent q
  refine ⟨ms, hms, ?_⟩
  rw [PerPort.get_ofFn, tripEvent_sent]
  exact congrArg (fun b => addBatch _ (b ++ _)) hbatch

/-- A further cause (R116, R117). -/
theorem runEvent_furtherCause {g : Group} {c : Cause} : ∃ tr,
    runEvent (furtherCause g c) s = (s.setGroup g
      { furtherRecord c (s.group g) with owed := owedSet s.outputs g, acked := portSetEmpty }).setTransit tr ∧
    ∀ q, tr.get q = addBatch (s.transit.get q) (if (s.port q).session = .closed then [] else
      [{ kind := .trip g c.by' (satInc (s.group g).count), time := c.tick }]) := by
  refine ⟨_, finishWork_of_st (furtherCause_st g c (startWork s)), fun q => ?_⟩
  rw [PerPort.get_ofFn, furtherCause, sendToHearing_sent]
  rfl

/-- Settles O34. -/
theorem causesTripAndRenewTheTrip : Obligations.CausesTripAndRenewTheTrip := by
  unfold Obligations.CausesTripAndRenewTheTrip
  refine ⟨fun s g c edge hl => ?_, fun s p g f h => ?_⟩
  · refine ⟨owedSet s.outputs g, fun q => owedSet_get, fun hn => ?_, fun hn => ?_⟩
    · obtain ⟨a, tr, heq, hfreed, hrecords⟩ := runEvent_tripEvent (g := g) (c := c) (edge := edge) hl
      refine ⟨forceMembers g s.outputs, a, tr, ?_, forceMembers_get g s.outputs, hfreed, hrecords⟩
      exact (congrArg finishWork (takeCause_normal (w := startWork s) hn)).trans heq
    · obtain ⟨tr, heq, hrecords⟩ := runEvent_furtherCause (s := s) (g := g) (c := c)
      simp only [furtherRecord, satInc_byte] at heq hrecords
      refine ⟨tr, ?_, hrecords⟩
      rw [runEvent, takeCause_further hn]
      exact heq
  · exact congrArg Host.Outcome.next
      (takeRequest_groupAnswer (g := g) h rfl ((takeCause_shared g ⟨.manual p, s.now⟩ none (startWork s)).port p))

end Sys2Proof.Machine
end

section
/-! O15, O16, O48, O49 and O51: OPEN, the ends of sessions, request completion, port reset, and the deadline (sections 8.3 to 8.8). -/

namespace Sys2Proof.Machine

set_option Elab.async false

variable {s : State} {p : Port} {c : Controller}

/-! ### OPEN (R156) -/

theorem openController_closed (now : Tick) (h : c.session = .closed) : openController now c = { c with session := .isOpen } := by
  unfold openController
  rw [h]

theorem openController_lapsed (now : Tick) (h : c.session = .lapsed) : openController now c = { c with
    session := .isOpen, deadline := if c.interval ≠ 0 then some (now + c.interval.setWidth 40) else c.deadline } := by
  unfold openController
  rw [h]
  simp only [restartDeadline_eq, true_and]
  rfl

theorem openController_open (now : Tick) (h : c.session = .isOpen) : openController now c = c := by
  unfold openController
  rw [h]

/-- Settles O15. -/
theorem openBeginsTheSession : Obligations.OpenBeginsTheSession := by
  unfold Obligations.OpenBeginsTheSession
  intro s p f h
  have hkept : (s.port p).session ≠ .closed → dropStaleEdges p s = s := fun hc => if_neg hc
  refine ⟨fun hc => ?_, fun hc hi => ?_, fun hc hi => ?_, fun hc => ?_⟩ <;> rw [exec_openSession h]
  · rw [dropStaleEdges, if_pos hc, openController_closed _ hc, hc]
    rfl
  · rw [hkept (by rw [hc]; nofun), openController_lapsed _ hc, if_pos hi, hc]
    rfl
  · rw [hkept (by rw [hc]; nofun), openController_lapsed _ hc, if_neg (not_not_intro hi), hc]
    rfl
  · rw [hkept (by rw [hc]; nofun), openController_open _ hc, hc]
    exact congrArg (fun u : State => Host.Outcome.next (u.answered p f _)) (State.setPort_same (s.setQueue p _) p)

/-! ### What is held to an IDLE moment (R162, R164) -/

theorem takeHeld_reset (now : Tick) (lapse : Bool) (h : c.resetHeld = true) : takeHeld now lapse c = takePortReset c := if_pos h

theorem takeHeld_lapse {now : Tick} {lapse : Bool} (hr : c.resetHeld = false)
    (h : lapse = true ∧ c.session = .isOpen ∧ deadlineReached now c.deadline = true) : takeHeld now lapse c = beginLapse c :=
  (if_neg (by rw [hr]; decide)).trans (if_pos h)

theorem takeHeld_none {now : Tick} {lapse : Bool} (hr : c.resetHeld = false)
    (h : ¬(lapse = true ∧ c.session = .isOpen ∧ deadlineReached now c.deadline = true)) : takeHeld now lapse c = c :=
  (if_neg (by rw [hr]; decide)).trans (if_neg h)

theorem deadlineReached_iff {now : Tick} {d : Option Tick} :
    deadlineReached now d = true ↔ ∃ x, d = some x ∧ reached now x = true := by
  cases d with
  | none => exact ⟨nofun, fun ⟨_, h, _⟩ => nomatch h⟩
  | some x => exact ⟨fun h => ⟨x, rfl, h⟩, fun ⟨_, h, hr⟩ => Option.some.inj h ▸ hr⟩

theorem doomTxn_eq (t : Txn) : doomTxn t = { t with mode := if t.mode = .judged then .notReady else t.mode } := by
  obtain ⟨mode, offered, marked⟩ := t
  cases mode <;> rfl

theorem beginLapse_eq (c : Controller) : beginLapse c = { c with
    deadline := none, activity := .ending ⟨.lapse, .output 0, 0, 0, 0⟩
    txn := c.txn.map fun x => { x with mode := if x.mode = .judged then .notReady else x.mode } } := by
  unfold beginLapse
  rw [funext doomTxn_eq]
  rfl

/-- The controller with its request completed, before what is held is taken (R176). -/
def completed (queued : Nat) (f : Flight) (a : Answer) (c : Controller) : Controller := { c with
  stored := { seq := f.seq, status := a.status, body := a.body, queued := queued }
  last := some (f.seq, f.check), activity := .idle, lapseHeld := false }

theorem completeRequest_eq (now : Tick) (queued : Nat) (f : Flight) (a : Answer) (c : Controller) :
    completeRequest now queued f a c = takeHeld now c.lapseHeld (completed queued f a c) := rfl

/-! ### The last step of a session end (R157 step 6) -/

theorem finishController_ending {run run' : EndRun} (now : Tick) (queued : Nat) (h : c.activity = .ending run') :
    finishController now queued run c = takeHeld now false { endSession run.kind c with activity := .idle } := by
  unfold finishController
  rw [h]

theorem finishController_executing {run : EndRun} {f : Flight} (now : Tick) (queued : Nat) (h : c.activity = .executing f) :
    finishController now queued run c = completeRequest now queued f (closeAnswer now run) (endSession run.kind c) := by
  unfold finishController
  rw [h]

theorem exec_sessionEndFinish {run : EndRun} (h : endRunOf (s.port p) = some run) (hstep : run.step = .finish) :
    exec (.sessionEndFinish p) s = .next (s.setPort p
      (finishController s.now (s.queue p).records.length run (s.port p))) := by
  show Host.Outcome.next (sessionEndFinish p s) = _
  simp only [sessionEndFinish, h, if_pos hstep]
  rfl

/-- The last step of a lapse or a port reset. -/
theorem exec_finish_ending {run : EndRun} (h : (s.port p).activity = .ending run) (hstep : run.step = .finish) :
    exec (.sessionEndFinish p) s = .next (s.setPort p
      (takeHeld s.now false { endSession run.kind (s.port p) with activity := .idle })) := by
  rw [exec_sessionEndFinish (endRunOf_ending h) hstep, finishController_ending _ _ h]

/-- The last step of a CLOSE. -/
theorem exec_finish_closing {run : EndRun} {f : Flight} (h : (s.port p).activity = .executing f) (hf : f.stage = .closing run)
    (hstep : run.step = .finish) : exec (.sessionEndFinish p) s = .next (s.setPort p
      (completeRequest s.now (s.queue p).records.length f (closeAnswer s.now run) (endSession run.kind (s.port p)))) := by
  rw [exec_sessionEndFinish (by simp only [endRunOf, h, hf]) hstep, finishController_executing _ _ h]

theorem exec_lapseExpiry {d : Tick} (hs : (s.port p).session = .isOpen) (hd : (s.port p).deadline = some d)
    (hr : reached s.now d = true) : exec (.lapseExpiry p) s = .next (s.setPort p
      (match (s.port p).activity with
        | .idle => beginLapse (s.port p)
        | .executing _ => { s.port p with lapseHeld := true }
        | .ending _ => s.port p)) :=
  congrArg (fun x => Host.Outcome.next (s.setPort p x)) (if_pos ⟨hs, deadlineReached_iff.2 ⟨d, hd, hr⟩⟩)

/-- A lapse expiry with no occasion. -/
theorem expireLapse_none {now : Tick} (h : c.session ≠ .isOpen ∨ (∃ run, c.activity = .ending run) ∨
    deadlineReached now c.deadline = false) : expireLapse now c = c := by
  unfold expireLapse
  split
  · next hdue =>
    obtain hs | ⟨run, hrun⟩ | hd := h
    · exact absurd hdue.1 hs
    · rw [hrun]
    · rw [hdue.2] at hd; cases hd
  · rfl

/-- Settles O16. -/
theorem sessionEndsBeginAndFinish : Obligations.SessionEndsBeginAndFinish := by
  unfold Obligations.SessionEndsBeginAndFinish
  refine ⟨fun s p f h => ?close, fun s p d hs hi hd hr => ?lapse, fun s p d f hs hf hd hr => ?held, fun s p h => ?none,
    fun s p run ha hstep => ?ending, fun s p f run ha hf hk hstep => ?closing⟩
  case close =>
    refine (congrArg Host.Outcome.next (if_pos h.awaits)).trans (congrArg (fun x => Host.Outcome.next (s.setPort p x)) ?_)
    simp only [startClose, setEndRun, h.1]
    rfl
  case lapse =>
    refine ⟨(s.port p).txn.map fun y => { y with mode := if y.mode = .judged then .notReady else y.mode }, ?_, fun x => ?_⟩
    · rw [exec_lapseExpiry hs hd hr, hi, beginLapse_eq]
    · rw [Option.map_eq_some_iff]
      exact exists_congr fun y => and_congr_right fun _ => eq_comm
  case held => rw [exec_lapseExpiry hs hd hr, hf]
  case none =>
    exact congrArg Host.Outcome.next ((congrArg (s.setPort p) (expireLapse_none h)).trans (State.setPort_same s p))
  case ending =>
    refine ⟨fun hk hr => ?_, fun hk hr => ?_, fun hk hr => ?_, fun hk hr => ?_⟩ <;> rw [exec_finish_ending ha hstep, hk]
    · rw [takeHeld_none (c := { endSession .lapse (s.port p) with activity := .idle }) hr (by nofun)]
      rfl
    · rw [takeHeld_reset (c := { endSession .lapse (s.port p) with activity := .idle }) _ _ hr, takePortReset_session (by nofun)]
      rfl
    · rw [takeHeld_none (c := { endSession .portReset (s.port p) with activity := .idle }) hr (by nofun)]
      rfl
    · rw [takeHeld_reset (c := { endSession .portReset (s.port p) with activity := .idle }) _ _ hr, takePortReset_closed rfl]
      rfl
  case closing =>
    refine ⟨fun hr => ?_, fun hr => ?_⟩ <;> rw [exec_finish_closing ha hf hstep, hk, completeRequest_eq]
    · rw [takeHeld_none (c := completed _ f _ (endSession .close (s.port p))) hr fun h => nomatch h.2.1]
      rfl
    · rw [takeHeld_reset (c := completed _ f _ (endSession .close (s.port p))) _ _ hr, takePortReset_closed rfl]
      rfl

/-! ### Request completion (R176) -/

theorem exec_requestCompletion {f : Flight} {a : Answer} (hf : (s.port p).activity = .executing f) (ha : f.stage = .answered a) :
    exec (.requestCompletion p) s = .next (s.setPort p
      (completeRequest s.now (s.queue p).records.length f a (s.port p))) := by
  refine congrArg (fun x => Host.Outcome.next (s.setPort p x)) ?_
  simp only [completeAt, hf, ha]

/-- A request whose result is not known does not complete. -/
theorem completeAt_none (now : Tick) (queued : Nat) (h : ∀ f a, c.activity = .executing f → f.stage ≠ .answered a) :
    completeAt now queued c = c := by
  unfold completeAt
  cases hc : c.activity with
  | idle => rfl
  | ending run => rfl
  | executing f =>
    cases hf : f.stage with
    | awaiting r => simp only [hf]
    | closing run => simp only [hf]
    | answered a => exact absurd hf (h f a hc)

/-- Settles O48. -/
theorem completionStoresTheReply : Obligations.CompletionStoresTheReply := by
  unfold Obligations.CompletionStoresTheReply
  refine ⟨fun s p f a hf ha => ?_, fun s p h => ?_⟩
  · refine ⟨fun hr hn => ?_, fun hr hdue => ?_, fun hr hs => ?_, fun hr hs => ?_⟩ <;>
      rw [exec_requestCompletion hf ha, completeRequest_eq]
    · rw [takeHeld_none (c := completed _ f a (s.port p)) hr fun h => hn ⟨h.1, h.2.1, deadlineReached_iff.1 h.2.2⟩]
      rfl
    · rw [takeHeld_lapse (c := completed _ f a (s.port p)) hr ⟨hdue.1, hdue.2.1, deadlineReached_iff.2 hdue.2.2⟩, beginLapse_eq]
      rfl
    · rw [takeHeld_reset (c := completed _ f a (s.port p)) _ _ hr, takePortReset_closed (c := completed _ f a (s.port p)) hs]
      rfl
    · rw [takeHeld_reset (c := completed _ f a (s.port p)) _ _ hr, takePortReset_session (c := completed _ f a (s.port p)) hs]
      rfl
  · exact congrArg Host.Outcome.next ((congrArg (s.setPort p) (completeAt_none _ _ h)).trans (State.setPort_same s p))

/-! ### Port reset (R164) -/

/-- The controller at the assertion of PRST_N, with its transaction abandoned. -/
def abandoned (c : Controller) : Controller := { c with prstLow := true, txn := c.txn.map abandonTxn }

theorem assertPortReset_idle (h : c.activity = .idle) : assertPortReset c = takePortReset (abandoned c) := by
  unfold assertPortReset
  rw [h]
  rfl

theorem assertPortReset_busy (h : c.activity ≠ .idle) :
    assertPortReset c = { c with prstLow := true, txn := c.txn.map abandonTxn, resetHeld := true } := by
  unfold assertPortReset
  cases hc : c.activity with
  | idle => exact absurd hc h
  | executing f => rfl
  | ending run => rfl

theorem exec_portReset (hreset : s.resetLow = false) (hpin : (s.port p).prstLow = false) :
    exec (.portReset p) s = .next (s.setPort p (assertPortReset (s.port p))) :=
  congrArg Host.Outcome.next ((if_neg (by rw [hpin]; decide)).trans (if_neg (by rw [hreset]; decide)))

/-- Settles O49. -/
theorem portResetOutcomes : Obligations.PortResetOutcomes := by
  unfold Obligations.PortResetOutcomes
  intro s p
  refine ⟨fun hreset hpin => ⟨fun hi hs => ?_, fun hi hs => ?_, fun hb => ?_⟩, fun hpin => congrArg Host.Outcome.next (if_pos hpin),
    fun hreset hpin => congrArg Host.Outcome.next ((if_neg (by rw [hpin]; decide)).trans (if_pos hreset)), rfl⟩ <;>
    rw [exec_portReset hreset hpin]
  · rw [assertPortReset_idle hi, takePortReset_closed (c := abandoned (s.port p)) hs, ← hi]
    rfl
  · rw [assertPortReset_idle hi, takePortReset_session (c := abandoned (s.port p)) hs]
    rfl
  · rw [assertPortReset_busy hb]
    rfl

/-! ### The deadline (R155) -/

/-- A deadline is left as it was or made absent. -/
def LeavesDeadline (c c' : Controller) : Prop := c'.deadline = c.deadline ∨ c'.deadline = none

/-- A deadline is now plus the interval of an OPEN port. -/
def Restarted (now : Tick) (c c' : Controller) : Prop :=
  c.session = .isOpen ∧ c.interval ≠ 0 ∧ c'.deadline = some (now + c.interval.setWidth 40)

theorem takePortReset_deadline (c : Controller) : LeavesDeadline c (takePortReset c) := by
  by_cases h : c.session = .closed
  · rw [takePortReset_closed h]; exact .inl rfl
  · rw [takePortReset_session h]; exact .inr rfl

theorem takeHeld_deadline (now : Tick) (lapse : Bool) (c : Controller) : LeavesDeadline c (takeHeld now lapse c) := by
  unfold takeHeld
  split
  · exact takePortReset_deadline c
  · split
    · exact .inr rfl
    · exact .inl rfl

theorem completeRequest_deadline (now : Tick) (queued : Nat) (f : Flight) (a : Answer) (c : Controller) :
    LeavesDeadline c (completeRequest now queued f a c) := takeHeld_deadline now c.lapseHeld _

theorem completeAt_deadline (now : Tick) (queued : Nat) (c : Controller) : LeavesDeadline c (completeAt now queued c) := by
  unfold completeAt
  split
  · exact .inl rfl
  · exact .inl rfl
  · split
    · exact completeRequest_deadline _ _ _ _ _
    · exact .inl rfl
    · exact .inl rfl

theorem endSession_deadline (kind : EndKind) (c : Controller) : (endSession kind c).deadline = c.deadline := by
  cases kind <;> rfl

theorem finishController_deadline (now : Tick) (queued : Nat) (run : EndRun) (c : Controller) :
    LeavesDeadline c (finishController now queued run c) := by
  unfold finishController
  split
  · exact .inl rfl
  · exact (takeHeld_deadline now false _).imp_left fun h => h.trans (endSession_deadline run.kind c)
  · exact (completeRequest_deadline now queued _ _ _).imp_left fun h => h.trans (endSession_deadline run.kind c)

theorem setEndRun_deadline (run : EndRun) (c : Controller) : (setEndRun run c).deadline = c.deadline := by
  unfold setEndRun
  split <;> rfl

theorem putAnswer_deadline (a : Answer) (c : Controller) : (putAnswer a c).deadline = c.deadline := by
  unfold putAnswer
  split <;> rfl

theorem expireLapse_deadline (now : Tick) (c : Controller) : LeavesDeadline c (expireLapse now c) := by
  unfold expireLapse
  split
  · split
    · exact .inr rfl
    · exact .inl rfl
    · exact .inl rfl
  · exact .inl rfl

theorem assertPortReset_deadline (c : Controller) : LeavesDeadline c (assertPortReset c) := by
  by_cases h : c.activity = .idle
  · rw [assertPortReset_idle h]
    exact takePortReset_deadline (abandoned c)
  · rw [assertPortReset_busy h]
    exact .inl rfl

theorem restartDeadline_deadline (now : Tick) (c : Controller) :
    (restartDeadline now c).deadline = c.deadline ∨ Restarted now c (restartDeadline now c) := by
  rw [restartDeadline_eq]
  by_cases h : c.session = .isOpen ∧ c.interval ≠ 0
  · exact .inr ⟨h.1, h.2, if_pos h⟩
  · exact .inl (if_neg h)

/-- The bytes of a transaction restart a deadline only where they are a frame. -/
theorem takeFrame_deadline (now : Tick) (isSupervisor : Bool) (mosi : List Byte) (c : Controller) :
    (takeFrame now isSupervisor mosi c).deadline = c.deadline ∨
    ((∃ seq check code ops, judge mosi = .frame seq check code ops) ∧ Restarted now c (takeFrame now isSupervisor mosi c)) := by
  unfold takeFrame
  split
  · exact .inl rfl
  · exact .inl rfl
  · next seq check code ops hjudge =>
    have hframe : ∃ seq check code ops, judge mosi = .frame seq check code ops := ⟨seq, check, code, ops, hjudge⟩
    split
    · exact (restartDeadline_deadline now c).imp_right fun h => ⟨hframe, h⟩
    · exact (restartDeadline_deadline now c).imp_right fun h => ⟨hframe, h⟩

theorem endTransaction_deadline (now : Tick) (isSupervisor : Bool) (mosi : List Byte) (c : Controller) :
    (endTransaction now isSupervisor mosi c).deadline = c.deadline ∨
    ((∃ seq check code ops, judge mosi = .frame seq check code ops) ∧ Restarted now c (endTransaction now isSupervisor mosi c)) := by
  unfold endTransaction
  split
  · exact .inl rfl
  · next t _ =>
    simp only [clearMark_eq]
    split
    · exact .inl rfl
    · exact .inl rfl
    · split
      · exact takeFrame_deadline now isSupervisor mosi { c with
          txn := none, mark := if t.marked = true ∧ 4 ≤ mosi.length then false else c.mark }
      · exact .inl rfl

/-- What gives port `p` a deadline: now plus an interval of 1 or more. -/
def GivesDeadline (s : State) (p : Port) (x : Instr) (deadline : Option Tick) : Prop :=
  ∃ n, n ≠ 0 ∧ deadline = some (s.now + n.setWidth 40) ∧
    ((∃ mosi seq check code ops, x = .transactionEnd p mosi ∧ judge mosi = .frame seq check code ops ∧
        (s.port p).session = .isOpen ∧ n = (s.port p).interval) ∨
      (x = .openSession p ∧ (s.port p).session = .lapsed ∧ n = (s.port p).interval) ∨ x = .setLapse p n)

/-- A command leaves the deadline, makes it absent, or is one of those that give one. -/
theorem PortStep.deadline {x : Instr} {c' : Controller} (hstep : PortStep s p x c') :
    c'.deadline = (s.port p).deadline ∨ c'.deadline = none ∨ GivesDeadline s p x c'.deadline := by
  have leaves : ∀ {c' : Controller}, LeavesDeadline (s.port p) c' → ∀ Q, c'.deadline = (s.port p).deadline ∨ c'.deadline = none ∨ Q :=
    fun h Q => h.elim .inl fun h => .inr (.inl h)
  cases hstep with
  | same => exact .inl rfl
  | reset => exact .inr (.inl rfl)
  | lapse _ h => exact leaves (expireLapse_deadline _ _) _
  | pin h => exact .inl rfl
  | portReset h => exact leaves (assertPortReset_deadline _) _
  | portRelease => exact .inl rfl
  | begin h => exact .inl rfl
  | finish mosi =>
    obtain h | ⟨⟨seq, check, code, ops, hjudge⟩, hopen, hi, hd⟩ :=
      endTransaction_deadline s.now (s.supervisor == p) mosi (s.port p)
    · exact .inl h
    · exact .inr (.inr ⟨_, hi, hd, .inl ⟨mosi, seq, check, code, ops, rfl, hjudge, hopen, rfl⟩⟩)
  | complete => exact leaves (completeAt_deadline _ _ _) _
  | run _ run run' h hk hc => exact .inl (setEndRun_deadline _ _)
  | sessionEnd run h hs => exact leaves (finishController_deadline _ _ _ _) _
  | openSession f a h =>
    rw [putAnswer_deadline]
    cases hs : (s.port p).session with
    | closed => rw [openController_closed _ hs]; exact .inl rfl
    | isOpen => rw [openController_open _ hs]; exact .inl rfl
    | lapsed =>
      rw [openController_lapsed _ hs]
      by_cases hi : (s.port p).interval = 0
      · exact .inl (if_neg (not_not_intro hi))
      · exact .inr (.inr ⟨_, hi, if_pos hi, .inr (.inl ⟨rfl, hs, rfl⟩)⟩)
  | close f h => exact .inr (.inl (setEndRun_deadline _ _))
  | setLapse n f a h =>
    rw [putAnswer_deadline]
    by_cases hn : n = 0
    · exact .inr (.inl (if_pos hn))
    · exact .inr (.inr ⟨n, hn, if_neg hn, .inr (.inr rfl)⟩)
  | answer _ f r a h ho hc => exact .inl (putAnswer_deadline _ _)

/-- Settles O51, along what a command can do to a controller. -/
theorem deadlinesAreRestartedByTheseEvents : Obligations.DeadlinesAreRestartedByTheseEvents :=
  ⟨fun _ _ _ p hx => (exec_port p hx).deadline, position_now_after⟩

end Sys2Proof.Machine
end

section
/-! O42 to O46: the transactions of the host link, how frames are judged, replays, and the acceptance checks (sections 9.1 to 9.6). -/

namespace Sys2Proof.Machine

set_option Elab.async false

variable {s : State} {p : Port}

/-! ### The beginning of a transaction (R170, R172) -/

theorem exec_transactionBegin (hreset : s.resetLow = false) (htxn : (s.port p).txn = none) : exec (.transactionBegin p) s =
    .next (s.setPort p { s.port p with txn := some (offer (s.port p) (s.queue p)) }) := by
  refine congrArg Host.Outcome.next (if_neg ?_)
  rw [hreset, htxn]
  decide

theorem misoByte_txn {c : Controller} {x : Txn} (hreset : s.resetLow = false) (h : c.txn = some x) (k : Nat) :
    misoByte (s.setPort p c) p k = if h : k < x.offered.length then x.offered[k] else 0xFF := by
  unfold misoByte
  rw [if_neg (by rw [State.setPort_resetLow, hreset]; decide), State.setPort_port_self, h]
  show x.offered.getD k 0xFF = _
  split
  · next hk => exact List.getD_eq_getElem _ _ hk
  · next hk => exact List.getD_eq_default _ _ (Nat.le_of_not_lt hk)

/-- What a transaction carries, from what is offered to it. -/
theorem transactionBegin_carries (hreset : s.resetLow = false) (htxn : (s.port p).txn = none) {mode : TxnMode} {bytes : List Byte}
    {marked : Bool} (h : offer (s.port p) (s.queue p) = { mode := mode, offered := bytes, marked := marked }) :
    ∃ t, exec (.transactionBegin p) s = .next t ∧
      t = s.setPort p { s.port p with txn := some { mode := mode, offered := bytes, marked := marked } } ∧
      ∀ k, misoByte t p k = if h : k < bytes.length then bytes[k] else 0xFF := by
  refine ⟨_, ?_, rfl, fun k => misoByte_txn (s := s) (p := p) (c := { s.port p with
    txn := some { mode := mode, offered := bytes, marked := marked } }) hreset rfl k⟩
  rw [exec_transactionBegin hreset htxn, h]

/-- The FLAGS byte of what is offered (R172, R187). -/
def offeredFlags (c : Controller) (q : Queue) : Byte := (if c.mark then 0x80 else 0) + (if q.attention then 0x40 else 0)

theorem flagsByte_eq (c : Controller) (q : Queue) : flagsByte c.mark q.attention = offeredFlags c q := by
  unfold flagsByte offeredFlags
  cases c.mark <;> cases q.attention <;> rfl

section
variable {c : Controller} {q : Queue}

theorem offer_ignored (h : c.prstLow = true) : offer c q = { mode := .ignored, offered := idleHeader, marked := false } := if_pos h

theorem offer_idle (h : c.prstLow = false) (hi : c.activity = .idle) :
    offer c q = { mode := .judged, offered := c.stored.bytes (offeredFlags c q), marked := c.mark } := by
  rw [offer, if_neg (by rw [h]; decide), hi, ← flagsByte_eq]

theorem offer_executing {f : Flight} (h : c.prstLow = false) (hf : c.activity = .executing f) : offer c q =
    { mode := .notReady, offered := notReadyHeader f.seq (offeredFlags c q) q.records.length, marked := c.mark } := by
  rw [offer, if_neg (by rw [h]; decide), hf, ← flagsByte_eq]
  rfl

theorem offer_ending {run : EndRun} (h : c.prstLow = false) (hr : c.activity = .ending run) : offer c q =
    { mode := .notReady, offered := notReadyHeader 0 (offeredFlags c q) q.records.length, marked := c.mark } := by
  rw [offer, if_neg (by rw [h]; decide), hr, ← flagsByte_eq]
  rfl
end

/-- A transaction that begins at an IDLE controller is offered the stored reply. -/
theorem exec_transactionBegin_idle {c : Controller} (hreset : s.resetLow = false) (htxn : c.txn = none) (hpin : c.prstLow = false)
    (hi : c.activity = .idle) : exec (.transactionBegin p) (s.setPort p c) = .next (s.setPort p { c with
      txn := some { mode := .judged, offered := c.stored.bytes (offeredFlags c (s.queue p)), marked := c.mark } }) := by
  rw [exec_transactionBegin (s := s.setPort p c) hreset (by rw [State.setPort_port_self, htxn]), State.setPort_port_self, State.setPort_setPort,
    offer_idle hpin hi]
  rfl

/-- Settles O42. -/
theorem transactionBeginFixesMiso : Obligations.TransactionBeginFixesMiso := by
  unfold Obligations.TransactionBeginFixesMiso
  refine ⟨fun s p h => ⟨congrArg Host.Outcome.next (if_pos (.inl h)), fun k => if_pos h⟩, fun s p hreset htxn => ?_⟩
  exact ⟨fun h => transactionBegin_carries hreset htxn (offer_ignored h),
    fun h hi => transactionBegin_carries hreset htxn (offer_idle h hi),
    fun f h hf => transactionBegin_carries hreset htxn (offer_executing h hf),
    fun run h hr => transactionBegin_carries hreset htxn (offer_ending h hr)⟩

/-! ### How the bytes of a transaction are judged (R170, R173, R175) -/

theorem byteAt_eq_getElem {bs : List Byte} {i : Nat} (h : i < bs.length) : byteAt bs i = bs[i] := List.getD_eq_getElem _ _ h

theorem judge_cons {len : Byte} (rest : List Byte) (h : len ≠ 0) : judge (len :: rest) =
    if len.toNat < 3 ∨ 32 < len.toNat ∨ (len :: rest).length < len.toNat then .linkError
    else if crc8 ((len :: rest).take (len.toNat - 1)) = byteAt (len :: rest) (len.toNat - 1) then
      .frame (byteAt ((len :: rest).take (len.toNat - 1)) 1) (byteAt (len :: rest) (len.toNat - 1))
        ((len :: rest).take (len.toNat - 1))[2]? (((len :: rest).take (len.toNat - 1)).drop 3)
    else .linkError := if_neg h

/-- Bytes that hold a whole frame, whatever follows it. -/
theorem judge_whole {len : Byte} {bs : List Byte} (check : Byte) (beyond : List Byte) (hlen : len.toNat = bs.length + 2)
    (hlow : 3 ≤ len.toNat) (hhigh : len.toNat ≤ 32) : judge (len :: bs ++ check :: beyond) =
      if crc8 (len :: bs) = check then .frame (byteAt (len :: bs) 1) check (len :: bs)[2]? ((len :: bs).drop 3) else .linkError := by
  have hne : len ≠ 0 := by rintro rfl; exact absurd hlow (by decide)
  have hsize : len.toNat - 1 = (len :: bs).length := by rw [hlen]; rfl
  have htake : (len :: bs ++ check :: beyond).take (len.toNat - 1) = len :: bs := by rw [hsize, List.take_left']; rfl
  have hcheck : byteAt (len :: bs ++ check :: beyond) (len.toNat - 1) = check := by
    rw [byteAt_eq_getElem (by rw [hsize]; simp), List.getElem_append_right (Nat.le_of_eq hsize.symm)]
    simp only [hsize, Nat.sub_self, List.getElem_cons_zero]
  have hjudge := judge_cons (bs ++ check :: beyond) hne
  rw [← List.cons_append, htake, hcheck, if_neg (by simp only [List.length_append, List.length_cons]; omega)] at hjudge
  exact hjudge

theorem toNat_ofNat_of_lt {n : Nat} (h : n < 256) : (BitVec.ofNat 8 n).toNat = n := by
  rw [BitVec.toNat_ofNat]; exact Nat.mod_eq_of_lt h

theorem linkError_iff {len : Byte} (rest : List Byte) (h : len ≠ 0) : judge (len :: rest) = .linkError ↔
    len = 1 ∨ len = 2 ∨ 32 < len.toNat ∨ (len :: rest).length < len.toNat ∨
      (len :: rest)[len.toNat - 1]? ≠ some (crc8 ((len :: rest).take (len.toNat - 1))) := by
  have hlow : len.toNat < 3 ↔ len = 1 ∨ len = 2 := by
    bv_omega
  have hshort : (len = 1 ∨ len = 2 ∨ 32 < len.toNat ∨ (len :: rest).length < len.toNat ∨
      (len :: rest)[len.toNat - 1]? ≠ some (crc8 ((len :: rest).take (len.toNat - 1)))) ↔
      (len.toNat < 3 ∨ 32 < len.toNat ∨ (len :: rest).length < len.toNat) ∨
      (len :: rest)[len.toNat - 1]? ≠ some (crc8 ((len :: rest).take (len.toNat - 1))) := by rw [hlow]; tauto
  rw [judge_cons rest h, hshort]
  split
  · next hbad => exact ⟨fun _ => .inl hbad, fun _ => rfl⟩
  · next hgood =>
    have hin : len.toNat - 1 < (len :: rest).length := by omega
    rw [or_iff_right hgood, byteAt_eq_getElem hin, List.getElem?_eq_getElem hin, ne_eq, Option.some.injEq]
    split
    · next heq => exact ⟨nofun, fun hne => absurd heq.symm hne⟩
    · next hne => exact ⟨fun _ heq => hne heq.symm, fun _ => rfl⟩

/-- Settles O43. -/
theorem framesAreJudgedByLengthAndCheck : Obligations.FramesAreJudgedByLengthAndCheck := by
  unfold Obligations.FramesAreJudgedByLengthAndCheck
  refine ⟨rfl, fun _ => rfl, fun len rest h => linkError_iff rest h, fun seq code ops beyond h => ?_, fun seq beyond => ?_⟩
  · have hlen : (BitVec.ofNat 8 (ops.length + 4)).toNat = ops.length + 4 := toNat_ofNat_of_lt (by omega)
    refine (judge_whole _ beyond (by rw [hlen]; rfl) (by omega) (by omega)).trans (if_pos rfl)
  · exact (judge_whole (len := 3) (bs := [seq]) _ beyond rfl (by decide) (by decide)).trans (if_pos rfl)

/-! ### The end of a transaction (R175) -/

section
variable {c : Controller} {x : Txn} {now : Tick} {sup : Bool} {mosi : List Byte}

/-- The controller after a transaction that PRST_N did not abandon, before its bytes are taken up. -/
def unmarked (x : Txn) (clocked : Nat) (c : Controller) : Controller :=
  { c with txn := none, mark := if x.marked = true ∧ 4 ≤ clocked then false else c.mark }

theorem endTransaction_ignored (h : c.txn = some x) (hm : x.mode = .ignored) : endTransaction now sup mosi c = { c with txn := none } := by
  simp only [endTransaction, h, hm]

theorem endTransaction_notReady (h : c.txn = some x) (hm : x.mode = .notReady) :
    endTransaction now sup mosi c = unmarked x mosi.length c := by
  simp only [endTransaction, h, hm, clearMark_eq]
  rfl

theorem endTransaction_judged (h : c.txn = some x) (hm : x.mode = .judged) (hi : c.activity = .idle) :
    endTransaction now sup mosi c = takeFrame now sup mosi (unmarked x mosi.length c) := by
  simp only [endTransaction, h, hm, clearMark_eq]
  exact if_pos hi

theorem takeFrame_poll (h : judge mosi = .poll) : takeFrame now sup mosi c = c := by
  unfold takeFrame; rw [h]

theorem takeFrame_linkError (h : judge mosi = .linkError) : takeFrame now sup mosi c = linkError c := by
  unfold takeFrame; rw [h]

theorem isReplay_iff {seq check : Byte} {last : Option (Byte × Byte)} :
    isReplay seq check last = true ↔ seq ≠ 0 ∧ last = some (seq, check) := by
  simp only [isReplay, Bool.and_eq_true, bne_iff_ne, beq_iff_eq]

theorem takeFrame_replay {seq check : Byte} {code : Option Byte} {ops : List Byte} (h : judge mosi = .frame seq check code ops)
    (hseq : seq ≠ 0) (hlast : c.last = some (seq, check)) : takeFrame now sup mosi c = restartDeadline now c := by
  unfold takeFrame; rw [h]; exact if_pos (isReplay_iff.2 ⟨hseq, hlast⟩)

theorem takeFrame_new {seq check : Byte} {code : Option Byte} {ops : List Byte} (h : judge mosi = .frame seq check code ops)
    (hnew : seq = 0 ∨ c.last ≠ some (seq, check)) :
    takeFrame now sup mosi c = admitRequest now sup seq check code ops c := by
  unfold takeFrame; rw [h]
  exact if_neg fun hr => (isReplay_iff.1 hr).elim fun hseq hlast => hnew.elim hseq fun hn => hn hlast

theorem admitRequest_eq (seq check : Byte) (code : Option Byte) (ops : List Byte) : admitRequest now sup seq check code ops c =
    { c with
      deadline := if c.session = .isOpen ∧ c.interval ≠ 0 then some (now + c.interval.setWidth 40) else c.deadline
      activity := .executing { seq := seq, check := check, stage := acceptance c.session sup code ops } } := by
  rw [admitRequest, restartDeadline_eq]
  rfl
end

theorem exec_transactionEnd (p : Port) (mosi : List Byte) (s : State) : exec (.transactionEnd p mosi) s =
    .next (s.setPort p (endTransaction s.now (s.supervisor == p) mosi (s.port p))) := rfl

/-- Settles O44. -/
theorem transactionEndTakesUpTheBytes : Obligations.TransactionEndTakesUpTheBytes := by
  unfold Obligations.TransactionEndTakesUpTheBytes
  intro s p mosi x h
  refine ⟨fun hm => ?_, fun hm => ?_, fun hm hi hj => ?_, fun hm hi hj => ?_, fun seq check code ops hm hi hj hnew => ?_⟩ <;>
    rw [exec_transactionEnd]
  · rw [endTransaction_ignored h hm]
  · rw [endTransaction_notReady h hm]
    rfl
  · rw [endTransaction_judged h hm hi, takeFrame_poll hj]
    rfl
  · rw [endTransaction_judged h hm hi, takeFrame_linkError hj, linkError, satInc_byte]
    rfl
  · rw [endTransaction_judged h hm hi, takeFrame_new (c := unmarked x mosi.length (s.port p)) hj hnew, admitRequest_eq]
    rfl

/-! ### Replay (R179) -/

/-- A held lapse leaves the last bytes and the stored reply of the request that completed. -/
theorem takeHeld_reply {c : Controller} (now : Tick) (lapse : Bool) (h : c.resetHeld = false) :
    (takeHeld now lapse c).last = c.last ∧ (takeHeld now lapse c).stored = c.stored := by
  by_cases hl : lapse = true ∧ c.session = .isOpen ∧ deadlineReached now c.deadline = true
  · rw [takeHeld_lapse h hl]
    exact ⟨rfl, rfl⟩
  · rw [takeHeld_none h hl]
    exact ⟨rfl, rfl⟩

/-- Settles O45. -/
theorem replayIsAnsweredFromTheStoredReply : Obligations.ReplayIsAnsweredFromTheStoredReply := by
  unfold Obligations.ReplayIsAnsweredFromTheStoredReply
  intro s p mosi x seq check code ops h hm hi hj
  refine ⟨fun hseq hlast => ⟨?_, fun hreset hpin => ⟨_, exec_transactionBegin_idle hreset rfl hpin hi⟩⟩, fun hnew => ⟨?_, fun u a hf hheld => ?_⟩⟩
  · rw [exec_transactionEnd, endTransaction_judged h hm hi,
      takeFrame_replay (c := unmarked x mosi.length (s.port p)) hj hseq hlast, restartDeadline_eq]
    rfl
  · rw [exec_transactionEnd, endTransaction_judged h hm hi,
      takeFrame_new (c := unmarked x mosi.length (s.port p)) hj hnew, admitRequest_eq]
    rfl
  · obtain ⟨hlast, hstored⟩ := takeHeld_reply (c := completed (u.queue p).records.length
      { seq := seq, check := check, stage := .answered a } a (u.port p)) u.now (u.port p).lapseHeld hheld
    refine ⟨_, exec_requestCompletion hf rfl, ?_, ?_⟩ <;> rw [State.setPort_port_self, completeRequest_eq]
    · exact hlast
    · rw [hstored]
      rfl

/-! ### The acceptance checks (R181) -/

theorem codeOfByte_byte (c : Code) : codeOfByte c.byte = some c := by
  cases c <;> decide

theorem codeOfByte_none {b : Byte} (h : ∀ c : Code, c.byte ≠ b) : codeOfByte b = none :=
  List.find?_eq_none.2 fun c _ hc => h c (beq_iff_eq.1 hc)

section
variable {x : Session} {sup : Bool} {c : Code} {ops : List Byte}

theorem acceptance_code (x : Session) (sup : Bool) (c : Code) (ops : List Byte) :
    acceptance x sup (some c.byte) ops = checkRequest x sup c ops := by
  unfold acceptance
  rw [Option.bind_some, codeOfByte_byte]

theorem checkRequest_badLength (h : ops.length ≠ c.operandBytes) : checkRequest x sup c ops = .answered ⟨.badLength, .empty⟩ :=
  if_pos h

theorem checkRequest_notAdmitted (h : ops.length = c.operandBytes) (hx : admitted x c = false) :
    checkRequest x sup c ops = .answered ⟨sessionRefusal x, .empty⟩ :=
  (if_neg (not_not_intro h)).trans (if_pos (by rw [hx]; rfl))

theorem checkRequest_reserved (h : ops.length = c.operandBytes) (hx : admitted x c = true) (hr : reserved c = true)
    (hs : sup = false) : checkRequest x sup c ops = .answered ⟨.notSupervisor, .empty⟩ :=
  (if_neg (not_not_intro h)).trans ((if_neg (by rw [hx]; decide)).trans (if_pos (by rw [hr, hs]; rfl)))

/-- Check 5, on a request that passes the four before it. -/
theorem checkRequest_range (h : ops.length = c.operandBytes) (hx : admitted x c = true) (hr : reserved c = true → sup = true) :
    checkRequest x sup c ops = match requestInRange c ops with
      | some r => .awaiting r
      | none => .answered ⟨.badArgument, .empty⟩ := by
  refine (if_neg (not_not_intro h)).trans ((if_neg (by rw [hx]; decide)).trans ((if_neg ?_).trans rfl))
  cases hc : reserved c with
  | false => simp
  | true => simp [hr hc]

theorem reserved_iff : reserved c = true ↔
    c ∈ [.setDivide, .setFilter, .reclaim, .setSafe, .setQuota, .setTripSource, .setReleaseWindow, .clearTrip] := by
  cases c <;> decide

theorem admitted_iff : admitted x c = true ↔
    x = .isOpen ∨ c ∈ [.openSession, .status, .readTime] ∨ (x = .lapsed ∧ c ∈ [.closeSession, .fetch]) := by
  cases x <;> cases c <;> decide
end

/-- Settles O46. -/
theorem acceptanceChecksInOrder : Obligations.AcceptanceChecksInOrder := by
  unfold Obligations.AcceptanceChecksInOrder
  refine ⟨fun x sup ops => rfl, fun x sup b ops h => ?_, fun x sup c ops h => ?_, fun sup c ops h hc => ?_, fun sup c ops h hc => ?_,
    fun x sup c ops h hx => ⟨fun hr hs => ?_, fun hr hn => ?_, fun r hr hrange => ?_⟩⟩
  · unfold acceptance
    rw [Option.bind_some, codeOfByte_none h]
    rfl
  · rw [acceptance_code, checkRequest_badLength h]
  · rw [acceptance_code, checkRequest_notAdmitted h]
    · rfl
    · rw [← Bool.not_eq_true, admitted_iff]
      rintro (hx | hx | ⟨hx, _⟩)
      · cases hx
      · exact hc hx
      · cases hx
  · rw [acceptance_code, checkRequest_notAdmitted h]
    · rfl
    · rw [← Bool.not_eq_true, admitted_iff]
      simp only [List.mem_cons, List.not_mem_nil, or_false] at hc ⊢
      rintro (hx | hx | ⟨_, hx⟩)
      · cases hx
      · tauto
      · tauto
  · rw [acceptance_code, checkRequest_reserved h (admitted_iff.2 hx) (reserved_iff.2 hr) hs]
  · rw [acceptance_code, checkRequest_range h (admitted_iff.2 hx) fun he => hr (reserved_iff.1 he), hn]
  · rw [acceptance_code, checkRequest_range h (admitted_iff.2 hx) fun he => hr (reserved_iff.1 he), hrange]

end Sys2Proof.Machine
end

section
/-! O52: the check byte is the remainder of the message, as polynomials over the field of two elements (R174). -/

namespace Sys2Proof.Machine

set_option Elab.async false

open Polynomial

/-! ### Bytes and messages as polynomials -/

/-- A byte as a polynomial: bit `i` is the coefficient of X^i. -/
noncomputable def bytePoly (b : Byte) : (ZMod 2)[X] := ((List.range 8).map fun i => if b.getLsbD i then X ^ i else 0).sum

/-- A message as a polynomial, first byte and most significant bit first. -/
noncomputable def messagePoly (bs : List Byte) : (ZMod 2)[X] := bs.foldl (fun a b => a * X ^ 8 + bytePoly b) 0

/-- The generator of the check byte. -/
noncomputable def generator : (ZMod 2)[X] := X ^ 8 + X ^ 2 + X + 1

theorem messagePoly_concat (bs : List Byte) (b : Byte) : messagePoly (bs ++ [b]) = messagePoly bs * X ^ 8 + bytePoly b :=
  List.foldl_concat _ 0 b bs

theorem crc8_concat (bs : List Byte) (b : Byte) : crc8 (bs ++ [b]) = crcByte (crc8 bs) b := List.foldl_concat _ 0 b bs

theorem bytePoly_xor (x y : Byte) : bytePoly (x ^^^ y) = bytePoly x + bytePoly y := by
  have hbit : ∀ i, (if (x ^^^ y).getLsbD i then (X ^ i : (ZMod 2)[X]) else 0) =
      (if x.getLsbD i then X ^ i else 0) + (if y.getLsbD i then X ^ i else 0) := fun i => by
    rw [BitVec.getLsbD_xor]
    cases x.getLsbD i <;> cases y.getLsbD i <;> simp [CharTwo.add_self_eq_zero]
  rw [bytePoly, funext hbit, List.sum_map_add]
  rfl

/-- A shift to the left multiplies by X, and the bit that falls out stands for X^8. -/
theorem bytePoly_shiftLeft (c : Byte) : bytePoly c * X = bytePoly (c <<< 1) + if c.msb then X ^ 8 else 0 := by
  simp only [bytePoly, List.range_succ, List.range_zero, List.nil_append, List.map_append, List.map_cons, List.map_nil,
    List.sum_append, List.sum_cons, List.sum_nil, add_zero, zero_add, BitVec.getLsbD_shiftLeft, BitVec.msb_eq_getLsbD_last, add_mul,
    ite_mul, zero_mul, ← pow_succ]
  simp

/-- One bit of the CRC multiplies by X, up to a multiple of the generator. -/
theorem bytePoly_crcBit (c : Byte) : generator ∣ bytePoly c * X - bytePoly (crcBit c) := by
  unfold crcBit
  cases hc : c.msb with
  | false => rw [bytePoly_shiftLeft, hc]; simp
  | true =>
    have hseven : bytePoly 0x07 = X ^ 2 + X + 1 := by
      simp [bytePoly, List.range_succ]
      ring
    refine dvd_of_eq ?_
    rw [bytePoly_shiftLeft, hc, if_pos rfl, if_pos rfl, bytePoly_xor, hseven, CharTwo.sub_eq_add]
    have hdouble := CharTwo.add_self_eq_zero (bytePoly (c <<< 1))
    rw [generator]
    linear_combination -hdouble

/-- The remainder of a message, shifted by a byte, is that of its check byte so far. -/
def Remainder (a : (ZMod 2)[X]) (c : Byte) : Prop := generator ∣ a - bytePoly c

theorem Remainder.crcBit {a : (ZMod 2)[X]} {c : Byte} (h : Remainder a c) : Remainder (a * X) (crcBit c) := by
  have hsplit : a * X - bytePoly (Sys2Proof.crcBit c) =
      (a - bytePoly c) * X + (bytePoly c * X - bytePoly (Sys2Proof.crcBit c)) := by ring
  rw [Remainder, hsplit]
  exact (h.mul_right X).add (bytePoly_crcBit c)

theorem Remainder.crcByte {a : (ZMod 2)[X]} {c : Byte} (h : Remainder a c) (b : Byte) :
    Remainder ((a + bytePoly b) * X ^ 8) (crcByte c b) := by
  have hxor : Remainder (a + bytePoly b) (c ^^^ b) := by
    rw [Remainder, bytePoly_xor, add_sub_add_right_eq_sub]
    exact h
  have hpow : (a + bytePoly b) * X ^ 8 = (a + bytePoly b) * X * X * X * X * X * X * X * X := by ring
  rw [hpow]
  exact hxor.crcBit.crcBit.crcBit.crcBit.crcBit.crcBit.crcBit.crcBit

/-- The check byte is the remainder of the message times X^8. -/
theorem remainder_crc8 (bs : List Byte) : Remainder (messagePoly bs * X ^ 8) (crc8 bs) := by
  induction bs using List.reverseRecOn with
  | nil => simp [Remainder, messagePoly, crc8, bytePoly]
  | append_singleton bs b ih =>
    rw [messagePoly_concat, crc8_concat]
    exact ih.crcByte b

theorem generator_dvd_frame (bs : List Byte) : generator ∣ messagePoly (bs ++ [crc8 bs]) := by
  rw [messagePoly_concat, ← CharTwo.sub_eq_add]
  exact remainder_crc8 bs

/-- The CRC over a whole frame, check byte included. -/
theorem crc8_frame (bs : List Byte) : crc8 (bs ++ [crc8 bs]) = 0 := by
  rw [crc8_concat, crcByte, BitVec.xor_self]
  decide

/-- Settles O52. -/
theorem checkByteIsTheRemainder : Obligations.CheckByteIsTheRemainder := by
  unfold Obligations.CheckByteIsTheRemainder
  refine ⟨generator_dvd_frame, crc8_frame, by decide, by decide, fun seq status flags n body => crc8_frame _,
    fun len check bs beyond hlow hhigh hlen => ?_⟩
  rw [judge_whole check beyond hlen.symm hlow hhigh]
  split
  · next heq => exact ⟨nofun, fun hne => absurd heq.symm hne⟩
  · next hne => exact ⟨fun _ heq => hne heq.symm, fun _ => rfl⟩

end Sys2Proof.Machine
end

section
/-! O47 and O53: which operand bytes each request is refused for, and the frame of every request in range read back (sections 9.2,
10.1). -/

namespace Sys2Proof

set_option Elab.async false

variable {b : Byte}

/-! ### Which bytes have no meaning (R184, R186) -/

theorem flagOfByte_none : flagOfByte b = none ↔ 1 < b.toNat := by
  unfold flagOfByte
  split_ifs <;> simp <;> bv_omega

theorem outputOfByte_none : outputOfByte b = none ↔ 11 < b.toNat := by
  unfold outputOfByte
  split_ifs <;> simp <;> omega

theorem lineOfByte_none : lineOfByte b = none ↔ 15 < b.toNat := by
  unfold lineOfByte
  split_ifs <;> simp <;> omega

theorem slotOfByte_none : slotOfByte b = none ↔ 95 < b.toNat := by
  unfold slotOfByte
  split_ifs <;> simp <;> omega

theorem placeOfByte_none : placeOfByte b = none ↔ 3 < b.toNat := by
  unfold placeOfByte
  split_ifs <;> simp <;> omega

theorem portOfByte_none : portOfByte b = none ↔ 2 < b.toNat := by
  unfold portOfByte
  split_ifs <;> simp <;> bv_omega

theorem groupOfByte_none : groupOfByte b = none ↔ b.toNat ≠ 1 ∧ b.toNat ≠ 2 := by
  unfold groupOfByte
  split_ifs <;> simp <;> bv_omega

theorem membershipOfByte_none : membershipOfByte b = none ↔ 2 < b.toNat := by
  unfold membershipOfByte
  split_ifs
  · simp; bv_omega
  · rw [Option.map_eq_none_iff, groupOfByte_none]; bv_omega

theorem actionOfByte_none {w : Count32} : actionOfByte b w = none ↔ 3 < b.toNat := by
  unfold actionOfByte
  split_ifs <;> simp <;> bv_omega

theorem edgeSettingOfByte_none : edgeSettingOfByte b = none ↔ 3 < b.toNat := by
  unfold edgeSettingOfByte
  split_ifs <;> simp <;> bv_omega

theorem latePolicyOfByte_none : latePolicyOfByte b = none ↔ 1 < b.toNat := by
  unfold latePolicyOfByte
  split_ifs <;> simp <;> bv_omega

theorem notifyOfByte_none : notifyOfByte b = none ↔ 2 < b.toNat := by
  unfold notifyOfByte
  split_ifs <;> simp <;> bv_omega

theorem queueModeOfByte_none : queueModeOfByte b = none ↔ 1 < b.toNat := by
  unfold queueModeOfByte
  split_ifs <;> simp <;> bv_omega

/-- A chain of two reads fails where either does. -/
theorem bind_eq_none_iff_or {α β : Type} {o : Option α} {f : α → Option β} {P Q : Prop} (ho : o = none ↔ P)
    (hf : ∀ a, f a = none ↔ Q) : o.bind f = none ↔ P ∨ Q := by
  cases o with
  | none => simp [ho.1 rfl]
  | some a =>
    have hP : ¬P := fun hp => nomatch ho.2 hp
    rw [Option.bind_some, hf, or_iff_right hP]

theorem map_eq_none_iff_of {α β : Type} {o : Option α} {f : α → β} {P : Prop} (ho : o = none ↔ P) : o.map f = none ↔ P :=
  Option.map_eq_none_iff.trans ho

theorem sourceOfBytes_none {line cond : Byte} :
    sourceOfBytes line cond = none ↔ 4 < cond.toNat ∨ (cond.toNat ≠ 0 ∧ 15 < line.toNat) := by
  unfold sourceOfBytes
  by_cases h : cond = 0
  · simp [h]
  · have hne : cond.toNat ≠ 0 := by bv_omega
    rw [if_neg h, bind_eq_none_iff_or (P := 15 < line.toNat) (Q := 4 < cond.toNat) lineOfByte_none fun l => ?_, or_comm]
    · simp [hne]
    · split_ifs <;> simp <;> bv_omega

/-- The count in four bytes that stand in the list. -/
theorem toNat_count32At {bs : List Byte} {i : Nat} (h : i + 4 ≤ bs.length) : (count32At bs i).toNat =
    (((byteAt bs i).toNat * 256 + (byteAt bs (i + 1)).toNat) * 256 + (byteAt bs (i + 2)).toNat) * 256 + (byteAt bs (i + 3)).toNat := by
  have htake : (bs.drop i).take 4 = [byteAt bs i, byteAt bs (i + 1), byteAt bs (i + 2), byteAt bs (i + 3)] := by
    refine List.ext_getElem (by simp; omega) fun k hk hk' => ?_
    have hin : k < 4 := hk'
    rw [List.getElem_take, List.getElem_drop]
    interval_cases k <;> simp only [List.getElem_cons_zero, List.getElem_cons_succ, add_zero] <;>
      exact (Machine.byteAt_eq_getElem _).symm
  rw [count32At, htake]
  have h0 := (byteAt bs i).isLt
  have h1 := (byteAt bs (i + 1)).isLt
  have h2 := (byteAt bs (i + 2)).isLt
  have h3 := (byteAt bs (i + 3)).isLt
  simp only [beNat, List.foldl_cons, List.foldl_nil, BitVec.toNat_ofNat]
  omega

/-! ### Check 5 (R181, R186) -/

theorem filter_map_eq_none_iff_or {α β : Type} {o : Option α} {f : α → β} {p : β → Bool} {P Q : Prop} (ho : o = none ↔ P)
    (hf : ∀ a, o = some a → (p (f a) = false ↔ Q)) : (o.map f).filter p = none ↔ P ∨ Q := by
  cases h : o with
  | none => simp [ho.1 h]
  | some a =>
    have hP : ¬P := fun hp => by rw [h] at ho; exact nomatch ho.2 hp
    rw [or_iff_right hP, ← hf a h, Option.map_some, Option.filter_some]
    cases p (f a) <;> simp

/-- The six requests with ranges that their types do not hold. -/
def Code.ranged : Code → Bool
  | .setFilter | .submit | .list | .setQuota | .fetch | .setQueue => true
  | _ => false

theorem Request.wellFormed_of_typed {r : Request} (h : r.code.ranged = false) : r.wellFormed = true := by
  cases r with
  | setFilter | submit | list | setQuota | fetch | setQueue => cases h
  | _ => rfl

theorem requestInRange_typed {c : Code} {bs : List Byte} (h : c.ranged = false) : requestInRange c bs = requestOfBytes c bs := by
  unfold requestInRange
  cases hr : requestOfBytes c bs with
  | none => rfl
  | some r =>
    have hwf : r.wellFormed = true := Request.wellFormed_of_typed (by rw [Machine.requestOfBytes_code hr]; exact h)
    rw [Option.filter_some, if_pos hwf]

/-! ### SUBMIT -/

theorem Plan.wellFormed_iff (d : Plan) : d.wellFormed = true ↔ (∀ n, d.runs = .left n → n ≠ 0) ∧
    d.period.isSome = d.runs.repeats ∧ (∀ w, d.action = .pulse w → w ≠ 0) ∧ (∀ q, d.period = some q → q ≠ 0) ∧
    (∀ w q, d.action = .pulse w → d.period = some q → w < q) ∧ (∀ l e x, d.anchor = .input l e x → e ≠ .none) := by
  unfold Plan.wellFormed
  simp only [Bool.and_eq_true, and_assoc]
  refine and_congr ?_ (and_congr ?_ (and_congr ?_ (and_congr ?_ (and_congr ?_ ?_))))
  · cases d.runs <;> simp
  · exact beq_iff_eq
  · cases d.action <;> simp
  · cases d.period <;> simp
  · cases d.action <;> cases d.period <;> simp
  · cases d.anchor <;> simp

theorem runsOfRepeat_ne_zero {n : Byte} (h : runsOfRepeat b = .left n) : n ≠ 0 := by
  unfold runsOfRepeat at h
  split at h
  · cases h
  · cases h; bv_omega

theorem runsOfRepeat_repeats (b : Byte) : (runsOfRepeat b).repeats = true ↔ b ≠ 0 := by
  unfold runsOfRepeat
  split
  · next h => subst h; decide
  · simp only [Runs.repeats, bne_iff_ne]; bv_omega

/-- The checks of R72 on a plan whose runs and period stand in the bytes. -/
theorem Plan.wellFormed_of_repeat {d : Plan} {q : Count32} (hruns : d.runs = runsOfRepeat b)
    (hperiod : d.period = if b = 0 then none else some q) : d.wellFormed = true ↔ (∀ w, d.action = .pulse w → w ≠ 0) ∧
      (b ≠ 0 → q ≠ 0) ∧ (∀ w, d.action = .pulse w → b ≠ 0 → w < q) ∧ (∀ l e x, d.anchor = .input l e x → e ≠ .none) := by
  have hleft : ∀ n, d.runs = .left n → n ≠ 0 := fun n h => runsOfRepeat_ne_zero (hruns ▸ h)
  have hsome : d.period.isSome = d.runs.repeats := by
    rw [Bool.eq_iff_iff, hruns, runsOfRepeat_repeats, hperiod]
    by_cases h : b = 0 <;> simp [h]
  have hq : ∀ x, d.period = some x ↔ b ≠ 0 ∧ q = x := fun x => by
    rw [hperiod]
    by_cases h : b = 0 <;> simp [h]
  rw [Plan.wellFormed_iff]
  simp only [hq]
  constructor
  · exact fun ⟨_, _, hw, hp, hwp, he⟩ => ⟨hw, fun hb => hp q ⟨hb, rfl⟩, fun w ha hb => hwp w q ha ⟨hb, rfl⟩, he⟩
  · exact fun ⟨hw, hp, hwp, he⟩ => ⟨hleft, hsome, hw, fun x ⟨hb, hx⟩ => hx ▸ hp hb, fun w x ha ⟨hb, hx⟩ => hx ▸ hwp w ha hb, he⟩

theorem actionOfByte_pulse {w v : Count32} {a : Action} (h : actionOfByte b w = some a) : a = .pulse v ↔ b.toNat = 3 ∧ w = v := by
  unfold actionOfByte at h
  split_ifs at h <;> cases h <;> simp <;> bv_omega

theorem anchorOfBytes_none {kind : Byte} {area : List Byte} : anchorOfBytes kind area = none ↔ 2 < kind.toNat ∨
    (kind.toNat = 1 ∧ (15 < (byteAt area 0).toNat ∨ 3 < (byteAt area 1).toNat)) ∨ (kind.toNat = 2 ∧ 95 < (byteAt area 0).toNat) := by
  unfold anchorOfBytes
  split_ifs with h0 h1 h2
  · subst h0; simp
  · subst h1
    rw [bind_eq_none_iff_or lineOfByte_none fun l => map_eq_none_iff_of edgeSettingOfByte_none]
    simp
  · subst h2
    rw [map_eq_none_iff_of slotOfByte_none]
    simp
  · simp; bv_omega

theorem edgeSettingOfByte_eq_none : edgeSettingOfByte b = some .none ↔ b.toNat = 0 := by
  unfold edgeSettingOfByte
  split_ifs <;> simp <;> bv_omega

/-- The anchor that names no edge. -/
theorem anchorOfBytes_noEdge {kind : Byte} {area : List Byte} {a : Anchor} (h : anchorOfBytes kind area = some a) :
    (∀ l e x, a = .input l e x → e ≠ .none) ↔ ¬(kind.toNat = 1 ∧ (byteAt area 1).toNat = 0) := by
  unfold anchorOfBytes at h
  split_ifs at h with h0 h1 h2
  · subst h0; cases h; simp
  · subst h1
    simp only [Option.bind_eq_some_iff, Option.map_eq_some_iff] at h
    obtain ⟨l, _, e, he, rfl⟩ := h
    rw [← edgeSettingOfByte_eq_none, he]
    simp
  · subst h2
    obtain ⟨i, _, rfl⟩ := Option.map_eq_some_iff.1 h
    simp

theorem planOfBytes_none {bs : List Byte} : planOfBytes bs = none ↔ 11 < (byteAt bs 0).toNat ∨ 3 < (byteAt bs 1).toNat ∨
    2 < (byteAt bs 2).toNat ∨ 1 < (byteAt bs 3).toNat ∨ anchorOfBytes (byteAt bs 4) (bs.drop 16) = none :=
  bind_eq_none_iff_or outputOfByte_none fun _ => bind_eq_none_iff_or actionOfByte_none fun _ =>
    bind_eq_none_iff_or notifyOfByte_none fun _ => bind_eq_none_iff_or latePolicyOfByte_none fun _ => Option.map_eq_none_iff

theorem planOfBytes_some {bs : List Byte} {d : Plan} (h : planOfBytes bs = some d) :
    actionOfByte (byteAt bs 1) (count32At bs 8) = some d.action ∧ anchorOfBytes (byteAt bs 4) (bs.drop 16) = some d.anchor ∧
    d.runs = runsOfRepeat (byteAt bs 5) ∧ d.period = if byteAt bs 5 = 0 then none else some (count32At bs 12) := by
  simp only [planOfBytes, Option.bind_eq_some_iff, Option.map_eq_some_iff] at h
  obtain ⟨o, _, a, ha, n, _, l, _, anchor, hanchor, rfl⟩ := h
  exact ⟨ha, hanchor, rfl, rfl⟩

theorem byteAt_drop (bs : List Byte) (i k : Nat) : byteAt (bs.drop i) k = byteAt bs (i + k) := by
  simp only [byteAt, List.getD_eq_getElem?_getD, List.getElem?_drop]

/-- Which plans R72 refuses. -/
theorem wellFormed_planOfBytes {bs : List Byte} {d : Plan} (h : planOfBytes bs = some d) : d.wellFormed = false ↔
    ((byteAt bs 1).toNat = 3 ∧ (count32At bs 8).toNat = 0) ∨ ((byteAt bs 5).toNat ≠ 0 ∧ (count32At bs 12).toNat = 0) ∨
    ((byteAt bs 1).toNat = 3 ∧ (byteAt bs 5).toNat ≠ 0 ∧ (count32At bs 12).toNat ≤ (count32At bs 8).toNat) ∨
    ((byteAt bs 4).toNat = 1 ∧ (byteAt bs 17).toNat = 0) := by
  obtain ⟨haction, hanchor, hruns, hperiod⟩ := planOfBytes_some h
  have hzero : byteAt bs 5 ≠ 0 ↔ (byteAt bs 5).toNat ≠ 0 := by bv_omega
  have hwidth : (∀ w, d.action = .pulse w → w ≠ 0) ↔ ((byteAt bs 1).toNat = 3 → (count32At bs 8).toNat ≠ 0) := by
    simp only [actionOfByte_pulse haction, and_imp, ne_eq, ← BitVec.toNat_inj]
    exact ⟨fun hw h3 => hw _ h3 rfl, fun hw w h3 he => he ▸ hw h3⟩
  have hless : (∀ w, d.action = .pulse w → byteAt bs 5 ≠ 0 → w < count32At bs 12) ↔
      ((byteAt bs 1).toNat = 3 → (byteAt bs 5).toNat ≠ 0 → (count32At bs 8).toNat < (count32At bs 12).toNat) := by
    simp only [actionOfByte_pulse haction, hzero, BitVec.lt_def, and_imp]
    exact ⟨fun hw h3 h5 => hw _ h3 rfl h5, fun hw w h3 he h5 => he ▸ hw h3 h5⟩
  have hperiod0 : (byteAt bs 5 ≠ 0 → count32At bs 12 ≠ 0) ↔ ((byteAt bs 5).toNat ≠ 0 → (count32At bs 12).toNat ≠ 0) := by
    rw [hzero, ne_eq (count32At bs 12), ← BitVec.toNat_inj]
    rfl
  have hedge := anchorOfBytes_noEdge hanchor
  rw [byteAt_drop] at hedge
  rw [← Bool.not_eq_true, Plan.wellFormed_of_repeat hruns hperiod, hwidth, hperiod0, hless, hedge, not_and_or,
    not_and_or, not_and_or, not_not]
  simp only [Classical.not_imp, ne_eq, not_not, Nat.not_lt]

/-! ### Which operand bytes each request is refused for (R186) -/

theorem toNat_word16At {bs : List Byte} {i : Nat} (h : i + 2 ≤ bs.length) :
    (word16At bs i).toNat = (byteAt bs i).toNat * 256 + (byteAt bs (i + 1)).toNat := by
  have htake : (bs.drop i).take 2 = [byteAt bs i, byteAt bs (i + 1)] := by
    refine List.ext_getElem (by simp; omega) fun k hk hk' => ?_
    have hin : k < 2 := hk'
    rw [List.getElem_take, List.getElem_drop]
    interval_cases k <;> simp only [List.getElem_cons_zero, List.getElem_cons_succ, add_zero] <;>
      exact (Machine.byteAt_eq_getElem _).symm
  rw [word16At, htake]
  have h0 := (byteAt bs i).isLt
  have h1 := (byteAt bs (i + 1)).isLt
  simp only [beNat, List.foldl_cons, List.foldl_nil, BitVec.toNat_ofNat]
  omega

section
variable {bs : List Byte}

theorem filter_some_none {α : Type} {p : α → Bool} {a : α} : (some a).filter p = none ↔ p a = false := by
  rw [Option.filter_some]
  cases p a <;> simp

theorem setFilter_none (h : bs.length = 3) :
    requestInRange .setFilter bs = none ↔ (byteAt bs 0).toNat = 0 ∧ (byteAt bs 1).toNat = 0 := by
  have hword := toNat_word16At (bs := bs) (i := 0) (by omega)
  refine filter_some_none.trans ?_
  simp only [Request.wellFormed, bne_eq_false_iff_eq, ← BitVec.toNat_inj, hword]
  simp

theorem list_none : requestInRange .list bs = none ↔ 95 < (byteAt bs 0).toNat := by
  refine filter_some_none.trans ?_
  simp only [Request.wellFormed, decide_eq_false_iff_not, BitVec.le_def, Nat.not_le]
  rfl

theorem fetch_none : requestInRange .fetch bs = none ↔ (byteAt bs 0).toNat = 0 ∨ 4 < (byteAt bs 0).toNat := by
  refine filter_some_none.trans ?_
  simp only [Request.wellFormed, Bool.and_eq_false_iff, decide_eq_false_iff_not]
  bv_omega

theorem setQuota_none : requestInRange .setQuota bs = none ↔ 2 < (byteAt bs 0).toNat ∨ 96 < (byteAt bs 1).toNat := by
  refine filter_map_eq_none_iff_or portOfByte_none fun q _ => ?_
  simp only [Request.wellFormed, decide_eq_false_iff_not, BitVec.le_def, Nat.not_le]
  rfl

theorem setQueue_none : requestInRange .setQueue bs = none ↔
    1 < (byteAt bs 0).toNat ∨ (byteAt bs 1).toNat = 0 ∨ 64 < (byteAt bs 1).toNat := by
  refine filter_map_eq_none_iff_or queueModeOfByte_none fun m _ => ?_
  simp only [Request.wellFormed, Bool.and_eq_false_iff, decide_eq_false_iff_not]
  bv_omega

/-- SUBMIT is refused for a byte without a meaning, or by the checks of R72. -/
theorem submit_none : requestInRange .submit bs = none ↔ 11 < (byteAt bs 0).toNat ∨ 3 < (byteAt bs 1).toNat ∨
    2 < (byteAt bs 2).toNat ∨ 1 < (byteAt bs 3).toNat ∨ 2 < (byteAt bs 4).toNat ∨
    ((byteAt bs 1).toNat = 3 ∧ (count32At bs 8).toNat = 0) ∨ ((byteAt bs 5).toNat ≠ 0 ∧ (count32At bs 12).toNat = 0) ∨
    ((byteAt bs 1).toNat = 3 ∧ (byteAt bs 5).toNat ≠ 0 ∧ (count32At bs 12).toNat ≤ (count32At bs 8).toNat) ∨
    ((byteAt bs 4).toNat = 1 ∧ (15 < (byteAt bs 16).toNat ∨ (byteAt bs 17).toNat = 0 ∨ 3 < (byteAt bs 17).toNat)) ∨
    ((byteAt bs 4).toNat = 2 ∧ 95 < (byteAt bs 16).toNat) := by
  refine (filter_map_eq_none_iff_or (p := Request.wellFormed) (f := Request.submit) planOfBytes_none
    fun d hd => wellFormed_planOfBytes hd).trans ?_
  simp only [anchorOfBytes_none, byteAt_drop, Nat.reduceAdd]
  omega

end

namespace Machine

/-- Check 5 in an OPEN session of the supervisor: the operands that are refused, and the request that the others give. -/
theorem acceptance_of_none_iff {c : Code} {ops : List Byte} {bad : Prop} (h : ops.length = c.operandBytes)
    (hbad : requestInRange c ops = none ↔ bad) :
    (bad → acceptance .isOpen true (some c.byte) ops = .answered ⟨.badArgument, .empty⟩) ∧
    (¬bad → ∃ r, acceptance .isOpen true (some c.byte) ops = .awaiting r ∧ r.code = c) := by
  rw [acceptance_code, checkRequest_range h rfl fun _ => rfl, ← hbad]
  cases hr : requestInRange c ops with
  | none => exact ⟨fun _ => rfl, fun hn => absurd rfl hn⟩
  | some r => exact ⟨nofun, fun _ => ⟨r, rfl, (requestInRange_some hr).1⟩⟩

/-- The same for the requests whose ranges their types hold. -/
theorem acceptance_typed {c : Code} {ops : List Byte} {bad : Prop} (h : ops.length = c.operandBytes) (hc : c.ranged = false)
    (hbad : requestOfBytes c ops = none ↔ bad) :
    (bad → acceptance .isOpen true (some c.byte) ops = .answered ⟨.badArgument, .empty⟩) ∧
    (¬bad → ∃ r, acceptance .isOpen true (some c.byte) ops = .awaiting r ∧ r.code = c) :=
  acceptance_of_none_iff h (by rw [requestInRange_typed hc, hbad])

theorem some_none_iff {α : Type} {a : α} : some a = none ↔ False := ⟨nofun, nofun⟩

/-- Settles O47, code by code. -/
theorem badOperandBytesAreRefused : Obligations.BadOperandBytesAreRefused := by
  unfold Obligations.BadOperandBytesAreRefused
  intro c ops h
  cases c with
  | openSession | closeSession | ping | status | setLapse | readTime | setDivide | readInputs | readOutputs =>
    exact acceptance_typed h rfl some_none_iff
  | setFilter => exact acceptance_of_none_iff h (setFilter_none h)
  | claim | writeOutput =>
    exact acceptance_typed h rfl (bind_eq_none_iff_or outputOfByte_none fun _ => map_eq_none_iff_of flagOfByte_none)
  | withdraw | release | reclaim => exact acceptance_typed h rfl (map_eq_none_iff_of outputOfByte_none)
  | setSafe =>
    exact acceptance_typed h rfl (bind_eq_none_iff_or outputOfByte_none fun _ => bind_eq_none_iff_or flagOfByte_none fun _ =>
      map_eq_none_iff_of membershipOfByte_none)
  | submit =>
    have hlen : ops.length = 22 := h
    refine acceptance_of_none_iff h (submit_none.trans ?_)
    rw [toNat_count32At (by omega), toNat_count32At (by omega)]
    rfl
  | query | cancel => exact acceptance_typed h rfl (map_eq_none_iff_of (map_eq_none_iff_of slotOfByte_none))
  | list => exact acceptance_of_none_iff h list_none
  | setQuota => exact acceptance_of_none_iff h setQuota_none
  | trip | ackTrip | setReleaseWindow => exact acceptance_typed h rfl (map_eq_none_iff_of groupOfByte_none)
  | clearTrip => exact acceptance_typed h rfl (bind_eq_none_iff_or groupOfByte_none fun _ => map_eq_none_iff_of flagOfByte_none)
  | setTripSource =>
    exact acceptance_typed h rfl (bind_eq_none_iff_or groupOfByte_none fun _ => bind_eq_none_iff_or placeOfByte_none fun _ =>
      map_eq_none_iff_of sourceOfBytes_none)
  | subscribe =>
    exact acceptance_typed h rfl (bind_eq_none_iff_or lineOfByte_none fun _ => bind_eq_none_iff_or edgeSettingOfByte_none fun _ =>
      map_eq_none_iff_of flagOfByte_none)
  | fetch => exact acceptance_of_none_iff h fetch_none
  | setQueue => exact acceptance_of_none_iff h setQueue_none

end Machine

/-! ### The operands of a request read back (R184, R185) -/

theorem toNat_finByte {n : Nat} (h : n ≤ 256) (i : Fin n) : (finByte i).toNat = i.val :=
  Machine.toNat_ofNat_of_lt (by omega)

theorem outputOfByte_finByte (o : Output) : outputOfByte (finByte o) = some o := by
  have h := toNat_finByte (by decide) o
  simp only [outputOfByte, h, o.isLt, dite_true]

theorem lineOfByte_finByte (l : Line) : lineOfByte (finByte l) = some l := by
  have h := toNat_finByte (by decide) l
  simp only [lineOfByte, h, l.isLt, dite_true]

theorem slotOfByte_finByte (i : SlotNo) : slotOfByte (finByte i) = some i := by
  have h := toNat_finByte (n := 96) (by decide) i
  have hlt : i.val < 96 := i.isLt
  simp only [slotOfByte, h, hlt, dite_true]

theorem placeOfByte_finByte (i : Place) : placeOfByte (finByte i) = some i := by
  have h := toNat_finByte (by decide) i
  simp only [placeOfByte, h, i.isLt, dite_true]

theorem flagOfByte_flagByte (f : Bool) : flagOfByte (flagByte f) = some f := by cases f <;> rfl
theorem portOfByte_byte (p : Port) : portOfByte p.byte = some p := by cases p <;> rfl
theorem groupOfByte_byte (g : Group) : groupOfByte g.byte = some g := by cases g <;> rfl
theorem edgeSettingOfByte_byte (e : EdgeSetting) : edgeSettingOfByte e.byte = some e := by cases e <;> rfl
theorem latePolicyOfByte_byte (l : LatePolicy) : latePolicyOfByte l.byte = some l := by cases l <;> rfl
theorem notifyOfByte_byte (n : Notify) : notifyOfByte n.byte = some n := by cases n <;> rfl
theorem queueModeOfByte_byte (m : QueueMode) : queueModeOfByte m.byte = some m := by cases m <;> rfl
theorem actionOfByte_byte (a : Action) : actionOfByte a.byte a.width = some a := by cases a <;> rfl

theorem membershipOfByte_byte (m : Option Group) : membershipOfByte (membershipByte m) = some m := by
  cases m with
  | none => rfl
  | some g => cases g <;> rfl

theorem sourceOfBytes_bytes (c : Option Source) :
    sourceOfBytes (byteAt (sourceBytes c) 0) (byteAt (sourceBytes c) 1) = some c := by
  cases c with
  | none => rfl
  | some x =>
    obtain ⟨l, cond⟩ := x
    show sourceOfBytes (finByte l) cond.byte = _
    unfold sourceOfBytes
    rw [lineOfByte_finByte]
    cases cond <;> rfl

/-- A number's bytes, standing in a list, give it back. -/
theorem beNat_take_append {n x i : Nat} {bs rest : List Byte} (hx : x < 256 ^ n) (h : bs.drop i = beBytes n x ++ rest) :
    beNat ((bs.drop i).take n) = x := by
  rw [h, List.take_left' (length_beBytes n x), beNat_beBytes, Nat.mod_eq_of_lt hx]

theorem count32At_of_drop {bs rest : List Byte} {i : Nat} {x : Count32} (h : bs.drop i = count32Bytes x ++ rest) :
    count32At bs i = x := by
  rw [count32At, beNat_take_append x.isLt h, BitVec.ofNat_toNat, BitVec.setWidth_eq]

theorem word16At_of_drop {bs rest : List Byte} {i : Nat} {x : BitVec 16} (h : bs.drop i = word16Bytes x ++ rest) :
    word16At bs i = x := by
  rw [word16At, beNat_take_append x.isLt h, BitVec.ofNat_toNat, BitVec.setWidth_eq]

theorem tickAt_of_drop {bs rest : List Byte} {i : Nat} {x : Tick} (h : bs.drop i = tickBytes x ++ rest) : tickAt bs i = x := by
  rw [tickAt, beNat_take_append x.isLt h, BitVec.ofNat_toNat, BitVec.setWidth_eq]

theorem anchorOfBytes_bytes (a : Anchor) : anchorOfBytes a.bytes.1 a.bytes.2 = some a := by
  cases a with
  | absolute due =>
    show some (Anchor.absolute (tickAt _ 0)) = _
    rw [tickAt_of_drop rfl]
  | input line edge offset =>
    show (lineOfByte (finByte line)).bind (fun l => (edgeSettingOfByte edge.byte).map fun e => Anchor.input l e (count32At _ 2)) = _
    rw [lineOfByte_finByte, Option.bind_some, edgeSettingOfByte_byte, Option.map_some,
      count32At_of_drop (rest := []) (List.append_nil _).symm]
  | entry h offset =>
    show (slotOfByte (finByte h.slot)).map (fun i => Anchor.entry ⟨i, h.gen⟩ (count32At _ 2)) = _
    rw [slotOfByte_finByte, Option.map_some, count32At_of_drop (rest := []) (List.append_nil _).symm]

theorem runsOfRepeat_repeatByte {r : Runs} (h : ∀ n, r = .left n → n ≠ 0) : runsOfRepeat r.repeatByte = r := by
  cases r with
  | free => rfl
  | left n =>
    have hn := h n rfl
    show (if n - 1 = 255 then Runs.free else .left (n - 1 + 1)) = _
    rw [if_neg (by bv_omega), BitVec.sub_add_cancel]

theorem repeatByte_eq_zero {r : Runs} : r.repeatByte = 0 ↔ r.repeats = false := by
  cases r with
  | free => decide
  | left n =>
    simp only [Runs.repeatByte, Runs.repeats, bne_eq_false_iff_eq]
    bv_omega

/-- The operand bytes of SUBMIT give the plan back where it is in range. -/
theorem planOfBytes_bytes {d : Plan} (h : d.wellFormed = true) : planOfBytes d.bytes = some d := by
  obtain ⟨hruns, hperiod, _⟩ := (Plan.wellFormed_iff d).1 h
  have hwidth : count32At d.bytes 8 = d.action.width := count32At_of_drop rfl
  have htag : word16At d.bytes 6 = d.tag := word16At_of_drop rfl
  have hcount : count32At d.bytes 12 = d.period.getD 0 := count32At_of_drop rfl
  have hrepeat : (if d.runs.repeatByte = 0 then none else some (d.period.getD 0)) = d.period := by
    cases hp : d.period with
    | none => rw [hp] at hperiod; exact if_pos (repeatByte_eq_zero.2 hperiod.symm)
    | some q => rw [hp] at hperiod; exact if_neg fun h0 => by rw [repeatByte_eq_zero.1 h0] at hperiod; cases hperiod
  have hread : planOfBytes d.bytes = (outputOfByte (finByte d.output)).bind fun output =>
      (actionOfByte d.action.byte (count32At d.bytes 8)).bind fun action => (notifyOfByte d.notify.byte).bind fun notify =>
      (latePolicyOfByte d.late.byte).bind fun late => (anchorOfBytes d.anchor.bytes.1 d.anchor.bytes.2).map fun anchor =>
        { output, action, anchor, late, notify
          runs := runsOfRepeat d.runs.repeatByte
          period := if d.runs.repeatByte = 0 then none else some (count32At d.bytes 12)
          tag := word16At d.bytes 6 } := rfl
  rw [hread, hwidth, htag, hcount, hrepeat, outputOfByte_finByte, actionOfByte_byte, notifyOfByte_byte, latePolicyOfByte_byte,
    anchorOfBytes_bytes, runsOfRepeat_repeatByte hruns]
  rfl

theorem handleOfBytes_bytes (h : Handle) : handleOfBytes [finByte h.slot, h.gen] = some h := by
  show (slotOfByte (finByte h.slot)).map _ = _
  rw [slotOfByte_finByte]
  rfl

/-- The operand bytes of every request in range give it back. -/
theorem requestOfBytes_operands {r : Request} (h : r.wellFormed = true) : requestOfBytes r.code r.operands = some r := by
  cases r with
  | openSession | closeSession | ping | status | readTime | readInputs | readOutputs | setDivide v | list k | fetch n => rfl
  | setLapse i =>
    show some (Request.setLapse (count32At _ 0)) = _
    rw [count32At_of_drop (rest := []) (List.append_nil _).symm]
  | setFilter ls n =>
    show some (Request.setFilter (word16At _ 0) n) = _
    rw [word16At_of_drop (rest := [n]) rfl]
  | claim o w | writeOutput o w =>
    show (outputOfByte (finByte o)).bind (fun o => (flagOfByte (flagByte w)).map _) = _
    rw [outputOfByte_finByte, flagOfByte_flagByte]
    rfl
  | withdraw o | release o | reclaim o => exact congrArg (Option.map _) (outputOfByte_finByte o)
  | setSafe o l g =>
    show (outputOfByte (finByte o)).bind (fun o => (flagOfByte (flagByte l)).bind fun l =>
      (membershipOfByte (membershipByte g)).map _) = _
    rw [outputOfByte_finByte, flagOfByte_flagByte, membershipOfByte_byte]
    rfl
  | submit d => exact congrArg (Option.map _) (planOfBytes_bytes h)
  | query i | cancel i => exact congrArg (Option.map _) (handleOfBytes_bytes i)
  | setQuota q n => exact congrArg (Option.map _) (portOfByte_byte q)
  | trip g | ackTrip g => exact congrArg (Option.map _) (groupOfByte_byte g)
  | clearTrip g f =>
    show (groupOfByte g.byte).bind (fun g => (flagOfByte (flagByte f)).map _) = _
    rw [groupOfByte_byte, flagOfByte_flagByte]
    rfl
  | setTripSource g i c =>
    have hsource : byteAt (Request.setTripSource g i c).operands 2 = byteAt (sourceBytes c) 0 ∧
        byteAt (Request.setTripSource g i c).operands 3 = byteAt (sourceBytes c) 1 := ⟨rfl, rfl⟩
    show (groupOfByte g.byte).bind (fun g => (placeOfByte (finByte i)).bind fun i => (sourceOfBytes (byteAt _ 2) (byteAt _ 3)).map _) = _
    rw [groupOfByte_byte, placeOfByte_finByte, hsource.1, hsource.2, sourceOfBytes_bytes]
    rfl
  | setReleaseWindow g w =>
    show (groupOfByte g.byte).map (fun g => Request.setReleaseWindow g (count32At _ 1)) = _
    rw [groupOfByte_byte, count32At_of_drop (rest := []) (List.append_nil _).symm]
    rfl
  | subscribe l e f =>
    show (lineOfByte (finByte l)).bind (fun l => (edgeSettingOfByte e.byte).bind fun e => (flagOfByte (flagByte f)).map _) = _
    rw [lineOfByte_finByte, edgeSettingOfByte_byte, flagOfByte_flagByte]
    rfl
  | setQueue m t => exact congrArg (Option.map _) (queueModeOfByte_byte m)

theorem length_operands (r : Request) : r.operands.length = r.code.operandBytes := by
  cases r with
  | submit d => cases ha : d.anchor <;> simp [Request.operands, Plan.bytes, Anchor.bytes, ha, Request.code, Code.operandBytes,
      word16Bytes, tickBytes]
  | setTripSource g i c => cases c <;> rfl
  | _ => rfl

theorem operandBytes_le (c : Code) : c.operandBytes ≤ 22 := by
  cases c <;> decide

/-- Settles O53. -/
theorem requestFrameRoundTrip : Obligations.RequestFrameRoundTrip := by
  unfold Obligations.RequestFrameRoundTrip
  intro r seq beyond h
  have hlen := length_operands r
  have hle := operandBytes_le r.code
  have hsize : (BitVec.ofNat 8 (r.operands.length + 4)).toNat = r.operands.length + 4 := Machine.toNat_ofNat_of_lt (by omega)
  refine ⟨crc8 (BitVec.ofNat 8 (r.operands.length + 4) :: seq :: r.code.byte :: r.operands), ?_,
    Machine.codeOfByte_byte r.code, hlen, ?_, ?_⟩
  · rw [Request.frame, List.append_assoc]
    exact (Machine.judge_whole (len := BitVec.ofNat 8 (r.operands.length + 4)) (bs := seq :: r.code.byte :: r.operands) _ beyond
      (by rw [hsize]; rfl) (by omega) (by omega)).trans (if_pos rfl)
  · simp [Request.frame, hlen]
  · rw [requestInRange, requestOfBytes_operands h, Option.filter_some, if_pos h]

end Sys2Proof
end

section
/-! O39, O40 and O41: what arrives at an event queue, and what FETCH takes out of it (sections 6.9, 7.3 to 7.5, 7.7). -/

namespace Sys2Proof.Machine

set_option Elab.async false

variable {s : State} {p : Port} {q : Queue} {m : Msg}

/-! ### The head of a batch (R136) -/

theorem takeFromBatch_append (ahead : List (List Msg)) (m : Msg) (later : List Msg) (behind : List (List Msg)) :
    takeFromBatch (ahead ++ (m :: later) :: behind) ahead.length =
      some (m, ahead ++ if later = [] then behind else later :: behind) := by
  induction ahead with
  | nil => rfl
  | cons b bs ih =>
    rw [List.cons_append, List.length_cons, takeFromBatch, ih]
    rfl

/-- A batch waits behind the TRIP record of the other group's trip event on the same edge (R131). -/
theorem batchWaits_append {ahead : List (List Msg)} {b : List Msg} {behind : List (List Msg)} :
    batchWaits (ahead ++ b :: behind) ahead.length = true ↔ ∃ a ∈ ahead, ∃ x ∈ a, ∃ y ∈ b, ∃ g h, g ≠ h ∧
      (∃ i n, x.kind = .trip g i n) ∧ (∃ j k, y.kind = .trip h j k) ∧ ∃ e, x.edge = some e ∧ y.edge = some e := by
  have hbatch : (ahead ++ b :: behind).getD ahead.length [] = b := by simp
  rw [batchWaits_iff, hbatch, List.take_left]
  simp only [edgeTrip_iff]
  refine exists_congr fun a => and_congr_right fun _ => exists_congr fun x => and_congr_right fun _ => exists_congr fun y =>
    and_congr_right fun _ => exists_congr fun g => exists_congr fun h => ⟨?_, ?_⟩
  · rintro ⟨e, ⟨hx, hxe⟩, ⟨hy, hye⟩, hne⟩
    exact ⟨hne, hx, hy, e, hxe, hye⟩
  · rintro ⟨hne, hx, hy, e, hxe, hye⟩
    exact ⟨e, ⟨hx, hxe⟩, ⟨hy, hye⟩, hne⟩

/-! ### Room and overflow (R137 to R139) -/

theorem hasRoom_false : hasRoom q m = false ↔
    (m.kind.isSystem = true → 64 ≤ q.records.length) ∧ (¬m.kind.isSystem = true → 56 ≤ q.records.length) := by
  rw [← Bool.not_eq_true, hasRoom_iff]
  cases m.kind.isSystem <;> simp

theorem any_general_of_mem {older newer : List Record} {x : Record} (hx : x.isGeneral = true) :
    (older ++ x :: newer).any Record.isGeneral = true :=
  List.any_eq_true.2 ⟨x, by simp, hx⟩

/-- STOP discards a general record. -/
theorem stopOverflow_general (h : m.kind.isSystem = false) : stopOverflow q m = countLoss q :=
  if_neg (by rw [h]; exact Bool.false_ne_true)

/-- STOP gives a system record the place of the newest general record. -/
theorem stopOverflow_displaces {older newer : List Record} {x : Record} (h : m.kind.isSystem = true)
    (hrs : q.records = older ++ x :: newer) (hx : x.isGeneral = true) (hn : newer.all Record.isSystem = true) :
    stopOverflow q m = acceptRecord (countLoss { q with records := older ++ newer }) m := by
  rw [stopOverflow, if_pos (by rw [h, hrs, any_general_of_mem hx]; rfl), hrs, dropNewestGeneral_split hx hn]

/-- STOP discards a system record where every record is one. -/
theorem stopOverflow_system (h : q.records.all Record.isSystem = true) : stopOverflow q m = countLoss q :=
  if_neg (by rw [(any_general_iff _).2 h, Bool.and_false]; exact Bool.false_ne_true)

/-- RING removes the oldest general record. -/
theorem ringOverflow_displaces {older newer : List Record} {x : Record} (hrs : q.records = older ++ x :: newer)
    (hx : x.isGeneral = true) (ho : older.all Record.isSystem = true) :
    ringOverflow q m = acceptRecord (countLoss { q with records := older ++ newer }) m := by
  rw [ringOverflow, if_pos (by rw [hrs, any_general_of_mem hx]), hrs, dropOldestGeneral_split hx ho]

/-- With no general record RING discards a general arrival, and a system record takes the place of the oldest one. -/
theorem ringOverflow_system (h : q.records.all Record.isSystem = true) : ringOverflow q m =
    if m.kind.isSystem = true then acceptRecord (countLoss { q with records := q.records.tail }) m else countLoss q :=
  if_neg (by rw [(any_general_iff _).2 h]; exact Bool.false_ne_true)

/-! ### The general records of a list -/

theorem countP_acceptRecord (q : Queue) (m : Msg) : (acceptRecord q m).records.countP Record.isGeneral =
    q.records.countP Record.isGeneral + if m.kind.isSystem then 0 else 1 := by
  simp only [acceptRecord, List.countP_append, List.countP_singleton, Record.isGeneral]
  by_cases hk : m.kind.isSystem = true <;> simp [hk]

/-- An arrival leaves a list of 56 general records at most. -/
theorem arrive_general (h : q.records.countP Record.isGeneral ≤ 56) : (arrive q m).records.countP Record.isGeneral ≤ 56 := by
  obtain ⟨ha, _⟩ | ⟨ha, _, hroom⟩ | ⟨ha, _⟩ | ⟨rs, ha, _, _, hsub, _, hrs⟩ := arrive_cases q m <;> rw [ha]
  · exact h
  · have hle := List.countP_le_length (p := Record.isGeneral) (l := q.records)
    rw [countP_acceptRecord]
    obtain ⟨hsys, _⟩ | ⟨hsys, hlt⟩ := (hasRoom_iff q m).1 hroom
    · rw [if_pos hsys]; omega
    · rw [if_neg (by rw [hsys]; decide)]; omega
  · exact h
  · rw [countP_acceptRecord]
    show rs.countP Record.isGeneral + _ ≤ 56
    obtain hrs | ⟨hsys, hzero⟩ := hrs
    · split <;> omega
    · have hle := hsub.countP_le (p := Record.isGeneral)
      rw [if_pos hsys]; omega

/-! ### RECORD_ARRIVAL -/

theorem recordArrives_append {ahead behind : List (List Msg)} {later : List Msg}
    (h : s.transit.get p = ahead ++ (m :: later) :: behind) (hw : ¬batchWaits (s.transit.get p) ahead.length = true) :
    exec (.recordArrival p ahead.length) s = .next ((s.setTransit (s.transit.set p
      (ahead ++ if later = [] then behind else later :: behind))).setQueue p (arrive (s.queue p) m)) := by
  refine congrArg Host.Outcome.next ((if_neg hw).trans ?_)
  rw [h, takeFromBatch_append]
  rfl

/-- Settles O39. -/
theorem arrivalsAreAdmittedOrOverflow : Obligations.ArrivalsAreAdmittedOrOverflow := by
  unfold Obligations.ArrivalsAreAdmittedOrOverflow
  intro s p ahead m later behind h
  have hwaits : batchWaits (s.transit.get p) ahead.length = true ↔ _ := h ▸ batchWaits_append
  have becomes : ∀ {q' : Queue}, ¬batchWaits (s.transit.get p) ahead.length = true → arrive (s.queue p) m = q' →
      exec (.recordArrival p ahead.length) s = .next ((s.setTransit (s.transit.set p
        (ahead ++ if later = [] then behind else later :: behind))).setQueue p q') := fun hn hq =>
    hq ▸ recordArrives_append h hn
  rw [← hwaits]
  refine ⟨fun hw => congrArg Host.Outcome.next (if_pos hw), fun hw hi => becomes hw (arrive_shut m hi),
    fun hw hi hfull => becomes hw ?room, fun hw hi hfull hm => ?stop, fun hw hi hfull hm => ?ring, fun hq t ht => ?general⟩
  case room =>
    rw [← hasRoom_false, Bool.not_eq_false] at hfull
    exact arrive_room hi hfull
  case stop =>
    have hroom := hasRoom_false.2 hfull
    refine ⟨fun hg => becomes hw ?_, fun older x newer hs hrs hx hn => becomes hw ?_, fun hs hall => becomes hw ?_⟩ <;>
      rw [arrive_stop hi hroom hm]
    · exact stopOverflow_general ((Bool.not_eq_true _).mp hg)
    · exact stopOverflow_displaces hs hrs hx hn
    · exact stopOverflow_system hall
  case ring =>
    have hroom := hasRoom_false.2 hfull
    refine ⟨fun older x newer hrs hx ho => becomes hw ?_, fun hg hall => becomes hw ?_,
      fun x newer hs hrs hall => becomes hw ?_⟩ <;> rw [arrive_ring hi hroom hm]
    · exact ringOverflow_displaces hrs hx ho
    · rw [ringOverflow_system hall, if_neg hg]
      rfl
    · rw [ringOverflow_system hall, if_pos hs, hrs]
      rfl
  case general =>
    by_cases hw : batchWaits (s.transit.get p) ahead.length = true
    · cases ht.symm.trans (congrArg Host.Outcome.next (if_pos hw))
      exact hq
    · cases ht.symm.trans (recordArrives_append h hw)
      rw [State.setQueue_queue_self]
      exact arrive_general hq

/-! ### An edge at a queue (R143) -/

theorem accepts_iff {e : EdgeSetting} {d : Dir} :
    accepts e d = true ↔ e = .both ∨ (e = .rise ∧ d = .rise) ∨ (e = .fall ∧ d = .fall) := by
  cases e <;> cases d <;> decide

theorem exec_edgeAtQueue {e : Edge} (h : e ∈ s.published.queues.get p) : exec (.edgeAtQueue p e) s =
    .next ((s.setPublished { s.published with queues := s.published.queues.set p ((s.published.queues.get p).erase e) }).setQueue p
      (edgeAtQueueEvent e (s.queue p))) := congrArg Host.Outcome.next (if_pos h)

/-- Settles O40. -/
theorem edgeReachesTheSubscribedQueue : Obligations.EdgeReachesTheSubscribedQueue := by
  unfold Obligations.EdgeReachesTheSubscribedQueue
  intro s p e h
  refine ⟨fun hn => ?_, fun hy hone => ?_, fun hy hone => ?_⟩ <;> rw [exec_edgeAtQueue h, edgeAtQueueEvent]
  · rw [if_neg (mt accepts_iff.1 hn)]
    exact congrArg Host.Outcome.next (State.setQueue_same (s.setPublished _) p)
  · rw [if_pos (accepts_iff.2 hy), if_neg (by rw [hone]; exact Bool.false_ne_true)]
  · rw [if_pos (accepts_iff.2 hy), if_pos hone, arrive_row]
    rfl

/-! ### FETCH and the attention line (R145, R148) -/

theorem attention_iff : q.attention = true ↔ q.threshold ≤ q.records.length ∨ ∃ r ∈ q.records, r.kind.isSystem = true := by
  rw [Queue.attention, Bool.or_eq_true, decide_eq_true_iff, List.any_eq_true]
  rfl

/-- An accepted system record asserts the line. -/
theorem attention_accept_system (h : m.kind.isSystem = true) : (acceptRecord q m).attention = true :=
  attention_iff.2 (.inr ⟨_, List.mem_append_right _ (List.mem_singleton_self _), h⟩)

/-- A list that loses a general record keeps its system records. -/
theorem system_of_room {rs : List Record} (hlen : rs.length + 1 = q.records.length)
    (hgen : rs.countP Record.isGeneral + 1 = q.records.countP Record.isGeneral) (h : ∃ r ∈ q.records, r.kind.isSystem = true) :
    ∃ r ∈ rs, r.kind.isSystem = true := by
  have hsplit : ∀ l : List Record, l.length = l.countP Record.isSystem + l.countP Record.isGeneral := fun l => by
    rw [List.length_eq_countP_add_countP Record.isSystem]
    congr 2
    funext r
    simp [Record.isGeneral, Record.isSystem]
  have hpos : 0 < q.records.countP Record.isSystem := List.countP_pos_iff.2 h
  have hrs := hsplit rs
  have hq := hsplit q.records
  exact List.countP_pos_iff.1 (by omega : 0 < rs.countP Record.isSystem)

/-- An arrival never releases the line. -/
theorem attention_arrive (h : q.attention = true) : (arrive q m).attention = true := by
  obtain hthreshold | hsystem := attention_iff.1 h
  · refine attention_iff.2 (.inl ?_)
    rw [arrive_threshold]
    exact hthreshold.trans (arrive_length q m)
  · obtain ⟨ha, _⟩ | ⟨ha, _⟩ | ⟨ha, _⟩ | ⟨rs, ha, _, _, _, hlen, hrs⟩ := arrive_cases q m <;> rw [ha]
    · exact h
    · obtain ⟨r, hr, hs⟩ := hsystem
      exact attention_iff.2 (.inr ⟨r, List.mem_append_left _ hr, hs⟩)
    · exact h
    · obtain hgen | ⟨hs, _⟩ := hrs
      · obtain ⟨r, hr, hs⟩ := system_of_room hlen hgen hsystem
        exact attention_iff.2 (.inr ⟨r, List.mem_append_left _ hr, hs⟩)
      · exact attention_accept_system hs

/-- A system record that finds room, or a general record to displace, asserts the line. -/
theorem attention_arrive_system (hi : q.intake = .accepting) (hs : m.kind.isSystem = true)
    (h : q.records.length < 64 ∨ 0 < q.records.countP Record.isGeneral) : (arrive q m).attention = true := by
  obtain ⟨_, hshut⟩ | ⟨ha, _⟩ | ⟨_, _, hroom, hzero⟩ | ⟨rs, ha, _⟩ := arrive_cases q m
  · rw [hi] at hshut; cases hshut
  · rw [ha]; exact attention_accept_system hs
  · have hlen := (hasRoom_false.1 hroom).1 hs
    have hnone := (hzero hs).2
    omega
  · rw [ha]; exact attention_accept_system hs

/-- Settles O41. -/
theorem fetchAndAttentionFollowTheList : Obligations.FetchAndAttentionFollowTheList := by
  unfold Obligations.FetchAndAttentionFollowTheList
  exact ⟨fun s p n f h => ⟨_, _, (List.take_append_drop n.toNat _).symm, List.length_take,
      congrArg Host.Outcome.next (takeRequest_of_eq h rfl rfl)⟩,
    fun q => attention_iff, fun q m h => attention_arrive h, fun q m hi hs h => attention_arrive_system hi hs h⟩

end Sys2Proof.Machine
end

section
/-! O29 to O32: the entries that an edge arms, one firing, the firing pass, and the placement of an armed entry (sections 4.3, 5.1 to
5.3). -/

namespace Sys2Proof.Machine

set_option Elab.async false

variable {s : State} {a : Agenda} {now : Tick} {i : SlotNo}

/-! ### Placement (R64) -/

/-- In a list in due order that begins later than `x`, everything is later. -/
theorem later_of_head {α : Type} {pos : α → Int} {x : Int} {l : List α} (h : l.Pairwise fun j k => pos j ≤ pos k)
    (hhead : ∀ j, l.head? = some j → x < pos j) : ∀ j ∈ l, x < pos j := by
  cases l with
  | nil => nofun
  | cons y ys =>
    have hy := hhead y rfl
    rintro j (_ | ⟨_, hj⟩)
    · exact hy
    · exact hy.trans_le ((List.pairwise_cons.1 h).1 j hj)

/-- Settles O32. -/
theorem placementKeepsTheDueOrder : Obligations.PlacementKeepsTheDueOrder := by
  unfold Obligations.PlacementKeepsTheDueOrder
  intro a now i e phase due start he hsorted
  obtain ⟨ahead, behind, hsplit, harmed, hahead, hbehind⟩ := placeArmed_split a now i he
  have hpair : behind.Pairwise fun j k => slotPosition a now j ≤ slotPosition a now k := by
    have hfilter := List.Pairwise.filter (· ≠ i) hsorted
    rw [hsplit] at hfilter
    exact (List.pairwise_append.1 hfilter).2.1
  exact ⟨⟨ahead, behind, hsplit, harmed, hahead, later_of_head hpair hbehind⟩, placeArmed_sorted i e hsorted, rfl,
    dueOf_placeArmed_self a now i he, (congrArg Slot.gen (placeArmed_get_self a now i e)).trans rfl,
    fun j hj => placeArmed_get_ne a now hj e, rfl, rfl⟩

/-! ### The firing pass (R82) -/

theorem exec_dueReached (s : State) : exec .dueReached s = .next (finishWork (pass s.now (startWork s))) := rfl

/-- A pass with no reached due at the head is no event. -/
theorem runEvent_pass_none (h : reachedHead now s.agenda = none) : runEvent (pass now) s = s :=
  (congrArg finishWork (pass_none (w := startWork s) h)).trans (finishWork_startWork s)

/-- Settles O31. -/
theorem passFiresEveryReachedDue : Obligations.PassFiresEveryReachedDue := by
  unfold Obligations.PassFiresEveryReachedDue
  refine ⟨fun s h => congrArg Host.Outcome.next (runEvent_pass_none h), exec_dueReached, fun w now ha hm => ?_⟩
  have hends := pass_ends (now := now) ha hm
  exact ⟨fun i hr => pass_step ha hm hr, hends, fun hsorted i due hi hd =>
    none_reached (pass_ok now w ha) (pass_sorted ha hsorted) hends hi hd⟩

/-! ### One firing (R83 to R88) -/

section
variable {e : Entry} {w : Work} {late : Bool}

/-- The end of a run that is not the last. -/
theorem endRun_eq {q : Count32} (start : Tick) (hq : e.plan.period = some q) : endRun now i e late start w =
    { st := w.st.setAgenda (placeArmed w.st.agenda now i { e with
        fired := satInc e.fired, runs := Runs.lower e.runs, state := .armed .first (start + q.setWidth 40) (start + q.setWidth 40) })
      sent := w.sent ++ if e.plan.notify = .each then
        [(e.owner, { kind := .entryFired (handleOf w.st.agenda i) e.plan.tag (satInc e.fired) late, time := now })] else [] } := by
  unfold endRun
  rw [hq]
  cases e.plan.notify with
  | each => rfl
  | final => rw [if_neg (by decide), List.append_nil]; rfl
  | never => rw [if_neg (by decide), List.append_nil]; rfl

/-- A completion. -/
theorem completeEntry_eq : completeEntry now i e late w =
    { st := w.st.setAgenda (freeSlot ((dependents w.st.agenda i).foldl (armFromAnchor now) w.st.agenda) i)
      sent := w.sent ++ if e.plan.notify = .never then [] else
        [(e.owner, { kind := .entryDone (handleOf w.st.agenda i) e.plan.tag late, time := now })] } := by
  unfold completeEntry
  cases e.plan.notify with
  | never => rw [if_pos rfl, List.append_nil]; rfl
  | final => rfl
  | each => rfl

/-- The last run's end. -/
theorem fire_completes {phase : Phase} {due start : Tick} (he : w.st.entry i = some e) (hs : e.state = .armed phase due start)
    (hend : ∀ width, e.plan.action = .pulse width → phase = .second) (hlast : Runs.isLast e.runs = true) :
    fire now i w = completeEntry now i e (isLate now due) (applyLevel e.plan.output e.plan.action phase w) := by
  rw [fire_some he hs, advanceEntry_end hend, if_pos hlast]

/-- The end of a run with another to come. -/
theorem fire_endsRun {phase : Phase} {due start : Tick} (he : w.st.entry i = some e) (hs : e.state = .armed phase due start)
    (hend : ∀ width, e.plan.action = .pulse width → phase = .second) (hmore : Runs.isLast e.runs = false) :
    fire now i w = endRun now i e (isLate now due) start (applyLevel e.plan.output e.plan.action phase w) := by
  rw [fire_some he hs, advanceEntry_end hend, hmore]
  rfl
end

/-- Settles O30, along the three ends of a firing. -/
theorem firingAdvancesTheEntry : Obligations.FiringAdvancesTheEntry := by
  unfold Obligations.FiringAdvancesTheEntry
  intro now i w e phase due start he hs
  refine ⟨fun width hp hfirst => ?_, fun q hend hmore hq => ?_, fun hend hmore hok =>
    ⟨_, armWaiting_arms hok List.filter_sublist, ?_⟩⟩
  · subst hfirst
    rw [fire_some he hs, advanceEntry_pulse hp]
    rfl
  · rw [fire_endsRun he hs hend ((isLast_iff _).2 hmore), endRun_eq start hq, satInc_word16]
    rfl
  · rw [fire_completes he hs hend (by rw [← Bool.not_eq_false, isLast_iff]; exact hmore), completeEntry_eq]
    rfl

/-! ### An edge at the agenda (R93) -/

theorem armedBy_iff {e : Edge} {x : Entry} : armedBy e x = true ↔
    ∃ line edge n, x.plan.anchor = .input line edge n ∧ line = e.line ∧
    (edge = .both ∨ (edge = .rise ∧ e.dir = .rise) ∨ (edge = .fall ∧ e.dir = .fall)) := by
  unfold armedBy
  cases x.plan.anchor with
  | input line edge n =>
    rw [Bool.and_eq_true, beq_iff_eq, accepts_iff]
    exact ⟨fun h => ⟨_, _, _, rfl, h⟩, fun ⟨_, _, _, hx, h⟩ => by cases hx; exact h⟩
  | absolute due => simp
  | entry h n => simp

theorem mem_armedByEdge {e : Edge} {j : SlotNo} (h : a.ok) : j ∈ armedByEdge e a ↔
    ∃ x, (a.slots.get j).entry = some x ∧ x.state = .waiting ∧ armedBy e x = true := by
  rw [armedByEdge, List.mem_filter, entryIs_iff, h.waiting j]
  constructor
  · rintro ⟨⟨x, hx, hw⟩, y, hy, hedge⟩
    rw [hx] at hy; cases hy
    exact ⟨x, hx, hw, hedge⟩
  · rintro ⟨x, hx, hw, hedge⟩
    exact ⟨⟨x, hx, hw⟩, x, hx, hedge⟩

/-- Settles O29. -/
theorem edgeArmsTheWaitingEntries : Obligations.EdgeArmsTheWaitingEntries := by
  unfold Obligations.EdgeArmsTheWaitingEntries
  intro s e he hok
  have hexec : exec (.edgeAtAgenda e) s = .next (runEvent (edgeAtAgendaEvent e)
      (s.setPublished { s.published with agenda := s.published.agenda.erase e })) := congrArg Host.Outcome.next (if_pos he)
  have hnone : armedByEdge e s.agenda = [] → exec (.edgeAtAgenda e) s =
      .next (s.setPublished { s.published with agenda := s.published.agenda.erase e }) := fun h => by
    have hevent : edgeAtAgendaEvent e (startWork (s.setPublished { s.published with agenda := s.published.agenda.erase e })) =
        startWork (s.setPublished { s.published with agenda := s.published.agenda.erase e }) := by
      refine (if_pos h).trans ?_
      show onAgenda (fun a => (armedByEdge e s.agenda).foldl (armFromAnchor e.stamp) a) _ = _
      rw [h]
      rfl
    rw [hexec, runEvent, hevent, finishWork_startWork]
  have hsome : armedByEdge e s.agenda ≠ [] → exec (.edgeAtAgenda e) s = .next (runEvent (pass e.stamp)
      ((s.setPublished { s.published with agenda := s.published.agenda.erase e }).setAgenda
        ((armedByEdge e s.agenda).foldl (armFromAnchor e.stamp) s.agenda))) := fun h => by
    rw [hexec]
    exact congrArg (fun w => Host.Outcome.next (finishWork w)) (if_neg h)
  refine ⟨armedByEdge e s.agenda, _, List.filter_sublist, fun j => ?_, armWaiting_arms hok List.filter_sublist, hnone, hsome,
    fun hr => ?_⟩
  · rw [mem_armedByEdge hok]
    simp only [armedBy_iff]
    constructor
    · rintro ⟨x, hx, hw, line, edge, n, hrest⟩
      exact ⟨x, line, edge, n, hx, hw, hrest⟩
    · rintro ⟨x, line, edge, n, hx, hw, hrest⟩
      exact ⟨x, hx, hw, line, edge, n, hrest⟩
  · by_cases h : armedByEdge e s.agenda = []
    · rw [hnone h, h]
      rfl
    · rw [hsome h, runEvent_pass_none hr]

end Sys2Proof.Machine
end

section
/-! O26 and O27: SUBMIT, its checks in their order, the place of the accepted entry, and the entry that fires at once (sections 4.5, 5.1,
5.2). -/

namespace Sys2Proof.Machine

set_option Elab.async false

variable {s : State} {p : Port} {d : Plan} {f : Flight} {a : Agenda} {now due : Tick} {i : SlotNo}

/-! ### The checks of SUBMIT (R73) -/

theorem anchorStale_eq_false {x : Anchor} : anchorStale a x = false ↔ ∀ h n, x = .entry h n → (liveEntry a h).isSome := by
  cases x with
  | absolute due => simp [anchorStale]
  | input line edge n => simp [anchorStale]
  | entry h n =>
    simp only [anchorStale, Option.isNone_eq_false_iff]
    exact ⟨fun hl h' n' he => by cases he; exact hl, fun hl => hl h n rfl⟩

theorem dueAtOnce_iff {x : Anchor} : dueAtOnce now x = true ↔ ∃ due, x = .absolute due ∧ reached now due = true := by
  cases x with
  | absolute due => exact ⟨fun h => ⟨due, rfl, h⟩, fun ⟨_, he, h⟩ => by cases he; exact h⟩
  | input line edge n => exact ⟨nofun, fun ⟨_, he, _⟩ => nomatch he⟩
  | entry h n => exact ⟨nofun, fun ⟨_, he, _⟩ => nomatch he⟩

/-- A refused SUBMIT changes nothing but its own result, which carries the three counts. -/
theorem exec_submit_refused {x : Status} (h : InFlight s p f (.submit d)) (hx : submitRefusal s p d = some x) :
    exec (.submit p d) s = .next (s.answered p f ⟨x, .counts (s.agenda.live.get p) (s.agenda.quota.get p)
      {i | s.entry i = none}.ncard⟩) := by
  have hat : submitAt p d (startWork s) = (startWork s, answer x (submitCounts s.agenda p)) := by
    simp only [submitAt, startWork_st, hx]
  refine (congrArg Host.Outcome.next (takeRequest_reading h hat)).trans ?_
  rw [submitCounts, freeSlots_eq]
  rfl

section
variable (hmine : (s.output d.output).owner = some p) (hforced : forced s d.output = false)
  (hanchor : anchorStale s.agenda d.anchor = false)

theorem submitRefusal_notOwner (h : ¬(s.output d.output).owner = some p) : submitRefusal s p d = some .notOwner := if_pos h

include hmine

theorem submitRefusal_tripped (h : forced s d.output = true) : submitRefusal s p d = some .tripped :=
  (if_neg (not_not_intro hmine)).trans (if_pos h)

include hforced

/-- The checks from the third one on. -/
theorem submitRefusal_owned : submitRefusal s p d =
    if anchorStale s.agenda d.anchor then some .badAnchor
    else if s.agenda.quota.get p ≤ s.agenda.live.get p then some .overQuota
    else if (lowestFree s.agenda).isNone then some .noSpace
    else if d.late = .drop ∧ dueAtOnce s.now d.anchor then some .late
    else none :=
  (if_neg (not_not_intro hmine)).trans (if_neg (by rw [hforced]; exact Bool.false_ne_true))

theorem submitRefusal_badAnchor (h : ¬∀ h n, d.anchor = .entry h n → (liveEntry s.agenda h).isSome) :
    submitRefusal s p d = some .badAnchor :=
  (submitRefusal_owned hmine hforced).trans (if_pos (by rwa [← anchorStale_eq_false, Bool.not_eq_false] at h))

include hanchor

/-- The checks from the fourth one on. -/
theorem submitRefusal_anchored : submitRefusal s p d =
    if s.agenda.quota.get p ≤ s.agenda.live.get p then some .overQuota
    else if (lowestFree s.agenda).isNone then some .noSpace
    else if d.late = .drop ∧ dueAtOnce s.now d.anchor then some .late
    else none :=
  (submitRefusal_owned hmine hforced).trans (if_neg (by rw [hanchor]; exact Bool.false_ne_true))

theorem submitRefusal_overQuota (h : s.agenda.quota.get p ≤ s.agenda.live.get p) : submitRefusal s p d = some .overQuota :=
  (submitRefusal_anchored hmine hforced hanchor).trans (if_pos h)

theorem submitRefusal_noSpace (hquota : s.agenda.live.get p < s.agenda.quota.get p) (h : ∀ i, s.entry i ≠ none) :
    submitRefusal s p d = some .noSpace :=
  (submitRefusal_anchored hmine hforced hanchor).trans
    ((if_neg (Nat.not_le_of_lt hquota)).trans (if_pos (by rw [lowestFree_none.2 h]; rfl)))

/-- The last check. -/
theorem submitRefusal_space (hquota : s.agenda.live.get p < s.agenda.quota.get p) (h : ∃ i, s.entry i = none) :
    submitRefusal s p d = if d.late = .drop ∧ dueAtOnce s.now d.anchor then some .late else none := by
  refine (submitRefusal_anchored hmine hforced hanchor).trans ((if_neg (Nat.not_le_of_lt hquota)).trans (if_neg ?_))
  rw [Option.isNone_iff_eq_none, lowestFree_none]
  exact fun hfull => h.elim fun i hi => hfull i hi

end

/-! ### The accepted entry (R75) -/

/-- The agenda with a new entry of port `p` in slot `i` in this state, and these lists. -/
def accepted (a : Agenda) (p : Port) (d : Plan) (i : SlotNo) (st : EntryState) (armed waiting : List SlotNo) : Agenda := { a with
  slots := a.slots.set i { gen := (a.slots.get i).gen, entry := some { owner := p, plan := d, runs := d.runs, fired := 0, state := st } }
  live := a.live.set p (a.live.get p + 1), armed := armed, waiting := waiting }

theorem acceptEntry_waiting (hd : ∀ due, d.anchor ≠ .absolute due) :
    acceptEntry now p d i a = accepted a p d i .waiting a.armed (a.waiting ++ [i]) := by
  unfold acceptEntry
  cases hk : d.anchor with
  | absolute due => exact absurd hk (hd due)
  | input line edge n => rfl
  | entry h n => rfl

/-- A FREE slot stands in neither list. -/
theorem free_not_mem (ha : a.ok) (hi : (a.slots.get i).entry = none) : i ∉ a.armed ∧ i ∉ a.waiting := by
  refine ⟨fun h => ?_, fun h => ?_⟩
  · obtain ⟨e, he, _⟩ := (ha.armed i).1 h
    rw [hi] at he; cases he
  · obtain ⟨e, he, _⟩ := (ha.waiting i).1 h
    rw [hi] at he; cases he

theorem filter_ne_self {l : List SlotNo} (h : i ∉ l) : l.filter (· ≠ i) = l :=
  List.filter_eq_self.2 fun _ hj => decide_eq_true fun he => h (he ▸ hj)

/-- An ABSOLUTE entry stands in the armed list behind every due no later than its own. -/
theorem acceptEntry_absolute (ha : a.ok) (hi : (a.slots.get i).entry = none) (hd : d.anchor = .absolute due) :
    ∃ ahead behind, acceptEntry now p d i a = accepted a p d i (.armed .first due due) (ahead ++ i :: behind) a.waiting ∧
      a.armed = ahead ++ behind ∧ (∀ j ∈ ahead, slotPosition a now j ≤ position now due) ∧
      ∀ j, behind.head? = some j → position now due < slotPosition a now j := by
  obtain ⟨harmed, hwaiting⟩ := free_not_mem ha hi
  obtain ⟨ahead, behind, hsplit, hplaced, hahead, hbehind⟩ := placeArmed_split
    { putEntry a i (newEntry p d) with live := a.live.set p (a.live.get p + 1) } now i
    (e := { newEntry p d with state := .armed .first due due }) rfl
  have hsame : a.armed = ahead ++ behind := (filter_ne_self harmed).symm.trans hsplit
  have hposition : ∀ j ∈ ahead ++ behind,
      slotPosition { putEntry a i (newEntry p d) with live := a.live.set p (a.live.get p + 1) } now j = slotPosition a now j :=
    fun j hj => slotPosition_congr (Table.get_set_ne _ (fun he => harmed (by rw [hsame, ← he]; exact hj)) _)
  refine ⟨ahead, behind, ?_, hsame, fun j hj => ?_, fun j hj => ?_⟩
  · unfold acceptEntry
    rw [hd]
    have hslots : (a.slots.set i { gen := (a.slots.get i).gen, entry := some (newEntry p d) }).set i
        { gen := ((a.slots.set i { gen := (a.slots.get i).gen, entry := some (newEntry p d) }).get i).gen
          entry := some { newEntry p d with state := .armed .first due due } } =
        (accepted a p d i (.armed .first due due) (ahead ++ i :: behind) a.waiting).slots := by
      rw [Table.get_set_self, Table.set_set]
      rfl
    have hlist := filter_ne_self hwaiting
    exact congr (congr (congr (congr (congrArg Agenda.mk hslots) hplaced) hlist) rfl) rfl
  · rw [← hposition j (List.mem_append_left _ hj)]
    exact hahead j hj
  · rw [← hposition j (List.mem_append_right _ (List.mem_of_head? hj))]
    exact hbehind j hj

/-! ### The FREE slots -/

theorem free_accepted (st : EntryState) (armed waiting : List SlotNo) (hi : (a.slots.get i).entry = none) :
    freeSlots (accepted a p d i st armed waiting) = {j | (a.slots.get j).entry = none}.ncard - 1 := by
  have hset : {j | ((accepted a p d i st armed waiting).slots.get j).entry = none} = {j | (a.slots.get j).entry = none} \ {i} := by
    ext j
    show ((a.slots.set i _).get j).entry = none ↔ (a.slots.get j).entry = none ∧ j ≠ i
    by_cases hj : j = i
    · subst hj
      rw [Table.get_set_self]
      simp
    · rw [Table.get_set_ne _ hj]
      simp [hj]
  rw [freeSlots_eq, hset]
  exact Set.ncard_sdiff_singleton_of_mem hi

/-! ### Acceptance -/

/-- The work of a SUBMIT that is accepted in slot `i`. -/
def submitted (p : Port) (d : Plan) (i : SlotNo) (w : Work) : Work :=
  if dueAtOnce w.st.now d.anchor then pass w.st.now (onAgenda (acceptEntry w.st.now p d i) w)
  else onAgenda (acceptEntry w.st.now p d i) w

/-- An accepted SUBMIT, with its reply read after the event. -/
theorem exec_submit_accepted (h : InFlight s p f (.submit d)) (hx : submitRefusal s p d = none) (hi : lowestFree s.agenda = some i) :
    exec (.submit p d) s = .next ((runEvent (submitted p d i) s).answered p f ⟨.ok, .submitted
      ((runEvent (submitted p d i) s).agenda.live.get p) ((runEvent (submitted p d i) s).agenda.quota.get p)
      (freeSlots (runEvent (submitted p d i) s).agenda) ⟨i, (s.slot i).gen⟩ s.now
      (submitState (runEvent (submitted p d i) s).agenda i)⟩) := by
  have hat : submitAt p d (startWork s) = (submitted p d i (startWork s), answer .ok (.submitted
      ((submitted p d i (startWork s)).st.agenda.live.get p) ((submitted p d i (startWork s)).st.agenda.quota.get p)
      (freeSlots (submitted p d i (startWork s)).st.agenda) (handleOf s.agenda i) s.now
      (submitState (submitted p d i (startWork s)).st.agenda i))) := by
    simp only [submitAt, startWork_st, hx, hi]
    rfl
  refine (congrArg Host.Outcome.next (takeRequest_eq h ?_)).trans (by rw [hat]; rfl)
  rw [(submitAt_shared p d (startWork s)).port]
  rfl

theorem runEvent_submitted_later (h : dueAtOnce s.now d.anchor = false) :
    runEvent (submitted p d i) s = s.setAgenda (acceptEntry s.now p d i s.agenda) := by
  have hwork : submitted p d i (startWork s) = startWork (s.setAgenda (acceptEntry s.now p d i s.agenda)) :=
    if_neg (by rw [startWork_st, h]; exact Bool.false_ne_true)
  rw [runEvent, hwork, finishWork_startWork]

theorem runEvent_submitted_now (h : dueAtOnce s.now d.anchor = true) :
    runEvent (submitted p d i) s = runEvent (pass s.now) (s.setAgenda (acceptEntry s.now p d i s.agenda)) :=
  congrArg finishWork (if_pos h)

/-- What a reply says of an entry in this state. -/
def EntryState.reply : EntryState → SubmitState
  | .waiting => .waiting
  | .armed _ due _ => .armed due

/-- The reply of an entry that waits for its due. -/
theorem exec_submit_later {st : EntryState} {armed waiting : List SlotNo} (h : InFlight s p f (.submit d))
    (hx : submitRefusal s p d = none) (hi : lowestFree s.agenda = some i) (hdue : dueAtOnce s.now d.anchor = false)
    (haccept : acceptEntry s.now p d i s.agenda = accepted s.agenda p d i st armed waiting) :
    exec (.submit p d) s = .next ((s.setAgenda (accepted s.agenda p d i st armed waiting)).answered p f ⟨.ok, .submitted
      (s.agenda.live.get p + 1) (s.agenda.quota.get p) ({j | s.entry j = none}.ncard - 1) ⟨i, (s.slot i).gen⟩ s.now
      st.reply⟩) := by
  have hlive : (accepted s.agenda p d i st armed waiting).live.get p = s.agenda.live.get p + 1 := PerPort.get_set_self _ _ _
  have hentry : ((accepted s.agenda p d i st armed waiting).slots.get i).entry =
      some { owner := p, plan := d, runs := d.runs, fired := 0, state := st } := congrArg Slot.entry (Table.get_set_self _ _ _)
  have hstate : submitState (accepted s.agenda p d i st armed waiting) i = st.reply := by
    simp only [submitState, hentry]
    cases st <;> rfl
  rw [exec_submit_accepted h hx hi, runEvent_submitted_later hdue, haccept]
  simp only [State.setAgenda_agenda]
  rw [hlive, free_accepted _ _ _ (lowestFree_some.1 hi).1, hstate]
  rfl

/-- What the reply says of the entry that stands after the event. -/
theorem submitState_spec (t : State) (i : SlotNo) : (t.entry i = none → submitState t.agenda i = .completed) ∧
    ∀ e phase next start, t.entry i = some e → e.state = .armed phase next start → submitState t.agenda i = .armed next := by
  have hentry : (t.agenda.slots.get i).entry = t.entry i := rfl
  refine ⟨fun h => ?_, fun e phase next start h hs => ?_⟩
  · simp only [submitState, hentry, h]
  · simp only [submitState, hentry, h, hs]

/-- Settles O26. -/
theorem submitChecksAndPlacesTheEntry : Obligations.SubmitChecksAndPlacesTheEntry := by
  unfold Obligations.SubmitChecksAndPlacesTheEntry
  intro s p d f h
  refine ⟨fun hn => exec_submit_refused h (submitRefusal_notOwner hn),
    fun hm hf => exec_submit_refused h (submitRefusal_tripped hm hf),
    fun hm hf ha => exec_submit_refused h (submitRefusal_badAnchor hm hf ha),
    fun hm hf ha hq => exec_submit_refused h (submitRefusal_overQuota hm hf (anchorStale_eq_false.2 ha) hq),
    fun hm hf ha hq hs => exec_submit_refused h (submitRefusal_noSpace hm hf (anchorStale_eq_false.2 ha) hq hs),
    fun hm hf ha hq hs hl => exec_submit_refused h ((submitRefusal_space hm hf (anchorStale_eq_false.2 ha) hq hs).trans
      (if_pos ⟨hl.1, dueAtOnce_iff.2 hl.2⟩)),
    fun hm hf ha hq hok i hi hlow => ?_⟩
  have hslot : lowestFree s.agenda = some i := lowestFree_some.2 ⟨hi, hlow⟩
  have hpasses : ¬(d.late = .drop ∧ dueAtOnce s.now d.anchor = true) → submitRefusal s p d = none := fun hn =>
    (submitRefusal_space hm hf (anchorStale_eq_false.2 ha) hq ⟨i, hi⟩).trans (if_neg hn)
  refine ⟨fun hd => ?waits, fun due hd hr => ?later, fun due hd hr hrun => ?now⟩
  case waits =>
    have hdue : dueAtOnce s.now d.anchor = false := by
      rw [← Bool.not_eq_true, dueAtOnce_iff]
      exact fun ⟨due, hdue, _⟩ => hd due hdue
    exact exec_submit_later h (hpasses fun hn => by rw [hdue] at hn; cases hn.2) hslot hdue (acceptEntry_waiting hd)
  case later =>
    have hdue : dueAtOnce s.now d.anchor = false := by rw [hd]; exact hr
    obtain ⟨ahead, behind, haccept, hplace⟩ := acceptEntry_absolute (now := s.now) (p := p) hok hi hd
    exact ⟨ahead, behind, exec_submit_later h (hpasses fun hn => by rw [hdue] at hn; cases hn.2) hslot hdue haccept, hplace⟩
  case now =>
    obtain ⟨ahead, behind, haccept, hsplit, hahead, hbehind⟩ := acceptEntry_absolute (now := s.now) (p := p) hok hi hd
    have hexec := exec_submit_accepted h (hpasses fun hn => by rw [hrun] at hn; cases hn.1) hslot
    rw [runEvent_submitted_now (by rw [hd]; exact hr), haccept, freeSlots_eq] at hexec
    exact ⟨ahead, behind, hsplit, hahead, hbehind, _, hexec, submitState_spec _ i⟩

/-! ### An entry that fires at once -/

/-- A pass that fires once. -/
theorem pass_once {w : Work} (h : reachedHead now w.st.agenda = some i) (hn : reachedHead now (fire now i w).st.agenda = none) :
    pass now w = fire now i w := by
  have hfirings : Config.passFirings = Config.passFirings - 1 + 1 := by simp [Config.passFirings]
  rw [pass, hfirings, passLoop, h]
  exact passLoop_none hn _

theorem accepted_slot (a : Agenda) (st : EntryState) (armed waiting : List SlotNo) :
    (accepted a p d i st armed waiting).slots.get i =
      { gen := (a.slots.get i).gen, entry := some { owner := p, plan := d, runs := d.runs, fired := 0, state := st } } :=
  Table.get_set_self _ _ _

theorem handleOf_accepted (a : Agenda) (st : EntryState) (armed waiting : List SlotNo) :
    handleOf (accepted a p d i st armed waiting) i = handleOf a i := by
  rw [handleOf, accepted_slot]
  rfl

/-- No entry waits on a slot that was FREE. -/
theorem dependents_accepted (ha : a.ok) (hi : (a.slots.get i).entry = none) (st : EntryState) (armed : List SlotNo) :
    dependents (accepted a p d i st armed a.waiting) i = [] := by
  refine List.eq_nil_iff_forall_not_mem.2 fun j hj => ?_
  obtain ⟨hwaiting, e, n, he, hanchor⟩ := mem_dependents.1 hj
  have hne : j ≠ i := fun h => (free_not_mem ha hi).2 (h ▸ hwaiting)
  have hold : (a.slots.get j).entry = some e := (congrArg Slot.entry (Table.get_set_ne _ hne _)).symm.trans he
  obtain ⟨x, hx, hstate⟩ := (ha.waiting j).1 hwaiting
  rw [hold] at hx; cases hx
  obtain ⟨y, hy⟩ := Option.isSome_iff_exists.1 (ha.anchorLive j e (handleOf a i) n hold hstate (by rw [hanchor, handleOf_accepted]))
  have hfree := (liveEntry_some.1 hy).2
  rw [show ((a.slots.get (handleOf a i).slot).entry) = none from hi] at hfree
  cases hfree

/-- Freeing the slot of a new entry leaves the agenda as it was, with the generation advanced. -/
theorem freeSlot_accepted (ha : a.ok) (hi : (a.slots.get i).entry = none) (st : EntryState) :
    freeSlot (accepted a p d i st (i :: a.armed) a.waiting) i =
      { a with slots := a.slots.set i { gen := (a.slots.get i).gen + 1, entry := none } } := by
  obtain ⟨harmed, hwaiting⟩ := free_not_mem ha hi
  have hself : (accepted a p d i st (i :: a.armed) a.waiting).slots.get i =
      { gen := (a.slots.get i).gen, entry := some { owner := p, plan := d, runs := d.runs, fired := 0, state := st } } :=
    accepted_slot _ _ _ _
  have hslots : (accepted a p d i st (i :: a.armed) a.waiting).slots.set i { gen := (a.slots.get i).gen + 1, entry := none } =
      a.slots.set i { gen := (a.slots.get i).gen + 1, entry := none } := Table.set_set _ _ _ _
  have hlist : (i :: a.armed).filter (· ≠ i) = a.armed := by
    rw [List.filter_cons_of_neg (by simp), filter_ne_self harmed]
  have hlive : (a.live.set p (a.live.get p + 1)).set p ((a.live.set p (a.live.get p + 1)).get p - 1) = a.live := by
    rw [PerPort.get_set_self, PerPort.set_set, Nat.add_sub_cancel, PerPort.set_get]
  rw [freeSlot_some (congrArg Slot.entry hself), hself]
  exact congr (congr (congr (congr (congrArg Agenda.mk hslots) hlist) (filter_ne_self hwaiting)) rfl) hlive

/-- With every armed due ahead of the present, a reached due goes to the head of the list. -/
theorem acceptEntry_head (ha : a.ok) (hi : (a.slots.get i).entry = none) (hd : d.anchor = .absolute due)
    (hahead : ∀ j ∈ a.armed, 0 < slotPosition a now j) (hr : reached now due = true) :
    acceptEntry now p d i a = accepted a p d i (.armed .first due due) (i :: a.armed) a.waiting := by
  obtain ⟨ahead, behind, haccept, hsplit, hle, _⟩ := acceptEntry_absolute (now := now) (p := p) ha hi hd
  have hdue := (reached_iff now due).1 hr
  cases ahead with
  | nil => rw [haccept, hsplit]; rfl
  | cons j js =>
    have hlate := hahead j (by rw [hsplit]; simp)
    have hearly := hle j (by simp)
    omega

/-- A list whose dues all lie ahead has no reached head. -/
theorem reachedHead_ahead {b : Agenda} (h : ∀ j ∈ b.armed, 0 < slotPosition b now j) : reachedHead now b = none := by
  rw [Option.eq_none_iff_forall_ne_some]
  intro j hj
  obtain ⟨hhead, x, hx, hr⟩ := reachedHead_some.1 hj
  have hpos := h j (List.mem_of_head? hhead)
  have hle := (reached_iff now x).1 hr
  simp only [slotPosition, hx] at hpos
  omega

/-- The agenda that a new entry leaves when it has fired its only run. -/
def firedAgenda (a : Agenda) (i : SlotNo) : Agenda :=
  { a with slots := a.slots.set i { gen := (a.slots.get i).gen + 1, entry := none } }

theorem reachedHead_fired (ha : a.ok) (hi : (a.slots.get i).entry = none) (hahead : ∀ j ∈ a.armed, 0 < slotPosition a now j) :
    reachedHead now (firedAgenda a i) = none :=
  reachedHead_ahead fun j hj => by
    have hne : j ≠ i := fun h => (free_not_mem ha hi).1 (h ▸ hj)
    rw [slotPosition_congr (Table.get_set_ne _ hne _)]
    exact hahead j hj

theorem free_fired (hi : (a.slots.get i).entry = none) : freeSlots (firedAgenda a i) = {j | (a.slots.get j).entry = none}.ncard := by
  have hset : {j | ((firedAgenda a i).slots.get j).entry = none} = {j | (a.slots.get j).entry = none} := by
    ext j
    show ((a.slots.set i _).get j).entry = none ↔ (a.slots.get j).entry = none
    by_cases hj : j = i
    · subst hj
      rw [Table.get_set_self]
      simp [hi]
    · rw [Table.get_set_ne _ hj]
  rw [freeSlots_eq, hset]

theorem levelAfter_single {action : Action} (h : action = .set ∨ action = .clear ∨ action = .toggle) (phase : Phase) (level : Bool) :
    levelAfter action phase level = if action = .set then true else if action = .clear then false else !level := by
  rcases h with rfl | rfl | rfl <;> rfl

/-- The pass that fires a new entry whose due is reached, where no other due is. -/
theorem pass_accepted (hok : s.agenda.ok) (hi : s.entry i = none) (hahead : ∀ j ∈ s.agenda.armed, 0 < slotPosition s.agenda s.now j)
    (hr : reached s.now due = true) (hruns : d.runs = .left 1)
    (haction : d.action = .set ∨ d.action = .clear ∨ d.action = .toggle) :
    pass s.now (startWork (s.setAgenda (accepted s.agenda p d i (.armed .first due due) (i :: s.agenda.armed) s.agenda.waiting))) =
      { st := (s.setAgenda (firedAgenda s.agenda i)).setOutput d.output { s.output d.output with
          level := levelAfter d.action .first (s.output d.output).level }
        sent := if d.notify = .never then [] else
          [(p, { kind := .entryDone ⟨i, (s.slot i).gen⟩ d.tag (isLate s.now due), time := s.now })] } := by
  have hself : (accepted s.agenda p d i (.armed .first due due) (i :: s.agenda.armed) s.agenda.waiting).slots.get i =
      { gen := (s.slot i).gen
        entry := some { owner := p, plan := d, runs := d.runs, fired := 0, state := .armed .first due due } } :=
    accepted_slot _ _ _ _
  have hhead : reachedHead s.now (accepted s.agenda p d i (.armed .first due due) (i :: s.agenda.armed) s.agenda.waiting) = some i :=
    reachedHead_some.2 ⟨rfl, due, dueOf_some.2 ⟨_, _, _, congrArg Slot.entry hself, rfl⟩, hr⟩
  have hnotPulse : ∀ width, d.action ≠ .pulse width := by
    rintro width h
    rw [h] at haction
    simp at haction
  have hfire : fire s.now i (startWork (s.setAgenda
      (accepted s.agenda p d i (.armed .first due due) (i :: s.agenda.armed) s.agenda.waiting))) =
      { st := (s.setAgenda (firedAgenda s.agenda i)).setOutput d.output { s.output d.output with
          level := levelAfter d.action .first (s.output d.output).level }
        sent := if d.notify = .never then [] else
          [(p, { kind := .entryDone ⟨i, (s.slot i).gen⟩ d.tag (isLate s.now due), time := s.now })] } := by
    rw [fire_completes (w := startWork (s.setAgenda
        (accepted s.agenda p d i (.armed .first due due) (i :: s.agenda.armed) s.agenda.waiting)))
      (e := { owner := p, plan := d, runs := d.runs, fired := 0, state := .armed .first due due })
      (congrArg Slot.entry hself) rfl (fun width h => absurd h (hnotPulse width)) ((congrArg Runs.isLast hruns).trans rfl),
      completeEntry_eq,
      applyLevel_st, State.setOutput_agenda, startWork_st, State.setAgenda_agenda, dependents_accepted hok hi, List.foldl_nil,
      freeSlot_accepted hok hi]
    rw [handleOf_accepted]
    rfl
  have hn : reachedHead s.now (fire s.now i (startWork (s.setAgenda
      (accepted s.agenda p d i (.armed .first due due) (i :: s.agenda.armed) s.agenda.waiting)))).st.agenda = none := by
    rw [hfire]
    exact reachedHead_fired hok hi hahead
  rw [pass_once hhead hn, hfire]

/-- Records sent to one port alone, or none. -/
theorem finishWork_to {w : Work} {ms : List Msg} (h : w.sent = ms.map fun m => (p, m)) :
    finishWork w = w.st.setTransit (w.st.transit.set p (addBatch (w.st.transit.get p) ms)) := by
  rw [finishWork_eq]
  congr 1
  ext q
  rw [PerPort.get_ofFn, PerPort.get_set, h]
  have hbatch : batchFor q (ms.map fun m => (p, m)) = if q = p then ms else [] := by
    unfold batchFor
    by_cases hq : q = p
    · subst hq; simp [List.filter_map, Function.comp_def]
    · have hpq : ¬p = q := fun h => hq h.symm
      simp [hq, hpq]
  rw [hbatch]
  split
  · next hq => rw [hq]
  · rfl

/-- Settles O27. -/
theorem submitFiresAtOnce : Obligations.SubmitFiresAtOnce := by
  unfold Obligations.SubmitFiresAtOnce
  intro s p d f due h hm hf hq hok hahead hd hr hrun hruns haction i hi hlow
  have hdue : dueAtOnce s.now d.anchor = true := by rw [hd]; exact hr
  have hanchor : anchorStale s.agenda d.anchor = false := by rw [hd]; rfl
  have hx : submitRefusal s p d = none :=
    (submitRefusal_space hm hf hanchor hq ⟨i, hi⟩).trans (if_neg fun hn => by rw [hrun] at hn; cases hn.1)
  have hevent : runEvent (submitted p d i) s = (((s.setAgenda (firedAgenda s.agenda i)).setOutput d.output { s.output d.output with
      level := levelAfter d.action .first (s.output d.output).level }).setTransit (s.transit.set p (addBatch (s.transit.get p)
        (if d.notify = .never then [] else
          [{ kind := .entryDone ⟨i, (s.slot i).gen⟩ d.tag (isLate s.now due), time := s.now }])))) := by
    rw [runEvent_submitted_now hdue, acceptEntry_head hok hi hd hahead hr, runEvent,
      pass_accepted hok hi hahead hr hruns haction]
    refine finishWork_to ?_
    split <;> rfl
  have hcompleted : submitState (firedAgenda s.agenda i) i = .completed := by
    have hfree : ((firedAgenda s.agenda i).slots.get i).entry = none := congrArg Slot.entry (Table.get_set_self _ _ _)
    simp only [submitState, hfree]
  rw [levelAfter_single haction] at hevent
  rw [exec_submit_accepted h hx (lowestFree_some.2 ⟨hi, hlow⟩), hevent]
  simp only [State.setTransit_agenda, State.setOutput_agenda, State.setAgenda_agenda, hcompleted, free_fired hi]
  rfl

end Sys2Proof.Machine
end
